-- ==== Sys2Proof/Word.lean ====
section
/-! DEFINITION. The data sizes of the core (spec/20_memory.md R101): words, halfwords and bytes. -/

namespace Sys2Proof

/-- A word, 32 bits (R8): what a register holds and what an address is computed in. -/
abbrev Word := BitVec 32

/-- A halfword, 16 bits (R8): the unit of instruction fetch. -/
abbrev Half := BitVec 16

/-- A byte, 8 bits (R8): the unit of memory. -/
abbrev Byte := BitVec 8

end Sys2Proof
end

