-- ==== Sys2Proof/Config.lean ====
section
/-! DEFINITION. What one implementation fixes (spec/00_scope.md R7: the parameters the source leaves to the
data sheet) and the free values (what the spec calls Unknown). -/

namespace Sys2Proof.Config

/-- The kinds of access a platform can answer with a bus error (20_memory.md R108). -/
inductive AccessKind where
  | read | write | fetch | vector | stack | unstack
  deriving DecidableEq, Repr

/-- One entry of the platform's `BusError` predicate: accesses of one of the kinds `kinds`, of one of the sizes
`bytes` (in bytes), whose address lies in `first`..`last`, are answered with a bus error. -/
structure BusErrorRange where
  first : Nat
  last : Nat
  bytes : List Nat
  kinds : List AccessKind
  deriving DecidableEq, Repr

/-- A range of addresses, both ends included. -/
structure AddrRange where
  first : Nat
  last : Nat
  deriving DecidableEq, Repr

/-- The platform's parameters (00_scope.md R7; 92_eei_decisions.md D2 to D5, D26, D34). They are plain data,
held in State and changed by no step, so that a statement about every state is one about every platform. -/
structure Platform where
  /-- `CLKDIV`, selects SYST_CALIB.TENMS (10_state.md R67). -/
  clkDiv : BitVec 2
  /-- `DEBUGGER_ATTACHED` (44_misc.md R341). -/
  debuggerAttached : Bool
  /-- `IRQ_TRIGGER`: bit m is 1 where line m is a pulse line, 0 where it is level-sensitive (60_exceptions.md R461, R462). -/
  irqPulse : BitVec 9
  /-- `BusError(addr, size, kind)` (20_memory.md R108), as a list of ranges. -/
  busErrors : List BusErrorRange
  /-- The addresses where flash answers (20_memory.md R104). `MEM_AT_ZERO` is flash exactly when address 0 is among them. -/
  flash : List AddrRange
  deriving DecidableEq, Repr

/-- The defaults: CLKDIV 0 (D4), no debugger (D26), line 4 the only pulse line (60_exceptions.md R462, D3), no
bus error (D2) and no address declared to be flash. DESIGN CHOICE for the last two (logs 8 and 9). -/
def Platform.default : Platform :=
  { clkDiv := 0, debuggerAttached := false, irqPulse := 0b000010000#9, busErrors := [], flash := [] }

/-- A free word: a value the spec leaves open. Nothing is known of it. DESIGN CHOICE, safe: log 6. -/
opaque freeWord : Nat → Word

/-- A free bit: a value the spec leaves open. Nothing is known of it. DESIGN CHOICE, safe: log 6. -/
opaque freeBool : Nat → Bool

/-- A free number: a choice among finitely many that the spec leaves open (taken modulo their count).
Nothing is known of it. DESIGN CHOICE, safe: log 6. -/
opaque freeNat : Nat → Nat

end Sys2Proof.Config
end

