-- ==== Sys2Proof/Syntax.lean ====
section
/-! DEFINITION. The instructions: one constructor for each row of spec/opcode_table.json (30_encoding.md
R141, R149 to R157), with the row's operand fields. -/

namespace Sys2Proof

/-- A register field of three bits: R0 to R7 (30_encoding.md R144). -/
abbrev LowReg := BitVec 3

/-- A register field of four bits: R0 to R15; 13 is SP, 14 LR, 15 PC (30_encoding.md R144, R171). -/
abbrev Reg := BitVec 4

/-- A list of low registers: bit i is set when Ri is in it (30_encoding.md R144). -/
abbrev RegList := BitVec 8

/-- The fourteen condition codes of B{cond}, in the order of their numbers 0 to 13 (43_branch.md R325). -/
inductive Cond where
  | eq | ne | cs | cc | mi | pl | vs | vc | hi | ls | ge | lt | gt | le
  deriving DecidableEq, Repr

/-- The special registers MRS and MSR name (44_misc.md R351). -/
inductive SpecialReg where
  | apsr | iapsr | eapsr | psr | ipsr | epsr | iepsr | msp | psp | primask | control
  deriving DecidableEq, Repr

/-- One instruction. Operands stand in the order of the assembler's syntax, destination first (30_encoding.md R172). -/
inductive Instr where
  -- shift by immediate, add, subtract, move, compare (R149)
  | lslsImm (rd rm : LowReg) (imm5 : BitVec 5)
  | movsReg (rd rm : LowReg)
  | lsrsImm (rd rm : LowReg) (imm5 : BitVec 5)
  | asrsImm (rd rm : LowReg) (imm5 : BitVec 5)
  | addsReg (rd rn rm : LowReg)
  | subsReg (rd rn rm : LowReg)
  | addsImm3 (rd rn : LowReg) (imm3 : BitVec 3)
  | subsImm3 (rd rn : LowReg) (imm3 : BitVec 3)
  | movsImm (rd : LowReg) (imm8 : BitVec 8)
  | cmpImm (rn : LowReg) (imm8 : BitVec 8)
  | addsImm8 (rdn : LowReg) (imm8 : BitVec 8)
  | subsImm8 (rdn : LowReg) (imm8 : BitVec 8)
  -- data processing, register (R150)
  | ands (rdn rm : LowReg)
  | eors (rdn rm : LowReg)
  | lslsReg (rdn rs : LowReg)
  | lsrsReg (rdn rs : LowReg)
  | asrsReg (rdn rs : LowReg)
  | adcs (rdn rm : LowReg)
  | sbcs (rdn rm : LowReg)
  | rors (rdn rs : LowReg)
  | tst (rn rm : LowReg)
  | rsbs (rd rn : LowReg)
  | cmpReg (rn rm : LowReg)
  | cmn (rn rm : LowReg)
  | orrs (rdn rm : LowReg)
  | muls (rdm rn : LowReg)
  | bics (rdn rm : LowReg)
  | mvns (rd rm : LowReg)
  -- special data instructions, branch and exchange (R151)
  | addHigh (rdn rm : Reg)
  | cmpHigh (rn rm : Reg)
  | mov (rd rm : Reg)
  | bx (rm : Reg)
  | blx (rm : Reg)
  -- loads and stores (R152)
  | ldrLit (rt : LowReg) (imm8 : BitVec 8)
  | strReg (rt rn rm : LowReg)
  | strhReg (rt rn rm : LowReg)
  | strbReg (rt rn rm : LowReg)
  | ldrsbReg (rt rn rm : LowReg)
  | ldrReg (rt rn rm : LowReg)
  | ldrhReg (rt rn rm : LowReg)
  | ldrbReg (rt rn rm : LowReg)
  | ldrshReg (rt rn rm : LowReg)
  | strImm (rt rn : LowReg) (imm5 : BitVec 5)
  | ldrImm (rt rn : LowReg) (imm5 : BitVec 5)
  | strbImm (rt rn : LowReg) (imm5 : BitVec 5)
  | ldrbImm (rt rn : LowReg) (imm5 : BitVec 5)
  | strhImm (rt rn : LowReg) (imm5 : BitVec 5)
  | ldrhImm (rt rn : LowReg) (imm5 : BitVec 5)
  | strSp (rt : LowReg) (imm8 : BitVec 8)
  | ldrSp (rt : LowReg) (imm8 : BitVec 8)
  -- addresses from PC and SP (R153, R154)
  | adr (rd : LowReg) (imm8 : BitVec 8)
  | addRdSp (rd : LowReg) (imm8 : BitVec 8)
  | addSpImm (imm7 : BitVec 7)
  | subSpImm (imm7 : BitVec 7)
  -- extension and byte reversal (R154)
  | sxth (rd rm : LowReg)
  | sxtb (rd rm : LowReg)
  | uxth (rd rm : LowReg)
  | uxtb (rd rm : LowReg)
  | push (m : Bool) (reglist : RegList)
  | cpsie
  | cpsid
  | rev (rd rm : LowReg)
  | rev16 (rd rm : LowReg)
  | revsh (rd rm : LowReg)
  | pop (p : Bool) (reglist : RegList)
  | bkpt (imm8 : BitVec 8)
  -- hints (R164)
  | nop
  | yield
  | wfe
  | wfi
  | sev
  -- load and store multiple (R155)
  | stm (rn : LowReg) (reglist : RegList)
  | ldm (rn : LowReg) (reglist : RegList)
  -- branches, UDF, SVC (R156)
  | bCond (cond : Cond) (imm8 : BitVec 8)
  | udf (imm8 : BitVec 8)
  | svc (imm8 : BitVec 8)
  | b (imm11 : BitVec 11)
  -- 32-bit instructions (R157); `imm24` is S : I1 : I2 : imm10 : imm11 (R147)
  | bl (imm24 : BitVec 24)
  | msr (spec : SpecialReg) (rn : Reg)
  | mrs (rd : Reg) (spec : SpecialReg)
  | dsb (option : BitVec 4)
  | dmb (option : BitVec 4)
  | isb (option : BitVec 4)
  | udfW (imm16 : BitVec 16)
  deriving DecidableEq, Repr

/-- Whether the instruction is two halfwords long (30_encoding.md R143). -/
def Instr.isLong : Instr → Bool
  | .bl _ | .msr _ _ | .mrs _ _ | .dsb _ | .dmb _ | .isb _ | .udfW _ => true
  | _ => false

end Sys2Proof
end

