-- ==== Sys2Proof/WellFormed.lean ====
section
/-! DEFINITION. Which terms of `Instr` are instructions: the operand combinations that a field can hold and
the spec calls Unpredictable, or gives to another row, are ruled out (spec/30_encoding.md R149, R167). -/

namespace Sys2Proof

/-- A register operand that is neither SP nor PC. -/
def Reg.notSpPc (r : Reg) : Bool := r != 13#4 && r != 15#4

/-- The low registers' numbers are 0 to 7. -/
def Reg.isLow (r : Reg) : Bool := decide (r.toNat < 8)

/-- The instruction is one the encoding can hold and the spec gives a meaning (R167): each arm states the row's constraint. -/
def Instr.wellFormed : Instr → Bool
  | .lslsImm _ _ imm5 => imm5 != 0#5
  | .addHigh rdn rm => !(rdn == 15#4 && rm == 15#4)
  | .cmpHigh rn rm => !(Reg.isLow rn && Reg.isLow rm) && rn != 15#4 && rm != 15#4
  | .bx rm => Reg.notSpPc rm
  | .blx rm => Reg.notSpPc rm
  | .push m reglist => m || reglist != 0#8
  | .pop p reglist => p || reglist != 0#8
  | .stm _ reglist => reglist != 0#8
  | .ldm _ reglist => reglist != 0#8
  | .msr _ rn => Reg.notSpPc rn
  | .mrs rd _ => Reg.notSpPc rd
  | _ => true

end Sys2Proof
end

