-- ==== Sys2Proof/Decode.lean ====
section
/-! DEFINITION. The decoder, total on any halfwords and any bytes, and the encoder (spec/30_encoding.md R142 to
R167). The spec supplies every encoding from general knowledge of ARMv6-M (92_eei_decisions.md D1; log 1). -/

namespace Sys2Proof

/-- Why a pattern is no instruction the model executes. -/
inductive Reject where
  /-- A pattern the spec calls Undefined (R165, R166): executing it raises HardFault. -/
  | undefined
  /-- A should-be-zero or should-be-one bit with the other value (R167). -/
  | shouldBeBits
  /-- LDM, STM, PUSH or POP with an empty register list (R167). -/
  | emptyList
  /-- CMP in the high-register format with two low registers, or with the PC (R167). -/
  | cmpOperands
  /-- ADD PC, PC in the high-register format (R167). -/
  | addPcPc
  /-- BX or BLX with SP or PC (R167). -/
  | bxOperand
  /-- MRS or MSR with SP or PC as the general register (R167). -/
  | msrOperand
  /-- MRS or MSR with a SYSm number that names no register (R167, 44_misc.md R351). -/
  | specialRegister
  /-- An unallocated hint (R164). -/
  | unallocatedHint
  /-- Fewer bytes than the instruction has. -/
  | truncated
  deriving DecidableEq, Repr

/-- What a decoder answers. -/
inductive Decoded where
  | instr (i : Instr)
  | reject (why : Reject)
  deriving DecidableEq, Repr

/-- `i` when `ok` holds, a rejection otherwise. -/
def Decoded.guard (ok : Bool) (why : Reject) (i : Instr) : Decoded :=
  if ok then .instr i else .reject why

/-! ### Fields -/

/-- A three-bit register field whose lowest bit is bit `lo`. -/
def low (w : Half) (lo : Nat) : LowReg := w.extractLsb' lo 3

/-- The four-bit register number made of bit 7 above bits 2..0 (DN:Rdn, N:Rn, D:Rd; R144). -/
def splitReg (w : Half) : Reg := w.extractLsb' 7 1 ++ w.extractLsb' 0 3

/-- The four-bit register field Rm4, bits 6..3. -/
def rm4 (w : Half) : Reg := w.extractLsb' 3 4

/-- The eight-bit field in bits 7..0. -/
def imm8Of (w : Half) : BitVec 8 := w.extractLsb' 0 8

/-- The five-bit field in bits 10..6. -/
def imm5Of (w : Half) : BitVec 5 := w.extractLsb' 6 5

/-- The condition with a given number (43_branch.md R325): numbers 14 and 15 are no condition. -/
def Cond.ofNumber (n : BitVec 4) : Option Cond :=
  match n.toNat with
  | 0 => some .eq | 1 => some .ne | 2 => some .cs | 3 => some .cc
  | 4 => some .mi | 5 => some .pl | 6 => some .vs | 7 => some .vc
  | 8 => some .hi | 9 => some .ls | 10 => some .ge | 11 => some .lt
  | 12 => some .gt | 13 => some .le
  | _ => none

/-- The number of a condition (43_branch.md R325). -/
def Cond.number : Cond → BitVec 4
  | .eq => 0 | .ne => 1 | .cs => 2 | .cc => 3 | .mi => 4 | .pl => 5 | .vs => 6 | .vc => 7
  | .hi => 8 | .ls => 9 | .ge => 10 | .lt => 11 | .gt => 12 | .le => 13

/-- The special register with a given SYSm number (44_misc.md R351). -/
def SpecialReg.ofNumber (n : BitVec 8) : Option SpecialReg :=
  match n.toNat with
  | 0 => some .apsr | 1 => some .iapsr | 2 => some .eapsr | 3 => some .psr
  | 5 => some .ipsr | 6 => some .epsr | 7 => some .iepsr
  | 8 => some .msp | 9 => some .psp | 16 => some .primask | 20 => some .control
  | _ => none

/-- The SYSm number of a special register (44_misc.md R351). -/
def SpecialReg.number : SpecialReg → BitVec 8
  | .apsr => 0 | .iapsr => 1 | .eapsr => 2 | .psr => 3 | .ipsr => 5 | .epsr => 6 | .iepsr => 7
  | .msp => 8 | .psp => 9 | .primask => 16 | .control => 20

/-! ### The 16-bit instructions, by class (R148) -/

/-- Class 00xxxx, by bits 13..11 and 10..9 (R149). LSLS with imm5 = 0 is MOVS Rd, Rm. -/
def decodeShiftAddSub (w : Half) : Decoded :=
  let rd := low w 0
  let rn := low w 3
  let rdn := low w 8
  match (w.extractLsb' 11 3).toNat with
  | 0 => .instr (if imm5Of w = 0#5 then .movsReg rd rn else .lslsImm rd rn (imm5Of w))
  | 1 => .instr (.lsrsImm rd rn (imm5Of w))
  | 2 => .instr (.asrsImm rd rn (imm5Of w))
  | 3 =>
    match (w.extractLsb' 9 2).toNat with
    | 0 => .instr (.addsReg rd rn (low w 6))
    | 1 => .instr (.subsReg rd rn (low w 6))
    | 2 => .instr (.addsImm3 rd rn (w.extractLsb' 6 3))
    | _ => .instr (.subsImm3 rd rn (w.extractLsb' 6 3))
  | 4 => .instr (.movsImm rdn (imm8Of w))
  | 5 => .instr (.cmpImm rdn (imm8Of w))
  | 6 => .instr (.addsImm8 rdn (imm8Of w))
  | _ => .instr (.subsImm8 rdn (imm8Of w))

/-- Class 010000, by op = bits 9..6 (R150): all sixteen are allocated. -/
def decodeDataProcessing (w : Half) : Decoded :=
  let rdn := low w 0
  let rm := low w 3
  match (w.extractLsb' 6 4).toNat with
  | 0 => .instr (.ands rdn rm)
  | 1 => .instr (.eors rdn rm)
  | 2 => .instr (.lslsReg rdn rm)
  | 3 => .instr (.lsrsReg rdn rm)
  | 4 => .instr (.asrsReg rdn rm)
  | 5 => .instr (.adcs rdn rm)
  | 6 => .instr (.sbcs rdn rm)
  | 7 => .instr (.rors rdn rm)
  | 8 => .instr (.tst rdn rm)
  | 9 => .instr (.rsbs rdn rm)
  | 10 => .instr (.cmpReg rdn rm)
  | 11 => .instr (.cmn rdn rm)
  | 12 => .instr (.orrs rdn rm)
  | 13 => .instr (.muls rdn rm)
  | 14 => .instr (.bics rdn rm)
  | _ => .instr (.mvns rdn rm)

/-- Class 010001, by bits 9..8 and, for BX and BLX, bit 7 (R151, R167). -/
def decodeSpecial (w : Half) : Decoded :=
  let rdn := splitReg w
  let rm := rm4 w
  match (w.extractLsb' 8 2).toNat with
  | 0 => .guard (Instr.addHigh rdn rm).wellFormed .addPcPc (.addHigh rdn rm)
  | 1 => .guard (Instr.cmpHigh rdn rm).wellFormed .cmpOperands (.cmpHigh rdn rm)
  | 2 => .instr (.mov rdn rm)
  | _ =>
    if w.extractLsb' 0 3 = 0#3 then
      if w.extractLsb' 7 1 = 0#1 then .guard (Instr.bx rm).wellFormed .bxOperand (.bx rm)
      else .guard (Instr.blx rm).wellFormed .bxOperand (.blx rm)
    else .reject .shouldBeBits

/-- Load/store with register offset, class 0101xx, by opB = bits 11..9 (R152). -/
def decodeLoadStoreReg (w : Half) : Decoded :=
  let rt := low w 0
  let rn := low w 3
  let rm := low w 6
  match (w.extractLsb' 9 3).toNat with
  | 0 => .instr (.strReg rt rn rm)
  | 1 => .instr (.strhReg rt rn rm)
  | 2 => .instr (.strbReg rt rn rm)
  | 3 => .instr (.ldrsbReg rt rn rm)
  | 4 => .instr (.ldrReg rt rn rm)
  | 5 => .instr (.ldrhReg rt rn rm)
  | 6 => .instr (.ldrbReg rt rn rm)
  | _ => .instr (.ldrshReg rt rn rm)

/-- The other loads and stores and the address-generating instructions, by bits 15..11, 01100 to 10101 (R152, R153). -/
def decodeLoadStoreImm (w : Half) : Decoded :=
  let rt := low w 0
  let rn := low w 3
  let rt8 := low w 8
  match (w.extractLsb' 11 5).toNat with
  | 12 => .instr (.strImm rt rn (imm5Of w))
  | 13 => .instr (.ldrImm rt rn (imm5Of w))
  | 14 => .instr (.strbImm rt rn (imm5Of w))
  | 15 => .instr (.ldrbImm rt rn (imm5Of w))
  | 16 => .instr (.strhImm rt rn (imm5Of w))
  | 17 => .instr (.ldrhImm rt rn (imm5Of w))
  | 18 => .instr (.strSp rt8 (imm8Of w))
  | 19 => .instr (.ldrSp rt8 (imm8Of w))
  | 20 => .instr (.adr rt8 (imm8Of w))
  | _ => .instr (.addRdSp rt8 (imm8Of w))

/-- The hints 10111111 opA opB (R164). -/
def decodeHint (w : Half) : Decoded :=
  if w.extractLsb' 0 4 = 0#4 then
    match (w.extractLsb' 4 4).toNat with
    | 0 => .instr .nop
    | 1 => .instr .yield
    | 2 => .instr .wfe
    | 3 => .instr .wfi
    | 4 => .instr .sev
    | _ => .reject .unallocatedHint
  else .reject .undefined

/-- CPS, 10110110 011 im 0010 (R154, R165, R167). -/
def decodeCps (w : Half) : Decoded :=
  if w.extractLsb' 5 3 = 0b011#3 then
    if w.extractLsb' 0 4 = 0b0010#4 then
      .instr (if w.extractLsb' 4 1 = 0#1 then .cpsie else .cpsid)
    else .reject .shouldBeBits
  else .reject .undefined

/-- Class 1011xx, by bits 11..8 (R154, R165). -/
def decodeMisc (w : Half) : Decoded :=
  let rd := low w 0
  let rm := low w 3
  let list := imm8Of w
  match (w.extractLsb' 8 4).toNat with
  | 0 =>
    .instr (if w.extractLsb' 7 1 = 0#1 then .addSpImm (w.extractLsb' 0 7) else .subSpImm (w.extractLsb' 0 7))
  | 2 =>
    match (w.extractLsb' 6 2).toNat with
    | 0 => .instr (.sxth rd rm)
    | 1 => .instr (.sxtb rd rm)
    | 2 => .instr (.uxth rd rm)
    | _ => .instr (.uxtb rd rm)
  | 4 => .guard (Instr.push false list).wellFormed .emptyList (.push false list)
  | 5 => .instr (.push true list)
  | 6 => decodeCps w
  | 10 =>
    match (w.extractLsb' 6 2).toNat with
    | 0 => .instr (.rev rd rm)
    | 1 => .instr (.rev16 rd rm)
    | 2 => .reject .undefined
    | _ => .instr (.revsh rd rm)
  | 12 => .guard (Instr.pop false list).wellFormed .emptyList (.pop false list)
  | 13 => .instr (.pop true list)
  | 14 => .instr (.bkpt list)
  | 15 => decodeHint w
  | _ => .reject .undefined

/-- Classes 11000x and 11001x, load and store multiple (R155, R167). -/
def decodeMultiple (w : Half) : Decoded :=
  let rn := low w 8
  let list := imm8Of w
  if w.extractLsb' 11 1 = 0#1 then .guard (Instr.stm rn list).wellFormed .emptyList (.stm rn list)
  else .guard (Instr.ldm rn list).wellFormed .emptyList (.ldm rn list)

/-- Class 1101xx, by cond = bits 11..8: 14 is UDF, 15 is SVC (R156). -/
def decodeCondBranch (w : Half) : Decoded :=
  match Cond.ofNumber (w.extractLsb' 8 4) with
  | some c => .instr (.bCond c (imm8Of w))
  | none =>
    if w.extractLsb' 8 4 = 14#4 then .instr (.udf (imm8Of w)) else .instr (.svc (imm8Of w))

/-- A halfword that is an instruction by itself, by bits 15..11 (R148). The last three values, first halves of 32-bit
instructions, do not come here (`isLongHalf`). -/
def decode16 (w : Half) : Decoded :=
  match (w.extractLsb' 11 5).toNat with
  | 0 => decodeShiftAddSub w
  | 1 => decodeShiftAddSub w
  | 2 => decodeShiftAddSub w
  | 3 => decodeShiftAddSub w
  | 4 => decodeShiftAddSub w
  | 5 => decodeShiftAddSub w
  | 6 => decodeShiftAddSub w
  | 7 => decodeShiftAddSub w
  | 8 => if w.extractLsb' 10 1 = 0#1 then decodeDataProcessing w else decodeSpecial w
  | 9 => .instr (.ldrLit (low w 8) (imm8Of w))
  | 10 => decodeLoadStoreReg w
  | 11 => decodeLoadStoreReg w
  | 22 => decodeMisc w
  | 23 => decodeMisc w
  | 24 => decodeMultiple w
  | 25 => decodeMultiple w
  | 26 => decodeCondBranch w
  | 27 => decodeCondBranch w
  | 28 => .instr (.b (w.extractLsb' 0 11))
  | 29 => .reject .undefined
  | 30 => .reject .undefined
  | 31 => .reject .undefined
  | _ => decodeLoadStoreImm w

/-! ### The 32-bit instructions (R157, R166, R167) -/

/-- Whether a halfword is the first of two: bits 15..11 are 11101, 11110 or 11111 (R143). -/
def isLongHalf (w : Half) : Bool := decide (29 ≤ (w.extractLsb' 11 5).toNat)

/-- BL: imm24 is S : I1 : I2 : imm10 : imm11, where I1 = NOT (J1 EOR S) and I2 = NOT (J2 EOR S) (R146, R147). -/
def decodeBl (hw1 hw2 : Half) : Decoded :=
  let s := hw1.extractLsb' 10 1
  let i1 := ~~~(hw2.extractLsb' 13 1 ^^^ s)
  let i2 := ~~~(hw2.extractLsb' 11 1 ^^^ s)
  .instr (.bl (s ++ i1 ++ i2 ++ hw1.extractLsb' 0 10 ++ hw2.extractLsb' 0 11))

/-- MSR: the as-drawn bits, then the register names (R157, R167, 44_misc.md R351, R353). -/
def decodeMsr (hw1 hw2 : Half) : Decoded :=
  if hw1.extractLsb' 4 1 = 0#1 ∧ hw2.extractLsb' 8 8 = 0b10001000#8 then
    match SpecialReg.ofNumber (hw2.extractLsb' 0 8) with
    | some sr => .guard (Instr.msr sr (hw1.extractLsb' 0 4)).wellFormed .msrOperand (.msr sr (hw1.extractLsb' 0 4))
    | none => .reject .specialRegister
  else .reject .shouldBeBits

/-- MRS: the as-drawn bits, then the register names (R157, R167, 44_misc.md R350, R351). -/
def decodeMrs (hw1 hw2 : Half) : Decoded :=
  if hw1.extractLsb' 0 5 = 0b01111#5 ∧ hw2.extractLsb' 12 4 = 0b1000#4 then
    match SpecialReg.ofNumber (hw2.extractLsb' 0 8) with
    | some sr => .guard (Instr.mrs (hw2.extractLsb' 8 4) sr).wellFormed .msrOperand (.mrs (hw2.extractLsb' 8 4) sr)
    | none => .reject .specialRegister
  else .reject .shouldBeBits

/-- DSB, DMB and ISB by op = hw2[7:4]; any other op is Undefined (R157, R166). -/
def decodeBarrier (hw1 hw2 : Half) : Decoded :=
  let drawn := decide (hw1.extractLsb' 0 4 = 0b1111#4 ∧ hw2.extractLsb' 8 8 = 0b10001111#8)
  let opt := hw2.extractLsb' 0 4
  match (hw2.extractLsb' 4 4).toNat with
  | 4 => .guard drawn .shouldBeBits (.dsb opt)
  | 5 => .guard drawn .shouldBeBits (.dmb opt)
  | 6 => .guard drawn .shouldBeBits (.isb opt)
  | _ => .reject .undefined

/-- Two halfwords, the first with `isLongHalf` (R157). Everything no row selects is Undefined (R166). -/
def decode32 (hw1 hw2 : Half) : Decoded :=
  if hw1.extractLsb' 11 5 = 0b11110#5 then
    if hw2.extractLsb' 14 2 = 0b11#2 ∧ hw2.extractLsb' 12 1 = 1#1 then decodeBl hw1 hw2
    else if hw2.extractLsb' 14 2 = 0b10#2 ∧ hw2.extractLsb' 12 1 = 0#1 ∧ hw1.extractLsb' 5 6 = 0b011100#6 then
      decodeMsr hw1 hw2
    else if hw2.extractLsb' 14 2 = 0b10#2 ∧ hw2.extractLsb' 12 1 = 0#1 ∧ hw1.extractLsb' 5 6 = 0b011111#6 then
      decodeMrs hw1 hw2
    else if hw2.extractLsb' 14 2 = 0b10#2 ∧ hw2.extractLsb' 12 1 = 0#1 ∧ hw1.extractLsb' 4 7 = 0b0111011#7 then
      decodeBarrier hw1 hw2
    else if hw1.extractLsb' 4 7 = 0b1111111#7 ∧ hw2.extractLsb' 12 4 = 0b1010#4 then
      .instr (.udfW (hw1.extractLsb' 0 4 ++ hw2.extractLsb' 0 12))
    else .reject .undefined
  else .reject .undefined

/-- The instruction of two consecutive halfwords; the second counts only where the first says so (R143). -/
def decode (hw1 hw2 : Half) : Decoded :=
  if isLongHalf hw1 then decode32 hw1 hw2 else decode16 hw1

/-- The instruction at the head of a list of bytes, in ascending address order, little-endian (R142),
with the bytes that follow it. -/
def decodeBytes : List Byte → Decoded × List Byte
  | b0 :: b1 :: rest =>
    let hw1 : Half := b1 ++ b0
    if isLongHalf hw1 then
      match rest with
      | b2 :: b3 :: rest' => (decode32 hw1 (b3 ++ b2), rest')
      | _ => (.reject .truncated, rest)
    else (decode16 hw1, rest)
  | bytes => (.reject .truncated, bytes)

/-- The bytes of halfwords as the hardware stores them, the first at the lowest address, each little-endian (R142). -/
def bytesOfHalves : List Half → List Byte
  | [] => []
  | h :: hs => h.extractLsb' 0 8 :: h.extractLsb' 8 8 :: bytesOfHalves hs

/-- The two halfwords of an opcode-table word of `nbits` bits. A 32-bit row of the table is hw1 : hw2 with hw1 in
bits 31..16 (R142 and the table's own match values). A 32-bit word whose upper half cannot be a
first halfword is read with its first halfword in bits 15..0 (log 34). The bits above `nbits` are 0. -/
def tableHalves (nbits w : Nat) : Half × Half :=
  let v : Word := BitVec.ofNat 32 (w % 2 ^ nbits)
  let hi : Half := v.extractLsb' 16 16
  let lo : Half := v.extractLsb' 0 16
  if 16 < nbits ∧ isLongHalf hi then (hi, lo) else (lo, hi)

/-- The instruction the decoder reads from the opcode-table word `w` of `nbits` bits, laid out in bytes as the hardware
stores it; none where it refuses. -/
def decodeTableWord (nbits w : Nat) : Option Instr :=
  let h := tableHalves nbits w
  match (decodeBytes (bytesOfHalves [h.1, h.2])).1 with
  | .instr i => some i
  | .reject _ => none

/-! ### The encoder (R145, R146, R149 to R157) -/

/-- The bit of PUSH's M and POP's P. -/
def bitOf (b : Bool) : BitVec 1 := if b then 1#1 else 0#1

/-- HIREG: 010001 op DN Rm4 Rdn (R145). -/
def hireg (op : BitVec 2) (rdn rm : Reg) : Half :=
  0b010001#6 ++ op ++ rdn.extractLsb' 3 1 ++ rm ++ rdn.extractLsb' 0 3

/-- DP: 010000 op Rm Rdn (R145). -/
def dpFormat (op : BitVec 4) (rdn rm : LowReg) : Half := 0b010000#6 ++ op ++ rm ++ rdn

/-- SHIFT_IMM and LS_IMM5: op imm5 Rm Rd (R145). -/
def imm5Format (op : BitVec 5) (rd rm : LowReg) (imm5 : BitVec 5) : Half := op ++ imm5 ++ rm ++ rd

/-- ADDSUB3 and LS_REG: op Rm Rn Rd (R145). -/
def threeRegFormat (op : BitVec 7) (rd rn rm : BitVec 3) : Half := op ++ rm ++ rn ++ rd

/-- IMM8: op Rd imm8 (R145). -/
def imm8Format (op : BitVec 5) (rd : LowReg) (imm8 : BitVec 8) : Half := op ++ rd ++ imm8

/-- EXTEND and REVERSE: 1011 x010 op Rm Rd (R145). -/
def twoRegFormat (op : BitVec 10) (rd rm : LowReg) : Half := op ++ rm ++ rd

/-- The halfwords of an instruction, first halfword first. -/
def encode : Instr → List Half
  | .lslsImm rd rm imm5 => [imm5Format 0b00000#5 rd rm imm5]
  | .movsReg rd rm => [imm5Format 0b00000#5 rd rm 0#5]
  | .lsrsImm rd rm imm5 => [imm5Format 0b00001#5 rd rm imm5]
  | .asrsImm rd rm imm5 => [imm5Format 0b00010#5 rd rm imm5]
  | .addsReg rd rn rm => [threeRegFormat 0b0001100#7 rd rn rm]
  | .subsReg rd rn rm => [threeRegFormat 0b0001101#7 rd rn rm]
  | .addsImm3 rd rn imm3 => [threeRegFormat 0b0001110#7 rd rn imm3]
  | .subsImm3 rd rn imm3 => [threeRegFormat 0b0001111#7 rd rn imm3]
  | .movsImm rd imm8 => [imm8Format 0b00100#5 rd imm8]
  | .cmpImm rn imm8 => [imm8Format 0b00101#5 rn imm8]
  | .addsImm8 rdn imm8 => [imm8Format 0b00110#5 rdn imm8]
  | .subsImm8 rdn imm8 => [imm8Format 0b00111#5 rdn imm8]
  | .ands rdn rm => [dpFormat 0b0000#4 rdn rm]
  | .eors rdn rm => [dpFormat 0b0001#4 rdn rm]
  | .lslsReg rdn rs => [dpFormat 0b0010#4 rdn rs]
  | .lsrsReg rdn rs => [dpFormat 0b0011#4 rdn rs]
  | .asrsReg rdn rs => [dpFormat 0b0100#4 rdn rs]
  | .adcs rdn rm => [dpFormat 0b0101#4 rdn rm]
  | .sbcs rdn rm => [dpFormat 0b0110#4 rdn rm]
  | .rors rdn rs => [dpFormat 0b0111#4 rdn rs]
  | .tst rn rm => [dpFormat 0b1000#4 rn rm]
  | .rsbs rd rn => [dpFormat 0b1001#4 rd rn]
  | .cmpReg rn rm => [dpFormat 0b1010#4 rn rm]
  | .cmn rn rm => [dpFormat 0b1011#4 rn rm]
  | .orrs rdn rm => [dpFormat 0b1100#4 rdn rm]
  | .muls rdm rn => [dpFormat 0b1101#4 rdm rn]
  | .bics rdn rm => [dpFormat 0b1110#4 rdn rm]
  | .mvns rd rm => [dpFormat 0b1111#4 rd rm]
  | .addHigh rdn rm => [hireg 0b00#2 rdn rm]
  | .cmpHigh rn rm => [hireg 0b01#2 rn rm]
  | .mov rd rm => [hireg 0b10#2 rd rm]
  | .bx rm => [0b010001110#9 ++ rm ++ 0b000#3]
  | .blx rm => [0b010001111#9 ++ rm ++ 0b000#3]
  | .ldrLit rt imm8 => [imm8Format 0b01001#5 rt imm8]
  | .strReg rt rn rm => [threeRegFormat 0b0101000#7 rt rn rm]
  | .strhReg rt rn rm => [threeRegFormat 0b0101001#7 rt rn rm]
  | .strbReg rt rn rm => [threeRegFormat 0b0101010#7 rt rn rm]
  | .ldrsbReg rt rn rm => [threeRegFormat 0b0101011#7 rt rn rm]
  | .ldrReg rt rn rm => [threeRegFormat 0b0101100#7 rt rn rm]
  | .ldrhReg rt rn rm => [threeRegFormat 0b0101101#7 rt rn rm]
  | .ldrbReg rt rn rm => [threeRegFormat 0b0101110#7 rt rn rm]
  | .ldrshReg rt rn rm => [threeRegFormat 0b0101111#7 rt rn rm]
  | .strImm rt rn imm5 => [imm5Format 0b01100#5 rt rn imm5]
  | .ldrImm rt rn imm5 => [imm5Format 0b01101#5 rt rn imm5]
  | .strbImm rt rn imm5 => [imm5Format 0b01110#5 rt rn imm5]
  | .ldrbImm rt rn imm5 => [imm5Format 0b01111#5 rt rn imm5]
  | .strhImm rt rn imm5 => [imm5Format 0b10000#5 rt rn imm5]
  | .ldrhImm rt rn imm5 => [imm5Format 0b10001#5 rt rn imm5]
  | .strSp rt imm8 => [imm8Format 0b10010#5 rt imm8]
  | .ldrSp rt imm8 => [imm8Format 0b10011#5 rt imm8]
  | .adr rd imm8 => [imm8Format 0b10100#5 rd imm8]
  | .addRdSp rd imm8 => [imm8Format 0b10101#5 rd imm8]
  | .addSpImm imm7 => [0b101100000#9 ++ imm7]
  | .subSpImm imm7 => [0b101100001#9 ++ imm7]
  | .sxth rd rm => [twoRegFormat 0b1011001000#10 rd rm]
  | .sxtb rd rm => [twoRegFormat 0b1011001001#10 rd rm]
  | .uxth rd rm => [twoRegFormat 0b1011001010#10 rd rm]
  | .uxtb rd rm => [twoRegFormat 0b1011001011#10 rd rm]
  | .push m reglist => [0b1011010#7 ++ bitOf m ++ reglist]
  | .cpsie => [0xB662#16]
  | .cpsid => [0xB672#16]
  | .rev rd rm => [twoRegFormat 0b1011101000#10 rd rm]
  | .rev16 rd rm => [twoRegFormat 0b1011101001#10 rd rm]
  | .revsh rd rm => [twoRegFormat 0b1011101011#10 rd rm]
  | .pop p reglist => [0b1011110#7 ++ bitOf p ++ reglist]
  | .bkpt imm8 => [0b10111110#8 ++ imm8]
  | .nop => [0xBF00#16]
  | .yield => [0xBF10#16]
  | .wfe => [0xBF20#16]
  | .wfi => [0xBF30#16]
  | .sev => [0xBF40#16]
  | .stm rn reglist => [imm8Format 0b11000#5 rn reglist]
  | .ldm rn reglist => [imm8Format 0b11001#5 rn reglist]
  | .bCond c imm8 => [0b1101#4 ++ c.number ++ imm8]
  | .udf imm8 => [0b11011110#8 ++ imm8]
  | .svc imm8 => [0b11011111#8 ++ imm8]
  | .b imm11 => [0b11100#5 ++ imm11]
  | .bl imm24 =>
    let s := imm24.extractLsb' 23 1
    let j1 := ~~~(imm24.extractLsb' 22 1 ^^^ s)
    let j2 := ~~~(imm24.extractLsb' 21 1 ^^^ s)
    [0b11110#5 ++ s ++ imm24.extractLsb' 11 10, 0b11#2 ++ j1 ++ 1#1 ++ j2 ++ imm24.extractLsb' 0 11]
  | .msr sr rn => [0b111100111000#12 ++ rn, 0b10001000#8 ++ sr.number]
  | .mrs rd sr => [0xF3EF#16, 0b1000#4 ++ rd ++ sr.number]
  | .dsb opt => [0xF3BF#16, 0b100011110100#12 ++ opt]
  | .dmb opt => [0xF3BF#16, 0b100011110101#12 ++ opt]
  | .isb opt => [0xF3BF#16, 0b100011110110#12 ++ opt]
  | .udfW imm16 => [0b111101111111#12 ++ imm16.extractLsb' 12 4, 0b1010#4 ++ imm16.extractLsb' 0 12]

end Sys2Proof
end

