-- ==== Sys2Proof/Machine/Memory.lean ====
section
/-! DEFINITION. Memory as plain data: the bytes of the 4 GB space that do not read as `blankByte`, by rising
address (spec/20_memory.md R100, R101, R105). -/

namespace Sys2Proof.Machine

/-- Memory: (address, byte) pairs in one canonical form, see `Memory.wf`. -/
abbrev Memory := List Host.Cell

/-- What a byte of memory that nothing has written reads as. The spec: RAM after power-up is Unknown (U1) and the contents of flash are
not said. DESIGN CHOICE, unsafe: log 3. -/
def blankByte : Byte := 0#8

/-- The number of addresses (R100). -/
def addressSpace : Nat := 2 ^ 32

/-- Every listed address is above `lo` (when there is a `lo`), addresses rise strictly, are addresses of the space, and no
listed byte is what an unlisted address reads as. -/
def Memory.sortedAbove : Option Nat → Memory → Bool
  | _, [] => true
  | lo, (a, v) :: m =>
    (match lo with
      | none => true
      | some l => decide (l < a))
    && decide (a < addressSpace) && v != blankByte && Memory.sortedAbove (some a) m

/-- The canonical form. -/
def Memory.wf (m : Memory) : Bool := Memory.sortedAbove none m

/-- The byte at an address. -/
def Memory.read : Memory → Nat → Byte
  | [], _ => blankByte
  | (b, v) :: m, a => if a = b then v else Memory.read m a

/-- List a byte at its place, in place of what was listed there. -/
def Memory.insert : Memory → Nat → Byte → Memory
  | [], a, v => [(a, v)]
  | (b, w) :: m, a, v =>
    if a < b then (a, v) :: (b, w) :: m
    else if a = b then (a, v) :: m
    else (b, w) :: Memory.insert m a v

/-- Take the entry of an address away. -/
def Memory.erase : Memory → Nat → Memory
  | [], _ => []
  | (b, w) :: m, a => if a = b then m else (b, w) :: Memory.erase m a

/-- Write one byte, keeping the canonical form. An address outside the space is no address: nothing is written. -/
def Memory.write (m : Memory) (a : Nat) (v : Byte) : Memory :=
  if a < addressSpace then
    if v = blankByte then m.erase a else m.insert a v
  else m

/-- The halfword at an address, little-endian (R105). -/
def Memory.readHalf (m : Memory) (a : Nat) : Half := m.read (a + 1) ++ m.read a

/-- The word at an address, little-endian (R105). -/
def Memory.readWord (m : Memory) (a : Nat) : Word :=
  m.read (a + 3) ++ m.read (a + 2) ++ m.read (a + 1) ++ m.read a

/-- Write a halfword, little-endian (R105). -/
def Memory.writeHalf (m : Memory) (a : Nat) (v : Half) : Memory :=
  (m.write a (v.extractLsb' 0 8)).write (a + 1) (v.extractLsb' 8 8)

/-- Write a word, little-endian (R105). -/
def Memory.writeWord (m : Memory) (a : Nat) (v : Word) : Memory :=
  (((m.write a (v.extractLsb' 0 8)).write (a + 1) (v.extractLsb' 8 8)).write
    (a + 2) (v.extractLsb' 16 8)).write (a + 3) (v.extractLsb' 24 8)

end Sys2Proof.Machine
end

