-- ==== Sys2Proof/Machine/State.lean ====
section
/-! DEFINITION. The state of the machine as plain data (spec/10_state.md; INVENTORY.md lists every field), the reasons a
step can stop, and the state after reset. -/

namespace Sys2Proof.Machine

/-- The condition flags, APSR bits 31..28 (10_state.md R31). -/
structure Flags where
  n : Bool
  z : Bool
  c : Bool
  v : Bool
  deriving DecidableEq, Repr

/-- The exceptions that have a pending and an active bit (10_state.md R39): numbers 2, 3, 11, 14, 15 and 16 to 24. Reset (1) has neither,
and the reserved numbers stand for nothing (93_implementation_defined.md U4). -/
inductive Exc where
  | nmi | hardFault | svCall | pendSV | sysTick
  | irq (m : Fin 9)
  deriving DecidableEq, Repr

/-- One bit for each exception. -/
structure ExcSet where
  nmi : Bool
  hardFault : Bool
  svCall : Bool
  pendSV : Bool
  sysTick : Bool
  irq : BitVec 9
  deriving DecidableEq, Repr

/-- The SysTick timer's registers (10_state.md R64 to R66). -/
structure SysTick where
  enable : Bool
  tickInt : Bool
  clkSource : Bool
  countFlag : Bool
  reload : BitVec 24
  current : BitVec 24
  deriving DecidableEq, Repr

/-- One turn of the schedule: who moves next (00_scope.md R18; log 11). -/
inductive Turn where
  /-- The processor makes one step (60_exceptions.md R413). -/
  | processor
  /-- The interrupt lines and the NMI line take these levels and are sampled (R460, R466). -/
  | lines (irq : BitVec 9) (nmi : Bool)
  /-- One clock of the SysTick timer (R470). -/
  | tick
  /-- A reset between two steps (70_reset_and_hazards.md R500, R501). -/
  | reset
  /-- A reset that strikes in the middle of what the processor does next (R502). -/
  | resetMidStep
  /-- A spurious wake-up (60_exceptions.md R482). -/
  | wake
  /-- A Debug Entry request; an attached debugger halts the core (R447, R482, R485). -/
  | debugEntry
  deriving DecidableEq, Repr

/-- The whole machine. Every field is plain data; INVENTORY.md names the rule and the reset value of each. -/
structure State where
  /-- R0 to R12 (10_state.md R21). -/
  r : Vector Word 13
  /-- The main stack pointer (R22 to R24). -/
  msp : Word
  /-- The process stack pointer (R22 to R24). -/
  psp : Word
  /-- The link register, R14 (R25). -/
  lr : Word
  /-- The address of the instruction to execute (R26). -/
  pc : Word
  /-- N, Z, C, V (R31). -/
  flags : Flags
  /-- EPSR.T (R33). -/
  tbit : Bool
  /-- IPSR, the number of the exception being handled, 0 in Thread mode (R32). -/
  ipsr : BitVec 6
  /-- PRIMASK.PM (R36). -/
  primask : Bool
  /-- CONTROL.SPSEL (R37). -/
  spsel : Bool
  /-- The pending bits (R39). -/
  pending : ExcSet
  /-- The active bits (R39). -/
  active : ExcSet
  /-- The enable bit of each interrupt, ISER and ICER (R44, R45). -/
  irqEnable : BitVec 9
  /-- The priority of each interrupt, bits 7..6 of its IPR field (R48). -/
  irqPrio : Vector (BitVec 2) 9
  /-- The priority of SVCall, SHPR2 bits 31..30 (R62). -/
  prioSVCall : BitVec 2
  /-- The priority of PendSV, SHPR3 bits 23..22 (R62). -/
  prioPendSV : BitVec 2
  /-- The priority of SysTick, SHPR3 bits 31..30 (R62). -/
  prioSysTick : BitVec 2
  /-- SCR.SEVONPEND (R60). -/
  sevOnPend : Bool
  /-- SCR.SLEEPDEEP (R60). -/
  sleepDeep : Bool
  /-- SCR.SLEEPONEXIT (R60). -/
  sleepOnExit : Bool
  /-- The SysTick registers (R63 to R66). -/
  sysTick : SysTick
  /-- The previously sampled level of each interrupt line (R40, 60_exceptions.md R460). -/
  irqPrev : BitVec 9
  /-- The previously sampled level of the NMI line (60_exceptions.md R466). -/
  nmiPrev : Bool
  /-- The processor sleeps (60_exceptions.md R480). -/
  sleeping : Bool
  /-- The processor is locked up (60_exceptions.md R445). -/
  lockup : Bool
  /-- AIRCR.SYSRESETREQ has been written (R57). -/
  resetRequested : Bool
  /-- Memory (20_memory.md R100). -/
  mem : Memory
  /-- The levels of the interrupt lines, an input (60_exceptions.md R460). -/
  irqLine : BitVec 9
  /-- The level of the NMI line, an input (60_exceptions.md R466). -/
  nmiLine : Bool
  /-- The MODEL's own: a debugger has halted the core (44_misc.md R341, 60_exceptions.md R485; log 22). -/
  halted : Bool
  /-- The MODEL's own: the halfwords overwritten since fetches were last synchronised, newest first, each with its
  address and what it was (20_memory.md R128; log 15). -/
  stale : List (Nat × Half)
  /-- The MODEL's own: `none`, but while a reset in the middle of a step is worked out: then the addresses of the bytes
  that step has stored to (70_reset_and_hazards.md R502; log 14). -/
  storeTrace : Option (List Nat)
  /-- The MODEL's own: the turns to come; when there is none, the processor moves (log 11). -/
  schedule : List Turn
  /-- The platform's parameters, changed by nothing (00_scope.md R7; logs 7 to 9). -/
  platform : Config.Platform
  /-- The MODEL's own: how many free values have been drawn (log 6). -/
  freeCount : Nat
  deriving DecidableEq, Repr

/-- The reasons for which the machine stops. All are accesses to an address the core's map gives no register to, or that
the map does not allow. Safe: nothing can be proved past one. -/
inductive Fault where
  /-- Raised by a load, store or stack access: an aligned byte or halfword access to the Private Peripheral Bus. The spec gives it no
  behaviour (10_state.md R42, D8). Safe. -/
  | ppbNarrowAccess (address : Nat)
  /-- Raised by a load, store or stack access: a word access to an address of the Private Peripheral Bus that holds no register (10_state.md
  R42, D10). Safe. -/
  | ppbNoRegister (address : Nat)
  deriving DecidableEq, Repr

/-- The reasons for which the model has no meaning for what comes next. Each is safe: nothing can be proved past one. -/
inductive Refusal where
  /-- Raised by exec for an instruction without a meaning. Safe. -/
  | notModelled (mnemonic : String)
  /-- Raised by a step: the encoding is Unpredictable, or an unallocated hint (30_encoding.md R164, R167). Safe. -/
  | unpredictableEncoding (why : Reject)
  /-- Raised by YIELD, which is not in the source's instruction list (44_misc.md R366, D22). Safe. -/
  | yieldNotInSource
  /-- Raised by WFE: "not supported and must not be used" (44_misc.md R366, D22). Safe. -/
  | wfeNotSupported
  /-- Raised by SEV: "not supported and must not be used" (44_misc.md R366, D22). Safe. -/
  | sevNotSupported
  /-- Raised by a store to ICSR that sets and clears one pending bit: Unpredictable (10_state.md R54). Safe. -/
  | icsrSetAndClear
  /-- Raised by a store to AIRCR with the key and VECTCLRACTIVE = 1: Unpredictable (10_state.md R57). Safe. -/
  | aircrVectClrActive
  /-- Raised by POP and BX in Handler mode: a reserved EXC_RETURN value (60_exceptions.md R430, R432). Safe. -/
  | reservedExcReturn
  /-- Raised by POP and BX in Handler mode: an EXC_RETURN value or a stacked IPSR that does not fit the active
  exceptions (60_exceptions.md R432). Safe. -/
  | inconsistentExcReturn
  /-- Raised by a store or a stack access to an address that the platform declares to be flash: what it does is the platform's (20_memory.md
  R104). Safe. -/
  | storeToFlash
  /-- Raised by a reset on a platform that answers the read of address 0 or 4 with a bus error (70_reset_and_hazards.md
  R503, D33). Safe. -/
  | resetVectorBusError
  deriving DecidableEq, Repr

/-- No exception's bit is set. -/
def ExcSet.none : ExcSet :=
  { nmi := false, hardFault := false, svCall := false, pendSV := false, sysTick := false, irq := 0 }

/-- The machine right after reset, with nothing in memory (10_state.md R68, 70_reset_and_hazards.md R500). The MSP, the pc and T come from the
words at addresses 0 and 4, which read as 0 here (log 3). Where the spec says Unknown, 0: DESIGN CHOICE, unsafe, log 4. -/
def State.reset : State :=
  { r := Vector.replicate 13 0
    msp := 0, psp := 0, lr := 0, pc := 0
    flags := { n := false, z := false, c := false, v := false }
    tbit := false, ipsr := 0, primask := false, spsel := false
    pending := ExcSet.none, active := ExcSet.none
    irqEnable := 0, irqPrio := Vector.replicate 9 0
    prioSVCall := 0, prioPendSV := 0, prioSysTick := 0
    sevOnPend := false, sleepDeep := false, sleepOnExit := false
    sysTick :=
      { enable := false, tickInt := false, clkSource := false, countFlag := false, reload := 0, current := 0 }
    irqPrev := 0, nmiPrev := false
    sleeping := false, lockup := false, resetRequested := false
    mem := []
    irqLine := 0, nmiLine := false
    halted := false, stale := [], storeTrace := none, schedule := []
    platform := Config.Platform.default
    freeCount := 0 }

/-- One of the two modes (10_state.md R38, 60_exceptions.md R400). -/
inductive Mode where
  | thread | handler
  deriving DecidableEq, Repr

/-- What a step or an instruction answers. -/
abbrev Outcome := Host.Outcome State Fault Refusal

end Sys2Proof.Machine
end

