-- ==== Sys2Proof/Machine/Registers.lean ====
section
/-! DEFINITION. The exceptions' numbers and bits, the core registers through one operation each, priorities and the choice
among pending exceptions (spec/10_state.md part 1 and 2, spec/60_exceptions.md R403 to R412). -/

namespace Sys2Proof.Machine

/-! ### Exceptions and their bits -/

/-- The exception number (60_exceptions.md R403). -/
def Exc.number : Exc → BitVec 6
  | .nmi => 2
  | .hardFault => 3
  | .svCall => 11
  | .pendSV => 14
  | .sysTick => 15
  | .irq m => BitVec.ofNat 6 (16 + m.val)

/-- Every exception with a pending and an active bit, by rising number (10_state.md R39). -/
def Exc.all : List Exc :=
  [.nmi, .hardFault, .svCall, .pendSV, .sysTick,
    .irq 0, .irq 1, .irq 2, .irq 3, .irq 4, .irq 5, .irq 6, .irq 7, .irq 8]

/-- The exception with a number, where there is one. -/
def Exc.ofNumber (n : BitVec 6) : Option Exc := Exc.all.find? fun e => e.number == n

/-- The bit of an exception. -/
def ExcSet.get (x : ExcSet) : Exc → Bool
  | .nmi => x.nmi
  | .hardFault => x.hardFault
  | .svCall => x.svCall
  | .pendSV => x.pendSV
  | .sysTick => x.sysTick
  | .irq m => x.irq.getLsbD m.val

/-- The nine bits with bit m made b. -/
def setIrqBit (x : BitVec 9) (m : Fin 9) (b : Bool) : BitVec 9 :=
  if b then x ||| (1#9 <<< m.val) else x &&& ~~~(1#9 <<< m.val)

/-- The set with the bit of one exception made b. -/
def ExcSet.set (x : ExcSet) (e : Exc) (b : Bool) : ExcSet :=
  match e with
  | .nmi => { x with nmi := b }
  | .hardFault => { x with hardFault := b }
  | .svCall => { x with svCall := b }
  | .pendSV => { x with pendSV := b }
  | .sysTick => { x with sysTick := b }
  | .irq m => { x with irq := setIrqBit x.irq m b }

/-- How many exceptions have their bit set. -/
def ExcSet.count (x : ExcSet) : Nat := Exc.all.countP fun e => x.get e

/-! ### Core registers -/

/-- The mode: Thread exactly when IPSR is 0 (10_state.md R38, 60_exceptions.md R400). -/
def State.mode (s : State) : Mode := if s.ipsr = 0#6 then .thread else .handler

/-- Whether R13 is the process stack pointer (10_state.md R23). -/
def State.usesPsp (s : State) : Bool := s.spsel && decide (s.mode = .thread)

/-- A value with bits [1:0] cleared: what a stack pointer holds after a write of it (10_state.md R24). -/
def alignSp (v : Word) : Word := v &&& 0xFFFFFFFC#32

/-- A value with bit 0 cleared: a halfword-aligned address (10_state.md R26). -/
def alignPc (v : Word) : Word := v &&& 0xFFFFFFFE#32

/-- R13, the current stack pointer (10_state.md R23). -/
def State.sp (s : State) : Word := if s.usesPsp then s.psp else s.msp

/-- Write the main stack pointer; its low two bits stay 0 (10_state.md R24). -/
def State.setMsp (s : State) (v : Word) : State := { s with msp := alignSp v }

/-- Write the process stack pointer; its low two bits stay 0 (10_state.md R24). -/
def State.setPsp (s : State) (v : Word) : State := { s with psp := alignSp v }

/-- Write R13, the current stack pointer (10_state.md R23, R24). -/
def State.setSp (s : State) (v : Word) : State := if s.usesPsp then s.setPsp v else s.setMsp v

/-- `R[n]` read by an instruction (00_scope.md R9): R13 is the current stack pointer, R14 LR, and R15 reads as the instruction's address
plus 4 (10_state.md R28). -/
def State.readReg (s : State) (n : Reg) : Word :=
  if n = 13#4 then s.sp
  else if n = 14#4 then s.lr
  else if n = 15#4 then s.pc + 4#32
  else (s.r[n.toNat]?).getD 0#32

/-- `R[n] <- v` (00_scope.md R9). The PC is never written this way: for n = 15 nothing happens. -/
def State.writeReg (s : State) (n : Reg) (v : Word) : State :=
  if n = 13#4 then s.setSp v
  else if n = 14#4 then { s with lr := v }
  else { s with r := s.r.setIfInBounds n.toNat v }

/-- A low register's number as a register number. -/
def LowReg.toReg (n : LowReg) : Reg := BitVec.setWidth 4 n

/-- `R[n]` for a low register. -/
def State.readLow (s : State) (n : LowReg) : Word := s.readReg (LowReg.toReg n)

/-- `R[n] <- v` for a low register. -/
def State.writeLow (s : State) (n : LowReg) (v : Word) : State := s.writeReg (LowReg.toReg n) v

/-- Set the flags. -/
def State.setFlags (s : State) (f : Flags) : State := { s with flags := f }

/-- The pc moves past an instruction of `n` bytes (10_state.md R29). -/
def State.advance (s : State) (n : Nat) : State := { s with pc := s.pc + BitVec.ofNat 32 n }

/-- `BranchTo(addr)` (43_branch.md R320): nothing but the pc changes. -/
def State.branchTo (s : State) (a : Word) : State := { s with pc := a }

/-- The next free word, and the state that has drawn it (log 6). -/
def State.drawWord (s : State) : Word × State :=
  (Config.freeWord s.freeCount, { s with freeCount := s.freeCount + 1 })

/-! ### Priorities and selection -/

/-- Whether an exception is enabled: the interrupts by their enable bit, the others always (60_exceptions.md R406). -/
def State.excEnabled (s : State) : Exc → Bool
  | .irq m => s.irqEnable.getLsbD m.val
  | _ => true

/-- The priority value of a two-bit priority field (10_state.md R48, R62): 0, 64, 128 or 192. -/
def prioValue (p : BitVec 2) : Int := 64 * (p.toNat : Int)

/-- `prio(n)` (60_exceptions.md R410). -/
def State.prio (s : State) : Exc → Int
  | .nmi => -2
  | .hardFault => -1
  | .svCall => prioValue s.prioSVCall
  | .pendSV => prioValue s.prioPendSV
  | .sysTick => prioValue s.prioSysTick
  | .irq m => prioValue ((s.irqPrio[m.val]?).getD 0#2)

/-- `ExecutionPriorityNoMask()` (60_exceptions.md R411): 256, or the least priority of the active exceptions. -/
def State.executionPriorityNoMask (s : State) : Int :=
  (Exc.all.filter fun e => s.active.get e).foldl (fun p e => min p (s.prio e)) 256

/-- `ExecutionPriority()` (60_exceptions.md R411). -/
def State.executionPriority (s : State) : Int :=
  if s.primask then min s.executionPriorityNoMask 0 else s.executionPriorityNoMask

/-- The exception of the lower priority value, the first of two that have the same. -/
def State.moreUrgent (s : State) (best : Option Exc) (e : Exc) : Option Exc :=
  match best with
  | none => some e
  | some b => if s.prio e < s.prio b then some e else some b

/-- `Candidate()` (60_exceptions.md R412): among the pending and enabled exceptions the one with the smallest priority value, and among
those the smallest number. -/
def State.candidate (s : State) : Option Exc :=
  (Exc.all.filter fun e => s.pending.get e && s.excEnabled e).foldl s.moreUrgent none

/-- The candidate, if `CanTake` holds of it (60_exceptions.md R412). -/
def State.takeable (s : State) : Option Exc :=
  match s.candidate with
  | some e => if s.prio e < s.executionPriority then some e else none
  | none => none

end Sys2Proof.Machine
end

