-- ==== Sys2Proof/Machine/SystemRegs.lean ====
section
/-! DEFINITION. The memory-mapped system registers of the Private Peripheral Bus: NVIC, System Control Block and SysTick
(spec/10_state.md R41 to R67; spec/60_exceptions.md R465). -/

namespace Sys2Proof.Machine

/-- Why a HardFault is raised (60_exceptions.md R441). The hardware records no cause: the label is the spec's, for the reader. -/
inductive HardFaultCause where
  | svc | bkpt | busError | xn | busFaultOnFetch | vector | undefined | tBitClear | unaligned
  deriving DecidableEq, Repr

/-- What an access to memory or to a system register answers: a value and the state after it, `raise HardFault(cause)`, or a stop. -/
inductive Access (α : Type) where
  | ok (a : α) (s : State)
  | error (cause : HardFaultCause)
  | fault (why : Fault)
  | refused (why : Refusal)

/-- The registers of the Private Peripheral Bus (10_state.md R41, R43, R49, R63). -/
inductive PpbReg where
  | systCsr | systRvr | systCvr | systCalib
  | iser | icer | ispr | icpr
  | ipr (n : Fin 3)
  | cpuid | icsr | aircr | scr | ccr | shpr2 | shpr3
  deriving DecidableEq, Repr

/-- Their addresses (10_state.md R43, R49, R63). -/
def ppbMap : List (Nat × PpbReg) :=
  [(0xE000E010, .systCsr), (0xE000E014, .systRvr), (0xE000E018, .systCvr), (0xE000E01C, .systCalib),
    (0xE000E100, .iser), (0xE000E180, .icer), (0xE000E200, .ispr), (0xE000E280, .icpr),
    (0xE000E400, .ipr 0), (0xE000E404, .ipr 1), (0xE000E408, .ipr 2),
    (0xE000ED00, .cpuid), (0xE000ED04, .icsr), (0xE000ED0C, .aircr), (0xE000ED10, .scr), (0xE000ED14, .ccr),
    (0xE000ED1C, .shpr2), (0xE000ED20, .shpr3)]

/-- The register at an address, where there is one. -/
def ppbRegAt (a : Nat) : Option PpbReg := (ppbMap.find? fun e => e.1 == a).map (·.2)

/-- The two-bit priority of interrupt m; 0 for the fields no interrupt stands behind (10_state.md R48, D11). -/
def State.irqPrioAt (s : State) (m : Nat) : BitVec 2 := (s.irqPrio[m]?).getD 0#2

/-- IPRN: four fields, bits [7:6] of each implemented (10_state.md R48). -/
def State.readIpr (s : State) (n : Fin 3) : Word :=
  s.irqPrioAt (4 * n.val + 3) ++ 0#6 ++ s.irqPrioAt (4 * n.val + 2) ++ 0#6 ++
    s.irqPrioAt (4 * n.val + 1) ++ 0#6 ++ s.irqPrioAt (4 * n.val) ++ 0#6

/-- A write of IPRN: the fields behind which no interrupt stands ignore it (10_state.md R48, D11). -/
def State.writeIpr (s : State) (n : Fin 3) (v : Word) : State :=
  { s with
    irqPrio :=
      (((s.irqPrio.setIfInBounds (4 * n.val) (v.extractLsb' 6 2)).setIfInBounds
        (4 * n.val + 1) (v.extractLsb' 14 2)).setIfInBounds
        (4 * n.val + 2) (v.extractLsb' 22 2)).setIfInBounds (4 * n.val + 3) (v.extractLsb' 30 2) }

/-- ICSR.VECTPENDING: the candidate's number, or 0 (10_state.md R55). -/
def State.vectPending (s : State) : BitVec 6 :=
  match s.candidate with
  | some e => e.number
  | none => 0#6

/-- ICSR (10_state.md R51, R55). Bits 27 and 25 read as Unknown bits: they are taken from a free word (log 28). -/
def State.readIcsr (s : State) (unknown : Word) : Word :=
  bitOf s.pending.nmi ++ 0#2 ++ bitOf s.pending.pendSV ++ unknown.extractLsb' 27 1 ++
    bitOf s.pending.sysTick ++ unknown.extractLsb' 25 1 ++ 0#2 ++ bitOf (s.pending.irq != 0#9) ++ 0#4 ++
    s.vectPending ++ 0#6 ++ s.ipsr

/-- SYST_CALIB.TENMS, by CLKDIV (10_state.md R67). -/
def tenms (clkDiv : BitVec 2) : BitVec 24 :=
  match clkDiv.toNat with
  | 0 => 0x030D3F
  | 1 => 0x01869F
  | 2 => 0x00C34F
  | _ => 0x0061A7

/-- SYST_CSR (10_state.md R64). -/
def SysTick.csr (t : SysTick) : Word :=
  0#15 ++ bitOf t.countFlag ++ 0#13 ++ bitOf t.clkSource ++ bitOf t.tickInt ++ bitOf t.enable

/-- `PPBRead` of a register: its value, and the state after the read. -/
def ppbRead (s : State) : PpbReg → Word × State
  | .systCsr => (s.sysTick.csr, { s with sysTick := { s.sysTick with countFlag := false } })  -- R64
  | .systRvr => (0#8 ++ s.sysTick.reload, s)  -- R65
  | .systCvr => (0#8 ++ s.sysTick.current, s)  -- R66
  | .systCalib => (0b10000000#8 ++ tenms s.platform.clkDiv, s)  -- R67
  | .iser => (0#23 ++ s.irqEnable, s)  -- R44
  | .icer => (0#23 ++ s.irqEnable, s)  -- R45
  | .ispr => (0#23 ++ s.pending.irq, s)  -- R46
  | .icpr => (0#23 ++ s.pending.irq, s)  -- R47
  | .ipr n => (s.readIpr n, s)  -- R48
  | .cpuid => (0x410CC200#32, s)  -- R50
  | .icsr => (s.readIcsr s.drawWord.1, s.drawWord.2)  -- R51, R55
  | .aircr => (s.drawWord.1.extractLsb' 16 16 ++ 0#16, s.drawWord.2)  -- R56: bits 31..16 Unknown
  | .scr => (0#27 ++ bitOf s.sevOnPend ++ 0#1 ++ bitOf s.sleepDeep ++ bitOf s.sleepOnExit ++ 0#1, s)  -- R60
  | .ccr => (0x00000208#32, s)  -- R61, C22
  | .shpr2 => (s.prioSVCall ++ 0#30, s)  -- R62
  | .shpr3 => (s.prioSysTick ++ 0#6 ++ s.prioPendSV ++ 0#22, s)  -- R62

/-- `ClearPendingBySoftware` for every interrupt whose bit is set in v: not for a level-sensitive line that is still
asserted (10_state.md R47, 60_exceptions.md R465). -/
def State.clearPendingIrqs (s : State) (v : BitVec 9) : State :=
  { s with
    pending := { s.pending with irq := s.pending.irq &&& ~~~(v &&& ~~~(~~~s.platform.irqPulse &&& s.irqLine)) } }

/-- A write of ICSR, where it does not set and clear one bit (10_state.md R51). -/
def State.writeIcsr (s : State) (v : Word) : State :=
  { s with
    pending :=
      { s.pending with
        nmi := s.pending.nmi || v.getLsbD 31
        pendSV := (s.pending.pendSV || v.getLsbD 28) && !v.getLsbD 27
        sysTick := (s.pending.sysTick || v.getLsbD 26) && !v.getLsbD 25 } }

/-- `PPBWrite` of a register. A write to a read-only register is ignored (10_state.md R42, D9). -/
def ppbWrite (s : State) (reg : PpbReg) (v : Word) : Access Unit :=
  match reg with
  | .systCsr =>  -- R64; COUNTFLAG stays (D13)
    .ok () { s with
      sysTick := { s.sysTick with enable := v.getLsbD 0, tickInt := v.getLsbD 1, clkSource := v.getLsbD 2 } }
  | .systRvr => .ok () { s with sysTick := { s.sysTick with reload := v.extractLsb' 0 24 } }  -- R65
  | .systCvr => .ok () { s with sysTick := { s.sysTick with current := 0, countFlag := false } }  -- R66
  | .systCalib => .ok () s  -- R67
  | .iser => .ok () { s with irqEnable := s.irqEnable ||| v.extractLsb' 0 9 }  -- R44
  | .icer => .ok () { s with irqEnable := s.irqEnable &&& ~~~(v.extractLsb' 0 9) }  -- R45
  | .ispr => .ok () { s with pending := { s.pending with irq := s.pending.irq ||| v.extractLsb' 0 9 } }  -- R46
  | .icpr => .ok () (s.clearPendingIrqs (v.extractLsb' 0 9))  -- R47
  | .ipr n => .ok () (s.writeIpr n v)  -- R48
  | .cpuid => .ok () s  -- R50
  | .icsr =>  -- R51, R54
    if (v.getLsbD 28 && v.getLsbD 27) || (v.getLsbD 26 && v.getLsbD 25) then .refused .icsrSetAndClear
    else .ok () (s.writeIcsr v)
  | .aircr =>  -- R56, R57
    if v.extractLsb' 16 16 ≠ 0x05FA#16 then .ok () s
    else if v.getLsbD 1 then .refused .aircrVectClrActive
    else .ok () { s with resetRequested := s.resetRequested || v.getLsbD 2 }
  | .scr =>  -- R60
    .ok () { s with sevOnPend := v.getLsbD 4, sleepDeep := v.getLsbD 2, sleepOnExit := v.getLsbD 1 }
  | .ccr => .ok () s  -- R61
  | .shpr2 => .ok () { s with prioSVCall := v.extractLsb' 30 2 }  -- R62
  | .shpr3 => .ok () { s with prioSysTick := v.extractLsb' 30 2, prioPendSV := v.extractLsb' 22 2 }  -- R62

end Sys2Proof.Machine
end

