-- ==== Sys2Proof/Machine/Bus.lean ====
section
/-! DEFINITION. Accesses to the address space: the regions, the platform's bus errors, loads, stores, vector reads and instruction
fetches (spec/20_memory.md). -/

namespace Sys2Proof.Machine

/-- The size of a data access (20_memory.md R101). -/
inductive Width where
  | byte | half | word
  deriving DecidableEq, Repr

/-- Its number of bytes. -/
def Width.bytes : Width → Nat
  | .byte => 1
  | .half => 2
  | .word => 4

/-- The low bytes of a word, zero-extended. -/
def Width.truncate : Width → Word → Word
  | .byte, v => (v.extractLsb' 0 8).setWidth 32
  | .half, v => (v.extractLsb' 0 16).setWidth 32
  | .word, v => v

/-- Whether an address is a multiple of the access's size (20_memory.md R106). -/
def isAligned (a : Word) : Width → Bool
  | .byte => true
  | .half => !a.getLsbD 0
  | .word => !a.getLsbD 0 && !a.getLsbD 1

/-! ### The memory map -/

/-- The seven regions (20_memory.md R102). -/
inductive Region where
  | code | sram | peripheral | externalRam | externalDevice | ppb | vendor
  deriving DecidableEq, Repr

/-- The region of an address (20_memory.md R102, C21). -/
def regionOf (a : Nat) : Region :=
  if a < 0x20000000 then .code
  else if a < 0x40000000 then .sram
  else if a < 0x60000000 then .peripheral
  else if a < 0xA0000000 then .externalRam
  else if a < 0xE0000000 then .externalDevice
  else if a < 0xE0100000 then .ppb
  else .vendor

/-- The memory types (20_memory.md R102, R120). -/
inductive MemType where
  | normal | device | stronglyOrdered
  deriving DecidableEq, Repr

/-- The type of a region (20_memory.md R102). -/
def Region.memType : Region → MemType
  | .code => .normal
  | .sram => .normal
  | .peripheral => .device
  | .externalRam => .normal
  | .externalDevice => .device
  | .ppb => .stronglyOrdered
  | .vendor => .device

/-- Execute Never (20_memory.md R102, R103). -/
def Region.xn : Region → Bool
  | .code => false
  | .sram => false
  | .peripheral => true
  | .externalRam => false
  | .externalDevice => true
  | .ppb => true
  | .vendor => true

/-- `BusError(addr, size, kind)` (20_memory.md R108). -/
def busError (p : Config.Platform) (a size : Nat) (kind : Config.AccessKind) : Bool :=
  p.busErrors.any fun e =>
    decide (e.first ≤ a) && decide (a ≤ e.last) && decide (size ∈ e.bytes) && decide (kind ∈ e.kinds)

/-- Whether the platform declares an address to be flash (20_memory.md R104; log 9). An access asks it for its first address only, so one that
begins just below a range and reaches into it is not in flash: the spec is silent on such an access (DESIGN CHOICE, unsafe, log 9). -/
def inFlash (p : Config.Platform) (a : Nat) : Bool :=
  p.flash.any fun e => decide (e.first ≤ a) && decide (a ≤ e.last)

/-! ### Plain memory by width -/

/-- The byte, halfword or word at an address, zero-extended (20_memory.md R105, R110). -/
def Memory.readWidth (m : Memory) (a : Nat) : Width → Word
  | .byte => (m.read a).setWidth 32
  | .half => (m.readHalf a).setWidth 32
  | .word => m.readWord a

/-- Write the low byte, halfword or word of a value (20_memory.md R105, R111). -/
def Memory.writeWidth (m : Memory) (a : Nat) (v : Word) : Width → Memory
  | .byte => m.write a (v.extractLsb' 0 8)
  | .half => m.writeHalf a (v.extractLsb' 0 16)
  | .word => m.writeWord a v

/-- The halfwords that a write of a width at `a` changes, with what they are before it (20_memory.md R128). -/
def overwrittenHalves (m : Memory) (a : Nat) : Width → List (Nat × Half)
  | .byte => [(a - a % 2, m.readHalf (a - a % 2))]
  | .half => [(a, m.readHalf a)]
  | .word => [(a, m.readHalf a), (a + 2, m.readHalf (a + 2))]

/-- A store to plain memory: the bytes (20_memory.md R111), and with them the model's own record of the halfwords that fetches may still
see as they were (R128) and, while a reset in the middle of a step is worked out, of the bytes stored to (log 14). -/
def State.storePlain (s : State) (a : Nat) (w : Width) (v : Word) : State :=
  { s with
    mem := s.mem.writeWidth a v w
    stale := overwrittenHalves s.mem a w ++ s.stale
    storeTrace := s.storeTrace.map fun l => (List.range w.bytes).map (a + ·) ++ l }

/-! ### Loads and stores -/

/-- A load from the Private Peripheral Bus: a word access to a register, or a stop (10_state.md R42; log 26). -/
def ppbLoad (s : State) (a : Nat) (w : Width) : Access Word :=
  if w = .word then
    match ppbRegAt a with
    | some reg => .ok (ppbRead s reg).1 (ppbRead s reg).2
    | none => .fault (.ppbNoRegister a)
  else .fault (.ppbNarrowAccess a)

/-- A store to the Private Peripheral Bus: a word access to a register, or a stop (10_state.md R42; log 26). -/
def ppbStore (s : State) (a : Nat) (w : Width) (v : Word) : Access Unit :=
  if w = .word then
    match ppbRegAt a with
    | some reg => ppbWrite s reg v
    | none => .fault (.ppbNoRegister a)
  else .fault (.ppbNarrowAccess a)

/-- `MemRead(addr, n)`, zero-extended (20_memory.md R110). Where a device answers, the value is free (20_memory.md R104,
60_exceptions.md R486; log 10). -/
def memRead (s : State) (a : Word) (w : Width) (kind : Config.AccessKind) : Access Word :=
  if !isAligned a w then .error .unaligned
  else if regionOf a.toNat = .ppb then ppbLoad s a.toNat w
  else if busError s.platform a.toNat w.bytes kind then .error .busError
  else if (regionOf a.toNat).memType = .normal then .ok (s.mem.readWidth a.toNat w) s
  else .ok (w.truncate s.drawWord.1) s.drawWord.2

/-- `MemWrite(addr, n, v)` (20_memory.md R111). A store to flash is the platform's (R104); a halfword or word store that begins just
below a declared flash range and reaches into it stores all its bytes (DESIGN CHOICE, unsafe, log 9). A store to a device changes nothing that
the core holds (log 10). -/
def memWrite (s : State) (a : Word) (w : Width) (v : Word) (kind : Config.AccessKind) : Access Unit :=
  if !isAligned a w then .error .unaligned
  else if regionOf a.toNat = .ppb then ppbStore s a.toNat w v
  else if busError s.platform a.toNat w.bytes kind then .error .busError
  else if (regionOf a.toNat).memType = .normal then
    if inFlash s.platform a.toNat then .refused .storeToFlash
    else .ok () (s.storePlain a.toNat w v)
  else .ok () s

/-- `VectorRead(a)`; none where the platform answers with a bus error (20_memory.md R113, 60_exceptions.md R425). -/
def vectorRead (s : State) (a : Word) : Option Word :=
  if busError s.platform a.toNat 4 .vector then none else some (s.mem.readWord a.toNat)

/-! ### Instruction fetch -/

/-- What the halfword at an address was at each store to it since fetches were last synchronised (20_memory.md R128). -/
def State.oldHalves (s : State) (a : Nat) : List Half :=
  (s.stale.filter fun e => e.1 == a).map (·.2)

/-- The halfword that a fetch returns: the one in memory or, where it has been overwritten since fetches were last synchronised, any of
the old ones too (20_memory.md R128, D21; log 15). -/
def State.fetchedHalf (s : State) (a : Nat) : Half × State :=
  let now := s.mem.readHalf a
  match s.oldHalves a with
  | [] => (now, s)
  | olds =>
    (((now :: olds)[Config.freeNat s.freeCount % (olds.length + 1)]?).getD now,
      { s with freeCount := s.freeCount + 1 })

/-- `Fetch16(addr)` (20_memory.md R112, D16). -/
def fetch16 (s : State) (a : Word) : Access Half :=
  if !s.tbit then .error .tBitClear
  else if (regionOf a.toNat).xn then .error .xn
  else if busError s.platform a.toNat 2 .fetch then .error .busFaultOnFetch
  else .ok (s.fetchedHalf a.toNat).1 (s.fetchedHalf a.toNat).2

end Sys2Proof.Machine
end

