-- ==== Sys2Proof/Machine/Flags.lean ====
section
/-! DEFINITION. Flag computations (spec/00_scope.md R12, R13; spec/43_branch.md R325). -/

namespace Sys2Proof.Machine

/-- `AddWithCarry(x, y, cin)`: the result, the carry and the overflow (R12). The sums are taken over the integers. -/
def addWithCarry (x y : Word) (cin : Bool) : Word × Bool × Bool :=
  let usum : Nat := x.toNat + y.toNat + cin.toNat
  let ssum : Int := x.toInt + y.toInt + (cin.toNat : Int)
  let result : Word := BitVec.ofNat 32 usum
  (result, decide (2 ^ 32 ≤ usum), decide (result.toInt ≠ ssum))

/-- `SetNZ(v)`: C and V keep their values (R13). -/
def Flags.setNZ (f : Flags) (v : Word) : Flags := { f with n := v.getLsbD 31, z := decide (v = 0#32) }

/-- The flags of an addition: N and Z from its result, C and V from it (R12, R13). -/
def flagsOfAdd (x y : Word) (cin : Bool) : Flags :=
  let a := addWithCarry x y cin
  { n := a.1.getLsbD 31, z := decide (a.1 = 0#32), c := a.2.1, v := a.2.2 }

/-- `ConditionPassed(cond)` (43_branch.md R325; LE as 90_conflicts.md C1 settles it). -/
def conditionPassed (f : Flags) : Cond → Bool
  | .eq => f.z
  | .ne => !f.z
  | .cs => f.c
  | .cc => !f.c
  | .mi => f.n
  | .pl => !f.n
  | .vs => f.v
  | .vc => !f.v
  | .hi => f.c && !f.z
  | .ls => !f.c || f.z
  | .ge => f.n == f.v
  | .lt => f.n != f.v
  | .gt => !f.z && f.n == f.v
  | .le => f.z || f.n != f.v

/-- The flags as bits 31..28 of a word. -/
def Flags.bits (f : Flags) : BitVec 4 := bitOf f.n ++ bitOf f.z ++ bitOf f.c ++ bitOf f.v

/-- The flags in bits 31..28 of a word. -/
def Flags.ofWord (w : Word) : Flags :=
  { n := w.getLsbD 31, z := w.getLsbD 30, c := w.getLsbD 29, v := w.getLsbD 28 }

end Sys2Proof.Machine
end

