-- ==== Sys2Proof/Machine/Ops.lean ====
section
/-! DEFINITION. The shared operations of the machine: sequences of word accesses, taking an exception, returning from one, raising
HardFault, lockup, and the ways of writing the PC (spec/60_exceptions.md parts 4 to 6, spec/43_branch.md R320 to R322). -/

namespace Sys2Proof.Machine

/-! ### Sequences of word accesses -/

/-- What a sequence of word stores answers: `stopped n` when the word number n (from 0) gets an error, those before it having been stored. -/
inductive Stored where
  | all (s : State)
  | stopped (count : Nat) (cause : HardFaultCause) (s : State)
  | fault (why : Fault)
  | refused (why : Refusal)

/-- Store words at rising addresses, 4 apart, modulo 2^32 (20_memory.md R101, R115). `done` counts the words already stored. -/
def storeWords (kind : Config.AccessKind) : List Word → Word → Nat → State → Stored
  | [], _, _, s => .all s
  | v :: vs, a, done, s =>
    match memWrite s a .word v kind with
    | .ok _ s' => storeWords kind vs (a + 4#32) (done + 1) s'
    | .error c => .stopped done c s
    | .fault f => .fault f
    | .refused r => .refused r

/-- What a sequence of word loads answers: the words, or, where one of them gets an error, those loaded before it. -/
inductive Loaded where
  | all (vs : List Word) (s : State)
  | stopped (vs : List Word) (cause : HardFaultCause) (s : State)
  | fault (why : Fault)
  | refused (why : Refusal)

/-- The answer with one more word in front. -/
def Loaded.push (v : Word) : Loaded → Loaded
  | .all vs s => .all (v :: vs) s
  | .stopped vs c s => .stopped (v :: vs) c s
  | .fault f => .fault f
  | .refused r => .refused r

/-- Load `n` words at rising addresses, 4 apart, modulo 2^32 (20_memory.md R101, R115). -/
def loadWords (kind : Config.AccessKind) : Nat → Word → State → Loaded
  | 0, _, s => .all [] s
  | n + 1, a, s =>
    match memRead s a .word kind with
    | .ok v s' => (loadWords kind n (a + 4#32) s').push v
    | .error c => .stopped [] c s
    | .fault f => .fault f
    | .refused r => .refused r

/-- Words that hold Unknown values (60_exceptions.md R427): free words are put at `n` addresses, 4 apart, where plain memory answers and
it is not flash (log 20; the first address of each word is asked, log 9). -/
def fillUnknown : Nat → Word → State → State
  | 0, _, s => s
  | n + 1, a, s =>
    let plain := decide ((regionOf a.toNat).memType = .normal) && !inFlash s.platform a.toNat
    fillUnknown n (a + 4#32) (if plain then s.drawWord.2.storePlain a.toNat .word s.drawWord.1 else s)

/-! ### Taking an exception -/

/-- Lockup: nothing else changes (60_exceptions.md R445). -/
def State.lockedUp (s : State) : State := { s with lockup := true }

/-- Lockup inside an entry from the state `before`, when its stores have led to `s`: the state before the entry, with none of the
stacking done (60_exceptions.md R427, R445; log 20). Only the trace of the stores stays, so that after a reset in the middle of such an
entry the part of the frame that it may have stored is free (70_reset_and_hazards.md R502; log 14). -/
def State.lockedUpInEntry (before s : State) : State := { before.lockedUp with storeTrace := s.storeTrace }

/-- The address of the vector of an exception (60_exceptions.md R404). -/
def Exc.vector (e : Exc) : Word := 4#32 * e.number.setWidth 32

/-- The address of the frame, aligned to 8 (60_exceptions.md R420, R421). -/
def frameAddress (sp0 : Word) : Word := (sp0 - 0x20#32) &&& 0xFFFFFFF8#32

/-- The stacked xPSR (60_exceptions.md R420, R421). -/
def State.stackedPsr (s : State) : Word :=
  s.flags.bits ++ 0#3 ++ bitOf s.tbit ++ 0#14 ++ bitOf (s.sp.getLsbD 2) ++ 0#3 ++ s.ipsr

/-- The eight words of the frame, from the lowest address (60_exceptions.md R421). -/
def State.frameWords (s : State) (ret : Word) : List Word :=
  [s.readReg 0, s.readReg 1, s.readReg 2, s.readReg 3, s.readReg 12, s.lr, ret, s.stackedPsr]

/-- The EXC_RETURN value that the entry puts into LR (60_exceptions.md R420, R423). -/
def State.linkValue (s : State) : Word :=
  match s.mode with
  | .handler => 0xFFFFFFF1#32
  | .thread => if s.spsel then 0xFFFFFFFD#32 else 0xFFFFFFF9#32

/-- The context of a handler (60_exceptions.md R420 step 3, R424). The entry also ends the window of stale fetches (20_memory.md R128). -/
def State.enterContext (s : State) (e : Exc) : State :=
  { s with
    ipsr := e.number, spsel := false
    pending := s.pending.set e false, active := s.active.set e true
    stale := [] }

/-- The pc and T from a vector (60_exceptions.md R420 step 4). -/
def State.jumpVector (s : State) (v : Word) : State := { s with tbit := v.getLsbD 0, pc := alignPc v }

/-- HardFault entered in place, without a frame: its context and its vector. A bus error on that vector is lockup of
`locked` (60_exceptions.md R427, R446; log 20). -/
def hardFaultInPlace (locked s : State) : Outcome :=
  match vectorRead s Exc.hardFault.vector with
  | some v => .next ((s.enterContext .hardFault).jumpVector v)
  | none => .next (locked.lockedUpInEntry s)

/-- A bus error inside the entry of `e` from the state `before`; `s` is the state in which HardFault is entered in place
of `e` (60_exceptions.md R427; log 20). The pending bit of `e` stays as it was: set for an exception taken at a boundary, clear for
SVCall, which an SVC instruction enters without pending it (R406, C28), so that this call is dropped (DESIGN CHOICE, unsafe, log 51). -/
def entryError (e : Exc) (before s : State) : Outcome :=
  if e = .nmi ∨ e = .hardFault ∨ before.executionPriority ≤ -1 then .next (before.lockedUpInEntry s)
  else hardFaultInPlace before s

/-- `ExceptionEntry(n, ret)` (60_exceptions.md R420 to R425, R427). -/
def exceptionEntry (e : Exc) (ret : Word) (s : State) : Outcome :=
  let frame := frameAddress s.sp
  match storeWords .stack (s.frameWords ret) frame 0 (s.setSp frame) with
  | .all s1 =>
    let s2 := { s1 with lr := s.linkValue }
    match vectorRead s2 e.vector with
    | some v => .next ((s2.enterContext e).jumpVector v)
    | none => entryError e s s2
  | .stopped n _ s1 =>
    entryError e s { fillUnknown (8 - n) (frame + BitVec.ofNat 32 (4 * n)) s1 with lr := s.linkValue }
  | .fault f => .fault f
  | .refused r => .refused r

/-- `raise HardFault(cause)` inside the step of the instruction at the pc (60_exceptions.md R440, R441, R445). The hardware
records no cause. The stacked return address is log 50 (PRESUMED). -/
def raiseHardFault (_cause : HardFaultCause) (s : State) : Outcome :=
  if s.executionPriority ≤ -1 then .next s.lockedUp else exceptionEntry .hardFault s.pc s

/-- Go on after an access, or raise HardFault from the state `s`. -/
def Access.run {α : Type} (x : Access α) (s : State) (k : α → State → Outcome) : Outcome :=
  match x with
  | .ok a s' => k a s'
  | .error c => raiseHardFault c s
  | .fault f => .fault f
  | .refused r => .refused r

/-! ### Returning from an exception -/

/-- What bits [3:0] of an EXC_RETURN value ask for (60_exceptions.md R430). -/
inductive ReturnKind where
  | handlerMain | threadMain | threadProcess
  deriving DecidableEq, Repr

/-- The kind of return of a value whose bits [31:4] are 0xFFFFFFF; none where it is reserved (60_exceptions.md R430, Table 2.11). -/
def ReturnKind.ofValue (v : Word) : Option ReturnKind :=
  if v.extractLsb' 0 4 = 0b0001#4 then some .handlerMain
  else if v.extractLsb' 0 4 = 0b1001#4 then some .threadMain
  else if v.extractLsb' 0 4 = 0b1101#4 then some .threadProcess
  else none

/-- Whether the kind fits the number of active exceptions (60_exceptions.md R430). -/
def ReturnKind.fits (k : ReturnKind) (activeCount : Nat) : Bool :=
  match k with
  | .handlerMain => decide (1 < activeCount)
  | .threadMain => activeCount == 1
  | .threadProcess => activeCount == 1

/-- The address of the frame to return through (60_exceptions.md R430). -/
def State.returnFrame (s : State) (k : ReturnKind) : Word :=
  match k with
  | .handlerMain => s.msp
  | .threadMain => s.msp
  | .threadProcess => s.psp

/-- The exception no longer active; an interrupt whose line is asserted pends again (60_exceptions.md R430, R464). -/
def State.deactivate (s : State) (e : Exc) : State :=
  let s1 := { s with active := s.active.set e false }
  match e with
  | .irq m => if s.irqLine.getLsbD m.val then { s1 with pending := s1.pending.set e true } else s1
  | _ => s1

/-- Whether a stacked IPSR fits the kind of return: 0 exactly in Thread mode, and else an active exception
(60_exceptions.md R430, R432). -/
def State.stackedIpsrFits (s : State) (k : ReturnKind) (n : BitVec 6) : Bool :=
  match k with
  | .handlerMain =>
    match Exc.ofNumber n with
    | some e => s.active.get e
    | none => false
  | .threadMain => n == 0#6
  | .threadProcess => n == 0#6

/-- The stack pointer after a return (60_exceptions.md R430): above the frame, and above the padding word where bit 9 of the
stacked xPSR says so. -/
def stackAfterReturn (frame psr : Word) : Word :=
  (frame + 0x20#32) ||| (if psr.getLsbD 9 then 4#32 else 0#32)

/-- The state that a frame's eight words restore (60_exceptions.md R430, R431). The return also ends the window of stale
fetches (20_memory.md R128). -/
def State.restoreFrame (s : State) (k : ReturnKind) (r0 r1 r2 r3 r12 lr ret psr : Word) : State :=
  let s1 :=
    { ((((s.writeReg 0 r0).writeReg 1 r1).writeReg 2 r2).writeReg 3 r3).writeReg 12 r12 with lr := lr }
  let sp := stackAfterReturn (s.returnFrame k) psr
  let s2 :=
    match k with
    | .handlerMain => { s1.setMsp sp with spsel := false }
    | .threadMain => { s1.setMsp sp with spsel := false }
    | .threadProcess => { s1.setPsp sp with spsel := true }
  { s2 with
    flags := Flags.ofWord psr, tbit := psr.getLsbD 24, ipsr := psr.extractLsb' 0 6
    pc := alignPc ret
    sleeping := s2.sleeping || (k != .handlerMain && s2.sleepOnExit)
    stale := [] }

/-- A bus error while unstacking (60_exceptions.md R446; log 21): lockup where the frame is on the main stack; HardFault in place of the
return where it is on the process stack. -/
def unstackError (k : ReturnKind) (s : State) : Outcome :=
  match k with
  | .threadProcess => hardFaultInPlace s { s with lr := 0xFFFFFFFD#32 }
  | _ => .next s.lockedUp

/-- Read the frame and restore it; `s` is the state in which the returning exception is no longer active (60_exceptions.md R430). -/
def unstack (k : ReturnKind) (s : State) : Outcome :=
  match loadWords .unstack 8 (s.returnFrame k) s with
  | .all [r0, r1, r2, r3, r12, lr, ret, psr] s1 =>
    if s1.stackedIpsrFits k (psr.extractLsb' 0 6) then
      .next (s1.restoreFrame k r0 r1 r2 r3 r12 lr ret psr)
    else .refused .inconsistentExcReturn
  | .all _ _ => .refused .inconsistentExcReturn
  | .stopped _ _ s1 => unstackError k s1
  | .fault f => .fault f
  | .refused r => .refused r

/-- `ExceptionReturn(v)`, for v with bits [31:4] = 0xFFFFFFF (60_exceptions.md R430, R432; log 29). -/
def exceptionReturn (v : Word) (s : State) : Outcome :=
  match ReturnKind.ofValue v with
  | none => .refused .reservedExcReturn
  | some k =>
    match Exc.ofNumber s.ipsr with
    | none => .refused .inconsistentExcReturn
    | some e => if k.fits s.active.count then unstack k (s.deactivate e) else .refused .inconsistentExcReturn

/-! ### Writing the PC -/

/-- Whether a value written to the PC by BX or POP starts an exception return (43_branch.md R321; log 47 for the values just below). -/
def State.isExcReturn (s : State) (v : Word) : Bool :=
  decide (s.mode = .handler) && v.extractLsb' 4 28 == 0xFFFFFFF#28

/-- T from bit 0, and the branch (43_branch.md R321). With bit 0 clear it completes too, and the next fetch faults: the spec's general
knowledge (PRESUMED, log 50). -/
def State.interwork (s : State) (v : Word) : State := { s with tbit := v.getLsbD 0, pc := alignPc v }

/-- `BXWritePC(v)` (43_branch.md R321). -/
def bxWritePC (v : Word) (s : State) : Outcome :=
  if s.isExcReturn v then exceptionReturn v s else .next (s.interwork v)

/-- `LoadWritePC(v)` (43_branch.md R322). -/
def loadWritePC (v : Word) (s : State) : Outcome := bxWritePC v s

end Sys2Proof.Machine
end

