-- ==== Sys2Proof/Machine/Operands.lean ====
section
/-! DEFINITION. Operands: immediates, addresses, shifts, register lists, and the special registers of MRS and MSR
(spec/00_scope.md R8, spec/30_encoding.md R147, spec/40_memory_access.md, spec/41_data_processing_a.md R265, spec/44_misc.md R350 to
R353). -/

namespace Sys2Proof.Machine

/-! ### Immediates (00_scope.md R8, 30_encoding.md R147) -/

/-- `zext_32`. -/
def zext {n : Nat} (v : BitVec n) : Word := v.setWidth 32

/-- `sext_32`. -/
def sext {n : Nat} (v : BitVec n) : Word := v.signExtend 32

/-- An immediate counted in words: `imm : 00`, zero-extended. -/
def wordOffset {n : Nat} (v : BitVec n) : Word := zext (v ++ 0#2)

/-- An immediate counted in halfwords: `imm : 0`, zero-extended. -/
def halfOffset {n : Nat} (v : BitVec n) : Word := zext (v ++ 0#1)

/-- A branch offset: `imm : 0`, sign-extended. -/
def branchOffset {n : Nat} (v : BitVec n) : Word := sext (v ++ 0#1)

/-! ### Addresses -/

/-- `Align(pc + 4, 4)`, the base of ADR and LDR (literal) (10_state.md R28; PRESUMED, log 50). -/
def State.literalBase (s : State) : Word := (s.pc + 4#32) &&& 0xFFFFFFFC#32

/-- The address of an access whose base is a low register and whose offset is a word. -/
def State.baseOffset (s : State) (rn : LowReg) (offset : Word) : Word := s.readLow rn + offset

/-- The address of an access with a register offset: the sum modulo 2^32 (40_memory_access.md R224). -/
def State.baseIndex (s : State) (rn rm : LowReg) : Word := s.readLow rn + s.readLow rm

/-- The address of an access based on the current SP (40_memory_access.md R202, R206). -/
def State.spOffset (s : State) (imm8 : BitVec 8) : Word := s.sp + wordOffset imm8

/-- The target of a branch: the instruction's address plus 4 plus the offset (43_branch.md R323, R324, R326). -/
def State.branchTarget (s : State) (offset : Word) : Word := s.pc + 4#32 + offset

/-! ### Shifts (41_data_processing_a.md R265), for n ≥ 1 -/

/-- `LSL_C(x, n)`: the result and the carry out. -/
def lslC (x : Word) (n : Nat) : Word × Bool :=
  if n ≤ 31 then (x <<< n, x.getLsbD (32 - n))
  else if n = 32 then (0#32, x.getLsbD 0)
  else (0#32, false)

/-- `LSR_C(x, n)`: the result and the carry out. -/
def lsrC (x : Word) (n : Nat) : Word × Bool :=
  if n ≤ 31 then (x >>> n, x.getLsbD (n - 1))
  else if n = 32 then (0#32, x.getLsbD 31)
  else (0#32, false)

/-- `ASR_C(x, n)`: the result and the carry out. -/
def asrC (x : Word) (n : Nat) : Word × Bool :=
  if n ≤ 31 then (x.sshiftRight n, x.getLsbD (n - 1))
  else (if x.getLsbD 31 then 0xFFFFFFFF#32 else 0#32, x.getLsbD 31)

/-- `ROR_C(x, n)`: the result and the carry out. -/
def rorC (x : Word) (n : Nat) : Word × Bool :=
  let m := n % 32
  if m = 0 then (x, x.getLsbD 31) else ((x >>> m) ||| (x <<< (32 - m)), x.getLsbD (m - 1))

/-- The shift length of LSRS and ASRS by an immediate: 0 stands for 32 (41_data_processing_a.md R266, R270). -/
def shiftLength (imm5 : BitVec 5) : Nat := if imm5 = 0#5 then 32 else imm5.toNat

/-! ### Register lists -/

/-- The low registers of a list, by rising number (40_memory_access.md R220, R230). -/
def regsOfList (list : RegList) : List LowReg :=
  ([0, 1, 2, 3, 4, 5, 6, 7] : List LowReg).filter fun i => list.getLsbD i.toNat

/-- The number of bytes that n words take. -/
def wordBytes (n : Nat) : Word := BitVec.ofNat 32 (4 * n)

/-- Write loaded words into low registers, in order. -/
def State.writeLows (s : State) : List (LowReg × Word) → State
  | [] => s
  | (i, v) :: rest => (s.writeLow i v).writeLows rest

/-- The registers already loaded when an LDM or POP gets an error: each holds its old value or the one loaded, by a free bit, and the
base register keeps its value (40_memory_access.md R220, R231, D24, U17; log 17). -/
def State.settleLoaded (s : State) (base : Option LowReg) : List (LowReg × Word) → State
  | [] => s
  | (i, v) :: rest =>
    let s1 := { s with freeCount := s.freeCount + 1 }
    let s2 := if Config.freeBool s.freeCount && base != some i then s1.writeLow i v else s1
    s2.settleLoaded base rest

/-! ### Special registers (44_misc.md R350 to R353) -/

/-- The APSR's part of a PSR word (10_state.md R31). -/
def State.apsrWord (s : State) : Word := s.flags.bits ++ 0#28

/-- The IPSR's part of a PSR word (10_state.md R32). -/
def State.ipsrWord (s : State) : Word := zext s.ipsr

/-- What MRS reads (44_misc.md R350, R351). The EPSR reads as zero; CONTROL reads as 0 in Handler mode. -/
def State.readSpecial (s : State) : SpecialReg → Word
  | .apsr => s.apsrWord
  | .iapsr => s.apsrWord ||| s.ipsrWord
  | .eapsr => s.apsrWord
  | .psr => s.apsrWord ||| s.ipsrWord
  | .ipsr => s.ipsrWord
  | .epsr => 0#32
  | .iepsr => s.ipsrWord
  | .msp => s.msp
  | .psp => s.psp
  | .primask => zext (bitOf s.primask)
  | .control => zext (bitOf (s.spsel && decide (s.mode = .thread)) ++ 0#1)

/-- What MSR writes (44_misc.md R351, R353). -/
def State.writeSpecial (s : State) (sr : SpecialReg) (v : Word) : State :=
  match sr with
  | .apsr => s.setFlags (Flags.ofWord v)
  | .iapsr => s.setFlags (Flags.ofWord v)
  | .eapsr => s.setFlags (Flags.ofWord v)
  | .psr => s.setFlags (Flags.ofWord v)
  | .ipsr => s
  | .epsr => s
  | .iepsr => s
  | .msp => s.setMsp v
  | .psp => s.setPsp v
  | .primask => { s with primask := v.getLsbD 0 }
  | .control => if s.mode = .thread then { s with spsel := v.getLsbD 1 } else s

end Sys2Proof.Machine
end

