-- ==== Sys2Proof/Machine/Arith.lean ====
section
/-! DEFINITION. Add, subtract, compare and multiply (spec/41_data_processing_a.md R240 to R256 and R273 to R278,
spec/42_data_processing_b.md R296). -/

namespace Sys2Proof.Machine

/-- The sum of x, y and the carry in, in a low register, with all four flags. -/
def State.addTo (s : State) (rd : LowReg) (x y : Word) (cin : Bool) : Outcome :=
  .next (((s.writeLow rd (addWithCarry x y cin).1).setFlags (flagsOfAdd x y cin)).advance 2)

/-- The four flags of a sum that is written nowhere. -/
def State.addFlags (s : State) (x y : Word) (cin : Bool) : Outcome :=
  .next ((s.setFlags (flagsOfAdd x y cin)).advance 2)

/-- ADCS (R241). -/
def execAdcs (rdn rm : LowReg) (s : State) : Outcome :=
  s.addTo rdn (s.readLow rdn) (s.readLow rm) s.flags.c

/-- ADDS, 3-bit immediate (R242). -/
def execAddsImm3 (rd rn : LowReg) (imm3 : BitVec 3) (s : State) : Outcome :=
  s.addTo rd (s.readLow rn) (zext imm3) false

/-- ADDS, 8-bit immediate (R243). -/
def execAddsImm8 (rdn : LowReg) (imm8 : BitVec 8) (s : State) : Outcome :=
  s.addTo rdn (s.readLow rdn) (zext imm8) false

/-- ADDS, register (R244). -/
def execAddsReg (rd rn rm : LowReg) (s : State) : Outcome :=
  s.addTo rd (s.readLow rn) (s.readLow rm) false

/-- ADD, any registers, no flags (R245). With Rd = PC it is a branch that discards bit 0 and leaves T
alone (the spec's general knowledge: PRESUMED, log 53). -/
def execAddHigh (rdn rm : Reg) (s : State) : Outcome :=
  let result := s.readReg rdn + s.readReg rm
  if rdn = 15#4 then .next (s.branchTo (alignPc result))
  else .next ((s.writeReg rdn result).advance 2)

/-- ADD Rd, SP, #imm (R246). -/
def execAddRdSp (rd : LowReg) (imm8 : BitVec 8) (s : State) : Outcome :=
  .next ((s.writeLow rd (s.sp + wordOffset imm8)).advance 2)

/-- ADD SP, SP, #imm (R247). -/
def execAddSpImm (imm7 : BitVec 7) (s : State) : Outcome :=
  .next ((s.setSp (s.sp + wordOffset imm7)).advance 2)

/-- RSBS (R249). -/
def execRsbs (rd rn : LowReg) (s : State) : Outcome :=
  s.addTo rd (~~~s.readLow rn) 0#32 true

/-- SBCS (R250, C2). -/
def execSbcs (rdn rm : LowReg) (s : State) : Outcome :=
  s.addTo rdn (s.readLow rdn) (~~~s.readLow rm) s.flags.c

/-- SUBS, 3-bit immediate (R251). -/
def execSubsImm3 (rd rn : LowReg) (imm3 : BitVec 3) (s : State) : Outcome :=
  s.addTo rd (s.readLow rn) (~~~zext imm3) true

/-- SUBS, 8-bit immediate (R252). -/
def execSubsImm8 (rdn : LowReg) (imm8 : BitVec 8) (s : State) : Outcome :=
  s.addTo rdn (s.readLow rdn) (~~~zext imm8) true

/-- SUBS, register (R253). -/
def execSubsReg (rd rn rm : LowReg) (s : State) : Outcome :=
  s.addTo rd (s.readLow rn) (~~~s.readLow rm) true

/-- SUB SP, SP, #imm (R254). -/
def execSubSpImm (imm7 : BitVec 7) (s : State) : Outcome :=
  .next ((s.setSp (s.sp - wordOffset imm7)).advance 2)

/-- CMN (R275). -/
def execCmn (rn rm : LowReg) (s : State) : Outcome :=
  s.addFlags (s.readLow rn) (s.readLow rm) false

/-- CMP, immediate (R276). -/
def execCmpImm (rn : LowReg) (imm8 : BitVec 8) (s : State) : Outcome :=
  s.addFlags (s.readLow rn) (~~~zext imm8) true

/-- CMP, two low registers (R277). -/
def execCmpReg (rn rm : LowReg) (s : State) : Outcome :=
  s.addFlags (s.readLow rn) (~~~s.readLow rm) true

/-- CMP, at least one high register (R278). -/
def execCmpHigh (rn rm : Reg) (s : State) : Outcome :=
  s.addFlags (s.readReg rn) (~~~s.readReg rm) true

/-- MULS (42_data_processing_b.md R296): the low 32 bits of the product, N and Z. -/
def execMuls (rdm rn : LowReg) (s : State) : Outcome :=
  let result : Word := BitVec.ofNat 32 ((s.readLow rn).toNat * (s.readLow rdm).toNat)
  .next (((s.writeLow rdm result).setFlags (s.flags.setNZ result)).advance 2)

end Sys2Proof.Machine
end

