-- ==== Sys2Proof/Machine/Branch.lean ====
section
/-! DEFINITION. Branches (spec/43_branch.md R323 to R330). No flag changes. -/

namespace Sys2Proof.Machine

/-- B, unconditional (R323). -/
def execB (imm11 : BitVec 11) (s : State) : Outcome := .next (s.branchTo (s.branchTarget (branchOffset imm11)))

/-- B{cond} (R324, R325). -/
def execBCond (cond : Cond) (imm8 : BitVec 8) (s : State) : Outcome :=
  if conditionPassed s.flags cond then .next (s.branchTo (s.branchTarget (branchOffset imm8)))
  else .next (s.advance 2)

/-- BL (R326). -/
def execBl (imm24 : BitVec 24) (s : State) : Outcome :=
  .next ({ s with lr := (s.pc + 4#32) ||| 1#32 }.branchTo (s.branchTarget (branchOffset imm24)))

/-- BX (R327). -/
def execBx (rm : Reg) (s : State) : Outcome := bxWritePC (s.readReg rm) s

/-- BLX (R328): the target is read before LR is written; it starts no exception return. -/
def execBlx (rm : Reg) (s : State) : Outcome :=
  .next ({ s with lr := (s.pc + 2#32) ||| 1#32 }.interwork (s.readReg rm))

end Sys2Proof.Machine
end

