-- ==== Sys2Proof/Machine/Extend.lean ====
section
/-! DEFINITION. Extension and byte reversal (spec/42_data_processing_b.md R297 to R305). No flag changes. -/

namespace Sys2Proof.Machine

/-- A result in a low register, no flags. -/
def State.resultPlain (s : State) (rd : LowReg) (result : Word) : Outcome :=
  .next ((s.writeLow rd result).advance 2)

/-- SXTH (R303). -/
def execSxth (rd rm : LowReg) (s : State) : Outcome := s.resultPlain rd (sext ((s.readLow rm).extractLsb' 0 16))

/-- SXTB (R302). -/
def execSxtb (rd rm : LowReg) (s : State) : Outcome := s.resultPlain rd (sext ((s.readLow rm).extractLsb' 0 8))

/-- UXTH (R305). -/
def execUxth (rd rm : LowReg) (s : State) : Outcome := s.resultPlain rd (zext ((s.readLow rm).extractLsb' 0 16))

/-- UXTB (R304). -/
def execUxtb (rd rm : LowReg) (s : State) : Outcome := s.resultPlain rd (zext ((s.readLow rm).extractLsb' 0 8))

/-- The bytes of a word in the opposite order (R298). -/
def byteReverse (x : Word) : Word :=
  x.extractLsb' 0 8 ++ x.extractLsb' 8 8 ++ x.extractLsb' 16 8 ++ x.extractLsb' 24 8

/-- The bytes of each halfword in the opposite order (R299). -/
def byteReverseHalves (x : Word) : Word :=
  x.extractLsb' 16 8 ++ x.extractLsb' 24 8 ++ x.extractLsb' 0 8 ++ x.extractLsb' 8 8

/-- The bytes of the low halfword in the opposite order, sign-extended (R300). -/
def byteReverseSigned (x : Word) : Word := sext (x.extractLsb' 0 8 ++ x.extractLsb' 8 8)

/-- REV (R298). -/
def execRev (rd rm : LowReg) (s : State) : Outcome := s.resultPlain rd (byteReverse (s.readLow rm))

/-- REV16 (R299). -/
def execRev16 (rd rm : LowReg) (s : State) : Outcome := s.resultPlain rd (byteReverseHalves (s.readLow rm))

/-- REVSH (R300). -/
def execRevsh (rd rm : LowReg) (s : State) : Outcome := s.resultPlain rd (byteReverseSigned (s.readLow rm))

end Sys2Proof.Machine
end

