-- ==== Sys2Proof/Machine/LoadStore.lean ====
section
/-! DEFINITION. Single loads and stores and ADR (spec/40_memory_access.md R200 to R219, R223, R224). No flag changes. An
access that gets an error raises HardFault with nothing else done (R218). -/

namespace Sys2Proof.Machine

/-- Load from an address into a low register; `extend` makes the word from what was read (R219). -/
def State.loadTo (s : State) (rt : LowReg) (a : Word) (w : Width) (extend : Word → Word) : Outcome :=
  (memRead s a w .read).run s fun v s' => .next ((s'.writeLow rt (extend v)).advance 2)

/-- Store a low register to an address (R219). -/
def State.storeFrom (s : State) (rt : LowReg) (a : Word) (w : Width) : Outcome :=
  (memWrite s a w (s.readLow rt) .write).run s fun _ s' => .next (s'.advance 2)

/-- A byte, sign-extended (R219). -/
def signByte (v : Word) : Word := sext (v.extractLsb' 0 8)

/-- A halfword, sign-extended (R219). -/
def signHalf (v : Word) : Word := sext (v.extractLsb' 0 16)

/-- ADR (R200). -/
def execAdr (rd : LowReg) (imm8 : BitVec 8) (s : State) : Outcome :=
  .next ((s.writeLow rd (s.literalBase + wordOffset imm8)).advance 2)

/-- LDR (literal) (R216). -/
def execLdrLit (rt : LowReg) (imm8 : BitVec 8) (s : State) : Outcome :=
  s.loadTo rt (s.literalBase + wordOffset imm8) .word id

/-- LDR (immediate) (R201). -/
def execLdrImm (rt rn : LowReg) (imm5 : BitVec 5) (s : State) : Outcome :=
  s.loadTo rt (s.baseOffset rn (wordOffset imm5)) .word id

/-- LDR (SP-relative) (R202). -/
def execLdrSp (rt : LowReg) (imm8 : BitVec 8) (s : State) : Outcome :=
  s.loadTo rt (s.spOffset imm8) .word id

/-- LDRB (immediate) (R203). -/
def execLdrbImm (rt rn : LowReg) (imm5 : BitVec 5) (s : State) : Outcome :=
  s.loadTo rt (s.baseOffset rn (zext imm5)) .byte id

/-- LDRH (immediate) (R204). -/
def execLdrhImm (rt rn : LowReg) (imm5 : BitVec 5) (s : State) : Outcome :=
  s.loadTo rt (s.baseOffset rn (halfOffset imm5)) .half id

/-- STR (immediate) (R205). -/
def execStrImm (rt rn : LowReg) (imm5 : BitVec 5) (s : State) : Outcome :=
  s.storeFrom rt (s.baseOffset rn (wordOffset imm5)) .word

/-- STR (SP-relative) (R206). -/
def execStrSp (rt : LowReg) (imm8 : BitVec 8) (s : State) : Outcome :=
  s.storeFrom rt (s.spOffset imm8) .word

/-- STRB (immediate) (R207). -/
def execStrbImm (rt rn : LowReg) (imm5 : BitVec 5) (s : State) : Outcome :=
  s.storeFrom rt (s.baseOffset rn (zext imm5)) .byte

/-- STRH (immediate) (R208). -/
def execStrhImm (rt rn : LowReg) (imm5 : BitVec 5) (s : State) : Outcome :=
  s.storeFrom rt (s.baseOffset rn (halfOffset imm5)) .half

/-- LDR (register) (R209). -/
def execLdrReg (rt rn rm : LowReg) (s : State) : Outcome := s.loadTo rt (s.baseIndex rn rm) .word id

/-- LDRB (register) (R210). -/
def execLdrbReg (rt rn rm : LowReg) (s : State) : Outcome := s.loadTo rt (s.baseIndex rn rm) .byte id

/-- LDRH (register) (R211). -/
def execLdrhReg (rt rn rm : LowReg) (s : State) : Outcome := s.loadTo rt (s.baseIndex rn rm) .half id

/-- LDRSB (register) (R212). -/
def execLdrsbReg (rt rn rm : LowReg) (s : State) : Outcome := s.loadTo rt (s.baseIndex rn rm) .byte signByte

/-- LDRSH (register) (R213). -/
def execLdrshReg (rt rn rm : LowReg) (s : State) : Outcome := s.loadTo rt (s.baseIndex rn rm) .half signHalf

/-- STR (register) (R214). -/
def execStrReg (rt rn rm : LowReg) (s : State) : Outcome := s.storeFrom rt (s.baseIndex rn rm) .word

/-- STRB (register) (R215). -/
def execStrbReg (rt rn rm : LowReg) (s : State) : Outcome := s.storeFrom rt (s.baseIndex rn rm) .byte

/-- STRH (register) (R217). -/
def execStrhReg (rt rn rm : LowReg) (s : State) : Outcome := s.storeFrom rt (s.baseIndex rn rm) .half

end Sys2Proof.Machine
end

