-- ==== Sys2Proof/Machine/Logic.lean ====
section
/-! DEFINITION. Logical operations and moves (spec/41_data_processing_a.md R257 to R264, spec/42_data_processing_b.md R290 to R295,
R307). -/

namespace Sys2Proof.Machine

/-- A result in a low register, with N and Z; C and V stay. -/
def State.resultNZ (s : State) (rd : LowReg) (result : Word) : Outcome :=
  .next (((s.writeLow rd result).setFlags (s.flags.setNZ result)).advance 2)

/-- ANDS (R260). -/
def execAnds (rdn rm : LowReg) (s : State) : Outcome := s.resultNZ rdn (s.readLow rdn &&& s.readLow rm)

/-- ORRS (R261). -/
def execOrrs (rdn rm : LowReg) (s : State) : Outcome := s.resultNZ rdn (s.readLow rdn ||| s.readLow rm)

/-- EORS (R262). -/
def execEors (rdn rm : LowReg) (s : State) : Outcome := s.resultNZ rdn (s.readLow rdn ^^^ s.readLow rm)

/-- BICS (R263). -/
def execBics (rdn rm : LowReg) (s : State) : Outcome := s.resultNZ rdn (s.readLow rdn &&& ~~~s.readLow rm)

/-- MOVS, immediate (R290). -/
def execMovsImm (rd : LowReg) (imm8 : BitVec 8) (s : State) : Outcome := s.resultNZ rd (zext imm8)

/-- MOVS, register (R291). -/
def execMovsReg (rd rm : LowReg) (s : State) : Outcome := s.resultNZ rd (s.readLow rm)

/-- MVNS (R294). -/
def execMvns (rd rm : LowReg) (s : State) : Outcome := s.resultNZ rd (~~~s.readLow rm)

/-- MOV, any registers, no flags (R292). With Rd = PC it is a branch that leaves T alone (R293). -/
def execMov (rd rm : Reg) (s : State) : Outcome :=
  if rd = 15#4 then .next (s.branchTo (alignPc (s.readReg rm)))
  else .next ((s.writeReg rd (s.readReg rm)).advance 2)

/-- TST (R307). -/
def execTst (rn rm : LowReg) (s : State) : Outcome :=
  .next ((s.setFlags (s.flags.setNZ (s.readLow rn &&& s.readLow rm))).advance 2)

end Sys2Proof.Machine
end

