-- ==== Sys2Proof/Machine/Multiple.lean ====
section
/-! DEFINITION. LDM, STM, PUSH and POP (spec/40_memory_access.md R220, R222, R226, R230 to R232). No flag changes. The
address is checked for alignment once (20_memory.md R106). -/

namespace Sys2Proof.Machine

/-- HardFault from the state in which an instruction got an error, the stores it has made being kept (R222, R230, D24; log 18). -/
def Stored.run (x : Stored) (k : State → Outcome) : Outcome :=
  match x with
  | .all s' => k s'
  | .stopped _ c s' => raiseHardFault c s'
  | .fault f => .fault f
  | .refused r => .refused r

/-- Go on with the loaded words, or raise HardFault with the registers already reached settled (R220, R231, D24; log 17). -/
def Loaded.run (x : Loaded) (base : Option LowReg) (regs : List LowReg) (k : List Word → State → Outcome) : Outcome :=
  match x with
  | .all vs s' => k vs s'
  | .stopped vs c s' => raiseHardFault c (s'.settleLoaded base (regs.zip vs))
  | .fault f => .fault f
  | .refused r => .refused r

/-- LDM (R220): the base is written back exactly when it is not in the list. -/
def execLdm (rn : LowReg) (reglist : RegList) (s : State) : Outcome :=
  let regs := regsOfList reglist
  let base := s.readLow rn
  if !isAligned base .word then raiseHardFault .unaligned s
  else
    (loadWords .read regs.length base s).run (some rn) regs fun vs s' =>
      let s1 := s'.writeLows (regs.zip vs)
      .next ((if reglist.getLsbD rn.toNat then s1 else s1.writeLow rn (base + wordBytes regs.length)).advance 2)

/-- Whether STM stores an Unknown word for a register: it is the base and not the lowest of the list (R222). -/
def stmUnknown (rn : LowReg) (regs : List LowReg) : Bool := decide (rn ∈ regs) && regs.head? != some rn

/-- The words that STM stores; the free word stands for the base where it is not the lowest of the list (R222, U9; log 19); where it
is, the base before writeback is stored (the spec's general knowledge: PRESUMED, log 54). -/
def State.stmWords (s : State) (rn : LowReg) (regs : List LowReg) (unknown : Word) : List Word :=
  regs.map fun i => if i = rn && stmUnknown rn regs then unknown else s.readLow i

/-- STM (R222). -/
def execStm (rn : LowReg) (reglist : RegList) (s : State) : Outcome :=
  let regs := regsOfList reglist
  let base := s.readLow rn
  if !isAligned base .word then raiseHardFault .unaligned s
  else
    let words := s.stmWords rn regs s.drawWord.1
    let s0 := if stmUnknown rn regs then s.drawWord.2 else s
    (storeWords .write words base 0 s0).run fun s' =>
      .next ((s'.writeLow rn (base + wordBytes regs.length)).advance 2)

/-- The words that PUSH stores: the low registers of the list, then LR (R230). -/
def State.pushWords (s : State) (m : Bool) (reglist : RegList) : List Word :=
  (regsOfList reglist).map s.readLow ++ (if m then [s.lr] else [])

/-- PUSH (R230). -/
def execPush (m : Bool) (reglist : RegList) (s : State) : Outcome :=
  let words := s.pushWords m reglist
  let base := s.sp - wordBytes words.length
  if !isAligned base .word then raiseHardFault .unaligned s
  else (storeWords .write words base 0 s).run fun s' => .next ((s'.setSp base).advance 2)

/-- POP (R231, R232): SP moves before the PC is written (the spec's general knowledge: PRESUMED, log 52). -/
def execPop (p : Bool) (reglist : RegList) (s : State) : Outcome :=
  let regs := regsOfList reglist
  let count := regs.length + (if p then 1 else 0)
  let base := s.sp
  if !isAligned base .word then raiseHardFault .unaligned s
  else
    (loadWords .read count base s).run none regs fun vs s' =>
      let s1 := (s'.writeLows (regs.zip vs)).setSp (base + wordBytes count)
      if p then loadWritePC ((vs[regs.length]?).getD 0#32) s1 else .next (s1.advance 2)

end Sys2Proof.Machine
end

