-- ==== Sys2Proof/Machine/Shift.lean ====
section
/-! DEFINITION. Shifts and rotate (spec/41_data_processing_a.md R265 to R274). -/

namespace Sys2Proof.Machine

/-- A shifted value in a low register with N, Z and the carry out; V stays (R274). -/
def State.shiftedTo (s : State) (rd : LowReg) (r : Word × Bool) : Outcome :=
  .next (((s.writeLow rd r.1).setFlags { s.flags.setNZ r.1 with c := r.2 }).advance 2)

/-- A shift by the low byte of a register: by 0 the value and the carry stay (R267). -/
def State.shiftByReg (s : State) (rdm rs : LowReg) (shift : Word → Nat → Word × Bool) : Outcome :=
  let n := ((s.readLow rs).extractLsb' 0 8).toNat
  if n = 0 then s.shiftedTo rdm (s.readLow rdm, s.flags.c) else s.shiftedTo rdm (shift (s.readLow rdm) n)

/-- LSLS, immediate (R268). -/
def execLslsImm (rd rm : LowReg) (imm5 : BitVec 5) (s : State) : Outcome :=
  if imm5 = 0#5 then s.shiftedTo rd (s.readLow rm, s.flags.c)
  else s.shiftedTo rd (lslC (s.readLow rm) imm5.toNat)

/-- LSRS, immediate (R270). -/
def execLsrsImm (rd rm : LowReg) (imm5 : BitVec 5) (s : State) : Outcome :=
  s.shiftedTo rd (lsrC (s.readLow rm) (shiftLength imm5))

/-- ASRS, immediate (R266). -/
def execAsrsImm (rd rm : LowReg) (imm5 : BitVec 5) (s : State) : Outcome :=
  s.shiftedTo rd (asrC (s.readLow rm) (shiftLength imm5))

/-- LSLS, register (R269). -/
def execLslsReg (rdn rs : LowReg) (s : State) : Outcome := s.shiftByReg rdn rs lslC

/-- LSRS, register (R271). -/
def execLsrsReg (rdn rs : LowReg) (s : State) : Outcome := s.shiftByReg rdn rs lsrC

/-- ASRS, register (R267). -/
def execAsrsReg (rdn rs : LowReg) (s : State) : Outcome := s.shiftByReg rdn rs asrC

/-- RORS (R272). -/
def execRors (rdn rs : LowReg) (s : State) : Outcome := s.shiftByReg rdn rs rorC

end Sys2Proof.Machine
end

