-- ==== Sys2Proof/Machine/System.lean ====
section
/-! DEFINITION. Miscellaneous instructions (spec/44_misc.md). -/

namespace Sys2Proof.Machine

/-- BKPT (R341). With a debugger attached the core halts in Debug state (60_exceptions.md R485, D20; log 22). -/
def execBkpt (_imm8 : BitVec 8) (s : State) : Outcome :=
  if s.platform.debuggerAttached then .next { s with halted := true } else raiseHardFault .bkpt s

/-- CPSIE i (R343). -/
def execCpsie (s : State) : Outcome := .next ({ s with primask := false }.advance 2)

/-- CPSID i (R342). -/
def execCpsid (s : State) : Outcome := .next ({ s with primask := true }.advance 2)

/-- DMB (R344, R347): every access is complete already (20_memory.md R123). Every option does as 1111 does (PRESUMED, log 55). -/
def execDmb (_opt : BitVec 4) (s : State) : Outcome := .next (s.advance 4)

/-- DSB (R345, R347): every access is complete already (20_memory.md R123). Every option does as 1111 does (PRESUMED, log 55). -/
def execDsb (_opt : BitVec 4) (s : State) : Outcome := .next (s.advance 4)

/-- ISB (R346, R347): the window of stale fetches ends (20_memory.md R128). Every option does as 1111 does (PRESUMED, log 55). -/
def execIsb (_opt : BitVec 4) (s : State) : Outcome := .next ({ s with stale := [] }.advance 4)

/-- MRS (R350). -/
def execMrs (rd : Reg) (sr : SpecialReg) (s : State) : Outcome :=
  .next ((s.writeReg rd (s.readSpecial sr)).advance 4)

/-- MSR (R353, R355). -/
def execMsr (sr : SpecialReg) (rn : Reg) (s : State) : Outcome :=
  .next ((s.writeSpecial sr (s.readReg rn)).advance 4)

/-- NOP (R358). -/
def execNop (s : State) : Outcome := .next (s.advance 2)

/-- YIELD: refused, as the spec says (R366, D22; log 24). -/
def execYield (_s : State) : Outcome := .refused .yieldNotInSource

/-- WFE: refused, as the spec says (R366, D22; log 24). -/
def execWfe (_s : State) : Outcome := .refused .wfeNotSupported

/-- SEV: refused, as the spec says (R366, D22; log 24). -/
def execSev (_s : State) : Outcome := .refused .sevNotSupported

/-- WFI (R362). -/
def execWfi (s : State) : Outcome := .next ({ s with sleeping := true }.advance 2)

/-- SVC (R360): SVCall with the address of the next instruction, or HardFault where its priority is not high enough. A bus error inside that
entry drops the call (DESIGN CHOICE, log 51). -/
def execSvc (_imm8 : BitVec 8) (s : State) : Outcome :=
  if s.executionPriority ≤ s.prio .svCall then raiseHardFault .svc s
  else exceptionEntry .svCall (s.pc + 2#32) s

/-- UDF (R368). -/
def execUdf (_imm8 : BitVec 8) (s : State) : Outcome := raiseHardFault .undefined s

/-- UDF.W (R369). -/
def execUdfW (_imm16 : BitVec 16) (s : State) : Outcome := raiseHardFault .undefined s

end Sys2Proof.Machine
end

