-- ==== Sys2Proof/Machine/Processor.lean ====
section
/-! DEFINITION. The agents and their steps: the processor, the interrupt sampler, the SysTick timer, reset and the debugger
(spec/60_exceptions.md R413, R447, R460, R466, R470, R482, R485; spec/70_reset_and_hazards.md R500 to R503). -/

namespace Sys2Proof.Machine

/-! ### The processor -/

/-- What a decoded pattern does: an instruction has its meaning, an Undefined pattern raises HardFault (30_encoding.md R160, R166), an
Unpredictable pattern or an unallocated hint is refused (R164, R167; log 25). -/
def runDecoded (d : Decoded) (s : State) : Outcome :=
  match d with
  | .instr i => exec i s
  | .reject .undefined => raiseHardFault .undefined s
  | .reject why => .refused (.unpredictableEncoding why)

/-- Execute the instruction at the pc: both halfwords of a long one are fetched first (20_memory.md R112, D16). -/
def runNext (s : State) : Outcome :=
  (fetch16 s s.pc).run s fun hw1 s1 =>
    if isLongHalf hw1 then (fetch16 s1 (s.pc + 2#32)).run s1 fun hw2 s2 => runDecoded (decode hw1 hw2) s2
    else runDecoded (decode hw1 0#16) s1

/-- The step of a processor that is neither locked up nor asleep (60_exceptions.md R413). -/
def awakeStep (s : State) : Outcome :=
  match s.takeable with
  | some e => exceptionEntry e s.pc s
  | none => runNext s

/-- Whether an exception wakes the sleeping processor (60_exceptions.md R482). -/
def State.wakes (s : State) : Bool :=
  match s.candidate with
  | some e => decide (s.prio e < s.executionPriorityNoMask)
  | none => false

/-- `Step()` (60_exceptions.md R413, R447, R482). A halted core makes no step (R485; log 22). -/
def processorStep (s : State) : Outcome :=
  if s.halted then .next s
  else if s.lockup then
    if s.pending.nmi && !s.active.nmi then exceptionEntry .nmi 0xFFFFFFFE#32 { s with lockup := false }
    else .next s
  else if s.sleeping then
    if s.wakes then awakeStep { s with sleeping := false } else .next s
  else awakeStep s

/-! ### The sampler -/

/-- `SamplerStep()` on one line (60_exceptions.md R460, R466). -/
def sampleLine (level prev pending active : Bool) : Bool := pending || (level && !active) || (level && !prev)

/-- `SamplerStep()` (60_exceptions.md R460, R466). -/
def State.sample (s : State) : State :=
  { s with
    pending :=
      { s.pending with
        irq := s.pending.irq ||| (s.irqLine &&& ~~~s.active.irq) ||| (s.irqLine &&& ~~~s.irqPrev)
        nmi := sampleLine s.nmiLine s.nmiPrev s.pending.nmi s.active.nmi }
    irqPrev := s.irqLine, nmiPrev := s.nmiLine }

/-! ### The SysTick timer -/

/-- `SysTickTick()` while the timer is enabled (60_exceptions.md R470, R471). -/
def State.countDown (s : State) : State :=
  if s.sysTick.current = 0#24 then { s with sysTick := { s.sysTick with current := s.sysTick.reload } }
  else if s.sysTick.current = 1#24 then
    { s with
      sysTick := { s.sysTick with current := 0#24, countFlag := true }
      pending := { s.pending with sysTick := s.pending.sysTick || s.sysTick.tickInt } }
  else { s with sysTick := { s.sysTick with current := s.sysTick.current - 1#24 } }

/-- One clock of the timer: nothing while it is disabled (60_exceptions.md R470) or the core is halted (R474). -/
def State.sysTickTick (s : State) : State :=
  if s.sysTick.enable && !s.halted then s.countDown else s

/-! ### Reset -/

/-- The values of what is Unknown after a reset (10_state.md R68). -/
structure Unknowns where
  r : Vector Word 13
  psp : Word
  lr : Word
  flags : Flags
  reload : BitVec 24
  current : BitVec 24
  deriving DecidableEq, Repr

/-- Free values from the number `n` on (93_implementation_defined.md U1; log 5). -/
def Unknowns.free (n : Nat) : Unknowns :=
  { r := Vector.ofFn fun i => Config.freeWord (n + i.val)
    psp := Config.freeWord (n + 13)
    lr := Config.freeWord (n + 14)
    flags := Flags.ofWord (Config.freeWord (n + 15))
    reload := (Config.freeWord (n + 16)).extractLsb' 0 24
    current := (Config.freeWord (n + 17)).extractLsb' 0 24 }

/-- The values that `State.reset` names (log 4). -/
def Unknowns.named : Unknowns :=
  { r := State.reset.r, psp := State.reset.psp, lr := State.reset.lr, flags := State.reset.flags
    reload := State.reset.sysTick.reload, current := State.reset.sysTick.current }

/-- The state after a reset whose two words are `sp` and `vector` (70_reset_and_hazards.md R500, 10_state.md R68). Memory, the platform,
the lines and the schedule stay; the previous levels are the present ones (D14). -/
def State.afterReset (s : State) (u : Unknowns) (sp vector : Word) : State :=
  { State.reset with
    r := u.r, psp := alignSp u.psp, lr := u.lr, flags := u.flags
    sysTick := { State.reset.sysTick with reload := u.reload, current := u.current }
    msp := alignSp sp, pc := alignPc vector, tbit := vector.getLsbD 0
    mem := s.mem, platform := s.platform, schedule := s.schedule
    irqLine := s.irqLine, nmiLine := s.nmiLine, irqPrev := s.irqLine, nmiPrev := s.nmiLine
    freeCount := s.freeCount }

/-- `Reset()` (70_reset_and_hazards.md R500). A bus error on either word is refused (R503, D33; log 37). -/
def resetWith (u : Unknowns) (s : State) : Outcome :=
  match vectorRead s 0#32, vectorRead s 4#32 with
  | some sp, some vector => .next (s.afterReset u sp vector)
  | _, _ => .refused .resetVectorBusError

/-- A reset inside a run: what is Unknown after it is free (log 5). -/
def warmReset (s : State) : Outcome :=
  resetWith (Unknowns.free s.freeCount) { s with freeCount := s.freeCount + 18 }

/-- Memory with a free byte at each of the addresses (70_reset_and_hazards.md R502). -/
def scramble : List Nat → State → State
  | [], s => s
  | a :: rest, s =>
    scramble rest { s.drawWord.2 with mem := s.mem.write a (s.drawWord.1.extractLsb' 0 8) }

/-- A reset that strikes while the processor makes a step: the bytes that the step stores to, any one of which may have
been reached, hold free values (70_reset_and_hazards.md R502, D14; log 14). Those of an exception entry that would end in lockup on a bus error
are among them, though that lockup itself leaves memory whole (log 20). -/
def midStepReset (s : State) : Outcome :=
  match processorStep { s with storeTrace := some [] } with
  | .next t => warmReset (scramble (t.storeTrace.getD []) { s with freeCount := t.freeCount })
  | .fault f => .fault f
  | .refused r => .refused r

/-! ### Turns -/

/-- The processor's turn: the sampler runs before it (D30; log 12). -/
def processorTurn (s : State) : Outcome := processorStep s.sample

/-- A Debug Entry request wakes the core; an attached debugger halts it and so ends a lockup (60_exceptions.md R447, R482, R485; log 22). -/
def State.debugEntry (s : State) : State :=
  if s.platform.debuggerAttached then { s with sleeping := false, lockup := false, halted := true }
  else { s with sleeping := false }

/-- One turn of the schedule (log 11). -/
def takeTurn (t : Turn) (s : State) : Outcome :=
  match t with
  | .processor => processorTurn s
  | .lines irq nmi => .next { s with irqLine := irq, nmiLine := nmi }.sample
  | .tick => .next s.sysTickTick
  | .reset => warmReset s
  | .resetMidStep => midStepReset s.sample
  | .wake => .next { s with sleeping := false }
  | .debugEntry => .next s.debugEntry

/-- What the machine does when the schedule is empty: the requested reset (10_state.md R58, D12; log 13), or the processor's turn. -/
def idleTurn (s : State) : Outcome := if s.resetRequested then warmReset s else processorTurn s

end Sys2Proof.Machine
end

