-- ==== Sys2Proof/Machine/Step.lean ====
section
/-! DEFINITION. The step of the whole machine, and an instruction put where it is fetched next. -/

namespace Sys2Proof.Machine

/-- One step: the next turn of the schedule, or, when there is none, the processor's (00_scope.md R18, 60_exceptions.md R413; log 11). -/
def step (s : State) : Host.Outcome State Fault Refusal :=
  match s.schedule with
  | [] => idleTurn s
  | t :: rest => takeTurn t { s with schedule := rest }

/-- The instruction whose table word is `w`, stored at the pc: its halfwords in order, each little-endian (30_encoding.md R142), with T set and no
stale halfword, which is what a fetch needs (20_memory.md R112, R128). It stands for the loading of a program from outside (log 2). -/
def State.withFetchWord (s : State) (nbits w : Nat) : State :=
  let h := tableHalves nbits w
  { s with
    mem := (s.mem.writeHalf s.pc.toNat h.1).writeHalf (s.pc + 2#32).toNat h.2
    tbit := true
    stale := [] }

end Sys2Proof.Machine
end

