-- ==== Sys2Proof/Safety.lean ====
section
/-! DEFINITION. What the statements speak in: the invariant of the machine, where plain memory answers, and frames (what stays as it
was). -/

namespace Sys2Proof.Machine

/-- What holds of every state the machine comes through. -/
structure State.Inv (s : State) : Prop where
  /-- Memory is in its canonical form. -/
  memWf : s.mem.wf = true
  /-- Bits [1:0] of MSP are 0 (10_state.md R24). -/
  mspAligned : alignSp s.msp = s.msp
  /-- Bits [1:0] of PSP are 0 (10_state.md R24). -/
  pspAligned : alignSp s.psp = s.psp
  /-- Bit 0 of the pc is 0 (10_state.md R26). -/
  pcAligned : alignPc s.pc = s.pc
  /-- IPSR holds 0 or the number of an exception (10_state.md R32, 60_exceptions.md R403). -/
  ipsrLegal : s.ipsr = 0#6 ∨ (Exc.ofNumber s.ipsr).isSome = true
  /-- In Handler mode CONTROL.SPSEL is 0 (60_exceptions.md R424). -/
  handlerOnMain : s.ipsr ≠ 0#6 → s.spsel = false
  /-- HardFault is never pending between steps (60_exceptions.md R406, R443). -/
  hardFaultNotPending : s.pending.hardFault = false
  /-- SVCall is never pending between steps (60_exceptions.md R406). -/
  svCallNotPending : s.pending.svCall = false
  /-- The exception that IPSR names is active, but where the core has stopped for good (60_exceptions.md R424, R446). -/
  handledIsActive : s.lockup = false → s.halted = false →
    ∀ e, Exc.ofNumber s.ipsr = some e → s.active.get e = true
  /-- In Thread mode no exception is active (60_exceptions.md R400, R432). -/
  threadIdle : s.ipsr = 0#6 → s.active = ExcSet.none
  /-- The model's own trace of stores is off (log 14). -/
  noTrace : s.storeTrace = none

/-- An aligned access that plain memory answers with data: no device, no system register, no bus error. -/
def State.Readable (s : State) (a : Word) (w : Width) (kind : Config.AccessKind) : Prop :=
  isAligned a w = true ∧ (regionOf a.toNat).memType = .normal ∧
    busError s.platform a.toNat w.bytes kind = false

/-- An aligned access that plain memory takes: no device, no system register, no flash, no bus error. -/
def State.Writable (s : State) (a : Word) (w : Width) (kind : Config.AccessKind) : Prop :=
  s.Readable a w kind ∧ inFlash s.platform a.toNat = false

/-- The address of word number k of a sequence. -/
def wordAt (base : Word) (k : Nat) : Word := base + BitVec.ofNat 32 (4 * k)

/-- The word at an address. -/
def State.wordOf (s : State) (a : Word) : Word := s.mem.readWord a.toNat

/-- Byte addresses outside the access of width `w` at `a`. -/
def Outside (a : Word) (w : Width) (b : Nat) : Prop := b < a.toNat ∨ a.toNat + w.bytes ≤ b

/-- The position of register i among the registers of a list: how many of them have a lower number. -/
def rankIn (list : RegList) (i : LowReg) : Nat :=
  ((List.range i.toNat).filter fun j => list.getLsbD j).length

/-- How many registers a list has. -/
def regCount (list : RegList) : Nat := ((List.range 8).filter fun j => list.getLsbD j).length

/-- Every byte of memory reads as before. -/
def SameMemory (s t : State) : Prop := ∀ b, t.mem.read b = s.mem.read b

/-- Every numbered register but `d` and the PC reads as before. -/
def SameRegsBut (d : Reg) (s t : State) : Prop := ∀ n, n ≠ d → n ≠ 15#4 → t.readReg n = s.readReg n

/-- Nothing but low register `rd`, the flags and the pc has changed. -/
def FlagFrame (rd : LowReg) (s t : State) : Prop :=
  t = { s with r := t.r, flags := t.flags, pc := t.pc } ∧ SameRegsBut (LowReg.toReg rd) s t ∧ SameMemory s t

/-- Nothing but low register `rd` and the pc has changed. -/
def PlainFrame (rd : LowReg) (s t : State) : Prop :=
  t = { s with r := t.r, pc := t.pc } ∧ SameRegsBut (LowReg.toReg rd) s t ∧ SameMemory s t

/-- Nothing but memory, the model's own records of stores and the pc has changed. -/
def StoreFrame (s t : State) : Prop :=
  t = { s with mem := t.mem, stale := t.stale, storeTrace := t.storeTrace, pc := t.pc }

/-- The flags of an addition or subtraction whose exact signed result is `exact` and whose carry is `carry` (00_scope.md R12, R13). -/
def ArithFlags (f : Flags) (exact : Int) (carry : Prop) : Prop :=
  (f.n = true ↔ (BitVec.ofInt 32 exact).toInt < 0) ∧ (f.z = true ↔ BitVec.ofInt 32 exact = 0#32) ∧
    (f.c = true ↔ carry) ∧ (f.v = true ↔ exact < -2147483648 ∨ 2147483648 ≤ exact)

/-- N and Z from a result; C and V as before (00_scope.md R13). -/
def LogicFlags (before after : Flags) (result : Word) : Prop :=
  (after.n = true ↔ result.toInt < 0) ∧ (after.z = true ↔ result = 0#32) ∧
    after.c = before.c ∧ after.v = before.v

/-- N and Z from a result, C as given, V as before (41_data_processing_a.md R274). -/
def ShiftFlags (before after : Flags) (result : Word) (carry : Bool) : Prop :=
  (after.n = true ↔ result.toInt < 0) ∧ (after.z = true ↔ result = 0#32) ∧
    after.c = carry ∧ after.v = before.v

/-- The xPSR word that an entry from `s` stacks (60_exceptions.md R420, R421). -/
def StackedPsr (s : State) (psr : Word) : Prop :=
  psr.getLsbD 31 = s.flags.n ∧ psr.getLsbD 30 = s.flags.z ∧ psr.getLsbD 29 = s.flags.c ∧
    psr.getLsbD 28 = s.flags.v ∧ psr.extractLsb' 25 3 = 0#3 ∧ psr.getLsbD 24 = s.tbit ∧
    psr.extractLsb' 10 14 = 0#14 ∧ psr.getLsbD 9 = s.sp.getLsbD 2 ∧ psr.extractLsb' 6 3 = 0#3 ∧
    psr.extractLsb' 0 6 = s.ipsr

/-- Exception `e` has been entered from `s` with return address `ret`, and `t` is the state after it (60_exceptions.md R420 to R425). -/
structure Entered (e : Exc) (ret : Word) (s t : State) : Prop where
  frame :
    t.wordOf (frameAddress s.sp) = s.readReg 0 ∧ t.wordOf (wordAt (frameAddress s.sp) 1) = s.readReg 1 ∧
    t.wordOf (wordAt (frameAddress s.sp) 2) = s.readReg 2 ∧ t.wordOf (wordAt (frameAddress s.sp) 3) = s.readReg 3 ∧
    t.wordOf (wordAt (frameAddress s.sp) 4) = s.readReg 12 ∧ t.wordOf (wordAt (frameAddress s.sp) 5) = s.lr ∧
    t.wordOf (wordAt (frameAddress s.sp) 6) = ret ∧ StackedPsr s (t.wordOf (wordAt (frameAddress s.sp) 7))
  otherBytes : ∀ b, b < (frameAddress s.sp).toNat ∨ (frameAddress s.sp).toNat + 32 ≤ b → t.mem.read b = s.mem.read b
  pointers : if s.mode = .thread ∧ s.spsel = true then t.psp = frameAddress s.sp ∧ t.msp = s.msp
    else t.msp = frameAddress s.sp ∧ t.psp = s.psp
  link : t.lr = if s.mode = .handler then 0xFFFFFFF1#32 else if s.spsel then 0xFFFFFFFD#32 else 0xFFFFFFF9#32
  context : t.ipsr = e.number ∧ t.mode = .handler ∧ t.spsel = false
  bits : t.pending.get e = false ∧ t.active.get e = true ∧
    ∀ f, f ≠ e → t.pending.get f = s.pending.get f ∧ t.active.get f = s.active.get f
  vector : t.tbit = (t.mem.readWord (4 * e.number.toNat)).getLsbD 0 ∧
    t.pc = t.mem.readWord (4 * e.number.toNat) &&& 0xFFFFFFFE#32
  rest : t = { s with
    mem := t.mem, msp := t.msp, psp := t.psp, lr := t.lr, ipsr := t.ipsr, spsel := t.spsel
    pending := t.pending, active := t.active, tbit := t.tbit, pc := t.pc
    stale := [], storeTrace := t.storeTrace }

/-- An entry of `e` from `s` meets plain memory at its frame and its vector. -/
def State.CanStack (s : State) (e : Exc) : Prop :=
  (∀ k, k < 8 → s.Writable (wordAt (frameAddress s.sp) k) .word .stack) ∧
    busError s.platform (4 * e.number.toNat) 4 .vector = false

/-- What `raise HardFault(cause)` is to do from `s`: lockup while NMI or HardFault is active, else an entry of HardFault that returns to
the instruction (60_exceptions.md R440, R445). -/
def HardFaultOutcome (s : State) : Outcome :=
  if s.active.nmi || s.active.hardFault then .next { s with lockup := true }
  else exceptionEntry .hardFault s.pc s

/-- The instruction completes: `rd` holds `result`, all four flags are those of the exact result, nothing else but the pc changes. -/
def ArithCompletes (i : Instr) (s : State) (rd : LowReg) (result : Word) (exact : Int) (carry : Prop) : Prop :=
  ∃ t, exec i s = .next t ∧ t.readLow rd = result ∧ ArithFlags t.flags exact carry ∧ FlagFrame rd s t ∧
    t.pc = s.pc + 2#32

/-- The instruction completes: the four flags are those of the exact result, nothing else but the pc changes. -/
def CompareCompletes (i : Instr) (s : State) (exact : Int) (carry : Prop) : Prop :=
  ∃ t, exec i s = .next t ∧ ArithFlags t.flags exact carry ∧ SameMemory s t ∧
    t = { s with flags := t.flags, pc := s.pc + 2#32 }

/-- The instruction completes: `rd` holds `result`, N and Z are the result's, nothing else but the pc changes. -/
def LogicCompletes (i : Instr) (s : State) (rd : LowReg) (result : Word) : Prop :=
  ∃ t, exec i s = .next t ∧ t.readLow rd = result ∧ LogicFlags s.flags t.flags result ∧ FlagFrame rd s t ∧
    t.pc = s.pc + 2#32

/-- The instruction completes: `rd` holds `result`, N and Z are the result's, C is `carry`, nothing else but the pc changes. -/
def ShiftCompletes (i : Instr) (s : State) (rd : LowReg) (result : Word) (carry : Bool) : Prop :=
  ∃ t, exec i s = .next t ∧ t.readLow rd = result ∧ ShiftFlags s.flags t.flags result carry ∧ FlagFrame rd s t ∧
    t.pc = s.pc + 2#32

/-- The instruction completes: `rd` holds `result`, nothing else but the pc changes. -/
def PlainCompletes (i : Instr) (s : State) (rd : LowReg) (result : Word) : Prop :=
  ∃ t, exec i s = .next t ∧ t.readLow rd = result ∧ PlainFrame rd s t ∧ t.pc = s.pc + 2#32

/-- Nothing but register `d` (a stack pointer: the current one) and the pc has changed. -/
def HighFrame (d : Reg) (s t : State) : Prop :=
  t = { s with r := t.r, msp := t.msp, psp := t.psp, lr := t.lr, pc := t.pc } ∧ SameRegsBut d s t ∧
    SameMemory s t ∧ (d ≠ 13#4 ∨ s.usesPsp = true → t.msp = s.msp) ∧ (d ≠ 13#4 ∨ s.usesPsp = false → t.psp = s.psp)

/-- The load completes where plain memory answers at `a`: `rt` holds `value`. -/
def LoadCompletes (i : Instr) (s : State) (rt : LowReg) (a : Word) (w : Width) (value : Word) : Prop :=
  s.Readable a w .read → PlainCompletes i s rt value

/-- The store completes where plain memory answers at `a`: byte k of the access holds byte k of `value`, every byte outside reads as
before, nothing else but the pc changes. -/
def StoreCompletes (i : Instr) (s : State) (a : Word) (w : Width) (value : Word) : Prop :=
  s.mem.wf = true → s.Writable a w .write →
    ∃ t, exec i s = .next t ∧ (∀ k, k < w.bytes → t.mem.read (a.toNat + k) = value.extractLsb' (8 * k) 8) ∧
      (∀ b, Outside a w b → t.mem.read b = s.mem.read b) ∧ StoreFrame s t ∧ t.pc = s.pc + 2#32

/-- An access that is not aligned, or that the platform answers with a bus error, raises HardFault with nothing else done. -/
def AccessFaults (i : Instr) (s : State) (a : Word) (w : Width) (kind : Config.AccessKind) : Prop :=
  isAligned a w = false ∨ (regionOf a.toNat ≠ .ppb ∧ busError s.platform a.toNat w.bytes kind = true) →
    exec i s = HardFaultOutcome s

/-- An aligned access that a device of the platform answers with data (20_memory.md R102, R104; log 10). -/
def State.OnDevice (s : State) (a : Word) (w : Width) (kind : Config.AccessKind) : Prop :=
  isAligned a w = true ∧ (regionOf a.toNat).memType = .device ∧ busError s.platform a.toNat w.bytes kind = false

/-- The platform answers the word access with a bus error (20_memory.md R108). -/
def State.BusErrorAt (s : State) (a : Word) (kind : Config.AccessKind) : Prop :=
  regionOf a.toNat ≠ .ppb ∧ busError s.platform a.toNat 4 kind = true

/-- The load completes where a device answers: `rt` holds some value of the form `form`, no other register and nothing else that
the core holds changes (log 10). -/
def DeviceLoads (i : Instr) (s : State) (rt : LowReg) (a : Word) (w : Width) (form : Word → Prop) : Prop :=
  s.OnDevice a w .read →
    ∃ t, exec i s = .next t ∧ form (t.readLow rt) ∧ SameRegsBut (LowReg.toReg rt) s t ∧
      t = { s with r := t.r, freeCount := t.freeCount, pc := s.pc + 2#32 }

/-- The store completes where a device answers: nothing that the core holds changes but the pc (log 10). -/
def DeviceStores (i : Instr) (s : State) (a : Word) (w : Width) : Prop :=
  s.OnDevice a w .write → exec i s = .next { s with pc := s.pc + 2#32 }

/-- A load of several registers has got an error at word number `k` from `base`, and HardFault is raised from `u`: of the registers of the
list, those of the words before it hold their old value or that word, every other register and everything else is as in `s`
(40_memory_access.md R220, R231; log 17). -/
def LoadsStopped (list : RegList) (base : Word) (k : Nat) (s u : State) : Prop :=
  (∀ i : LowReg, u.readLow i = s.readLow i ∨
    (list.getLsbD i.toNat = true ∧ rankIn list i < k ∧ u.readLow i = s.wordOf (wordAt base (rankIn list i)))) ∧
  (∀ n : Reg, 8 ≤ n.toNat → n ≠ 15#4 → u.readReg n = s.readReg n) ∧
  u = { s with r := u.r, freeCount := u.freeCount }

/-- A store of several registers has got an error at word number `k` from `base`, and HardFault is raised from `u`: bytes outside the words
before it and everything else are as in `s` (40_memory_access.md R222, R230; log 18). -/
def StoresStopped (base : Word) (k : Nat) (s u : State) : Prop :=
  (∀ b, (∀ j, j < k → Outside (wordAt base j) .word b) → u.mem.read b = s.mem.read b) ∧
  u = { s with mem := u.mem, stale := u.stale, storeTrace := u.storeTrace, freeCount := u.freeCount }

/-- The first `n` words of the frame of an entry from `s` (60_exceptions.md R421; log 42). -/
def FrameHolds (n : Nat) (ret : Word) (s t : State) : Prop :=
  (0 < n → t.wordOf (frameAddress s.sp) = s.readReg 0) ∧ (1 < n → t.wordOf (wordAt (frameAddress s.sp) 1) = s.readReg 1) ∧
  (2 < n → t.wordOf (wordAt (frameAddress s.sp) 2) = s.readReg 2) ∧
  (3 < n → t.wordOf (wordAt (frameAddress s.sp) 3) = s.readReg 3) ∧
  (4 < n → t.wordOf (wordAt (frameAddress s.sp) 4) = s.readReg 12) ∧
  (5 < n → t.wordOf (wordAt (frameAddress s.sp) 5) = s.lr) ∧ (6 < n → t.wordOf (wordAt (frameAddress s.sp) 6) = ret) ∧
  (7 < n → StackedPsr s (t.wordOf (wordAt (frameAddress s.sp) 7)))

/-- HardFault's handler has been entered without a frame: its context and its vector (60_exceptions.md R427, R446). -/
def HardFaultContext (t : State) : Prop :=
  t.ipsr = 3#6 ∧ t.mode = .handler ∧ t.spsel = false ∧ t.active.hardFault = true ∧ t.pending.hardFault = false ∧
    t.tbit = (t.mem.readWord 12).getLsbD 0 ∧ t.pc = t.mem.readWord 12 &&& 0xFFFFFFFE#32

/-- What returning from `e` does to the bits of `f`: `e` is no longer active, and pends again if it is an interrupt whose line is
asserted (60_exceptions.md R430, R464; log 45). -/
def BitsAfterReturn (e f : Exc) (s t : State) : Prop :=
  (t.active.get f = true ↔ s.active.get f = true ∧ f ≠ e) ∧
    (t.pending.get f = true ↔ s.pending.get f = true ∨ (f = e ∧ ∃ m, e = .irq m ∧ s.irqLine.getLsbD m.val = true))

/-- The values that a reset gives, written out from 10_state.md R68 and 70_reset_and_hazards.md R504. -/
structure ResetValues (t : State) : Prop where
  mode : t.ipsr = 0#6 ∧ t.mode = .thread
  primask : t.primask = false
  spsel : t.spsel = false
  idle : ∀ e, t.pending.get e = false ∧ t.active.get e = false
  enables : t.irqEnable = 0#9
  priorities : (∀ (m : Nat) (h : m < 9), t.irqPrio[m] = 0#2) ∧ t.prioSVCall = 0#2 ∧ t.prioPendSV = 0#2 ∧ t.prioSysTick = 0#2
  scr : t.sevOnPend = false ∧ t.sleepDeep = false ∧ t.sleepOnExit = false
  sysTick : t.sysTick.enable = false ∧ t.sysTick.tickInt = false ∧ t.sysTick.clkSource = false ∧ t.sysTick.countFlag = false
  awake : t.sleeping = false ∧ t.lockup = false ∧ t.resetRequested = false

/-- What holds after a reset of `s` with the schedule `rest` to come, in the memory of `t` (70_reset_and_hazards.md R500, 10_state.md R68;
logs 14, 15, 22, 30 and 36). -/
structure AfterReset (s : State) (rest : List Turn) (t : State) : Prop where
  values : ResetValues t
  vectors : t.msp = t.mem.readWord 0 &&& 0xFFFFFFFC#32 ∧ t.pc = t.mem.readWord 4 &&& 0xFFFFFFFE#32 ∧
    t.tbit = (t.mem.readWord 4).getLsbD 0
  psp : t.psp &&& 3#32 = 0#32
  inputs : t.platform = s.platform ∧ t.schedule = rest ∧ t.irqLine = s.irqLine ∧ t.nmiLine = s.nmiLine
  levels : t.irqPrev = s.irqLine ∧ t.nmiPrev = s.nmiLine
  records : t.halted = false ∧ t.stale = [] ∧ t.storeTrace = none

/-- The next step is a reset between two steps: a reset turn, or one that has been requested (logs 11 and 13); `rest` is the schedule after it. -/
def ResetNext (s : State) (rest : List Turn) : Prop :=
  s.schedule = .reset :: rest ∨ (s.schedule = [] ∧ rest = [] ∧ s.resetRequested = true)

/-! ### Single accesses by their address, and sequences of accesses -/

/-- `i` loads the word at `a` into `rt`: the four forms of LDR (40_memory_access.md R201, R202, R209, R216). -/
def WordLoad (s : State) (rt : LowReg) (a : Word) (i : Instr) : Prop :=
  (∃ rn imm5, i = .ldrImm rt rn imm5 ∧ s.readLow rn + BitVec.ofNat 32 (4 * imm5.toNat) = a) ∨
  (∃ rn rm, i = .ldrReg rt rn rm ∧ s.readLow rn + s.readLow rm = a) ∨
  (∃ imm8, i = .ldrSp rt imm8 ∧ s.sp + BitVec.ofNat 32 (4 * imm8.toNat) = a) ∨
  ∃ imm8, i = .ldrLit rt imm8 ∧ BitVec.ofNat 32 ((s.pc + 4#32).toNat / 4 * 4 + 4 * imm8.toNat) = a

/-- `i` stores the word `v` at `a`: the three forms of STR (40_memory_access.md R205, R206, R214). -/
def WordStore (s : State) (a v : Word) (i : Instr) : Prop :=
  ∃ rt, s.readLow rt = v ∧
    ((∃ rn imm5, i = .strImm rt rn imm5 ∧ s.readLow rn + BitVec.ofNat 32 (4 * imm5.toNat) = a) ∨
     (∃ rn rm, i = .strReg rt rn rm ∧ s.readLow rn + s.readLow rm = a) ∨
     ∃ imm8, i = .strSp rt imm8 ∧ s.sp + BitVec.ofNat 32 (4 * imm8.toNat) = a)

/-- `i` loads a byte or a halfword from `a` (40_memory_access.md R203, R204, R210 to R213). -/
def NarrowLoad (s : State) (a : Word) (w : Width) (i : Instr) : Prop :=
  ∃ rt rn, (w = .byte ∧ ∃ imm5, i = .ldrbImm rt rn imm5 ∧ s.readLow rn + BitVec.ofNat 32 imm5.toNat = a) ∨
    (w = .half ∧ ∃ imm5, i = .ldrhImm rt rn imm5 ∧ s.readLow rn + BitVec.ofNat 32 (2 * imm5.toNat) = a) ∨
    ∃ rm, s.readLow rn + s.readLow rm = a ∧
      ((w = .byte ∧ (i = .ldrbReg rt rn rm ∨ i = .ldrsbReg rt rn rm)) ∨
       (w = .half ∧ (i = .ldrhReg rt rn rm ∨ i = .ldrshReg rt rn rm)))

/-- `i` stores a byte or a halfword at `a` (40_memory_access.md R207, R208, R215, R217). -/
def NarrowStore (s : State) (a : Word) (w : Width) (i : Instr) : Prop :=
  ∃ rt rn, (w = .byte ∧ ∃ imm5, i = .strbImm rt rn imm5 ∧ s.readLow rn + BitVec.ofNat 32 imm5.toNat = a) ∨
    (w = .half ∧ ∃ imm5, i = .strhImm rt rn imm5 ∧ s.readLow rn + BitVec.ofNat 32 (2 * imm5.toNat) = a) ∨
    ∃ rm, s.readLow rn + s.readLow rm = a ∧ ((w = .byte ∧ i = .strbReg rt rn rm) ∨ (w = .half ∧ i = .strhReg rt rn rm))

/-- Words read one after the other at rising addresses from `a`, each of them answered, whatever answers: they are `vs`, and lead from `s`
to `t` (20_memory.md R109, R110; log 31). -/
def ReadInOrder (kind : Config.AccessKind) : List Word → Word → State → State → Prop
  | [], _, s, t => t = s
  | v :: vs, a, s, t => ∃ u, memRead s a .word kind = .ok v u ∧ ReadInOrder kind vs (a + 4#32) u t

/-- The words `vs` stored one after the other at rising addresses from `a`, each of them taken, whatever takes it: they lead from `s` to `t`
(20_memory.md R109, R111; log 31). -/
def WrittenInOrder (kind : Config.AccessKind) : List Word → Word → State → State → Prop
  | [], _, s, t => t = s
  | v :: vs, a, s, t => ∃ u, memWrite s a .word v kind = .ok () u ∧ WrittenInOrder kind vs (a + 4#32) u t

/-- The words that STM stores, and the state it stores them from: the registers of the list by rising number; of the word for a base that is
not the lowest nothing is said (40_memory_access.md R222; logs 19 and 54). -/
def StmWords (s : State) (rn : LowReg) (list : RegList) (vs : List Word) (s0 : State) : Prop :=
  vs.length = regCount list ∧
    (∀ i : LowReg, list.getLsbD i.toNat = true → i ≠ rn ∨ rankIn list i = 0 → vs[rankIn list i]? = some (s.readLow i)) ∧
    s0 = { s with freeCount := s0.freeCount }

/-- The words that PUSH stores: the registers of the list by rising number, then LR (40_memory_access.md R230). -/
def PushWords (s : State) (m : Bool) (list : RegList) (vs : List Word) : Prop :=
  vs.length = regCount list + (if m then 1 else 0) ∧
    (∀ i : LowReg, list.getLsbD i.toNat = true → vs[rankIn list i]? = some (s.readLow i)) ∧
    (m = true → vs[regCount list]? = some s.lr)

/-! ### The system registers in memory -/

/-- The addresses of the Private Peripheral Bus that hold a register (10_state.md R43, R49, R63). -/
def registerAddresses : List Nat :=
  [0xE000E010, 0xE000E014, 0xE000E018, 0xE000E01C, 0xE000E100, 0xE000E180, 0xE000E200, 0xE000E280,
    0xE000E400, 0xE000E404, 0xE000E408, 0xE000ED00, 0xE000ED04, 0xE000ED0C, 0xE000ED10, 0xE000ED14, 0xE000ED1C, 0xE000ED20]

/-- An aligned word access to the Private Peripheral Bus at an address that holds no register (10_state.md R42, D10). -/
def NoRegisterAt (a : Word) : Prop :=
  regionOf a.toNat = .ppb ∧ isAligned a .word = true ∧ a.toNat ∉ registerAddresses

/-- The list of one register. -/
def oneRegister (rt : LowReg) : RegList := 1#8 <<< rt.toNat

/-- A word read at `a` gives `value` and leaves `s'`, and so does every instruction that makes one: the four forms of LDR, LDM and POP of one
register, and POP of the PC. LoadMultipleResult, PopResult and PopPcResult make longer lists sequences of such reads. -/
structure RegisterReads (s : State) (a value : Word) (s' : State) : Prop where
  access : memRead s a .word .read = .ok value s'
  ldr : ∀ i rt, WordLoad s rt a i →
    ∃ t, exec i s = .next t ∧ t.readLow rt = value ∧ PlainFrame rt s' t ∧ t.pc = s.pc + 2#32
  ldm : ∀ rt rn, s.readLow rn = a → exec (.ldm rn (oneRegister rt)) s =
    .next { if rn = rt then s'.writeLow rt value else (s'.writeLow rt value).writeLow rn (a + 4#32) with pc := s.pc + 2#32 }
  pop : ∀ rt, s.sp = a → exec (.pop false (oneRegister rt)) s =
    .next { (s'.writeLow rt value).setSp (a + 4#32) with pc := s.pc + 2#32 }
  popPc : s.sp = a → s.mode = .thread ∨ value.extractLsb' 4 28 ≠ 0xFFFFFFF#28 → exec (.pop true 0) s =
    .next { s'.setSp (a + 4#32) with tbit := value.getLsbD 0, pc := value &&& 0xFFFFFFFE#32 }

/-- A word `v` written at `a` leaves `s'`, and so does every instruction that makes such a store: the three forms of STR, STM and PUSH of one
register, and PUSH of LR. StoreMultipleResult and PushResult make longer lists sequences of such writes. -/
structure RegisterWrites (s : State) (a v : Word) (s' : State) : Prop where
  access : memWrite s a .word v .write = .ok () s'
  str : ∀ i, WordStore s a v i → exec i s = .next { s' with pc := s.pc + 2#32 }
  stm : ∀ rt rn, s.readLow rn = a → s.readLow rt = v →
    exec (.stm rn (oneRegister rt)) s = .next { s'.writeLow rn (a + 4#32) with pc := s.pc + 2#32 }
  push : ∀ rt, s.sp - 4#32 = a → s.readLow rt = v →
    exec (.push false (oneRegister rt)) s = .next { s'.setSp a with pc := s.pc + 2#32 }
  pushLr : s.sp - 4#32 = a → s.lr = v → exec (.push true 0) s = .next { s'.setSp a with pc := s.pc + 2#32 }

/-- A word `v` written at `a` is refused, and so is every instruction that makes such a store. -/
structure RegisterRefuses (s : State) (a v : Word) (why : Refusal) : Prop where
  access : memWrite s a .word v .write = .refused why
  str : ∀ i, WordStore s a v i → exec i s = .refused why
  stm : ∀ rt rn, s.readLow rn = a → s.readLow rt = v → exec (.stm rn (oneRegister rt)) s = .refused why
  push : ∀ rt, s.sp - 4#32 = a → s.readLow rt = v → exec (.push false (oneRegister rt)) s = .refused why
  pushLr : s.sp - 4#32 = a → s.lr = v → exec (.push true 0) s = .refused why

/-! ### The step -/

/-- An instruction fetch at `a` gets what memory holds there: not Execute Never, no bus error, nothing stale. -/
def State.Fetchable (s : State) (a : Word) : Prop :=
  (regionOf a.toNat).xn = false ∧ busError s.platform a.toNat 2 .fetch = false ∧ s.oldHalves a.toNat = []

/-- The processor has the turn in `s0`, and `s` is the state that its step starts from: the turn taken off the schedule and the lines
sampled (logs 11 to 13). -/
def ProcessorTurn (s0 s : State) : Prop :=
  (s0.schedule = [] ∧ s0.resetRequested = false ∧ s = s0.sample) ∨
    ∃ rest, s0.schedule = .processor :: rest ∧ s = { s0 with schedule := rest }.sample

/-- The processor is about to execute an instruction: it runs, and no exception is to be taken (60_exceptions.md R413). -/
def State.AboutToExecute (s : State) : Prop :=
  s.halted = false ∧ s.lockup = false ∧ s.sleeping = false ∧ s.takeable = none

/-- The step from `s0` to `t` runs instruction `i`: the processor has the turn, takes no exception, and has fetched and decoded it; a sleeping
processor wakes for it (60_exceptions.md R413, R482). -/
def Executes (s0 : State) (i : Instr) (t : State) : Prop :=
  ∃ s u hw1 hw2, ProcessorTurn s0 s ∧ s.halted = false ∧ s.lockup = false ∧ s.takeable = none ∧
    u = { s with sleeping := false, freeCount := u.freeCount } ∧ decode hw1 hw2 = .instr i ∧ exec i u = .next t

/-- The step from `s0` begins with the entry of `e`: the exception to be taken, or NMI ending a lockup (60_exceptions.md R413, R447). -/
def Enters (s0 : State) (e : Exc) : Prop :=
  ∃ s, ProcessorTurn s0 s ∧ s.halted = false ∧
    ((s.lockup = false ∧ s.takeable = some e) ∨ (s.lockup = true ∧ e = .nmi ∧ s.pending.nmi = true ∧ s.active.nmi = false))

/-- `i` writes the value `v` to the PC as BX does, with the main stack pointer at `sp`: BX, or POP of any list with the PC
(43_branch.md R321, R322; 40_memory_access.md R231). -/
def ReturnsBy (i : Instr) (s : State) (v sp : Word) : Prop :=
  (∃ rm, i = .bx rm ∧ v = s.readReg rm ∧ sp = s.msp) ∨
    ∃ list, i = .pop true list ∧ isAligned s.sp .word = true ∧
      (∀ k, k < regCount list + 1 → s.Readable (wordAt s.sp k) .word .read) ∧
      v = s.wordOf (wordAt s.sp (regCount list)) ∧ sp = s.sp + BitVec.ofNat 32 (4 * (regCount list + 1))

/-- The exception return of kind `k` from `s`, where the frame is at `frame`; `t` is the state after it (60_exceptions.md R430, R431). -/
structure Returned (k : ReturnKind) (frame : Word) (s t : State) : Prop where
  registers :
    t.readReg 0 = s.wordOf frame ∧ t.readReg 1 = s.wordOf (wordAt frame 1) ∧ t.readReg 2 = s.wordOf (wordAt frame 2) ∧
    t.readReg 3 = s.wordOf (wordAt frame 3) ∧ t.readReg 12 = s.wordOf (wordAt frame 4) ∧
    t.lr = s.wordOf (wordAt frame 5) ∧ t.pc = s.wordOf (wordAt frame 6) &&& 0xFFFFFFFE#32
  otherRegisters : ∀ n : Reg, 4 ≤ n.toNat → n.toNat ≤ 11 → t.readReg n = s.readReg n
  flags : t.flags.n = (s.wordOf (wordAt frame 7)).getLsbD 31 ∧ t.flags.z = (s.wordOf (wordAt frame 7)).getLsbD 30 ∧
    t.flags.c = (s.wordOf (wordAt frame 7)).getLsbD 29 ∧ t.flags.v = (s.wordOf (wordAt frame 7)).getLsbD 28
  context : t.tbit = (s.wordOf (wordAt frame 7)).getLsbD 24 ∧ t.ipsr = (s.wordOf (wordAt frame 7)).extractLsb' 0 6
  stack : t.sp = ((frame + 0x20#32) ||| (if (s.wordOf (wordAt frame 7)).getLsbD 9 then 4#32 else 0#32)) &&& 0xFFFFFFFC#32
  kind : match k with
    | .handlerMain => t.mode = .handler ∧ t.spsel = false ∧ t.psp = s.psp ∧ t.sleeping = s.sleeping
    | .threadMain => t.mode = .thread ∧ t.spsel = false ∧ t.psp = s.psp ∧ t.sleeping = (s.sleeping || s.sleepOnExit)
    | .threadProcess => t.mode = .thread ∧ t.spsel = true ∧ t.msp = s.msp ∧ t.sleeping = (s.sleeping || s.sleepOnExit)
  bits : ∀ e, Exc.ofNumber s.ipsr = some e → t.active.get e = false ∧
    (∀ f, f ≠ e → t.active.get f = s.active.get f ∧ t.pending.get f = s.pending.get f) ∧
    (t.pending.get e = true ↔ s.pending.get e = true ∨ ∃ m, e = .irq m ∧ s.irqLine.getLsbD m.val = true)
  rest : t = { s with
    r := t.r, msp := t.msp, psp := t.psp, lr := t.lr, pc := t.pc, flags := t.flags, tbit := t.tbit, ipsr := t.ipsr
    spsel := t.spsel, pending := t.pending, active := t.active, sleeping := t.sleeping, stale := [] }

end Sys2Proof.Machine
end

