-- ==== Sys2Proof/Certificates/Slice0/Obligations.lean ====
section
/-! DEFINITION. The statements for the provers. Each says what it formalises; OBLIGATIONS.json lists them. -/

open Sys2Proof Sys2Proof.Machine

/-! ### Decoding and encoding -/

/-- Decoding the bytes of an encoded well-formed instruction gives it back, whatever bytes follow. -/
def Obligations.DecodeOfEncode : Prop :=
  ∀ (i : Instr) (rest : List Byte), i.wellFormed = true →
    decodeBytes (bytesOfHalves (encode i) ++ rest) = (.instr i, rest)

/-- Every word that decodes is the encoding of the instruction it decodes to, which is well formed: no bit is ignored. -/
def Obligations.EncodeOfDecode : Prop :=
  ∀ (hw1 hw2 : Half) (i : Instr), decode hw1 hw2 = .instr i →
    i.wellFormed = true ∧ encode i = if isLongHalf hw1 then [hw1, hw2] else [hw1]

/-- Words written out from the spec's encodings decode to the instructions they stand for. The encodings are the spec's general
knowledge (log 1). -/
def Obligations.SampleWordsDecode : Prop :=
  decode 0x00D1 0 = .instr (.lslsImm 1 2 3) ∧ decode 0x1880 0 = .instr (.addsReg 0 0 2) ∧
    decode 0x4159 0 = .instr (.adcs 1 3) ∧ decode 0x46E8 0 = .instr (.mov 8 13) ∧
    decode 0x4770 0 = .instr (.bx 14) ∧ decode 0x4B19 0 = .instr (.ldrLit 3 25) ∧
    decode 0x5ED1 0 = .instr (.ldrshReg 1 2 3) ∧ decode 0x6082 0 = .instr (.strImm 2 0 2) ∧
    decode 0xA902 0 = .instr (.addRdSp 1 2) ∧ decode 0xB2CB 0 = .instr (.uxtb 3 1) ∧
    decode 0xB4F1 0 = .instr (.push false 0xF1) ∧ decode 0xBD41 0 = .instr (.pop true 0x41) ∧
    decode 0xC15C 0 = .instr (.stm 1 0x5C) ∧ decode 0xD1FC 0 = .instr (.bCond .ne 0xFC) ∧
    decode 0xDF32 0 = .instr (.svc 0x32) ∧ decode 0xF000 0xF87E = .instr (.bl 0x7E) ∧
    decode 0xF381 0x8814 = .instr (.msr .control 1) ∧ decode 0xF3EF 0x8010 = .instr (.mrs 0 .primask) ∧
    decode 0xF3BF 0x8F5F = .instr (.dmb 15)

/-- The Undefined patterns are rejected as Undefined: 16-bit ones (30_encoding.md R165) and 32-bit ones (R166), among them all those that no row of
R157 selects. Which patterns they are is the spec's general knowledge (log 1). -/
def Obligations.UndefinedPatternsRejected : Prop :=
  (∀ hw1 hw2 : Half, hw1.extractLsb' 11 5 = 0b11101#5 ∨ hw1.extractLsb' 11 5 = 0b11111#5 →
    decode hw1 hw2 = .reject .undefined) ∧
  (∀ hw1 hw2 : Half, hw1.extractLsb' 11 5 = 0b11110#5 →
    hw2.getLsbD 15 = false ∨ (hw2.getLsbD 14 = true ∧ hw2.getLsbD 12 = false) →
    decode hw1 hw2 = .reject .undefined) ∧
  (∀ hw1 hw2 : Half, hw1.extractLsb' 11 5 = 0b11110#5 →
    let w : Word := hw1 ++ hw2
    w &&& 0xF800D000#32 ≠ 0xF000D000#32 → w &&& 0xFFE0D000#32 ≠ 0xF3808000#32 → w &&& 0xFFE0D000#32 ≠ 0xF3E08000#32 →
    w &&& 0xFFF0D0F0#32 ≠ 0xF3B08040#32 → w &&& 0xFFF0D0F0#32 ≠ 0xF3B08050#32 → w &&& 0xFFF0D0F0#32 ≠ 0xF3B08060#32 →
    w &&& 0xFFF0F000#32 ≠ 0xF7F0A000#32 → decode hw1 hw2 = .reject .undefined) ∧
  (∀ hw1 hw2 : Half,
    (0xB100 ≤ hw1.toNat ∧ hw1.toNat ≤ 0xB1FF) ∨ (0xB300 ≤ hw1.toNat ∧ hw1.toNat ≤ 0xB3FF) ∨
    (0xB600 ≤ hw1.toNat ∧ hw1.toNat ≤ 0xB65F) ∨ (0xB680 ≤ hw1.toNat ∧ hw1.toNat ≤ 0xB6FF) ∨
    (0xB700 ≤ hw1.toNat ∧ hw1.toNat ≤ 0xB9FF) ∨ (0xBA80 ≤ hw1.toNat ∧ hw1.toNat ≤ 0xBABF) ∨
    (0xBB00 ≤ hw1.toNat ∧ hw1.toNat ≤ 0xBBFF) ∨
    (0xBF00 ≤ hw1.toNat ∧ hw1.toNat ≤ 0xBFFF ∧ hw1.extractLsb' 0 4 ≠ 0#4) →
    decode hw1 hw2 = .reject .undefined)

/-! ### The step -/

/-- When the halfwords at the pc decode to a well-formed instruction, the processor's step is that instruction's meaning. The step
around it takes the turn off the schedule and samples the lines, nothing else. -/
def Obligations.StepRunsDecodedInstruction : Prop :=
  ∀ (s0 s : State) (i : Instr), ProcessorTurn s0 s → s.AboutToExecute → s.tbit = true →
    s.Fetchable s.pc → i.wellFormed = true →
    (isLongHalf (s.mem.readHalf s.pc.toNat) = true → s.Fetchable (s.pc + 2#32)) →
    decode (s.mem.readHalf s.pc.toNat) (s.mem.readHalf (s.pc + 2#32).toNat) = .instr i →
    step s0 = exec i s

/-- An instruction that cannot be fetched, or is Undefined, raises HardFault: T clear, an Execute Never address, a bus
error on the fetch (of either halfword), an Undefined pattern. Any other pattern that is no instruction is refused by name (the
model's choice among the spec's treatments: logs 24 and 25). That the second halfword is checked too, in which order, and that the fault has the
address of the first, is the spec's decision D16 (logs 46 and 50). -/
def Obligations.FetchErrors : Prop :=
  ∀ s0 s : State, ProcessorTurn s0 s → s.AboutToExecute →
    (s.tbit = false → step s0 = HardFaultOutcome s) ∧
    ((regionOf s.pc.toNat).xn = true → step s0 = HardFaultOutcome s) ∧
    (busError s.platform s.pc.toNat 2 .fetch = true → step s0 = HardFaultOutcome s) ∧
    (s.Fetchable s.pc → isLongHalf (s.mem.readHalf s.pc.toNat) = true →
      (regionOf (s.pc + 2#32).toNat).xn = true ∨ busError s.platform (s.pc + 2#32).toNat 2 .fetch = true →
      step s0 = HardFaultOutcome s) ∧
    (s.tbit = true → s.Fetchable s.pc →
      (isLongHalf (s.mem.readHalf s.pc.toNat) = true → s.Fetchable (s.pc + 2#32)) → ∀ why,
      decode (s.mem.readHalf s.pc.toNat) (s.mem.readHalf (s.pc + 2#32).toNat) = .reject why →
      step s0 = if why = .undefined then HardFaultOutcome s else .refused (.unpredictableEncoding why))

/-- Where old and new halfword may both be fetched, the fetch returns the halfword in memory or one of those it held
since fetches were last synchronised (the model's choice: log 15). -/
def Obligations.StaleFetchIsOldOrNew : Prop :=
  ∀ (s : State) (a : Word), s.tbit = true → (regionOf a.toNat).xn = false →
    busError s.platform a.toNat 2 .fetch = false →
    ∃ h t, fetch16 s a = .ok h t ∧ (h = s.mem.readHalf a.toNat ∨ (a.toNat, h) ∈ s.stale) ∧
      t = { s with freeCount := t.freeCount }

/-! ### Add, subtract, compare, multiply -/

/-- The additions and subtractions, in integers: result, flags, frame. -/
def Obligations.AddSubtractResult : Prop :=
  ∀ (s : State) (rd rn rm : LowReg) (imm3 : BitVec 3) (imm8 : BitVec 8),
    let x := s.readLow rn
    let y := s.readLow rm
    let d := s.readLow rd
    let c : Nat := if s.flags.c then 1 else 0
    ArithCompletes (.addsReg rd rn rm) s rd (x + y) (x.toInt + y.toInt) (4294967296 ≤ x.toNat + y.toNat) ∧
    ArithCompletes (.addsImm3 rd rn imm3) s rd (x + BitVec.ofNat 32 imm3.toNat) (x.toInt + imm3.toNat)
      (4294967296 ≤ x.toNat + imm3.toNat) ∧
    ArithCompletes (.addsImm8 rd imm8) s rd (d + BitVec.ofNat 32 imm8.toNat) (d.toInt + imm8.toNat)
      (4294967296 ≤ d.toNat + imm8.toNat) ∧
    ArithCompletes (.adcs rd rm) s rd (d + y + BitVec.ofNat 32 c) (d.toInt + y.toInt + c)
      (4294967296 ≤ d.toNat + y.toNat + c) ∧
    ArithCompletes (.subsReg rd rn rm) s rd (x - y) (x.toInt - y.toInt) (y.toNat ≤ x.toNat) ∧
    ArithCompletes (.subsImm3 rd rn imm3) s rd (x - BitVec.ofNat 32 imm3.toNat) (x.toInt - imm3.toNat)
      (imm3.toNat ≤ x.toNat) ∧
    ArithCompletes (.subsImm8 rd imm8) s rd (d - BitVec.ofNat 32 imm8.toNat) (d.toInt - imm8.toNat)
      (imm8.toNat ≤ d.toNat) ∧
    ArithCompletes (.sbcs rd rm) s rd (d - y - BitVec.ofNat 32 (1 - c)) (d.toInt - y.toInt - ((1 : Int) - c))
      (y.toNat + (1 - c) ≤ d.toNat) ∧
    ArithCompletes (.rsbs rd rn) s rd (-x) (-x.toInt) (x = 0#32)

/-- The compares, in integers, and TST: flags and nothing else. -/
def Obligations.CompareFlags : Prop :=
  ∀ (s : State) (rn rm : LowReg) (hn hm : Reg) (imm8 : BitVec 8),
    let x := s.readLow rn
    let y := s.readLow rm
    CompareCompletes (.cmn rn rm) s (x.toInt + y.toInt) (4294967296 ≤ x.toNat + y.toNat) ∧
    CompareCompletes (.cmpReg rn rm) s (x.toInt - y.toInt) (y.toNat ≤ x.toNat) ∧
    CompareCompletes (.cmpImm rn imm8) s (x.toInt - imm8.toNat) (imm8.toNat ≤ x.toNat) ∧
    CompareCompletes (.cmpHigh hn hm) s ((s.readReg hn).toInt - (s.readReg hm).toInt)
      ((s.readReg hm).toNat ≤ (s.readReg hn).toNat) ∧
    (∃ t, exec (.tst rn rm) s = .next t ∧ LogicFlags s.flags t.flags (x &&& y) ∧ SameMemory s t ∧
      t = { s with flags := t.flags, pc := s.pc + 2#32 })

/-! ### Logic, moves, shifts, extension -/

/-- The logical operations, the flag-setting moves and MULS: result, N and Z, frame. The low 32 bits of the product are those
of the signed product and of the unsigned one. -/
def Obligations.LogicalResult : Prop :=
  ∀ (s : State) (rd rm : LowReg) (imm8 : BitVec 8),
    let d := s.readLow rd
    let y := s.readLow rm
    LogicCompletes (.ands rd rm) s rd (d &&& y) ∧ LogicCompletes (.orrs rd rm) s rd (d ||| y) ∧
    LogicCompletes (.eors rd rm) s rd (d ^^^ y) ∧ LogicCompletes (.bics rd rm) s rd (d &&& ~~~y) ∧
    LogicCompletes (.mvns rd rm) s rd (~~~y) ∧ LogicCompletes (.movsReg rd rm) s rd y ∧
    LogicCompletes (.movsImm rd imm8) s rd (BitVec.ofNat 32 imm8.toNat) ∧
    LogicCompletes (.muls rd rm) s rd (BitVec.ofInt 32 (y.toInt * d.toInt)) ∧
    BitVec.ofInt 32 (y.toInt * d.toInt) = BitVec.ofNat 32 (y.toNat * d.toNat)

/-- The shifts by an immediate of n places, 1 to 31 or 32: multiplication and division by 2 to the n, and the last bit shifted
out in C; LSLS by 0, which the encoding gives to MOVS, leaves C. -/
def Obligations.ImmediateShiftResult : Prop :=
  ∀ (s : State) (rd rm : LowReg) (imm5 : BitVec 5),
    let x := s.readLow rm
    let n := if imm5 = 0#5 then 32 else imm5.toNat
    ShiftCompletes (.lslsImm rd rm imm5) s rd (BitVec.ofNat 32 (x.toNat * 2 ^ imm5.toNat))
      (if imm5 = 0#5 then s.flags.c else x.getLsbD (32 - imm5.toNat)) ∧
    ShiftCompletes (.lsrsImm rd rm imm5) s rd (BitVec.ofNat 32 (x.toNat / 2 ^ n)) (x.getLsbD (n - 1)) ∧
    ShiftCompletes (.asrsImm rd rm imm5) s rd (BitVec.ofInt 32 (x.toInt / 2 ^ n)) (x.getLsbD (n - 1))

/-- The shifts and the rotation by the low byte of a register, for all 256 lengths. -/
def Obligations.RegisterShiftResult : Prop :=
  ∀ (s : State) (rdn rs : LowReg),
    let x := s.readLow rdn
    let n := (s.readLow rs).toNat % 256
    ShiftCompletes (.lslsReg rdn rs) s rdn (BitVec.ofNat 32 (x.toNat * 2 ^ n))
      (if n = 0 then s.flags.c else decide (n ≤ 32) && x.getLsbD (32 - n)) ∧
    ShiftCompletes (.lsrsReg rdn rs) s rdn (BitVec.ofNat 32 (x.toNat / 2 ^ n))
      (if n = 0 then s.flags.c else decide (n ≤ 32) && x.getLsbD (n - 1)) ∧
    ShiftCompletes (.asrsReg rdn rs) s rdn (BitVec.ofInt 32 (x.toInt / 2 ^ n))
      (if n = 0 then s.flags.c else x.getLsbD (min (n - 1) 31)) ∧
    ShiftCompletes (.rors rdn rs) s rdn (x.rotateRight n)
      (if n = 0 then s.flags.c else (x.rotateRight n).getLsbD 31)

/-- ADD and MOV on any registers: no flags; bits [1:0] of a stack pointer stay 0; a write of the PC is a branch that leaves T
alone. The bits of the stack pointer are log 30; ADD to the PC, and the forms with two low registers, which the source's assembler restricts, run as
the rules say (logs 41, 48 and 53); ADD PC, PC is no well-formed instruction, and what is said of it here is its meaning as a term (log 38). -/
def Obligations.HighRegisterResult : Prop :=
  ∀ (s : State) (d m : Reg),
    (d ≠ 15#4 → ∃ t, exec (.addHigh d m) s = .next t ∧ HighFrame d s t ∧ t.pc = s.pc + 2#32 ∧
      t.readReg d = if d = 13#4 then (s.readReg d + s.readReg m) &&& 0xFFFFFFFC#32 else s.readReg d + s.readReg m) ∧
    (exec (.addHigh 15 m) s = .next { s with pc := (s.pc + 4#32 + s.readReg m) &&& 0xFFFFFFFE#32 }) ∧
    (d ≠ 15#4 → ∃ t, exec (.mov d m) s = .next t ∧ HighFrame d s t ∧ t.pc = s.pc + 2#32 ∧
      t.readReg d = if d = 13#4 then s.readReg m &&& 0xFFFFFFFC#32 else s.readReg m) ∧
    (exec (.mov 15 m) s = .next { s with pc := s.readReg m &&& 0xFFFFFFFE#32 })

/-- The address arithmetic: ADD Rd, SP; ADR from the word-aligned pc + 4 (the spec's general knowledge: log 50); ADD and SUB on SP (its low
bits: log 30). Sums are modulo 2^32 (log 32). -/
def Obligations.AddressArithmeticResult : Prop :=
  ∀ (s : State) (rd : LowReg) (imm8 : BitVec 8) (imm7 : BitVec 7),
    PlainCompletes (.addRdSp rd imm8) s rd (s.sp + BitVec.ofNat 32 (4 * imm8.toNat)) ∧
    PlainCompletes (.adr rd imm8) s rd (BitVec.ofNat 32 ((s.pc + 4#32).toNat / 4 * 4 + 4 * imm8.toNat)) ∧
    (∃ t, exec (.addSpImm imm7) s = .next t ∧ HighFrame 13 s t ∧ t.pc = s.pc + 2#32 ∧
      t.sp = (s.sp + BitVec.ofNat 32 (4 * imm7.toNat)) &&& 0xFFFFFFFC#32) ∧
    (∃ t, exec (.subSpImm imm7) s = .next t ∧ HighFrame 13 s t ∧ t.pc = s.pc + 2#32 ∧
      t.sp = (s.sp - BitVec.ofNat 32 (4 * imm7.toNat)) &&& 0xFFFFFFFC#32)

/-- Extension: the low byte or halfword as a signed or unsigned number. Byte reversal, byte by byte. No flag changes. -/
def Obligations.ExtendAndReverseResult : Prop :=
  ∀ (s : State) (rd rm : LowReg),
    let x := s.readLow rm
    PlainCompletes (.sxtb rd rm) s rd (BitVec.ofInt 32 (x.extractLsb' 0 8).toInt) ∧
    PlainCompletes (.sxth rd rm) s rd (BitVec.ofInt 32 (x.extractLsb' 0 16).toInt) ∧
    PlainCompletes (.uxtb rd rm) s rd (BitVec.ofNat 32 (x.toNat % 256)) ∧
    PlainCompletes (.uxth rd rm) s rd (BitVec.ofNat 32 (x.toNat % 65536)) ∧
    (∃ y, PlainCompletes (.rev rd rm) s rd y ∧ ∀ k, k < 4 → y.extractLsb' (8 * k) 8 = x.extractLsb' (24 - 8 * k) 8) ∧
    (∃ y, PlainCompletes (.rev16 rd rm) s rd y ∧ y.extractLsb' 0 8 = x.extractLsb' 8 8 ∧
      y.extractLsb' 8 8 = x.extractLsb' 0 8 ∧ y.extractLsb' 16 8 = x.extractLsb' 24 8 ∧
      y.extractLsb' 24 8 = x.extractLsb' 16 8) ∧
    (∃ y, PlainCompletes (.revsh rd rm) s rd y ∧ y.extractLsb' 0 8 = x.extractLsb' 8 8 ∧
      y.extractLsb' 8 8 = x.extractLsb' 0 8 ∧ ∀ k, 16 ≤ k → k < 32 → y.getLsbD k = x.getLsbD 7)

/-! ### Loads and stores -/

/-- Each load puts the bytes at its address, little-endian and extended, into its register and changes nothing else, where plain memory
answers (DeviceAccess and SystemRegisterReads speak of the other regions). The aligned base of LDR (literal) is log 50, addresses modulo 2^32 log 32. -/
def Obligations.LoadResult : Prop :=
  ∀ (s : State) (rt rn rm : LowReg) (imm5 : BitVec 5) (imm8 : BitVec 8),
    let m := s.mem.read
    let byte := fun a : Word => m a.toNat
    let half := fun a : Word => m (a.toNat + 1) ++ m a.toNat
    let word := fun a : Word => m (a.toNat + 3) ++ m (a.toNat + 2) ++ m (a.toNat + 1) ++ m a.toNat
    let at4 := s.readLow rn + BitVec.ofNat 32 (4 * imm5.toNat)
    let at2 := s.readLow rn + BitVec.ofNat 32 (2 * imm5.toNat)
    let at1 := s.readLow rn + BitVec.ofNat 32 imm5.toNat
    let ix := s.readLow rn + s.readLow rm
    let sp := s.sp + BitVec.ofNat 32 (4 * imm8.toNat)
    let lit := BitVec.ofNat 32 ((s.pc + 4#32).toNat / 4 * 4 + 4 * imm8.toNat)
    LoadCompletes (.ldrImm rt rn imm5) s rt at4 .word (word at4) ∧
    LoadCompletes (.ldrReg rt rn rm) s rt ix .word (word ix) ∧
    LoadCompletes (.ldrSp rt imm8) s rt sp .word (word sp) ∧
    LoadCompletes (.ldrLit rt imm8) s rt lit .word (word lit) ∧
    LoadCompletes (.ldrbImm rt rn imm5) s rt at1 .byte (BitVec.ofNat 32 (byte at1).toNat) ∧
    LoadCompletes (.ldrbReg rt rn rm) s rt ix .byte (BitVec.ofNat 32 (byte ix).toNat) ∧
    LoadCompletes (.ldrsbReg rt rn rm) s rt ix .byte (BitVec.ofInt 32 (byte ix).toInt) ∧
    LoadCompletes (.ldrhImm rt rn imm5) s rt at2 .half (BitVec.ofNat 32 (half at2).toNat) ∧
    LoadCompletes (.ldrhReg rt rn rm) s rt ix .half (BitVec.ofNat 32 (half ix).toNat) ∧
    LoadCompletes (.ldrshReg rt rn rm) s rt ix .half (BitVec.ofInt 32 (half ix).toInt)

/-- Each store writes the low bytes of its register at its address, little-endian, and changes nothing else, where plain memory that is
not flash answers; at an address that the platform declares to be flash it is refused (log 9; DeviceAccess speaks of devices, SystemControlWrites of the
Private Peripheral Bus). Addresses are modulo 2^32 (log 32). -/
def Obligations.StoreResult : Prop :=
  ∀ (s : State) (rt rn rm : LowReg) (imm5 : BitVec 5) (imm8 : BitVec 8),
    let v := s.readLow rt
    let at4 := s.readLow rn + BitVec.ofNat 32 (4 * imm5.toNat)
    let at2 := s.readLow rn + BitVec.ofNat 32 (2 * imm5.toNat)
    let at1 := s.readLow rn + BitVec.ofNat 32 imm5.toNat
    let ix := s.readLow rn + s.readLow rm
    let sp := s.sp + BitVec.ofNat 32 (4 * imm8.toNat)
    (StoreCompletes (.strImm rt rn imm5) s at4 .word v ∧ StoreCompletes (.strReg rt rn rm) s ix .word v ∧
     StoreCompletes (.strSp rt imm8) s sp .word v ∧ StoreCompletes (.strhImm rt rn imm5) s at2 .half v ∧
     StoreCompletes (.strhReg rt rn rm) s ix .half v ∧ StoreCompletes (.strbImm rt rn imm5) s at1 .byte v ∧
     StoreCompletes (.strbReg rt rn rm) s ix .byte v) ∧
    (∀ (a x : Word) (i : Instr), s.Readable a .word .write → inFlash s.platform a.toNat = true →
      memWrite s a .word x .write = .refused .storeToFlash ∧ (WordStore s a x i → exec i s = .refused .storeToFlash)) ∧
    (∀ (a : Word) (w : Width) (i : Instr), s.Readable a w .write → inFlash s.platform a.toNat = true →
      NarrowStore s a w i → exec i s = .refused .storeToFlash)

/-- A load or store that is not aligned or gets a bus error raises HardFault, with no register written and nothing stored; and so do LDM,
STM, PUSH and POP whose base is not word-aligned. A bus error at word number k of LDM, STM, PUSH or POP raises HardFault from the state in which the base
and SP are as before, the stores of the words before it are made, and the registers of those words are old or loaded. The order of the checks is
log 46, the return address of the fault log 50, what a multiple access leaves logs 17 and 18: the spec's decisions and general knowledge. -/
def Obligations.AccessErrorsRaiseHardFault : Prop :=
  ∀ (s : State) (rt rn rm : LowReg) (imm5 : BitVec 5) (imm8 : BitVec 8) (list : RegList),
    let at4 := s.readLow rn + BitVec.ofNat 32 (4 * imm5.toNat)
    let at2 := s.readLow rn + BitVec.ofNat 32 (2 * imm5.toNat)
    let at1 := s.readLow rn + BitVec.ofNat 32 imm5.toNat
    let ix := s.readLow rn + s.readLow rm
    let sp := s.sp + BitVec.ofNat 32 (4 * imm8.toNat)
    let lit := BitVec.ofNat 32 ((s.pc + 4#32).toNat / 4 * 4 + 4 * imm8.toNat)
    (AccessFaults (.ldrImm rt rn imm5) s at4 .word .read ∧ AccessFaults (.ldrReg rt rn rm) s ix .word .read ∧
     AccessFaults (.ldrSp rt imm8) s sp .word .read ∧ AccessFaults (.ldrLit rt imm8) s lit .word .read ∧
     AccessFaults (.ldrbImm rt rn imm5) s at1 .byte .read ∧ AccessFaults (.ldrbReg rt rn rm) s ix .byte .read ∧
     AccessFaults (.ldrsbReg rt rn rm) s ix .byte .read ∧ AccessFaults (.ldrhImm rt rn imm5) s at2 .half .read ∧
     AccessFaults (.ldrhReg rt rn rm) s ix .half .read ∧ AccessFaults (.ldrshReg rt rn rm) s ix .half .read) ∧
    (AccessFaults (.strImm rt rn imm5) s at4 .word .write ∧ AccessFaults (.strReg rt rn rm) s ix .word .write ∧
     AccessFaults (.strSp rt imm8) s sp .word .write ∧ AccessFaults (.strhImm rt rn imm5) s at2 .half .write ∧
     AccessFaults (.strhReg rt rn rm) s ix .half .write ∧ AccessFaults (.strbImm rt rn imm5) s at1 .byte .write ∧
     AccessFaults (.strbReg rt rn rm) s ix .byte .write) ∧
    (isAligned (s.readLow rn) .word = false →
      exec (.ldm rn list) s = HardFaultOutcome s ∧ exec (.stm rn list) s = HardFaultOutcome s) ∧
    (∀ m, isAligned (s.sp - BitVec.ofNat 32 (4 * (regCount list + if m then 1 else 0))) .word = false →
      exec (.push m list) s = HardFaultOutcome s) ∧
    (∀ p, isAligned s.sp .word = false → exec (.pop p list) s = HardFaultOutcome s) ∧
    (∀ k, k < regCount list → isAligned (s.readLow rn) .word = true →
      (∀ j, j < k → s.Readable (wordAt (s.readLow rn) j) .word .read) → s.BusErrorAt (wordAt (s.readLow rn) k) .read →
      ∃ u, exec (.ldm rn list) s = HardFaultOutcome u ∧ LoadsStopped list (s.readLow rn) k s u ∧
        u.readLow rn = s.readLow rn) ∧
    (∀ k, k < regCount list → s.mem.wf = true → isAligned (s.readLow rn) .word = true →
      (∀ j, j < k → s.Writable (wordAt (s.readLow rn) j) .word .write) → s.BusErrorAt (wordAt (s.readLow rn) k) .write →
      ∃ u, exec (.stm rn list) s = HardFaultOutcome u ∧ StoresStopped (s.readLow rn) k s u ∧
        ∀ i : LowReg, list.getLsbD i.toNat = true → rankIn list i < k → i ≠ rn ∨ rankIn list i = 0 →
          u.wordOf (wordAt (s.readLow rn) (rankIn list i)) = s.readLow i) ∧
    (∀ m k, let count := regCount list + if m then 1 else 0
      let base := s.sp - BitVec.ofNat 32 (4 * count)
      k < count → s.mem.wf = true → isAligned base .word = true →
      (∀ j, j < k → s.Writable (wordAt base j) .word .write) → s.BusErrorAt (wordAt base k) .write →
      ∃ u, exec (.push m list) s = HardFaultOutcome u ∧ StoresStopped base k s u ∧
        ∀ i : LowReg, list.getLsbD i.toNat = true → rankIn list i < k →
          u.wordOf (wordAt base (rankIn list i)) = s.readLow i) ∧
    (∀ p k, k < (regCount list + if p then 1 else 0) → isAligned s.sp .word = true →
      (∀ j, j < k → s.Readable (wordAt s.sp j) .word .read) → s.BusErrorAt (wordAt s.sp k) .read →
      ∃ u, exec (.pop p list) s = HardFaultOutcome u ∧ LoadsStopped list s.sp k s u)

/-- LDM loads the registers of its list, lowest first, from rising words, and writes the base back when it is not in the list: from plain memory,
and whatever answers its reads (memory, devices, system registers), one after the other. A read that stops, stops it. -/
def Obligations.LoadMultipleResult : Prop :=
  ∀ (s : State) (rn : LowReg) (list : RegList), isAligned (s.readLow rn) .word = true →
    ((∀ k, k < regCount list → s.Readable (wordAt (s.readLow rn) k) .word .read) →
      ∃ t, exec (.ldm rn list) s = .next t ∧ t.pc = s.pc + 2#32 ∧
        (∀ i : LowReg, list.getLsbD i.toNat = true → t.readLow i = s.wordOf (wordAt (s.readLow rn) (rankIn list i))) ∧
        (∀ i : LowReg, list.getLsbD i.toNat = false → i ≠ rn → t.readLow i = s.readLow i) ∧
        (list.getLsbD rn.toNat = false → t.readLow rn = s.readLow rn + BitVec.ofNat 32 (4 * regCount list)) ∧
        (∀ n : Reg, 8 ≤ n.toNat → n ≠ 15#4 → t.readReg n = s.readReg n) ∧ SameMemory s t ∧
        t = { s with r := t.r, pc := t.pc }) ∧
    (∀ vs u, vs.length = regCount list → ReadInOrder .read vs (s.readLow rn) s u →
      ∃ t, exec (.ldm rn list) s = .next t ∧
        (∀ i : LowReg, list.getLsbD i.toNat = true → vs[rankIn list i]? = some (t.readLow i)) ∧
        (∀ i : LowReg, list.getLsbD i.toNat = false → i ≠ rn → t.readLow i = s.readLow i) ∧
        (list.getLsbD rn.toNat = false → t.readLow rn = s.readLow rn + BitVec.ofNat 32 (4 * regCount list)) ∧
        (∀ n : Reg, 8 ≤ n.toNat → n ≠ 15#4 → t.readReg n = s.readReg n) ∧ t = { u with r := t.r, pc := s.pc + 2#32 }) ∧
    (∀ vs u f, vs.length < regCount list → ReadInOrder .read vs (s.readLow rn) s u →
      memRead u (wordAt (s.readLow rn) vs.length) .word .read = .fault f → exec (.ldm rn list) s = .fault f)

/-- STM stores the registers of its list, lowest first, at rising words, and writes the base back. The word stored for a base that is in
the list and not its lowest register is not said; that one which is the lowest is stored with its value before writeback is the spec's general
knowledge (log 54). Whatever takes its stores (memory, devices, system registers), they are made one after the other; a store that stops, stops it. -/
def Obligations.StoreMultipleResult : Prop :=
  ∀ (s : State) (rn : LowReg) (list : RegList), isAligned (s.readLow rn) .word = true →
    (s.mem.wf = true → (∀ k, k < regCount list → s.Writable (wordAt (s.readLow rn) k) .word .write) →
      ∃ t, exec (.stm rn list) s = .next t ∧ t.pc = s.pc + 2#32 ∧
        (∀ i : LowReg, list.getLsbD i.toNat = true → i ≠ rn ∨ rankIn list i = 0 →
          t.wordOf (wordAt (s.readLow rn) (rankIn list i)) = s.readLow i) ∧
        (∀ b, (∀ k, k < regCount list → Outside (wordAt (s.readLow rn) k) .word b) → t.mem.read b = s.mem.read b) ∧
        t.readLow rn = s.readLow rn + BitVec.ofNat 32 (4 * regCount list) ∧ SameRegsBut (LowReg.toReg rn) s t ∧
        t = { s with
          r := t.r, mem := t.mem, stale := t.stale, storeTrace := t.storeTrace, freeCount := t.freeCount, pc := t.pc }) ∧
    ∃ vs s0, StmWords s rn list vs s0 ∧
      (∀ u, WrittenInOrder .write vs (s.readLow rn) s0 u → ∃ t, exec (.stm rn list) s = .next t ∧
        t.readLow rn = s.readLow rn + BitVec.ofNat 32 (4 * regCount list) ∧ SameRegsBut (LowReg.toReg rn) s t ∧
        t = { u with r := t.r, pc := s.pc + 2#32 }) ∧
      (∀ k v u, vs[k]? = some v → WrittenInOrder .write (vs.take k) (s.readLow rn) s0 u →
        (∀ f, memWrite u (wordAt (s.readLow rn) k) .word v .write = .fault f → exec (.stm rn list) s = .fault f) ∧
        (∀ r, memWrite u (wordAt (s.readLow rn) k) .word v .write = .refused r → exec (.stm rn list) s = .refused r))

/-- PUSH stores its registers below SP, the lowest at the lowest address, LR highest, and moves SP down: in plain memory, and whatever takes its
stores, one after the other. A store that stops, stops it. -/
def Obligations.PushResult : Prop :=
  ∀ (s : State) (m : Bool) (list : RegList),
    let count := regCount list + (if m then 1 else 0)
    let base := s.sp - BitVec.ofNat 32 (4 * count)
    isAligned base .word = true →
    (s.mem.wf = true → (∀ k, k < count → s.Writable (wordAt base k) .word .write) →
      ∃ t, exec (.push m list) s = .next t ∧ t.pc = s.pc + 2#32 ∧ t.sp = base ∧
        (∀ i : LowReg, list.getLsbD i.toNat = true → t.wordOf (wordAt base (rankIn list i)) = s.readLow i) ∧
        (m = true → t.wordOf (wordAt base (regCount list)) = s.lr) ∧
        (∀ b, (∀ k, k < count → Outside (wordAt base k) .word b) → t.mem.read b = s.mem.read b) ∧
        (if s.usesPsp then t.msp = s.msp else t.psp = s.psp) ∧
        t = { s with
          msp := t.msp, psp := t.psp, mem := t.mem, stale := t.stale, storeTrace := t.storeTrace, pc := t.pc }) ∧
    (∀ vs u, PushWords s m list vs → WrittenInOrder .write vs base s u →
      ∃ t, exec (.push m list) s = .next t ∧ t.sp = base ∧ (if s.usesPsp then t.msp = s.msp else t.psp = s.psp) ∧
        t = { u with msp := t.msp, psp := t.psp, pc := s.pc + 2#32 }) ∧
    (∀ vs k v u, PushWords s m list vs → vs[k]? = some v → WrittenInOrder .write (vs.take k) base s u →
      (∀ f, memWrite u (wordAt base k) .word v .write = .fault f → exec (.push m list) s = .fault f) ∧
      (∀ r, memWrite u (wordAt base k) .word v .write = .refused r → exec (.push m list) s = .refused r))

/-- POP without the PC loads its registers from SP up, the lowest from the lowest address, and moves SP up: from plain memory, and whatever answers its
reads, one after the other. A read that stops, stops it. -/
def Obligations.PopResult : Prop :=
  ∀ (s : State) (list : RegList), isAligned s.sp .word = true →
    ((∀ k, k < regCount list → s.Readable (wordAt s.sp k) .word .read) →
      ∃ t, exec (.pop false list) s = .next t ∧ t.pc = s.pc + 2#32 ∧
        t.sp = s.sp + BitVec.ofNat 32 (4 * regCount list) ∧
        (∀ i : LowReg, list.getLsbD i.toNat = true → t.readLow i = s.wordOf (wordAt s.sp (rankIn list i))) ∧
        (∀ n : Reg, n ≠ 13#4 → n ≠ 15#4 → (8 ≤ n.toNat ∨ list.getLsbD n.toNat = false) → t.readReg n = s.readReg n) ∧
        (if s.usesPsp then t.msp = s.msp else t.psp = s.psp) ∧ SameMemory s t ∧
        t = { s with r := t.r, msp := t.msp, psp := t.psp, pc := t.pc }) ∧
    (∀ vs u, vs.length = regCount list → ReadInOrder .read vs s.sp s u →
      ∃ t, exec (.pop false list) s = .next t ∧ t.sp = s.sp + BitVec.ofNat 32 (4 * regCount list) ∧
        (∀ i : LowReg, list.getLsbD i.toNat = true → vs[rankIn list i]? = some (t.readLow i)) ∧
        (∀ n : Reg, n ≠ 13#4 → n ≠ 15#4 → (8 ≤ n.toNat ∨ list.getLsbD n.toNat = false) → t.readReg n = s.readReg n) ∧
        (if s.usesPsp then t.msp = s.msp else t.psp = s.psp) ∧
        t = { u with r := t.r, msp := t.msp, psp := t.psp, pc := s.pc + 2#32 }) ∧
    (∀ vs u f, vs.length < regCount list → ReadInOrder .read vs s.sp s u →
      memRead u (wordAt s.sp vs.length) .word .read = .fault f → exec (.pop false list) s = .fault f)

/-- POP with the PC does the same, then writes the PC as BX does: T from bit 0 of the word loaded for it, the rest of the word to the pc, unless
that word is an EXC_RETURN value in Handler mode (then PopReturnsFromException holds). Handler-mode values 0xF0000000 to 0xFFFFFFEF, which the
architecture calls Unpredictable, are plain branches: log 47. That a value with bit 0 clear completes here, and faults at the next fetch, is the spec's
general knowledge: log 50. -/
def Obligations.PopPcResult : Prop :=
  ∀ (s : State) (list : RegList), isAligned s.sp .word = true →
    ((∀ k, k < regCount list + 1 → s.Readable (wordAt s.sp k) .word .read) →
      s.mode = .thread ∨ (s.wordOf (wordAt s.sp (regCount list))).extractLsb' 4 28 ≠ 0xFFFFFFF#28 →
      ∃ t, exec (.pop true list) s = .next t ∧
        t.pc = s.wordOf (wordAt s.sp (regCount list)) &&& 0xFFFFFFFE#32 ∧
        t.tbit = (s.wordOf (wordAt s.sp (regCount list))).getLsbD 0 ∧
        t.sp = s.sp + BitVec.ofNat 32 (4 * (regCount list + 1)) ∧
        (∀ i : LowReg, list.getLsbD i.toNat = true → t.readLow i = s.wordOf (wordAt s.sp (rankIn list i))) ∧
        (∀ n : Reg, n ≠ 13#4 → n ≠ 15#4 → (8 ≤ n.toNat ∨ list.getLsbD n.toNat = false) → t.readReg n = s.readReg n) ∧
        (if s.usesPsp then t.msp = s.msp else t.psp = s.psp) ∧ SameMemory s t ∧
        t = { s with r := t.r, msp := t.msp, psp := t.psp, pc := t.pc, tbit := t.tbit }) ∧
    (∀ vs v u, vs.length = regCount list → ReadInOrder .read (vs ++ [v]) s.sp s u →
      s.mode = .thread ∨ v.extractLsb' 4 28 ≠ 0xFFFFFFF#28 →
      ∃ t, exec (.pop true list) s = .next t ∧ t.sp = s.sp + BitVec.ofNat 32 (4 * (regCount list + 1)) ∧
        (∀ i : LowReg, list.getLsbD i.toNat = true → vs[rankIn list i]? = some (t.readLow i)) ∧
        (∀ n : Reg, n ≠ 13#4 → n ≠ 15#4 → (8 ≤ n.toNat ∨ list.getLsbD n.toNat = false) → t.readReg n = s.readReg n) ∧
        (if s.usesPsp then t.msp = s.msp else t.psp = s.psp) ∧
        t = { u with r := t.r, msp := t.msp, psp := t.psp, tbit := v.getLsbD 0, pc := v &&& 0xFFFFFFFE#32 }) ∧
    (∀ vs u f, vs.length < regCount list + 1 → ReadInOrder .read vs s.sp s u →
      memRead u (wordAt s.sp vs.length) .word .read = .fault f → exec (.pop true list) s = .fault f)

/-- Every load and store form at a device region: a load gives a value of which nothing but its extension is said, a store changes nothing
that the core holds; LDM, STM, PUSH and POP write their bases and registers likewise. POP with the PC is said in Thread mode, since the value it loads
might be an EXC_RETURN. What devices do is not in the spec: the model's choice, log 10. -/
def Obligations.DeviceAccess : Prop :=
  ∀ (s : State) (rt rn rm : LowReg) (imm5 : BitVec 5) (imm8 : BitVec 8) (list : RegList),
    let at4 := s.readLow rn + BitVec.ofNat 32 (4 * imm5.toNat)
    let at2 := s.readLow rn + BitVec.ofNat 32 (2 * imm5.toNat)
    let at1 := s.readLow rn + BitVec.ofNat 32 imm5.toNat
    let ix := s.readLow rn + s.readLow rm
    let sp := s.sp + BitVec.ofNat 32 (4 * imm8.toNat)
    let lit := BitVec.ofNat 32 ((s.pc + 4#32).toNat / 4 * 4 + 4 * imm8.toNat)
    let word : Word → Prop := fun _ => True
    let byte : Word → Prop := fun v => v.toNat < 256
    let half : Word → Prop := fun v => v.toNat < 65536
    let signedByte : Word → Prop := fun v => -128 ≤ v.toInt ∧ v.toInt < 128
    let signedHalf : Word → Prop := fun v => -32768 ≤ v.toInt ∧ v.toInt < 32768
    (DeviceLoads (.ldrImm rt rn imm5) s rt at4 .word word ∧ DeviceLoads (.ldrReg rt rn rm) s rt ix .word word ∧
     DeviceLoads (.ldrSp rt imm8) s rt sp .word word ∧ DeviceLoads (.ldrLit rt imm8) s rt lit .word word ∧
     DeviceLoads (.ldrbImm rt rn imm5) s rt at1 .byte byte ∧ DeviceLoads (.ldrbReg rt rn rm) s rt ix .byte byte ∧
     DeviceLoads (.ldrsbReg rt rn rm) s rt ix .byte signedByte ∧ DeviceLoads (.ldrhImm rt rn imm5) s rt at2 .half half ∧
     DeviceLoads (.ldrhReg rt rn rm) s rt ix .half half ∧ DeviceLoads (.ldrshReg rt rn rm) s rt ix .half signedHalf) ∧
    (DeviceStores (.strImm rt rn imm5) s at4 .word ∧ DeviceStores (.strReg rt rn rm) s ix .word ∧
     DeviceStores (.strSp rt imm8) s sp .word ∧ DeviceStores (.strhImm rt rn imm5) s at2 .half ∧
     DeviceStores (.strhReg rt rn rm) s ix .half ∧ DeviceStores (.strbImm rt rn imm5) s at1 .byte ∧
     DeviceStores (.strbReg rt rn rm) s ix .byte) ∧
    (isAligned (s.readLow rn) .word = true →
      (∀ k, k < regCount list → s.OnDevice (wordAt (s.readLow rn) k) .word .read) →
      ∃ t, exec (.ldm rn list) s = .next t ∧
        (list.getLsbD rn.toNat = false → t.readLow rn = s.readLow rn + BitVec.ofNat 32 (4 * regCount list)) ∧
        (∀ i : LowReg, list.getLsbD i.toNat = false → i ≠ rn → t.readLow i = s.readLow i) ∧
        (∀ n : Reg, 8 ≤ n.toNat → n ≠ 15#4 → t.readReg n = s.readReg n) ∧
        t = { s with r := t.r, freeCount := t.freeCount, pc := s.pc + 2#32 }) ∧
    (isAligned (s.readLow rn) .word = true →
      (∀ k, k < regCount list → s.OnDevice (wordAt (s.readLow rn) k) .word .write) →
      ∃ t, exec (.stm rn list) s = .next t ∧ t.readLow rn = s.readLow rn + BitVec.ofNat 32 (4 * regCount list) ∧
        SameRegsBut (LowReg.toReg rn) s t ∧ t = { s with r := t.r, freeCount := t.freeCount, pc := s.pc + 2#32 }) ∧
    (∀ m, let count := regCount list + if m then 1 else 0
      let base := s.sp - BitVec.ofNat 32 (4 * count)
      isAligned base .word = true → (∀ k, k < count → s.OnDevice (wordAt base k) .word .write) →
      ∃ t, exec (.push m list) s = .next t ∧ t.sp = base ∧ (if s.usesPsp then t.msp = s.msp else t.psp = s.psp) ∧
        t = { s with msp := t.msp, psp := t.psp, pc := s.pc + 2#32 }) ∧
    (∀ p, let count := regCount list + if p then 1 else 0
      isAligned s.sp .word = true → (∀ k, k < count → s.OnDevice (wordAt s.sp k) .word .read) →
      p = false ∨ s.mode = .thread →
      ∃ t, exec (.pop p list) s = .next t ∧ t.sp = s.sp + BitVec.ofNat 32 (4 * count) ∧
        (if s.usesPsp then t.msp = s.msp else t.psp = s.psp) ∧
        (∀ n : Reg, n ≠ 13#4 → n ≠ 15#4 → (8 ≤ n.toNat ∨ list.getLsbD n.toNat = false) → t.readReg n = s.readReg n) ∧
        (p = false → t.pc = s.pc + 2#32 ∧ t.tbit = s.tbit) ∧ (p = true → t.pc.getLsbD 0 = false) ∧
        t = { s with r := t.r, msp := t.msp, psp := t.psp, pc := t.pc, tbit := t.tbit, freeCount := t.freeCount })

/-! ### System registers in memory -/

/-- The registers of the Private Peripheral Bus that read without effect give their fields, with 0 in the reserved bits and in those that
no interrupt stands behind (D9, D11: log 44), by every form that reads a word. CCR is 0x208 by conflict C22 (log 41). A byte or halfword load from the
Private Peripheral Bus, and a word load from an address there that holds no register, stop: the source gives them no behaviour (log 26). -/
def Obligations.SystemRegisterReads : Prop :=
  ∀ s : State,
    let reads := fun a value => RegisterReads s a value s
    reads 0xE000E100#32 (0#23 ++ s.irqEnable) ∧ reads 0xE000E180#32 (0#23 ++ s.irqEnable) ∧
    reads 0xE000E200#32 (0#23 ++ s.pending.irq) ∧ reads 0xE000E280#32 (0#23 ++ s.pending.irq) ∧
    reads 0xE000E400#32
      (s.irqPrio[3] ++ 0#6 ++ s.irqPrio[2] ++ 0#6 ++ s.irqPrio[1] ++ 0#6 ++ s.irqPrio[0] ++ 0#6) ∧
    reads 0xE000E404#32
      (s.irqPrio[7] ++ 0#6 ++ s.irqPrio[6] ++ 0#6 ++ s.irqPrio[5] ++ 0#6 ++ s.irqPrio[4] ++ 0#6) ∧
    reads 0xE000E408#32 (0#24 ++ s.irqPrio[8] ++ 0#6) ∧
    reads 0xE000ED00#32 0x410CC200#32 ∧ reads 0xE000ED14#32 0x00000208#32 ∧
    reads 0xE000ED1C#32 (s.prioSVCall ++ 0#30) ∧
    reads 0xE000ED20#32 (s.prioSysTick ++ 0#6 ++ s.prioPendSV ++ 0#22) ∧
    reads 0xE000ED10#32
      (0#27 ++ bitOf s.sevOnPend ++ 0#1 ++ bitOf s.sleepDeep ++ bitOf s.sleepOnExit ++ 0#1) ∧
    reads 0xE000E014#32 (0#8 ++ s.sysTick.reload) ∧
    reads 0xE000E018#32 (0#8 ++ s.sysTick.current) ∧
    reads 0xE000E01C#32
      (if s.platform.clkDiv = 0#2 then 0x80030D3F#32 else if s.platform.clkDiv = 1#2 then 0x8001869F#32
        else if s.platform.clkDiv = 2#2 then 0x8000C34F#32 else 0x800061A7#32) ∧
    (∀ a, NoRegisterAt a → memRead s a .word .read = .fault (.ppbNoRegister a.toNat) ∧
      ∀ i rt, WordLoad s rt a i → exec i s = .fault (.ppbNoRegister a.toNat)) ∧
    (∀ a w i, regionOf a.toNat = .ppb → isAligned a w = true → NarrowLoad s a w i →
      exec i s = .fault (.ppbNarrowAccess a.toNat))

/-- The three registers whose read has an effect or an Unknown bit, by every form that reads a word: SYST_CSR gives COUNTFLAG and clears it; ICSR and
AIRCR read with free bits where the spec says Unknown (log 28), and with their fields elsewhere. That ISRPENDING leaves the enables out of account, and
VECTPENDING PRIMASK and the execution priority, is the spec's general knowledge (log 40); the zeros of the reserved bits are D9 (log 44). -/
def Obligations.EffectfulRegisterReads : Prop :=
  ∀ s : State,
    RegisterReads s 0xE000E010#32
      (0#15 ++ bitOf s.sysTick.countFlag ++ 0#13 ++ bitOf s.sysTick.clkSource ++ bitOf s.sysTick.tickInt ++ bitOf s.sysTick.enable)
      { s with sysTick := { s.sysTick with countFlag := false } } ∧
    (∃ v n, RegisterReads s 0xE000ED04#32 v { s with freeCount := n } ∧
      v.getLsbD 31 = s.pending.nmi ∧ v.extractLsb' 29 2 = 0#2 ∧ v.getLsbD 28 = s.pending.pendSV ∧
      v.getLsbD 26 = s.pending.sysTick ∧ v.extractLsb' 23 2 = 0#2 ∧ v.getLsbD 22 = decide (s.pending.irq ≠ 0#9) ∧
      v.extractLsb' 18 4 = 0#4 ∧ v.extractLsb' 12 6 = (match s.candidate with | some e => e.number | none => 0#6) ∧
      v.extractLsb' 6 6 = 0#6 ∧ v.extractLsb' 0 6 = s.ipsr) ∧
    (∃ v n, RegisterReads s 0xE000ED0C#32 v { s with freeCount := n } ∧ v.extractLsb' 0 16 = 0#16)

/-- Stores to the interrupt controller, by every form that writes a word, set and clear enables, set pending bits and priorities; each bit of the word
has its own effect. Bits that no interrupt stands behind are ignored (D11: log 44). -/
def Obligations.InterruptRegisterWrites : Prop :=
  ∀ (s : State) (v : Word),
    (∃ e, RegisterWrites s 0xE000E100#32 v { s with irqEnable := e } ∧
      ∀ m, m < 9 → e.getLsbD m = (s.irqEnable.getLsbD m || v.getLsbD m)) ∧
    (∃ e, RegisterWrites s 0xE000E180#32 v { s with irqEnable := e } ∧
      ∀ m, m < 9 → e.getLsbD m = (s.irqEnable.getLsbD m && !v.getLsbD m)) ∧
    (∃ p, RegisterWrites s 0xE000E200#32 v { s with pending := { s.pending with irq := p } } ∧
      ∀ m, m < 9 → p.getLsbD m = (s.pending.irq.getLsbD m || v.getLsbD m)) ∧
    (∃ q, RegisterWrites s 0xE000E400#32 v { s with irqPrio := q } ∧
      ∀ (m : Nat) (h : m < 9), q[m] = if m < 4 then v.extractLsb' (8 * m + 6) 2 else s.irqPrio[m]) ∧
    (∃ q, RegisterWrites s 0xE000E404#32 v { s with irqPrio := q } ∧
      ∀ (m : Nat) (h : m < 9), q[m] =
        if 4 ≤ m ∧ m < 8 then v.extractLsb' (8 * (m - 4) + 6) 2 else s.irqPrio[m]) ∧
    (∃ q, RegisterWrites s 0xE000E408#32 v { s with irqPrio := q } ∧
      ∀ (m : Nat) (h : m < 9), q[m] = if m = 8 then v.extractLsb' 6 2 else s.irqPrio[m])

/-- 60_exceptions.md R465. Writing 1 to a bit of ICPR clears the pending bit, unless the interrupt is level-sensitive and its line is
asserted; the active bits and everything else stay. -/
def Obligations.ClearPendingRule : Prop :=
  ∀ (s : State) (v : Word),
    ∃ p, RegisterWrites s 0xE000E280#32 v { s with pending := { s.pending with irq := p } } ∧
      ∀ m, m < 9 → p.getLsbD m =
        if v.getLsbD m && !(!s.platform.irqPulse.getLsbD m && s.irqLine.getLsbD m) then false
        else s.pending.irq.getLsbD m

/-- Stores to the System Control Block and to SysTick, by every form that writes a word: fields written, pending bits of NMI, PendSV and SysTick set and
cleared, read-only registers left, the two Unpredictable writes refused (log 27). That reserved bits are ignored (D9) and that a write of SYST_CSR keeps COUNTFLAG (D13)
is log 44. A byte or halfword store to the Private Peripheral Bus, and a word store to an address there that holds no register, stop: the source gives
them no behaviour (log 26). -/
def Obligations.SystemControlWrites : Prop :=
  ∀ (s : State) (v : Word),
    RegisterWrites s 0xE000ED00#32 v s ∧ RegisterWrites s 0xE000ED14#32 v s ∧ RegisterWrites s 0xE000E01C#32 v s ∧
    RegisterWrites s 0xE000ED10#32 v
      { s with sevOnPend := v.getLsbD 4, sleepDeep := v.getLsbD 2, sleepOnExit := v.getLsbD 1 } ∧
    RegisterWrites s 0xE000ED1C#32 v { s with prioSVCall := v.extractLsb' 30 2 } ∧
    RegisterWrites s 0xE000ED20#32 v
      { s with prioSysTick := v.extractLsb' 30 2, prioPendSV := v.extractLsb' 22 2 } ∧
    RegisterWrites s 0xE000E010#32 v
      { s with
        sysTick := { s.sysTick with enable := v.getLsbD 0, tickInt := v.getLsbD 1, clkSource := v.getLsbD 2 } } ∧
    RegisterWrites s 0xE000E014#32 v { s with sysTick := { s.sysTick with reload := v.extractLsb' 0 24 } } ∧
    RegisterWrites s 0xE000E018#32 v { s with sysTick := { s.sysTick with current := 0, countFlag := false } } ∧
    (v.extractLsb' 16 16 ≠ 0x05FA#16 → RegisterWrites s 0xE000ED0C#32 v s) ∧
    (v.extractLsb' 16 16 = 0x05FA#16 → v.getLsbD 1 = false →
      RegisterWrites s 0xE000ED0C#32 v { s with resetRequested := s.resetRequested || v.getLsbD 2 }) ∧
    (v.extractLsb' 16 16 = 0x05FA#16 → v.getLsbD 1 = true →
      RegisterRefuses s 0xE000ED0C#32 v .aircrVectClrActive) ∧
    ((v.getLsbD 28 && v.getLsbD 27) = false → (v.getLsbD 26 && v.getLsbD 25) = false →
      RegisterWrites s 0xE000ED04#32 v
        { s with
          pending :=
            { s.pending with
              nmi := if v.getLsbD 31 then true else s.pending.nmi
              pendSV := if v.getLsbD 28 then true else if v.getLsbD 27 then false else s.pending.pendSV
              sysTick := if v.getLsbD 26 then true else if v.getLsbD 25 then false else s.pending.sysTick } }) ∧
    ((v.getLsbD 28 && v.getLsbD 27) = true ∨ (v.getLsbD 26 && v.getLsbD 25) = true →
      RegisterRefuses s 0xE000ED04#32 v .icsrSetAndClear) ∧
    (∀ a, NoRegisterAt a → memWrite s a .word v .write = .fault (.ppbNoRegister a.toNat) ∧
      ∀ i, WordStore s a v i → exec i s = .fault (.ppbNoRegister a.toNat)) ∧
    (∀ a w i, regionOf a.toNat = .ppb → isAligned a w = true → NarrowStore s a w i →
      exec i s = .fault (.ppbNarrowAccess a.toNat))

/-! ### Branches -/

/-- B, B with a condition and BL: the target is the instruction's address plus 4 plus the signed offset, modulo 2^32 (log 32); BL links.
ConditionsCompare says what the conditions mean. -/
def Obligations.BranchResult : Prop :=
  ∀ (s : State) (imm11 : BitVec 11) (imm8 : BitVec 8) (imm24 : BitVec 24) (c : Cond),
    exec (.b imm11) s = .next { s with pc := s.pc + 4#32 + BitVec.ofInt 32 (2 * imm11.toInt) } ∧
    (conditionPassed s.flags c = true →
      exec (.bCond c imm8) s = .next { s with pc := s.pc + 4#32 + BitVec.ofInt 32 (2 * imm8.toInt) }) ∧
    (conditionPassed s.flags c = false → exec (.bCond c imm8) s = .next { s with pc := s.pc + 2#32 }) ∧
    exec (.bl imm24) s =
      .next { s with lr := (s.pc + 4#32) ||| 1#32, pc := s.pc + 4#32 + BitVec.ofInt 32 (2 * imm24.toInt) }

/-- All fourteen conditions after a compare: each holds exactly when the two values compare so; MI and PL by the sign of the 32-bit
difference, VS and VC by whether the exact signed difference is out of range. LE is as conflict C1 has it (log 41). -/
def Obligations.ConditionsCompare : Prop :=
  ∀ (s t : State) (rn rm : LowReg), exec (.cmpReg rn rm) s = .next t →
    let x := s.readLow rn
    let y := s.readLow rm
    (conditionPassed t.flags .eq = decide (x = y)) ∧ (conditionPassed t.flags .ne = decide (x ≠ y)) ∧
    (conditionPassed t.flags .cs = decide (y.toNat ≤ x.toNat)) ∧ (conditionPassed t.flags .cc = decide (x.toNat < y.toNat)) ∧
    (conditionPassed t.flags .hi = decide (y.toNat < x.toNat)) ∧ (conditionPassed t.flags .ls = decide (x.toNat ≤ y.toNat)) ∧
    (conditionPassed t.flags .ge = decide (y.toInt ≤ x.toInt)) ∧ (conditionPassed t.flags .lt = decide (x.toInt < y.toInt)) ∧
    (conditionPassed t.flags .gt = decide (y.toInt < x.toInt)) ∧ (conditionPassed t.flags .le = decide (x.toInt ≤ y.toInt)) ∧
    (conditionPassed t.flags .mi = decide ((x - y).toInt < 0)) ∧ (conditionPassed t.flags .pl = decide (0 ≤ (x - y).toInt)) ∧
    (conditionPassed t.flags .vs =
      decide (x.toInt - y.toInt < -2147483648 ∨ 2147483648 ≤ x.toInt - y.toInt)) ∧
    (conditionPassed t.flags .vc = decide (-2147483648 ≤ x.toInt - y.toInt ∧ x.toInt - y.toInt < 2147483648))

/-- BX and BLX: T from bit 0, the branch, and for BLX the link; BX in Handler mode is a branch unless the value is an
EXC_RETURN (ExceptionReturnResult and BadReturnsRefused speak of those); BLX always is. Handler-mode values 0xF0000000 to 0xFFFFFFEF, which the
architecture calls Unpredictable, are plain branches: log 47. That a value with bit 0 clear completes here, LR being written and T cleared, and faults at
the next fetch, is the spec's general knowledge: log 50. -/
def Obligations.BranchExchangeResult : Prop :=
  ∀ (s : State) (rm : Reg),
    (s.mode = .thread ∨ (s.readReg rm).extractLsb' 4 28 ≠ 0xFFFFFFF#28 →
      exec (.bx rm) s =
        .next { s with tbit := (s.readReg rm).getLsbD 0, pc := s.readReg rm &&& 0xFFFFFFFE#32 }) ∧
    exec (.blx rm) s =
      .next { s with
        lr := (s.pc + 2#32) ||| 1#32, tbit := (s.readReg rm).getLsbD 0, pc := s.readReg rm &&& 0xFFFFFFFE#32 }

/-! ### Miscellaneous instructions -/

/-- CPSID and CPSIE set and clear PRIMASK; NOP, DMB and DSB do nothing but advance; ISB ends the stale-fetch window; WFI goes to sleep.
That the barriers do no more is log 31, that every option of theirs does as 1111 does the spec's general knowledge (R347; log 55), the window log 15,
that WFI sleeps (the source lets it be a NOP) log 23. -/
def Obligations.SimpleSystemInstructions : Prop :=
  ∀ (s : State) (opt : BitVec 4),
    exec .cpsid s = .next { s with primask := true, pc := s.pc + 2#32 } ∧
    exec .cpsie s = .next { s with primask := false, pc := s.pc + 2#32 } ∧
    exec .nop s = .next { s with pc := s.pc + 2#32 } ∧
    exec (.dmb opt) s = .next { s with pc := s.pc + 4#32 } ∧
    exec (.dsb opt) s = .next { s with pc := s.pc + 4#32 } ∧
    exec (.isb opt) s = .next { s with stale := [], pc := s.pc + 4#32 } ∧
    exec .wfi s = .next { s with sleeping := true, pc := s.pc + 2#32 }

/-- MRS: each special register's value, bit field by bit field; nothing else changes. The zeros of the EPSR, and of CONTROL in Handler mode, are
log 43. -/
def Obligations.MoveFromSpecial : Prop :=
  ∀ (s : State) (rd : Reg) (sr : SpecialReg), Reg.notSpPc rd = true →
    let apsr : Word := (bitOf s.flags.n ++ bitOf s.flags.z ++ bitOf s.flags.c ++ bitOf s.flags.v) ++ 0#28
    let ipsr : Word := 0#26 ++ s.ipsr
    ∃ t, exec (.mrs rd sr) s = .next t ∧ HighFrame rd s t ∧ t.pc = s.pc + 4#32 ∧
      t.readReg rd = (match sr with
        | .apsr => apsr
        | .iapsr => apsr + ipsr
        | .eapsr => apsr
        | .psr => apsr + ipsr
        | .ipsr => ipsr
        | .epsr => 0#32
        | .iepsr => ipsr
        | .msp => s.msp
        | .psp => s.psp
        | .primask => if s.primask then 1#32 else 0#32
        | .control => if s.mode = .thread ∧ s.spsel = true then 2#32 else 0#32)

/-- MSR: each special register's write; nothing else changes. The low bits of the stack pointers are log 30, that IPSR and EPSR (and CONTROL in
Handler mode) ignore writes log 43. -/
def Obligations.MoveToSpecial : Prop :=
  ∀ (s : State) (rn : Reg) (sr : SpecialReg),
    let x := s.readReg rn
    let flags : Flags := { n := x.getLsbD 31, z := x.getLsbD 30, c := x.getLsbD 29, v := x.getLsbD 28 }
    exec (.msr sr rn) s = .next (match sr with
      | .apsr => { s with flags := flags, pc := s.pc + 4#32 }
      | .iapsr => { s with flags := flags, pc := s.pc + 4#32 }
      | .eapsr => { s with flags := flags, pc := s.pc + 4#32 }
      | .psr => { s with flags := flags, pc := s.pc + 4#32 }
      | .ipsr => { s with pc := s.pc + 4#32 }
      | .epsr => { s with pc := s.pc + 4#32 }
      | .iepsr => { s with pc := s.pc + 4#32 }
      | .msp => { s with msp := x &&& 0xFFFFFFFC#32, pc := s.pc + 4#32 }
      | .psp => { s with psp := x &&& 0xFFFFFFFC#32, pc := s.pc + 4#32 }
      | .primask => { s with primask := x.getLsbD 0, pc := s.pc + 4#32 }
      | .control => { s with spsel := if s.mode = .thread then x.getLsbD 1 else s.spsel, pc := s.pc + 4#32 })

/-- SVC enters SVCall with the next instruction's address where its priority is high enough, and else raises HardFault.
The frame's layout is log 42, that R0 to R3, R12 and the flags stay log 33, the return address of the fault log 50, that the entry ends the window of stale
fetches log 15. -/
def Obligations.SupervisorCall : Prop :=
  ∀ (s : State) (imm8 : BitVec 8), s.mem.wf = true →
    (s.prio .svCall < s.executionPriority → s.CanStack .svCall →
      ∃ t, exec (.svc imm8) s = .next t ∧ Entered .svCall (s.pc + 2#32) s t) ∧
    (s.executionPriority ≤ s.prio .svCall → exec (.svc imm8) s = HardFaultOutcome s)

/-- UDF, UDF.W and (with no debugger) BKPT enter HardFault with their own address, and lock up where NMI or HardFault is active;
with a debugger BKPT halts the core (log 22). The frame's layout is log 42, that R0 to R3, R12 and the flags stay log 33, the return address log 50,
that lockup keeps every register log 49, that the entry ends the window of stale fetches log 15. -/
def Obligations.UndefinedAndBreakpoint : Prop :=
  ∀ (s : State) (imm8 : BitVec 8) (imm16 : BitVec 16), s.mem.wf = true →
    (s.active.nmi = false → s.active.hardFault = false → s.CanStack .hardFault →
      (∃ t, exec (.udf imm8) s = .next t ∧ Entered .hardFault s.pc s t) ∧
      (∃ t, exec (.udfW imm16) s = .next t ∧ Entered .hardFault s.pc s t) ∧
      (s.platform.debuggerAttached = false → ∃ t, exec (.bkpt imm8) s = .next t ∧ Entered .hardFault s.pc s t)) ∧
    (s.active.nmi = true ∨ s.active.hardFault = true →
      exec (.udf imm8) s = .next { s with lockup := true } ∧ exec (.udfW imm16) s = .next { s with lockup := true } ∧
      (s.platform.debuggerAttached = false → exec (.bkpt imm8) s = .next { s with lockup := true })) ∧
    (s.platform.debuggerAttached = true → exec (.bkpt imm8) s = .next { s with halted := true })

/-- YIELD, WFE and SEV are refused, each by its own name. -/
def Obligations.UnsupportedHintsRefused : Prop :=
  ∀ s : State, exec .yield s = .refused .yieldNotInSource ∧ exec .wfe s = .refused .wfeNotSupported ∧
    exec .sev s = .refused .sevNotSupported

/-! ### Exceptions -/

/-- Exception entry: the frame, the stack pointer, the link value, the context, the vector; nothing else changes. The frame is aligned to
8 bytes, below the stack pointer by 32 bytes, or by 36 where the stack pointer was only word-aligned. A frame that meets flash, or an address of the Private
Peripheral Bus without a register, stops (log 20). The frame's layout is log 42, that R0 to R3, R12 and the flags stay log 33, that the entry ends the
window of stale fetches log 15 (the spec's general knowledge, R128). BusErrorInEntryOrReturn speaks of bus errors. -/
def Obligations.ExceptionEntryResult : Prop :=
  (∀ (e : Exc) (ret : Word) (s : State), s.mem.wf = true → s.CanStack e →
    ∃ t, exceptionEntry e ret s = .next t ∧ Entered e ret s t) ∧
  (∀ sp0 : Word, sp0 &&& 3#32 = 0#32 →
    (frameAddress sp0).toNat % 8 = 0 ∧
    frameAddress sp0 = if sp0.getLsbD 2 then sp0 - 36#32 else sp0 - 32#32) ∧
  (∀ (e : Exc) (ret : Word) (s : State) (k : Nat), k < 8 →
    (∀ j, j < k →
      s.Writable (wordAt (frameAddress s.sp) j) .word .stack ∨ s.OnDevice (wordAt (frameAddress s.sp) j) .word .stack) →
    let a := wordAt (frameAddress s.sp) k
    (s.Readable a .word .stack → inFlash s.platform a.toNat = true → exceptionEntry e ret s = .refused .storeToFlash) ∧
    (NoRegisterAt a → exceptionEntry e ret s = .fault (.ppbNoRegister a.toNat)))

/-- Exception return by BX with each of the three EXC_RETURN values: what the frame restores, what becomes inactive, the stack and the
mode after. The frame's layout is log 42; that an interrupt pends again whatever the type of its line is log 45; that the return ends the window of stale
fetches is log 15 (the spec's general knowledge, R128). -/
def Obligations.ExceptionReturnResult : Prop :=
  ∀ (s : State) (rm : Reg) (e : Exc) (k : ReturnKind),
    s.mode = .handler → Exc.ofNumber s.ipsr = some e →
    s.readReg rm = (match k with
      | .handlerMain => 0xFFFFFFF1#32
      | .threadMain => 0xFFFFFFF9#32
      | .threadProcess => 0xFFFFFFFD#32) →
    k.fits s.active.count = true →
    (∀ j, j < 8 → s.Readable (wordAt (s.returnFrame k) j) .word .unstack) →
    (s.deactivate e).stackedIpsrFits k ((s.wordOf (wordAt (s.returnFrame k) 7)).extractLsb' 0 6) = true →
    ∃ t, exec (.bx rm) s = .next t ∧ Returned k (s.returnFrame k) s t

/-- A POP that loads the PC with an EXC_RETURN value in Handler mode, whatever else it pops, is the exception return from the state with
the list popped. That SP moves before the PC is written is the spec's general knowledge (40_memory_access.md R231; log 52). -/
def Obligations.PopReturnsFromException : Prop :=
  ∀ (s : State) (list : RegList), s.mode = .handler → isAligned s.sp .word = true →
    (∀ k, k < regCount list + 1 → s.Readable (wordAt s.sp k) .word .read) →
    (s.wordOf (wordAt s.sp (regCount list))).extractLsb' 4 28 = 0xFFFFFFF#28 →
    ∃ u, exec (.pop true list) s = exceptionReturn (s.wordOf (wordAt s.sp (regCount list))) u ∧
      u.msp = s.sp + BitVec.ofNat 32 (4 * (regCount list + 1)) ∧
      (∀ i : LowReg, list.getLsbD i.toNat = true → u.readLow i = s.wordOf (wordAt s.sp (rankIn list i))) ∧
      (∀ n : Reg, n ≠ 13#4 → n ≠ 15#4 → (8 ≤ n.toNat ∨ list.getLsbD n.toNat = false) → u.readReg n = s.readReg n) ∧
      u = { s with r := u.r, msp := u.msp }

/-- Refused, by BX and by POP with the PC: the reserved EXC_RETURN values, those that do not fit the number of active exceptions, and a stacked IPSR that
does not fit the return: it is to be 0 exactly when the return is to Thread mode, and else the number of an exception that is still active. -/
def Obligations.BadReturnsRefused : Prop :=
  ∀ (s : State) (i : Instr) (v sp : Word), s.mode = .handler → ReturnsBy i s v sp → v.extractLsb' 4 28 = 0xFFFFFFF#28 →
    (v.extractLsb' 0 4 ≠ 0b0001#4 → v.extractLsb' 0 4 ≠ 0b1001#4 → v.extractLsb' 0 4 ≠ 0b1101#4 →
      exec i s = .refused .reservedExcReturn) ∧
    (v.extractLsb' 0 4 = 0b0001#4 → s.active.count ≤ 1 → exec i s = .refused .inconsistentExcReturn) ∧
    (v.extractLsb' 0 4 = 0b1001#4 ∨ v.extractLsb' 0 4 = 0b1101#4 → s.active.count ≠ 1 →
      exec i s = .refused .inconsistentExcReturn) ∧
    (∀ frame, (v.extractLsb' 0 4 = 0b0001#4 ∨ v.extractLsb' 0 4 = 0b1001#4) ∧ frame = sp ∨
        v.extractLsb' 0 4 = 0b1101#4 ∧ frame = s.psp →
      (∀ k, k < 8 → s.Readable (wordAt frame k) .word .unstack) →
      let n := (s.wordOf (wordAt frame 7)).extractLsb' 0 6
      (v.extractLsb' 0 4 = 0b0001#4 → (∀ e, Exc.ofNumber n = some e → s.active.get e = false ∨ e.number = s.ipsr) →
        exec i s = .refused .inconsistentExcReturn) ∧
      (v.extractLsb' 0 4 = 0b1001#4 ∨ v.extractLsb' 0 4 = 0b1101#4 → n ≠ 0#6 → exec i s = .refused .inconsistentExcReturn))

/-- An exception entered and returned from at once gives back the state it interrupted: every register, the flags, T, both stack
pointers and the mode; what differs is memory below the stack, the exception's pending bit, sleep-on-exit, and the record of stale fetches, which entry and
return empty (log 15). -/
def Obligations.EntryThenReturnRestores : Prop :=
  ∀ (s t : State) (e : Exc), s.Inv → s.lockup = false → s.halted = false → s.active.get e = false →
    s.CanStack e → (∀ k, k < 8 → busError s.platform (wordAt (frameAddress s.sp) k).toNat 4 .unstack = false) →
    exceptionEntry e s.pc s = .next t →
    ∃ u, exceptionReturn t.lr t = .next u ∧
      u = { s with
        mem := t.mem, stale := [], pending := u.pending
        sleeping := s.sleeping || (decide (s.mode = .thread) && s.sleepOnExit) } ∧
      ∀ f, f ≠ e → u.pending.get f = s.pending.get f

/-- Raising HardFault: lockup while NMI or HardFault is active, else the entry of HardFault that returns to the instruction. PRIMASK does not
hold it back. That lockup keeps the pc and every register is log 49, the return address log 50. -/
def Obligations.HardFaultOrLockup : Prop :=
  ∀ (c : HardFaultCause) (s : State), raiseHardFault c s = HardFaultOutcome s

/-- The execution priority is 256 or the least priority of an active exception, and at most 0 under PRIMASK. -/
def Obligations.ExecutionPriorityRule : Prop :=
  ∀ s : State,
    (∀ e, s.active.get e = true → s.executionPriorityNoMask ≤ s.prio e) ∧
    s.executionPriorityNoMask ≤ 256 ∧
    (s.executionPriorityNoMask = 256 ∨ ∃ e, s.active.get e = true ∧ s.executionPriorityNoMask = s.prio e) ∧
    s.executionPriority = if s.primask then min s.executionPriorityNoMask 0 else s.executionPriorityNoMask

/-- 60_exceptions.md R412. The candidate is the pending and enabled exception of the smallest priority value, among equals the one of the
smallest number; it can be taken when its priority value is strictly below the execution priority, so that none preempts itself. -/
def Obligations.CandidateRule : Prop :=
  ∀ s : State,
    (s.candidate = none ↔ ∀ e, ¬(s.pending.get e = true ∧ s.excEnabled e = true)) ∧
    (∀ e, s.candidate = some e → s.pending.get e = true ∧ s.excEnabled e = true ∧
      ∀ f, s.pending.get f = true → s.excEnabled f = true →
        s.prio e < s.prio f ∨ (s.prio e = s.prio f ∧ e.number.toNat ≤ f.number.toNat)) ∧
    (∀ e, s.takeable = some e ↔ s.candidate = some e ∧ s.prio e < s.executionPriority) ∧
    (∀ e, s.active.get e = true → s.takeable ≠ some e)

/-- The exception taken has a priority value strictly below the execution priority; so none preempts itself, and PRIMASK leaves only NMI and
HardFault. -/
def Obligations.TakenExceptionRule : Prop :=
  ∀ (s : State) (e : Exc), s.takeable = some e →
    (∀ f, s.active.get f = true → s.prio e < s.prio f) ∧ s.active.get e = false ∧
    (s.primask = true → e = .nmi ∨ e = .hardFault)

/-- A processor that can take an exception enters it before the next instruction, with the pc as return address. -/
def Obligations.ExceptionTakenBeforeInstruction : Prop :=
  ∀ (s0 s : State) (e : Exc), ProcessorTurn s0 s → s.halted = false → s.lockup = false → s.sleeping = false →
    s.takeable = some e → step s0 = exceptionEntry e s.pc s

/-- A locked-up processor does nothing, but that a pending NMI ends a lockup in which NMI is not active, with return address
0xFFFFFFFE (the spec's general knowledge; log 49, as is what lockup keeps). A Debug Entry request wakes the processor and, where a debugger is attached,
halts it and so ends a lockup; a halted processor does nothing (the model's choice: log 22). -/
def Obligations.LockupRule : Prop :=
  (∀ s0 s : State, ProcessorTurn s0 s → s.halted = false → s.lockup = true →
    (s.pending.nmi = true → s.active.nmi = false →
      step s0 = exceptionEntry .nmi 0xFFFFFFFE#32 { s with lockup := false }) ∧
    (s.pending.nmi = false ∨ s.active.nmi = true → step s0 = .next s)) ∧
  (∀ (s : State) (rest : List Turn), s.schedule = .debugEntry :: rest →
    (s.platform.debuggerAttached = true →
      step s = .next { s with schedule := rest, sleeping := false, lockup := false, halted := true }) ∧
    (s.platform.debuggerAttached = false → step s = .next { s with schedule := rest, sleeping := false })) ∧
  (∀ s0 s : State, ProcessorTurn s0 s → s.halted = true → step s0 = .next s)

/-- A sleeping processor does nothing until the candidate would preempt if PRIMASK were clear; then it wakes and makes its step. A spurious
wake-up (R482, D25) ends the sleep and does nothing else; when it comes is the schedule's choice (log 11). -/
def Obligations.SleepRule : Prop :=
  (∀ s0 s : State, ProcessorTurn s0 s → s.halted = false → s.lockup = false → s.sleeping = true →
    (∀ e, s.candidate = some e → s.prio e < s.executionPriorityNoMask →
      step s0 = processorStep { s with sleeping := false }) ∧
    ((s.candidate = none ∨ ∃ e, s.candidate = some e ∧ s.executionPriorityNoMask ≤ s.prio e) → step s0 = .next s)) ∧
  (∀ (s : State) (rest : List Turn), s.schedule = .wake :: rest →
    step s = .next { s with schedule := rest, sleeping := false })

/-- The sampler: a line pends while it is high and its exception is not active, or when it has risen; the levels are kept; nothing else
changes. That the NMI line is sampled as an interrupt line is D31 (log 45). A turn of the lines sets them, samples them and does nothing else (logs 11
and 12). -/
def Obligations.SamplerRule : Prop :=
  (∀ s : State,
    (∀ m, m < 9 → s.sample.pending.irq.getLsbD m =
      (s.pending.irq.getLsbD m || (s.irqLine.getLsbD m && (!s.active.irq.getLsbD m || !s.irqPrev.getLsbD m)))) ∧
    s.sample.pending.nmi = (s.pending.nmi || (s.nmiLine && (!s.active.nmi || !s.nmiPrev))) ∧
    s.sample = { s with
      irqPrev := s.irqLine, nmiPrev := s.nmiLine
      pending := { s.pending with irq := s.sample.pending.irq, nmi := s.sample.pending.nmi } }) ∧
  (∀ (s : State) (rest : List Turn) (irq : BitVec 9) (nmi : Bool), s.schedule = .lines irq nmi :: rest →
    step s = .next { s with schedule := rest, irqLine := irq, nmiLine := nmi }.sample)

/-! ### SysTick, reset, the whole machine -/

/-- One tick of an enabled timer: a reload at 0, else one down, with COUNTFLAG and (if TICKINT) a pending SysTick when the count goes from 1
to 0; nothing while it is disabled or the core is halted. -/
def Obligations.SysTickTickRule : Prop :=
  ∀ (s : State) (rest : List Turn), s.schedule = .tick :: rest →
    (s.sysTick.enable = false ∨ s.halted = true → step s = .next { s with schedule := rest }) ∧
    (s.sysTick.enable = true → s.halted = false →
      step s = .next { s with
        schedule := rest
        sysTick :=
          { s.sysTick with
            current := if s.sysTick.current = 0#24 then s.sysTick.reload else s.sysTick.current - 1#24
            countFlag := s.sysTick.countFlag || decide (s.sysTick.current = 1#24) }
        pending :=
          { s.pending with
            sysTick := s.pending.sysTick || (decide (s.sysTick.current = 1#24) && s.sysTick.tickInt) } })

/-- From a count of 0 and a RELOAD of N - 1 > 0, the count is 0 again after N ticks, with COUNTFLAG set and the exception pending if TICKINT;
it reaches 0 at no tick between. -/
def Obligations.SysTickPeriod : Prop :=
  ∀ (s : State) (k : Nat), s.sysTick.enable = true → s.halted = false → s.sysTick.current = 0#24 →
    1 ≤ k → k ≤ s.sysTick.reload.toNat + 1 →
    (((State.sysTickTick)^[k] s).sysTick.current).toNat = s.sysTick.reload.toNat + 1 - k ∧
    (1 ≤ s.sysTick.reload.toNat → k ≤ s.sysTick.reload.toNat →
      ((State.sysTickTick)^[k] s).pending = s.pending ∧
      ((State.sysTickTick)^[k] s).sysTick.countFlag = s.sysTick.countFlag) ∧
    (1 ≤ s.sysTick.reload.toNat → k = s.sysTick.reload.toNat + 1 →
      ((State.sysTickTick)^[k] s).pending = { s.pending with sysTick := s.pending.sysTick || s.sysTick.tickInt } ∧
      ((State.sysTickTick)^[k] s).sysTick.countFlag = true)

/-- A reset: MSP, the pc and T from the words at 0 and 4; every value of 10_state.md R68 and R504 (ResetValues); the lines and the schedule stay. Of R0 to
R12, PSP, LR, the flags, RELOAD and CURRENT nothing is said. Memory stays over a reset between steps (the spec's decision D14: log 14). A reset in the middle
of what the processor does next leaves every byte that this would not store to (70_reset_and_hazards.md R502, D14; the addresses it stores to are collected
by the model's storeTrace: log 14). A bus error at 0 or 4 refuses the reset (R503, D33: log 37). The model's choices: when a requested reset is applied
(log 13), the low bits of the stack pointers (log 30), the previous levels (log 36, D14), the end of a debugger's halt (log 22) and of the window of stale
fetches (log 15). -/
def Obligations.ResetResult : Prop :=
  ∀ (s : State) (rest : List Turn),
    let vectorError := busError s.platform 0 4 .vector = true ∨ busError s.platform 4 4 .vector = true
    (ResetNext s rest →
      (¬vectorError → ∃ t, step s = .next t ∧ AfterReset s rest t ∧ t.mem = s.mem) ∧
      (vectorError → step s = .refused .resetVectorBusError)) ∧
    (s.schedule = .resetMidStep :: rest → s.mem.wf = true →
      let next := processorStep { ({ s with schedule := rest }).sample with storeTrace := some [] }
      (∀ u, next = .next u →
        (∀ b, b ∉ u.storeTrace.getD [] → u.mem.read b = s.mem.read b) ∧
        (¬vectorError → ∃ t, step s = .next t ∧ AfterReset s rest t ∧
          ∀ b, b ∉ u.storeTrace.getD [] → t.mem.read b = s.mem.read b) ∧
        (vectorError → step s = .refused .resetVectorBusError)) ∧
      (∀ f, next = .fault f → step s = .fault f) ∧ (∀ r, next = .refused r → step s = .refused r))

/-- The machine's reset state holds the values of 10_state.md R68 and 70_reset_and_hazards.md R504, written out, and the invariant: nothing is pending or
active, every enable and priority is 0. The values there that the spec leaves Unknown are the model's (logs 3 and 4), the previous levels are D14 (log 36). -/
def Obligations.InvAtReset : Prop :=
  State.reset.Inv ∧ ResetValues State.reset ∧ State.reset.irqPrev = State.reset.irqLine ∧ State.reset.nmiPrev = State.reset.nmiLine

/-- Every step, whoever's turn it is, keeps the invariant. That SVCall is left pending by nothing rests on 60_exceptions.md R406 and, for a bus error in its
own entry, on log 51. -/
def Obligations.StepKeepsInv : Prop :=
  ∀ s t : State, s.Inv → step s = .next t → t.Inv

/-- PRIMASK is changed by CPSIE, CPSID, MSR PRIMASK and a reset only: no other instruction, no exception entry or return, and no other turn of the schedule
(a tick, the lines, a wake-up, a debugger's request) changes it. A reset clears it. -/
def Obligations.PrimaskWriters : Prop :=
  (∀ (i : Instr) (s t : State), exec i s = .next t → t.primask ≠ s.primask →
    i = .cpsie ∨ i = .cpsid ∨ ∃ rn, i = .msr .primask rn) ∧
  (∀ s t : State, step s = .next t → t.primask ≠ s.primask →
    (∃ rest, ResetNext s rest ∨ s.schedule = .resetMidStep :: rest) ∨
      ∃ i, Executes s i t ∧ (i = .cpsie ∨ i = .cpsid ∨ ∃ rn, i = .msr .primask rn)) ∧
  (∀ (s t : State) (rest : List Turn), ResetNext s rest ∨ s.schedule = .resetMidStep :: rest → step s = .next t →
    t.primask = false)

/-- Handler mode is entered by an instruction only through SVCall or HardFault, and left only through BX and POP with the PC; IPSR changes no other way in an
instruction. In a step it changes, besides, only when an exception is entered (to its number, or to HardFault's in its place) or on a reset, which
makes it 0; no other turn of the schedule changes it. -/
def Obligations.ModeChanges : Prop :=
  (∀ (i : Instr) (s t : State), exec i s = .next t → t.ipsr ≠ s.ipsr →
    t.ipsr = 3#6 ∨ (t.ipsr = 11#6 ∧ ∃ imm8, i = .svc imm8) ∨ (∃ rm, i = .bx rm) ∨ ∃ list, i = .pop true list) ∧
  (∀ s t : State, step s = .next t → t.ipsr ≠ s.ipsr →
    (∃ rest, ResetNext s rest ∨ s.schedule = .resetMidStep :: rest) ∨
    (∃ s1, ProcessorTurn s s1 ∧ t.ipsr = 3#6) ∨ (∃ e, Enters s e ∧ t.ipsr = e.number) ∨
    ∃ i, Executes s i t ∧ ((t.ipsr = 11#6 ∧ ∃ imm8, i = .svc imm8) ∨ (∃ rm, i = .bx rm) ∨ ∃ list, i = .pop true list)) ∧
  (∀ (s t : State) (rest : List Turn), ResetNext s rest ∨ s.schedule = .resetMidStep :: rest → step s = .next t →
    t.ipsr = 0#6)

/-- No step changes the platform's parameters (the model's choice for what the data sheet leaves open: log 7, and D34 for memory at address 0). -/
def Obligations.PlatformConstant : Prop :=
  ∀ s t : State, step s = .next t → t.platform = s.platform

/-- A bus error inside an exception entry or return. At word number n of the frame, or on the vector (n = 8): lockup, with nothing else changed but the
trace of stores that a reset in mid-step keeps (log 14), where the exception is NMI or HardFault, one of them is active, or HardFault's own vector gets a
bus error too; else HardFault's handler in place of the exception's, whose bits stay, with the first n words of the frame stored and the stack pointer at
the frame. At word n of the frame of a return: lockup, or, for a frame on the process stack, HardFault's handler in place of the return. What all this
leaves is the spec's decision (60_exceptions.md R427, R446; logs 20, 21 and 51, the layout log 42, the end of the window of stale fetches log 15). -/
def Obligations.BusErrorInEntryOrReturn : Prop :=
  (∀ (s : State) (e : Exc) (ret : Word) (n : Nat), s.mem.wf = true →
    (∀ j, j < n → s.Writable (wordAt (frameAddress s.sp) j) .word .stack) →
    (n < 8 ∧ s.BusErrorAt (wordAt (frameAddress s.sp) n) .stack) ∨
      (n = 8 ∧ busError s.platform (4 * e.number.toNat) 4 .vector = true) →
    let stuck := e = .nmi ∨ e = .hardFault ∨ s.active.nmi = true ∨ s.active.hardFault = true ∨
      busError s.platform 12 4 .vector = true
    (stuck → ∃ t, exceptionEntry e ret s = .next t ∧ t = { s with lockup := true, storeTrace := t.storeTrace } ∧
      (s.storeTrace = none → t.storeTrace = none)) ∧
    (¬stuck → ∃ t, exceptionEntry e ret s = .next t ∧ HardFaultContext t ∧ FrameHolds n ret s t ∧
      (∀ b, (∀ j, j < 8 → Outside (wordAt (frameAddress s.sp) j) .word b) → t.mem.read b = s.mem.read b) ∧
      (if s.mode = .thread ∧ s.spsel = true then t.psp = frameAddress s.sp ∧ t.msp = s.msp
        else t.msp = frameAddress s.sp ∧ t.psp = s.psp) ∧
      (t.lr = if s.mode = .handler then 0xFFFFFFF1#32 else if s.spsel then 0xFFFFFFFD#32 else 0xFFFFFFF9#32) ∧
      (∀ f, f ≠ .hardFault → t.pending.get f = s.pending.get f ∧ t.active.get f = s.active.get f) ∧
      t = { s with
        mem := t.mem, msp := t.msp, psp := t.psp, lr := t.lr, ipsr := t.ipsr, spsel := t.spsel
        pending := t.pending, active := t.active, tbit := t.tbit, pc := t.pc
        stale := [], storeTrace := t.storeTrace, freeCount := t.freeCount })) ∧
  (∀ (s : State) (rm : Reg) (e : Exc) (k : ReturnKind) (n : Nat),
    s.mode = .handler → Exc.ofNumber s.ipsr = some e →
    s.readReg rm = (match k with
      | .handlerMain => 0xFFFFFFF1#32
      | .threadMain => 0xFFFFFFF9#32
      | .threadProcess => 0xFFFFFFFD#32) →
    k.fits s.active.count = true → n < 8 → (∀ j, j < n → s.Readable (wordAt (s.returnFrame k) j) .word .unstack) →
    s.BusErrorAt (wordAt (s.returnFrame k) n) .unstack →
    ∃ t, exec (.bx rm) s = .next t ∧
      (k ≠ .threadProcess ∨ busError s.platform 12 4 .vector = true →
        (∀ f, BitsAfterReturn e f s t) ∧ t = { s with active := t.active, pending := t.pending, lockup := true }) ∧
      (k = .threadProcess → busError s.platform 12 4 .vector = false →
        HardFaultContext t ∧ t.lr = 0xFFFFFFFD#32 ∧ (∀ f, f ≠ .hardFault → BitsAfterReturn e f s t) ∧
        t = { s with
          lr := t.lr, ipsr := t.ipsr, spsel := t.spsel, pending := t.pending, active := t.active, tbit := t.tbit
          pc := t.pc, stale := [] }))
end

