-- ==== Sys2Proof/Laws/Memory.lean ====
section
/-! SUPPORT. Laws of memory: read after write, writes elsewhere, and the canonical form kept by every operation. -/

namespace Sys2Proof.Machine

theorem sortedAbove_cons (lo : Option Nat) (a : Nat) (v : Byte) (m : Memory) :
    Memory.sortedAbove lo ((a, v) :: m) = true ↔
      (∀ l, lo = some l → l < a) ∧ a < addressSpace ∧ v ≠ blankByte ∧ Memory.sortedAbove (some a) m = true := by
  cases lo <;> simp [Memory.sortedAbove, and_assoc]

theorem sortedAbove_weaken {lo lo' : Option Nat} {m : Memory} (h : Memory.sortedAbove lo m = true)
    (hlo : ∀ l', lo' = some l' → ∃ l, lo = some l ∧ l' ≤ l) : Memory.sortedAbove lo' m = true := by
  cases m with
  | nil => simp [Memory.sortedAbove]
  | cons e m =>
    obtain ⟨a, v⟩ := e
    rw [sortedAbove_cons] at h ⊢
    refine ⟨fun l' hl' => ?_, h.2⟩
    obtain ⟨l, hl, hle⟩ := hlo l' hl'
    exact Nat.lt_of_le_of_lt hle (h.1 l hl)

/-- Nothing is listed at or below the bound. -/
theorem read_below {l : Nat} {m : Memory} (h : Memory.sortedAbove (some l) m = true) {a : Nat} (ha : a ≤ l) :
    m.read a = blankByte := by
  induction m generalizing l with
  | nil => rfl
  | cons e m ih =>
    obtain ⟨b, v⟩ := e
    rw [sortedAbove_cons] at h
    have hlb := h.1 l rfl
    have hne : a ≠ b := by omega
    simp only [Memory.read, if_neg hne]
    exact ih h.2.2.2 (by omega)

theorem read_insert (m : Memory) (a : Nat) (v : Byte) (b : Nat) :
    (m.insert a v).read b = if b = a then v else m.read b := by
  induction m with
  | nil => rfl
  | cons e m ih =>
    obtain ⟨c, w⟩ := e
    unfold Memory.insert
    split
    · simp only [Memory.read]
    · split
      · next h => subst h; simp only [Memory.read]; split <;> rfl
      · next h =>
        simp only [Memory.read, ih]
        split
        · next hb => subst hb; rw [if_neg (by omega)]
        · rfl

theorem read_erase {lo : Option Nat} {m : Memory} (h : Memory.sortedAbove lo m = true) (a b : Nat) :
    (m.erase a).read b = if b = a then blankByte else m.read b := by
  induction m generalizing lo with
  | nil => simp [Memory.erase, Memory.read]
  | cons e m ih =>
    obtain ⟨c, w⟩ := e
    rw [sortedAbove_cons] at h
    unfold Memory.erase
    split
    · next hac =>
      subst hac
      simp only [Memory.read]
      split
      · next hb => subst hb; exact read_below h.2.2.2 (Nat.le_refl _)
      · rfl
    · next hac =>
      simp only [Memory.read, ih h.2.2.2]
      split
      · next hb => subst hb; rw [if_neg (fun e => hac e.symm)]
      · rfl

theorem sortedAbove_insert {lo : Option Nat} {m : Memory} (h : Memory.sortedAbove lo m = true) {a : Nat} {v : Byte}
    (hlo : ∀ l, lo = some l → l < a) (ha : a < addressSpace) (hv : v ≠ blankByte) :
    Memory.sortedAbove lo (m.insert a v) = true := by
  induction m generalizing lo with
  | nil => simp only [Memory.insert]; rw [sortedAbove_cons]; exact ⟨hlo, ha, hv, rfl⟩
  | cons e m ih =>
    obtain ⟨c, w⟩ := e
    have h' := (sortedAbove_cons lo c w m).1 h
    unfold Memory.insert
    split
    · next hac =>
      rw [sortedAbove_cons]
      refine ⟨hlo, ha, hv, ?_⟩
      rw [sortedAbove_cons]
      exact ⟨fun l hl => by cases hl; exact hac, h'.2⟩
    · split
      · next _ hac => subst hac; rw [sortedAbove_cons]; exact ⟨hlo, ha, hv, h'.2.2.2⟩
      · next h1 h2 =>
        rw [sortedAbove_cons]
        exact ⟨h'.1, h'.2.1, h'.2.2.1, ih h'.2.2.2 (fun l hl => by cases hl; omega)⟩

theorem sortedAbove_erase {lo : Option Nat} {m : Memory} (h : Memory.sortedAbove lo m = true) (a : Nat) :
    Memory.sortedAbove lo (m.erase a) = true := by
  induction m generalizing lo with
  | nil => rfl
  | cons e m ih =>
    obtain ⟨c, w⟩ := e
    have h' := (sortedAbove_cons lo c w m).1 h
    unfold Memory.erase
    split
    · exact sortedAbove_weaken h'.2.2.2 (fun l hl => ⟨c, rfl, Nat.le_of_lt (h'.1 l hl)⟩)
    · rw [sortedAbove_cons]
      exact ⟨h'.1, h'.2.1, h'.2.2.1, ih h'.2.2.2⟩

/-- A byte write keeps the canonical form. -/
theorem write_wf {m : Memory} (h : m.wf = true) (a : Nat) (v : Byte) : (m.write a v).wf = true := by
  unfold Memory.write
  split
  · next ha =>
    split
    · exact sortedAbove_erase h a
    · next hv => exact sortedAbove_insert h (fun l hl => nomatch hl) ha hv
  · exact h

/-- Read after write: the written byte there, every other byte as before. -/
theorem read_write {m : Memory} (h : m.wf = true) {a : Nat} (ha : a < addressSpace) (v : Byte) (b : Nat) :
    (m.write a v).read b = if b = a then v else m.read b := by
  unfold Memory.write
  rw [if_pos ha]
  split
  · next hv => subst hv; exact read_erase h a b
  · exact read_insert m a v b

/-- A write leaves every other byte alone. -/
theorem read_write_ne {m : Memory} (h : m.wf = true) {a b : Nat} (hab : b ≠ a) (v : Byte) :
    (m.write a v).read b = m.read b := by
  by_cases ha : a < addressSpace
  · rw [read_write h ha, if_neg hab]
  · unfold Memory.write; rw [if_neg ha]

theorem writeHalf_wf {m : Memory} (h : m.wf = true) (a : Nat) (v : Half) : (m.writeHalf a v).wf = true :=
  write_wf (write_wf h _ _) _ _

theorem writeWord_wf {m : Memory} (h : m.wf = true) (a : Nat) (v : Word) : (m.writeWord a v).wf = true :=
  write_wf (write_wf (write_wf (write_wf h _ _) _ _) _ _) _ _

theorem writeWidth_wf {m : Memory} (h : m.wf = true) (a : Nat) (v : Word) (w : Width) :
    (m.writeWidth a v w).wf = true := by
  cases w
  · exact write_wf h _ _
  · exact writeHalf_wf h _ _
  · exact writeWord_wf h _ _

/-- A write of a width leaves every byte outside it alone. -/
theorem read_writeWidth_outside {m : Memory} (h : m.wf = true) {a b : Nat} (v : Word) (w : Width)
    (hb : b < a ∨ a + w.bytes ≤ b) : (m.writeWidth a v w).read b = m.read b := by
  cases w <;> simp only [Width.bytes] at hb
  · exact read_write_ne h (by omega) _
  · unfold Memory.writeWidth Memory.writeHalf
    rw [read_write_ne (write_wf h _ _) (by omega), read_write_ne h (by omega)]
  · unfold Memory.writeWidth Memory.writeWord
    rw [read_write_ne (write_wf (write_wf (write_wf h _ _) _ _) _ _) (by omega),
      read_write_ne (write_wf (write_wf h _ _) _ _) (by omega),
      read_write_ne (write_wf h _ _) (by omega), read_write_ne h (by omega)]

theorem word_of_bytes (v : Word) :
    v.extractLsb' 24 8 ++ v.extractLsb' 16 8 ++ v.extractLsb' 8 8 ++ v.extractLsb' 0 8 = v := by
  apply BitVec.eq_of_getLsbD_eq
  intro i hi
  simp only [BitVec.getLsbD_append, BitVec.getLsbD_extractLsb']
  split
  · next h => simp [h]
  · next h =>
    split
    · next h2 => simp [h2]; congr 1; omega
    · next h2 =>
      split
      · next h3 => simp [h3]; congr 1; omega
      · next h3 => simp [show i - 8 - 8 - 8 < 8 by omega]; congr 1; omega

theorem half_of_bytes (v : Half) : v.extractLsb' 8 8 ++ v.extractLsb' 0 8 = v := by
  apply BitVec.eq_of_getLsbD_eq
  intro i hi
  simp only [BitVec.getLsbD_append, BitVec.getLsbD_extractLsb']
  split
  · next h => simp [h]
  · next h => simp [show i - 8 < 8 by omega]; congr 1; omega

/-- A word reads back as it was written. -/
theorem readWord_writeWord {m : Memory} (h : m.wf = true) {a : Nat} (ha : a + 3 < addressSpace) (v : Word) :
    (m.writeWord a v).readWord a = v := by
  have w1 := write_wf h a (v.extractLsb' 0 8)
  have w2 := write_wf w1 (a + 1) (v.extractLsb' 8 8)
  have w3 := write_wf w2 (a + 2) (v.extractLsb' 16 8)
  have e0 := read_write h (a := a) (by omega) (v.extractLsb' 0 8)
  have e1 := read_write w1 (a := a + 1) (by omega) (v.extractLsb' 8 8)
  have e2 := read_write w2 (a := a + 2) (by omega) (v.extractLsb' 16 8)
  have e3 := read_write w3 ha (v.extractLsb' 24 8)
  unfold Memory.readWord Memory.writeWord
  simp [e0, e1, e2, e3, word_of_bytes]

/-- A halfword reads back as it was written. -/
theorem readHalf_writeHalf {m : Memory} (h : m.wf = true) {a : Nat} (ha : a + 1 < addressSpace) (v : Half) :
    (m.writeHalf a v).readHalf a = v := by
  have w1 := write_wf h a (v.extractLsb' 0 8)
  have e0 := read_write h (a := a) (by omega) (v.extractLsb' 0 8)
  have e1 := read_write w1 ha (v.extractLsb' 8 8)
  unfold Memory.readHalf Memory.writeHalf
  simp [e0, e1, half_of_bytes]

/-- Reading four bytes that are the same gives the same word. -/
theorem readWord_congr {m m' : Memory} {a : Nat} (h : ∀ b, a ≤ b → b < a + 4 → m'.read b = m.read b) :
    m'.readWord a = m.readWord a := by
  unfold Memory.readWord
  rw [h (a + 3) (by omega) (by omega), h (a + 2) (by omega) (by omega), h (a + 1) (by omega) (by omega),
    h a (by omega) (by omega)]

/-- A word elsewhere is left alone. -/
theorem readWord_writeWord_ne {m : Memory} (h : m.wf = true) {a b : Nat} (v : Word) (hab : b + 4 ≤ a ∨ a + 4 ≤ b) :
    (m.writeWord a v).readWord b = m.readWord b :=
  readWord_congr fun c h1 h2 => read_writeWidth_outside h v .word (by simp only [Width.bytes]; omega)

end Sys2Proof.Machine
end

