-- ==== Sys2Proof/Laws/State.lean ====
section
/-! SUPPORT. One lemma for each field and each update of the state: what the update leaves there. -/

namespace Sys2Proof.Machine

@[simp] theorem setMsp_r (s : State) (v : Word) : (s.setMsp v).r = s.r := rfl
@[simp] theorem setMsp_msp (s : State) (v : Word) : (s.setMsp v).msp = alignSp v := rfl
@[simp] theorem setMsp_psp (s : State) (v : Word) : (s.setMsp v).psp = s.psp := rfl
@[simp] theorem setMsp_lr (s : State) (v : Word) : (s.setMsp v).lr = s.lr := rfl
@[simp] theorem setMsp_pc (s : State) (v : Word) : (s.setMsp v).pc = s.pc := rfl
@[simp] theorem setMsp_flags (s : State) (v : Word) : (s.setMsp v).flags = s.flags := rfl
@[simp] theorem setMsp_tbit (s : State) (v : Word) : (s.setMsp v).tbit = s.tbit := rfl
@[simp] theorem setMsp_ipsr (s : State) (v : Word) : (s.setMsp v).ipsr = s.ipsr := rfl
@[simp] theorem setMsp_primask (s : State) (v : Word) : (s.setMsp v).primask = s.primask := rfl
@[simp] theorem setMsp_spsel (s : State) (v : Word) : (s.setMsp v).spsel = s.spsel := rfl
@[simp] theorem setMsp_pending (s : State) (v : Word) : (s.setMsp v).pending = s.pending := rfl
@[simp] theorem setMsp_active (s : State) (v : Word) : (s.setMsp v).active = s.active := rfl
@[simp] theorem setMsp_irqEnable (s : State) (v : Word) : (s.setMsp v).irqEnable = s.irqEnable := rfl
@[simp] theorem setMsp_irqPrio (s : State) (v : Word) : (s.setMsp v).irqPrio = s.irqPrio := rfl
@[simp] theorem setMsp_prioSVCall (s : State) (v : Word) : (s.setMsp v).prioSVCall = s.prioSVCall := rfl
@[simp] theorem setMsp_prioPendSV (s : State) (v : Word) : (s.setMsp v).prioPendSV = s.prioPendSV := rfl
@[simp] theorem setMsp_prioSysTick (s : State) (v : Word) : (s.setMsp v).prioSysTick = s.prioSysTick := rfl
@[simp] theorem setMsp_sevOnPend (s : State) (v : Word) : (s.setMsp v).sevOnPend = s.sevOnPend := rfl
@[simp] theorem setMsp_sleepDeep (s : State) (v : Word) : (s.setMsp v).sleepDeep = s.sleepDeep := rfl
@[simp] theorem setMsp_sleepOnExit (s : State) (v : Word) : (s.setMsp v).sleepOnExit = s.sleepOnExit := rfl
@[simp] theorem setMsp_sysTick (s : State) (v : Word) : (s.setMsp v).sysTick = s.sysTick := rfl
@[simp] theorem setMsp_irqPrev (s : State) (v : Word) : (s.setMsp v).irqPrev = s.irqPrev := rfl
@[simp] theorem setMsp_nmiPrev (s : State) (v : Word) : (s.setMsp v).nmiPrev = s.nmiPrev := rfl
@[simp] theorem setMsp_sleeping (s : State) (v : Word) : (s.setMsp v).sleeping = s.sleeping := rfl
@[simp] theorem setMsp_lockup (s : State) (v : Word) : (s.setMsp v).lockup = s.lockup := rfl
@[simp] theorem setMsp_resetRequested (s : State) (v : Word) : (s.setMsp v).resetRequested = s.resetRequested := rfl
@[simp] theorem setMsp_mem (s : State) (v : Word) : (s.setMsp v).mem = s.mem := rfl
@[simp] theorem setMsp_irqLine (s : State) (v : Word) : (s.setMsp v).irqLine = s.irqLine := rfl
@[simp] theorem setMsp_nmiLine (s : State) (v : Word) : (s.setMsp v).nmiLine = s.nmiLine := rfl
@[simp] theorem setMsp_halted (s : State) (v : Word) : (s.setMsp v).halted = s.halted := rfl
@[simp] theorem setMsp_stale (s : State) (v : Word) : (s.setMsp v).stale = s.stale := rfl
@[simp] theorem setMsp_storeTrace (s : State) (v : Word) : (s.setMsp v).storeTrace = s.storeTrace := rfl
@[simp] theorem setMsp_schedule (s : State) (v : Word) : (s.setMsp v).schedule = s.schedule := rfl
@[simp] theorem setMsp_platform (s : State) (v : Word) : (s.setMsp v).platform = s.platform := rfl
@[simp] theorem setMsp_freeCount (s : State) (v : Word) : (s.setMsp v).freeCount = s.freeCount := rfl

@[simp] theorem setPsp_r (s : State) (v : Word) : (s.setPsp v).r = s.r := rfl
@[simp] theorem setPsp_msp (s : State) (v : Word) : (s.setPsp v).msp = s.msp := rfl
@[simp] theorem setPsp_psp (s : State) (v : Word) : (s.setPsp v).psp = alignSp v := rfl
@[simp] theorem setPsp_lr (s : State) (v : Word) : (s.setPsp v).lr = s.lr := rfl
@[simp] theorem setPsp_pc (s : State) (v : Word) : (s.setPsp v).pc = s.pc := rfl
@[simp] theorem setPsp_flags (s : State) (v : Word) : (s.setPsp v).flags = s.flags := rfl
@[simp] theorem setPsp_tbit (s : State) (v : Word) : (s.setPsp v).tbit = s.tbit := rfl
@[simp] theorem setPsp_ipsr (s : State) (v : Word) : (s.setPsp v).ipsr = s.ipsr := rfl
@[simp] theorem setPsp_primask (s : State) (v : Word) : (s.setPsp v).primask = s.primask := rfl
@[simp] theorem setPsp_spsel (s : State) (v : Word) : (s.setPsp v).spsel = s.spsel := rfl
@[simp] theorem setPsp_pending (s : State) (v : Word) : (s.setPsp v).pending = s.pending := rfl
@[simp] theorem setPsp_active (s : State) (v : Word) : (s.setPsp v).active = s.active := rfl
@[simp] theorem setPsp_irqEnable (s : State) (v : Word) : (s.setPsp v).irqEnable = s.irqEnable := rfl
@[simp] theorem setPsp_irqPrio (s : State) (v : Word) : (s.setPsp v).irqPrio = s.irqPrio := rfl
@[simp] theorem setPsp_prioSVCall (s : State) (v : Word) : (s.setPsp v).prioSVCall = s.prioSVCall := rfl
@[simp] theorem setPsp_prioPendSV (s : State) (v : Word) : (s.setPsp v).prioPendSV = s.prioPendSV := rfl
@[simp] theorem setPsp_prioSysTick (s : State) (v : Word) : (s.setPsp v).prioSysTick = s.prioSysTick := rfl
@[simp] theorem setPsp_sevOnPend (s : State) (v : Word) : (s.setPsp v).sevOnPend = s.sevOnPend := rfl
@[simp] theorem setPsp_sleepDeep (s : State) (v : Word) : (s.setPsp v).sleepDeep = s.sleepDeep := rfl
@[simp] theorem setPsp_sleepOnExit (s : State) (v : Word) : (s.setPsp v).sleepOnExit = s.sleepOnExit := rfl
@[simp] theorem setPsp_sysTick (s : State) (v : Word) : (s.setPsp v).sysTick = s.sysTick := rfl
@[simp] theorem setPsp_irqPrev (s : State) (v : Word) : (s.setPsp v).irqPrev = s.irqPrev := rfl
@[simp] theorem setPsp_nmiPrev (s : State) (v : Word) : (s.setPsp v).nmiPrev = s.nmiPrev := rfl
@[simp] theorem setPsp_sleeping (s : State) (v : Word) : (s.setPsp v).sleeping = s.sleeping := rfl
@[simp] theorem setPsp_lockup (s : State) (v : Word) : (s.setPsp v).lockup = s.lockup := rfl
@[simp] theorem setPsp_resetRequested (s : State) (v : Word) : (s.setPsp v).resetRequested = s.resetRequested := rfl
@[simp] theorem setPsp_mem (s : State) (v : Word) : (s.setPsp v).mem = s.mem := rfl
@[simp] theorem setPsp_irqLine (s : State) (v : Word) : (s.setPsp v).irqLine = s.irqLine := rfl
@[simp] theorem setPsp_nmiLine (s : State) (v : Word) : (s.setPsp v).nmiLine = s.nmiLine := rfl
@[simp] theorem setPsp_halted (s : State) (v : Word) : (s.setPsp v).halted = s.halted := rfl
@[simp] theorem setPsp_stale (s : State) (v : Word) : (s.setPsp v).stale = s.stale := rfl
@[simp] theorem setPsp_storeTrace (s : State) (v : Word) : (s.setPsp v).storeTrace = s.storeTrace := rfl
@[simp] theorem setPsp_schedule (s : State) (v : Word) : (s.setPsp v).schedule = s.schedule := rfl
@[simp] theorem setPsp_platform (s : State) (v : Word) : (s.setPsp v).platform = s.platform := rfl
@[simp] theorem setPsp_freeCount (s : State) (v : Word) : (s.setPsp v).freeCount = s.freeCount := rfl

@[simp] theorem setSp_r (s : State) (v : Word) : (s.setSp v).r = s.r := by unfold State.setSp; split <;> rfl
@[simp] theorem setSp_lr (s : State) (v : Word) : (s.setSp v).lr = s.lr := by unfold State.setSp; split <;> rfl
@[simp] theorem setSp_pc (s : State) (v : Word) : (s.setSp v).pc = s.pc := by unfold State.setSp; split <;> rfl
@[simp] theorem setSp_flags (s : State) (v : Word) : (s.setSp v).flags = s.flags := by unfold State.setSp; split <;> rfl
@[simp] theorem setSp_tbit (s : State) (v : Word) : (s.setSp v).tbit = s.tbit := by unfold State.setSp; split <;> rfl
@[simp] theorem setSp_ipsr (s : State) (v : Word) : (s.setSp v).ipsr = s.ipsr := by unfold State.setSp; split <;> rfl
@[simp] theorem setSp_primask (s : State) (v : Word) : (s.setSp v).primask = s.primask := by unfold State.setSp; split <;> rfl
@[simp] theorem setSp_spsel (s : State) (v : Word) : (s.setSp v).spsel = s.spsel := by unfold State.setSp; split <;> rfl
@[simp] theorem setSp_pending (s : State) (v : Word) : (s.setSp v).pending = s.pending := by unfold State.setSp; split <;> rfl
@[simp] theorem setSp_active (s : State) (v : Word) : (s.setSp v).active = s.active := by unfold State.setSp; split <;> rfl
@[simp] theorem setSp_irqEnable (s : State) (v : Word) : (s.setSp v).irqEnable = s.irqEnable := by unfold State.setSp; split <;> rfl
@[simp] theorem setSp_irqPrio (s : State) (v : Word) : (s.setSp v).irqPrio = s.irqPrio := by unfold State.setSp; split <;> rfl
@[simp] theorem setSp_prioSVCall (s : State) (v : Word) : (s.setSp v).prioSVCall = s.prioSVCall := by unfold State.setSp; split <;> rfl
@[simp] theorem setSp_prioPendSV (s : State) (v : Word) : (s.setSp v).prioPendSV = s.prioPendSV := by unfold State.setSp; split <;> rfl
@[simp] theorem setSp_prioSysTick (s : State) (v : Word) : (s.setSp v).prioSysTick = s.prioSysTick := by unfold State.setSp; split <;> rfl
@[simp] theorem setSp_sevOnPend (s : State) (v : Word) : (s.setSp v).sevOnPend = s.sevOnPend := by unfold State.setSp; split <;> rfl
@[simp] theorem setSp_sleepDeep (s : State) (v : Word) : (s.setSp v).sleepDeep = s.sleepDeep := by unfold State.setSp; split <;> rfl
@[simp] theorem setSp_sleepOnExit (s : State) (v : Word) : (s.setSp v).sleepOnExit = s.sleepOnExit := by unfold State.setSp; split <;> rfl
@[simp] theorem setSp_sysTick (s : State) (v : Word) : (s.setSp v).sysTick = s.sysTick := by unfold State.setSp; split <;> rfl
@[simp] theorem setSp_irqPrev (s : State) (v : Word) : (s.setSp v).irqPrev = s.irqPrev := by unfold State.setSp; split <;> rfl
@[simp] theorem setSp_nmiPrev (s : State) (v : Word) : (s.setSp v).nmiPrev = s.nmiPrev := by unfold State.setSp; split <;> rfl
@[simp] theorem setSp_sleeping (s : State) (v : Word) : (s.setSp v).sleeping = s.sleeping := by unfold State.setSp; split <;> rfl
@[simp] theorem setSp_lockup (s : State) (v : Word) : (s.setSp v).lockup = s.lockup := by unfold State.setSp; split <;> rfl
@[simp] theorem setSp_resetRequested (s : State) (v : Word) : (s.setSp v).resetRequested = s.resetRequested := by unfold State.setSp; split <;> rfl
@[simp] theorem setSp_mem (s : State) (v : Word) : (s.setSp v).mem = s.mem := by unfold State.setSp; split <;> rfl
@[simp] theorem setSp_irqLine (s : State) (v : Word) : (s.setSp v).irqLine = s.irqLine := by unfold State.setSp; split <;> rfl
@[simp] theorem setSp_nmiLine (s : State) (v : Word) : (s.setSp v).nmiLine = s.nmiLine := by unfold State.setSp; split <;> rfl
@[simp] theorem setSp_halted (s : State) (v : Word) : (s.setSp v).halted = s.halted := by unfold State.setSp; split <;> rfl
@[simp] theorem setSp_stale (s : State) (v : Word) : (s.setSp v).stale = s.stale := by unfold State.setSp; split <;> rfl
@[simp] theorem setSp_storeTrace (s : State) (v : Word) : (s.setSp v).storeTrace = s.storeTrace := by unfold State.setSp; split <;> rfl
@[simp] theorem setSp_schedule (s : State) (v : Word) : (s.setSp v).schedule = s.schedule := by unfold State.setSp; split <;> rfl
@[simp] theorem setSp_platform (s : State) (v : Word) : (s.setSp v).platform = s.platform := by unfold State.setSp; split <;> rfl
@[simp] theorem setSp_freeCount (s : State) (v : Word) : (s.setSp v).freeCount = s.freeCount := by unfold State.setSp; split <;> rfl

@[simp] theorem setFlags_r (s : State) (f : Flags) : (s.setFlags f).r = s.r := rfl
@[simp] theorem setFlags_msp (s : State) (f : Flags) : (s.setFlags f).msp = s.msp := rfl
@[simp] theorem setFlags_psp (s : State) (f : Flags) : (s.setFlags f).psp = s.psp := rfl
@[simp] theorem setFlags_lr (s : State) (f : Flags) : (s.setFlags f).lr = s.lr := rfl
@[simp] theorem setFlags_pc (s : State) (f : Flags) : (s.setFlags f).pc = s.pc := rfl
@[simp] theorem setFlags_flags (s : State) (f : Flags) : (s.setFlags f).flags = f := rfl
@[simp] theorem setFlags_tbit (s : State) (f : Flags) : (s.setFlags f).tbit = s.tbit := rfl
@[simp] theorem setFlags_ipsr (s : State) (f : Flags) : (s.setFlags f).ipsr = s.ipsr := rfl
@[simp] theorem setFlags_primask (s : State) (f : Flags) : (s.setFlags f).primask = s.primask := rfl
@[simp] theorem setFlags_spsel (s : State) (f : Flags) : (s.setFlags f).spsel = s.spsel := rfl
@[simp] theorem setFlags_pending (s : State) (f : Flags) : (s.setFlags f).pending = s.pending := rfl
@[simp] theorem setFlags_active (s : State) (f : Flags) : (s.setFlags f).active = s.active := rfl
@[simp] theorem setFlags_irqEnable (s : State) (f : Flags) : (s.setFlags f).irqEnable = s.irqEnable := rfl
@[simp] theorem setFlags_irqPrio (s : State) (f : Flags) : (s.setFlags f).irqPrio = s.irqPrio := rfl
@[simp] theorem setFlags_prioSVCall (s : State) (f : Flags) : (s.setFlags f).prioSVCall = s.prioSVCall := rfl
@[simp] theorem setFlags_prioPendSV (s : State) (f : Flags) : (s.setFlags f).prioPendSV = s.prioPendSV := rfl
@[simp] theorem setFlags_prioSysTick (s : State) (f : Flags) : (s.setFlags f).prioSysTick = s.prioSysTick := rfl
@[simp] theorem setFlags_sevOnPend (s : State) (f : Flags) : (s.setFlags f).sevOnPend = s.sevOnPend := rfl
@[simp] theorem setFlags_sleepDeep (s : State) (f : Flags) : (s.setFlags f).sleepDeep = s.sleepDeep := rfl
@[simp] theorem setFlags_sleepOnExit (s : State) (f : Flags) : (s.setFlags f).sleepOnExit = s.sleepOnExit := rfl
@[simp] theorem setFlags_sysTick (s : State) (f : Flags) : (s.setFlags f).sysTick = s.sysTick := rfl
@[simp] theorem setFlags_irqPrev (s : State) (f : Flags) : (s.setFlags f).irqPrev = s.irqPrev := rfl
@[simp] theorem setFlags_nmiPrev (s : State) (f : Flags) : (s.setFlags f).nmiPrev = s.nmiPrev := rfl
@[simp] theorem setFlags_sleeping (s : State) (f : Flags) : (s.setFlags f).sleeping = s.sleeping := rfl
@[simp] theorem setFlags_lockup (s : State) (f : Flags) : (s.setFlags f).lockup = s.lockup := rfl
@[simp] theorem setFlags_resetRequested (s : State) (f : Flags) : (s.setFlags f).resetRequested = s.resetRequested := rfl
@[simp] theorem setFlags_mem (s : State) (f : Flags) : (s.setFlags f).mem = s.mem := rfl
@[simp] theorem setFlags_irqLine (s : State) (f : Flags) : (s.setFlags f).irqLine = s.irqLine := rfl
@[simp] theorem setFlags_nmiLine (s : State) (f : Flags) : (s.setFlags f).nmiLine = s.nmiLine := rfl
@[simp] theorem setFlags_halted (s : State) (f : Flags) : (s.setFlags f).halted = s.halted := rfl
@[simp] theorem setFlags_stale (s : State) (f : Flags) : (s.setFlags f).stale = s.stale := rfl
@[simp] theorem setFlags_storeTrace (s : State) (f : Flags) : (s.setFlags f).storeTrace = s.storeTrace := rfl
@[simp] theorem setFlags_schedule (s : State) (f : Flags) : (s.setFlags f).schedule = s.schedule := rfl
@[simp] theorem setFlags_platform (s : State) (f : Flags) : (s.setFlags f).platform = s.platform := rfl
@[simp] theorem setFlags_freeCount (s : State) (f : Flags) : (s.setFlags f).freeCount = s.freeCount := rfl

@[simp] theorem advance_r (s : State) (n : Nat) : (s.advance n).r = s.r := rfl
@[simp] theorem advance_msp (s : State) (n : Nat) : (s.advance n).msp = s.msp := rfl
@[simp] theorem advance_psp (s : State) (n : Nat) : (s.advance n).psp = s.psp := rfl
@[simp] theorem advance_lr (s : State) (n : Nat) : (s.advance n).lr = s.lr := rfl
@[simp] theorem advance_pc (s : State) (n : Nat) : (s.advance n).pc = s.pc + BitVec.ofNat 32 n := rfl
@[simp] theorem advance_flags (s : State) (n : Nat) : (s.advance n).flags = s.flags := rfl
@[simp] theorem advance_tbit (s : State) (n : Nat) : (s.advance n).tbit = s.tbit := rfl
@[simp] theorem advance_ipsr (s : State) (n : Nat) : (s.advance n).ipsr = s.ipsr := rfl
@[simp] theorem advance_primask (s : State) (n : Nat) : (s.advance n).primask = s.primask := rfl
@[simp] theorem advance_spsel (s : State) (n : Nat) : (s.advance n).spsel = s.spsel := rfl
@[simp] theorem advance_pending (s : State) (n : Nat) : (s.advance n).pending = s.pending := rfl
@[simp] theorem advance_active (s : State) (n : Nat) : (s.advance n).active = s.active := rfl
@[simp] theorem advance_irqEnable (s : State) (n : Nat) : (s.advance n).irqEnable = s.irqEnable := rfl
@[simp] theorem advance_irqPrio (s : State) (n : Nat) : (s.advance n).irqPrio = s.irqPrio := rfl
@[simp] theorem advance_prioSVCall (s : State) (n : Nat) : (s.advance n).prioSVCall = s.prioSVCall := rfl
@[simp] theorem advance_prioPendSV (s : State) (n : Nat) : (s.advance n).prioPendSV = s.prioPendSV := rfl
@[simp] theorem advance_prioSysTick (s : State) (n : Nat) : (s.advance n).prioSysTick = s.prioSysTick := rfl
@[simp] theorem advance_sevOnPend (s : State) (n : Nat) : (s.advance n).sevOnPend = s.sevOnPend := rfl
@[simp] theorem advance_sleepDeep (s : State) (n : Nat) : (s.advance n).sleepDeep = s.sleepDeep := rfl
@[simp] theorem advance_sleepOnExit (s : State) (n : Nat) : (s.advance n).sleepOnExit = s.sleepOnExit := rfl
@[simp] theorem advance_sysTick (s : State) (n : Nat) : (s.advance n).sysTick = s.sysTick := rfl
@[simp] theorem advance_irqPrev (s : State) (n : Nat) : (s.advance n).irqPrev = s.irqPrev := rfl
@[simp] theorem advance_nmiPrev (s : State) (n : Nat) : (s.advance n).nmiPrev = s.nmiPrev := rfl
@[simp] theorem advance_sleeping (s : State) (n : Nat) : (s.advance n).sleeping = s.sleeping := rfl
@[simp] theorem advance_lockup (s : State) (n : Nat) : (s.advance n).lockup = s.lockup := rfl
@[simp] theorem advance_resetRequested (s : State) (n : Nat) : (s.advance n).resetRequested = s.resetRequested := rfl
@[simp] theorem advance_mem (s : State) (n : Nat) : (s.advance n).mem = s.mem := rfl
@[simp] theorem advance_irqLine (s : State) (n : Nat) : (s.advance n).irqLine = s.irqLine := rfl
@[simp] theorem advance_nmiLine (s : State) (n : Nat) : (s.advance n).nmiLine = s.nmiLine := rfl
@[simp] theorem advance_halted (s : State) (n : Nat) : (s.advance n).halted = s.halted := rfl
@[simp] theorem advance_stale (s : State) (n : Nat) : (s.advance n).stale = s.stale := rfl
@[simp] theorem advance_storeTrace (s : State) (n : Nat) : (s.advance n).storeTrace = s.storeTrace := rfl
@[simp] theorem advance_schedule (s : State) (n : Nat) : (s.advance n).schedule = s.schedule := rfl
@[simp] theorem advance_platform (s : State) (n : Nat) : (s.advance n).platform = s.platform := rfl
@[simp] theorem advance_freeCount (s : State) (n : Nat) : (s.advance n).freeCount = s.freeCount := rfl

@[simp] theorem branchTo_r (s : State) (a : Word) : (s.branchTo a).r = s.r := rfl
@[simp] theorem branchTo_msp (s : State) (a : Word) : (s.branchTo a).msp = s.msp := rfl
@[simp] theorem branchTo_psp (s : State) (a : Word) : (s.branchTo a).psp = s.psp := rfl
@[simp] theorem branchTo_lr (s : State) (a : Word) : (s.branchTo a).lr = s.lr := rfl
@[simp] theorem branchTo_pc (s : State) (a : Word) : (s.branchTo a).pc = a := rfl
@[simp] theorem branchTo_flags (s : State) (a : Word) : (s.branchTo a).flags = s.flags := rfl
@[simp] theorem branchTo_tbit (s : State) (a : Word) : (s.branchTo a).tbit = s.tbit := rfl
@[simp] theorem branchTo_ipsr (s : State) (a : Word) : (s.branchTo a).ipsr = s.ipsr := rfl
@[simp] theorem branchTo_primask (s : State) (a : Word) : (s.branchTo a).primask = s.primask := rfl
@[simp] theorem branchTo_spsel (s : State) (a : Word) : (s.branchTo a).spsel = s.spsel := rfl
@[simp] theorem branchTo_pending (s : State) (a : Word) : (s.branchTo a).pending = s.pending := rfl
@[simp] theorem branchTo_active (s : State) (a : Word) : (s.branchTo a).active = s.active := rfl
@[simp] theorem branchTo_irqEnable (s : State) (a : Word) : (s.branchTo a).irqEnable = s.irqEnable := rfl
@[simp] theorem branchTo_irqPrio (s : State) (a : Word) : (s.branchTo a).irqPrio = s.irqPrio := rfl
@[simp] theorem branchTo_prioSVCall (s : State) (a : Word) : (s.branchTo a).prioSVCall = s.prioSVCall := rfl
@[simp] theorem branchTo_prioPendSV (s : State) (a : Word) : (s.branchTo a).prioPendSV = s.prioPendSV := rfl
@[simp] theorem branchTo_prioSysTick (s : State) (a : Word) : (s.branchTo a).prioSysTick = s.prioSysTick := rfl
@[simp] theorem branchTo_sevOnPend (s : State) (a : Word) : (s.branchTo a).sevOnPend = s.sevOnPend := rfl
@[simp] theorem branchTo_sleepDeep (s : State) (a : Word) : (s.branchTo a).sleepDeep = s.sleepDeep := rfl
@[simp] theorem branchTo_sleepOnExit (s : State) (a : Word) : (s.branchTo a).sleepOnExit = s.sleepOnExit := rfl
@[simp] theorem branchTo_sysTick (s : State) (a : Word) : (s.branchTo a).sysTick = s.sysTick := rfl
@[simp] theorem branchTo_irqPrev (s : State) (a : Word) : (s.branchTo a).irqPrev = s.irqPrev := rfl
@[simp] theorem branchTo_nmiPrev (s : State) (a : Word) : (s.branchTo a).nmiPrev = s.nmiPrev := rfl
@[simp] theorem branchTo_sleeping (s : State) (a : Word) : (s.branchTo a).sleeping = s.sleeping := rfl
@[simp] theorem branchTo_lockup (s : State) (a : Word) : (s.branchTo a).lockup = s.lockup := rfl
@[simp] theorem branchTo_resetRequested (s : State) (a : Word) : (s.branchTo a).resetRequested = s.resetRequested := rfl
@[simp] theorem branchTo_mem (s : State) (a : Word) : (s.branchTo a).mem = s.mem := rfl
@[simp] theorem branchTo_irqLine (s : State) (a : Word) : (s.branchTo a).irqLine = s.irqLine := rfl
@[simp] theorem branchTo_nmiLine (s : State) (a : Word) : (s.branchTo a).nmiLine = s.nmiLine := rfl
@[simp] theorem branchTo_halted (s : State) (a : Word) : (s.branchTo a).halted = s.halted := rfl
@[simp] theorem branchTo_stale (s : State) (a : Word) : (s.branchTo a).stale = s.stale := rfl
@[simp] theorem branchTo_storeTrace (s : State) (a : Word) : (s.branchTo a).storeTrace = s.storeTrace := rfl
@[simp] theorem branchTo_schedule (s : State) (a : Word) : (s.branchTo a).schedule = s.schedule := rfl
@[simp] theorem branchTo_platform (s : State) (a : Word) : (s.branchTo a).platform = s.platform := rfl
@[simp] theorem branchTo_freeCount (s : State) (a : Word) : (s.branchTo a).freeCount = s.freeCount := rfl

@[simp] theorem interwork_r (s : State) (v : Word) : (s.interwork v).r = s.r := rfl
@[simp] theorem interwork_msp (s : State) (v : Word) : (s.interwork v).msp = s.msp := rfl
@[simp] theorem interwork_psp (s : State) (v : Word) : (s.interwork v).psp = s.psp := rfl
@[simp] theorem interwork_lr (s : State) (v : Word) : (s.interwork v).lr = s.lr := rfl
@[simp] theorem interwork_pc (s : State) (v : Word) : (s.interwork v).pc = alignPc v := rfl
@[simp] theorem interwork_flags (s : State) (v : Word) : (s.interwork v).flags = s.flags := rfl
@[simp] theorem interwork_tbit (s : State) (v : Word) : (s.interwork v).tbit = v.getLsbD 0 := rfl
@[simp] theorem interwork_ipsr (s : State) (v : Word) : (s.interwork v).ipsr = s.ipsr := rfl
@[simp] theorem interwork_primask (s : State) (v : Word) : (s.interwork v).primask = s.primask := rfl
@[simp] theorem interwork_spsel (s : State) (v : Word) : (s.interwork v).spsel = s.spsel := rfl
@[simp] theorem interwork_pending (s : State) (v : Word) : (s.interwork v).pending = s.pending := rfl
@[simp] theorem interwork_active (s : State) (v : Word) : (s.interwork v).active = s.active := rfl
@[simp] theorem interwork_irqEnable (s : State) (v : Word) : (s.interwork v).irqEnable = s.irqEnable := rfl
@[simp] theorem interwork_irqPrio (s : State) (v : Word) : (s.interwork v).irqPrio = s.irqPrio := rfl
@[simp] theorem interwork_prioSVCall (s : State) (v : Word) : (s.interwork v).prioSVCall = s.prioSVCall := rfl
@[simp] theorem interwork_prioPendSV (s : State) (v : Word) : (s.interwork v).prioPendSV = s.prioPendSV := rfl
@[simp] theorem interwork_prioSysTick (s : State) (v : Word) : (s.interwork v).prioSysTick = s.prioSysTick := rfl
@[simp] theorem interwork_sevOnPend (s : State) (v : Word) : (s.interwork v).sevOnPend = s.sevOnPend := rfl
@[simp] theorem interwork_sleepDeep (s : State) (v : Word) : (s.interwork v).sleepDeep = s.sleepDeep := rfl
@[simp] theorem interwork_sleepOnExit (s : State) (v : Word) : (s.interwork v).sleepOnExit = s.sleepOnExit := rfl
@[simp] theorem interwork_sysTick (s : State) (v : Word) : (s.interwork v).sysTick = s.sysTick := rfl
@[simp] theorem interwork_irqPrev (s : State) (v : Word) : (s.interwork v).irqPrev = s.irqPrev := rfl
@[simp] theorem interwork_nmiPrev (s : State) (v : Word) : (s.interwork v).nmiPrev = s.nmiPrev := rfl
@[simp] theorem interwork_sleeping (s : State) (v : Word) : (s.interwork v).sleeping = s.sleeping := rfl
@[simp] theorem interwork_lockup (s : State) (v : Word) : (s.interwork v).lockup = s.lockup := rfl
@[simp] theorem interwork_resetRequested (s : State) (v : Word) : (s.interwork v).resetRequested = s.resetRequested := rfl
@[simp] theorem interwork_mem (s : State) (v : Word) : (s.interwork v).mem = s.mem := rfl
@[simp] theorem interwork_irqLine (s : State) (v : Word) : (s.interwork v).irqLine = s.irqLine := rfl
@[simp] theorem interwork_nmiLine (s : State) (v : Word) : (s.interwork v).nmiLine = s.nmiLine := rfl
@[simp] theorem interwork_halted (s : State) (v : Word) : (s.interwork v).halted = s.halted := rfl
@[simp] theorem interwork_stale (s : State) (v : Word) : (s.interwork v).stale = s.stale := rfl
@[simp] theorem interwork_storeTrace (s : State) (v : Word) : (s.interwork v).storeTrace = s.storeTrace := rfl
@[simp] theorem interwork_schedule (s : State) (v : Word) : (s.interwork v).schedule = s.schedule := rfl
@[simp] theorem interwork_platform (s : State) (v : Word) : (s.interwork v).platform = s.platform := rfl
@[simp] theorem interwork_freeCount (s : State) (v : Word) : (s.interwork v).freeCount = s.freeCount := rfl

@[simp] theorem jumpVector_r (s : State) (v : Word) : (s.jumpVector v).r = s.r := rfl
@[simp] theorem jumpVector_msp (s : State) (v : Word) : (s.jumpVector v).msp = s.msp := rfl
@[simp] theorem jumpVector_psp (s : State) (v : Word) : (s.jumpVector v).psp = s.psp := rfl
@[simp] theorem jumpVector_lr (s : State) (v : Word) : (s.jumpVector v).lr = s.lr := rfl
@[simp] theorem jumpVector_pc (s : State) (v : Word) : (s.jumpVector v).pc = alignPc v := rfl
@[simp] theorem jumpVector_flags (s : State) (v : Word) : (s.jumpVector v).flags = s.flags := rfl
@[simp] theorem jumpVector_tbit (s : State) (v : Word) : (s.jumpVector v).tbit = v.getLsbD 0 := rfl
@[simp] theorem jumpVector_ipsr (s : State) (v : Word) : (s.jumpVector v).ipsr = s.ipsr := rfl
@[simp] theorem jumpVector_primask (s : State) (v : Word) : (s.jumpVector v).primask = s.primask := rfl
@[simp] theorem jumpVector_spsel (s : State) (v : Word) : (s.jumpVector v).spsel = s.spsel := rfl
@[simp] theorem jumpVector_pending (s : State) (v : Word) : (s.jumpVector v).pending = s.pending := rfl
@[simp] theorem jumpVector_active (s : State) (v : Word) : (s.jumpVector v).active = s.active := rfl
@[simp] theorem jumpVector_irqEnable (s : State) (v : Word) : (s.jumpVector v).irqEnable = s.irqEnable := rfl
@[simp] theorem jumpVector_irqPrio (s : State) (v : Word) : (s.jumpVector v).irqPrio = s.irqPrio := rfl
@[simp] theorem jumpVector_prioSVCall (s : State) (v : Word) : (s.jumpVector v).prioSVCall = s.prioSVCall := rfl
@[simp] theorem jumpVector_prioPendSV (s : State) (v : Word) : (s.jumpVector v).prioPendSV = s.prioPendSV := rfl
@[simp] theorem jumpVector_prioSysTick (s : State) (v : Word) : (s.jumpVector v).prioSysTick = s.prioSysTick := rfl
@[simp] theorem jumpVector_sevOnPend (s : State) (v : Word) : (s.jumpVector v).sevOnPend = s.sevOnPend := rfl
@[simp] theorem jumpVector_sleepDeep (s : State) (v : Word) : (s.jumpVector v).sleepDeep = s.sleepDeep := rfl
@[simp] theorem jumpVector_sleepOnExit (s : State) (v : Word) : (s.jumpVector v).sleepOnExit = s.sleepOnExit := rfl
@[simp] theorem jumpVector_sysTick (s : State) (v : Word) : (s.jumpVector v).sysTick = s.sysTick := rfl
@[simp] theorem jumpVector_irqPrev (s : State) (v : Word) : (s.jumpVector v).irqPrev = s.irqPrev := rfl
@[simp] theorem jumpVector_nmiPrev (s : State) (v : Word) : (s.jumpVector v).nmiPrev = s.nmiPrev := rfl
@[simp] theorem jumpVector_sleeping (s : State) (v : Word) : (s.jumpVector v).sleeping = s.sleeping := rfl
@[simp] theorem jumpVector_lockup (s : State) (v : Word) : (s.jumpVector v).lockup = s.lockup := rfl
@[simp] theorem jumpVector_resetRequested (s : State) (v : Word) : (s.jumpVector v).resetRequested = s.resetRequested := rfl
@[simp] theorem jumpVector_mem (s : State) (v : Word) : (s.jumpVector v).mem = s.mem := rfl
@[simp] theorem jumpVector_irqLine (s : State) (v : Word) : (s.jumpVector v).irqLine = s.irqLine := rfl
@[simp] theorem jumpVector_nmiLine (s : State) (v : Word) : (s.jumpVector v).nmiLine = s.nmiLine := rfl
@[simp] theorem jumpVector_halted (s : State) (v : Word) : (s.jumpVector v).halted = s.halted := rfl
@[simp] theorem jumpVector_stale (s : State) (v : Word) : (s.jumpVector v).stale = s.stale := rfl
@[simp] theorem jumpVector_storeTrace (s : State) (v : Word) : (s.jumpVector v).storeTrace = s.storeTrace := rfl
@[simp] theorem jumpVector_schedule (s : State) (v : Word) : (s.jumpVector v).schedule = s.schedule := rfl
@[simp] theorem jumpVector_platform (s : State) (v : Word) : (s.jumpVector v).platform = s.platform := rfl
@[simp] theorem jumpVector_freeCount (s : State) (v : Word) : (s.jumpVector v).freeCount = s.freeCount := rfl

@[simp] theorem lockedUp_r (s : State) : (s.lockedUp).r = s.r := rfl
@[simp] theorem lockedUp_msp (s : State) : (s.lockedUp).msp = s.msp := rfl
@[simp] theorem lockedUp_psp (s : State) : (s.lockedUp).psp = s.psp := rfl
@[simp] theorem lockedUp_lr (s : State) : (s.lockedUp).lr = s.lr := rfl
@[simp] theorem lockedUp_pc (s : State) : (s.lockedUp).pc = s.pc := rfl
@[simp] theorem lockedUp_flags (s : State) : (s.lockedUp).flags = s.flags := rfl
@[simp] theorem lockedUp_tbit (s : State) : (s.lockedUp).tbit = s.tbit := rfl
@[simp] theorem lockedUp_ipsr (s : State) : (s.lockedUp).ipsr = s.ipsr := rfl
@[simp] theorem lockedUp_primask (s : State) : (s.lockedUp).primask = s.primask := rfl
@[simp] theorem lockedUp_spsel (s : State) : (s.lockedUp).spsel = s.spsel := rfl
@[simp] theorem lockedUp_pending (s : State) : (s.lockedUp).pending = s.pending := rfl
@[simp] theorem lockedUp_active (s : State) : (s.lockedUp).active = s.active := rfl
@[simp] theorem lockedUp_irqEnable (s : State) : (s.lockedUp).irqEnable = s.irqEnable := rfl
@[simp] theorem lockedUp_irqPrio (s : State) : (s.lockedUp).irqPrio = s.irqPrio := rfl
@[simp] theorem lockedUp_prioSVCall (s : State) : (s.lockedUp).prioSVCall = s.prioSVCall := rfl
@[simp] theorem lockedUp_prioPendSV (s : State) : (s.lockedUp).prioPendSV = s.prioPendSV := rfl
@[simp] theorem lockedUp_prioSysTick (s : State) : (s.lockedUp).prioSysTick = s.prioSysTick := rfl
@[simp] theorem lockedUp_sevOnPend (s : State) : (s.lockedUp).sevOnPend = s.sevOnPend := rfl
@[simp] theorem lockedUp_sleepDeep (s : State) : (s.lockedUp).sleepDeep = s.sleepDeep := rfl
@[simp] theorem lockedUp_sleepOnExit (s : State) : (s.lockedUp).sleepOnExit = s.sleepOnExit := rfl
@[simp] theorem lockedUp_sysTick (s : State) : (s.lockedUp).sysTick = s.sysTick := rfl
@[simp] theorem lockedUp_irqPrev (s : State) : (s.lockedUp).irqPrev = s.irqPrev := rfl
@[simp] theorem lockedUp_nmiPrev (s : State) : (s.lockedUp).nmiPrev = s.nmiPrev := rfl
@[simp] theorem lockedUp_sleeping (s : State) : (s.lockedUp).sleeping = s.sleeping := rfl
@[simp] theorem lockedUp_lockup (s : State) : (s.lockedUp).lockup = true := rfl
@[simp] theorem lockedUp_resetRequested (s : State) : (s.lockedUp).resetRequested = s.resetRequested := rfl
@[simp] theorem lockedUp_mem (s : State) : (s.lockedUp).mem = s.mem := rfl
@[simp] theorem lockedUp_irqLine (s : State) : (s.lockedUp).irqLine = s.irqLine := rfl
@[simp] theorem lockedUp_nmiLine (s : State) : (s.lockedUp).nmiLine = s.nmiLine := rfl
@[simp] theorem lockedUp_halted (s : State) : (s.lockedUp).halted = s.halted := rfl
@[simp] theorem lockedUp_stale (s : State) : (s.lockedUp).stale = s.stale := rfl
@[simp] theorem lockedUp_storeTrace (s : State) : (s.lockedUp).storeTrace = s.storeTrace := rfl
@[simp] theorem lockedUp_schedule (s : State) : (s.lockedUp).schedule = s.schedule := rfl
@[simp] theorem lockedUp_platform (s : State) : (s.lockedUp).platform = s.platform := rfl
@[simp] theorem lockedUp_freeCount (s : State) : (s.lockedUp).freeCount = s.freeCount := rfl

@[simp] theorem lockedUpInEntry_r (s u : State) : (s.lockedUpInEntry u).r = s.r := rfl
@[simp] theorem lockedUpInEntry_msp (s u : State) : (s.lockedUpInEntry u).msp = s.msp := rfl
@[simp] theorem lockedUpInEntry_psp (s u : State) : (s.lockedUpInEntry u).psp = s.psp := rfl
@[simp] theorem lockedUpInEntry_lr (s u : State) : (s.lockedUpInEntry u).lr = s.lr := rfl
@[simp] theorem lockedUpInEntry_pc (s u : State) : (s.lockedUpInEntry u).pc = s.pc := rfl
@[simp] theorem lockedUpInEntry_flags (s u : State) : (s.lockedUpInEntry u).flags = s.flags := rfl
@[simp] theorem lockedUpInEntry_tbit (s u : State) : (s.lockedUpInEntry u).tbit = s.tbit := rfl
@[simp] theorem lockedUpInEntry_ipsr (s u : State) : (s.lockedUpInEntry u).ipsr = s.ipsr := rfl
@[simp] theorem lockedUpInEntry_primask (s u : State) : (s.lockedUpInEntry u).primask = s.primask := rfl
@[simp] theorem lockedUpInEntry_spsel (s u : State) : (s.lockedUpInEntry u).spsel = s.spsel := rfl
@[simp] theorem lockedUpInEntry_pending (s u : State) : (s.lockedUpInEntry u).pending = s.pending := rfl
@[simp] theorem lockedUpInEntry_active (s u : State) : (s.lockedUpInEntry u).active = s.active := rfl
@[simp] theorem lockedUpInEntry_irqEnable (s u : State) : (s.lockedUpInEntry u).irqEnable = s.irqEnable := rfl
@[simp] theorem lockedUpInEntry_irqPrio (s u : State) : (s.lockedUpInEntry u).irqPrio = s.irqPrio := rfl
@[simp] theorem lockedUpInEntry_prioSVCall (s u : State) : (s.lockedUpInEntry u).prioSVCall = s.prioSVCall := rfl
@[simp] theorem lockedUpInEntry_prioPendSV (s u : State) : (s.lockedUpInEntry u).prioPendSV = s.prioPendSV := rfl
@[simp] theorem lockedUpInEntry_prioSysTick (s u : State) : (s.lockedUpInEntry u).prioSysTick = s.prioSysTick := rfl
@[simp] theorem lockedUpInEntry_sevOnPend (s u : State) : (s.lockedUpInEntry u).sevOnPend = s.sevOnPend := rfl
@[simp] theorem lockedUpInEntry_sleepDeep (s u : State) : (s.lockedUpInEntry u).sleepDeep = s.sleepDeep := rfl
@[simp] theorem lockedUpInEntry_sleepOnExit (s u : State) : (s.lockedUpInEntry u).sleepOnExit = s.sleepOnExit := rfl
@[simp] theorem lockedUpInEntry_sysTick (s u : State) : (s.lockedUpInEntry u).sysTick = s.sysTick := rfl
@[simp] theorem lockedUpInEntry_irqPrev (s u : State) : (s.lockedUpInEntry u).irqPrev = s.irqPrev := rfl
@[simp] theorem lockedUpInEntry_nmiPrev (s u : State) : (s.lockedUpInEntry u).nmiPrev = s.nmiPrev := rfl
@[simp] theorem lockedUpInEntry_sleeping (s u : State) : (s.lockedUpInEntry u).sleeping = s.sleeping := rfl
@[simp] theorem lockedUpInEntry_lockup (s u : State) : (s.lockedUpInEntry u).lockup = true := rfl
@[simp] theorem lockedUpInEntry_resetRequested (s u : State) : (s.lockedUpInEntry u).resetRequested = s.resetRequested := rfl
@[simp] theorem lockedUpInEntry_mem (s u : State) : (s.lockedUpInEntry u).mem = s.mem := rfl
@[simp] theorem lockedUpInEntry_irqLine (s u : State) : (s.lockedUpInEntry u).irqLine = s.irqLine := rfl
@[simp] theorem lockedUpInEntry_nmiLine (s u : State) : (s.lockedUpInEntry u).nmiLine = s.nmiLine := rfl
@[simp] theorem lockedUpInEntry_halted (s u : State) : (s.lockedUpInEntry u).halted = s.halted := rfl
@[simp] theorem lockedUpInEntry_stale (s u : State) : (s.lockedUpInEntry u).stale = s.stale := rfl
@[simp] theorem lockedUpInEntry_storeTrace (s u : State) : (s.lockedUpInEntry u).storeTrace = u.storeTrace := rfl
@[simp] theorem lockedUpInEntry_schedule (s u : State) : (s.lockedUpInEntry u).schedule = s.schedule := rfl
@[simp] theorem lockedUpInEntry_platform (s u : State) : (s.lockedUpInEntry u).platform = s.platform := rfl
@[simp] theorem lockedUpInEntry_freeCount (s u : State) : (s.lockedUpInEntry u).freeCount = s.freeCount := rfl

@[simp] theorem enterContext_r (s : State) (e : Exc) : (s.enterContext e).r = s.r := rfl
@[simp] theorem enterContext_msp (s : State) (e : Exc) : (s.enterContext e).msp = s.msp := rfl
@[simp] theorem enterContext_psp (s : State) (e : Exc) : (s.enterContext e).psp = s.psp := rfl
@[simp] theorem enterContext_lr (s : State) (e : Exc) : (s.enterContext e).lr = s.lr := rfl
@[simp] theorem enterContext_pc (s : State) (e : Exc) : (s.enterContext e).pc = s.pc := rfl
@[simp] theorem enterContext_flags (s : State) (e : Exc) : (s.enterContext e).flags = s.flags := rfl
@[simp] theorem enterContext_tbit (s : State) (e : Exc) : (s.enterContext e).tbit = s.tbit := rfl
@[simp] theorem enterContext_ipsr (s : State) (e : Exc) : (s.enterContext e).ipsr = e.number := rfl
@[simp] theorem enterContext_primask (s : State) (e : Exc) : (s.enterContext e).primask = s.primask := rfl
@[simp] theorem enterContext_spsel (s : State) (e : Exc) : (s.enterContext e).spsel = false := rfl
@[simp] theorem enterContext_pending (s : State) (e : Exc) : (s.enterContext e).pending = s.pending.set e false := rfl
@[simp] theorem enterContext_active (s : State) (e : Exc) : (s.enterContext e).active = s.active.set e true := rfl
@[simp] theorem enterContext_irqEnable (s : State) (e : Exc) : (s.enterContext e).irqEnable = s.irqEnable := rfl
@[simp] theorem enterContext_irqPrio (s : State) (e : Exc) : (s.enterContext e).irqPrio = s.irqPrio := rfl
@[simp] theorem enterContext_prioSVCall (s : State) (e : Exc) : (s.enterContext e).prioSVCall = s.prioSVCall := rfl
@[simp] theorem enterContext_prioPendSV (s : State) (e : Exc) : (s.enterContext e).prioPendSV = s.prioPendSV := rfl
@[simp] theorem enterContext_prioSysTick (s : State) (e : Exc) : (s.enterContext e).prioSysTick = s.prioSysTick := rfl
@[simp] theorem enterContext_sevOnPend (s : State) (e : Exc) : (s.enterContext e).sevOnPend = s.sevOnPend := rfl
@[simp] theorem enterContext_sleepDeep (s : State) (e : Exc) : (s.enterContext e).sleepDeep = s.sleepDeep := rfl
@[simp] theorem enterContext_sleepOnExit (s : State) (e : Exc) : (s.enterContext e).sleepOnExit = s.sleepOnExit := rfl
@[simp] theorem enterContext_sysTick (s : State) (e : Exc) : (s.enterContext e).sysTick = s.sysTick := rfl
@[simp] theorem enterContext_irqPrev (s : State) (e : Exc) : (s.enterContext e).irqPrev = s.irqPrev := rfl
@[simp] theorem enterContext_nmiPrev (s : State) (e : Exc) : (s.enterContext e).nmiPrev = s.nmiPrev := rfl
@[simp] theorem enterContext_sleeping (s : State) (e : Exc) : (s.enterContext e).sleeping = s.sleeping := rfl
@[simp] theorem enterContext_lockup (s : State) (e : Exc) : (s.enterContext e).lockup = s.lockup := rfl
@[simp] theorem enterContext_resetRequested (s : State) (e : Exc) : (s.enterContext e).resetRequested = s.resetRequested := rfl
@[simp] theorem enterContext_mem (s : State) (e : Exc) : (s.enterContext e).mem = s.mem := rfl
@[simp] theorem enterContext_irqLine (s : State) (e : Exc) : (s.enterContext e).irqLine = s.irqLine := rfl
@[simp] theorem enterContext_nmiLine (s : State) (e : Exc) : (s.enterContext e).nmiLine = s.nmiLine := rfl
@[simp] theorem enterContext_halted (s : State) (e : Exc) : (s.enterContext e).halted = s.halted := rfl
@[simp] theorem enterContext_stale (s : State) (e : Exc) : (s.enterContext e).stale = [] := rfl
@[simp] theorem enterContext_storeTrace (s : State) (e : Exc) : (s.enterContext e).storeTrace = s.storeTrace := rfl
@[simp] theorem enterContext_schedule (s : State) (e : Exc) : (s.enterContext e).schedule = s.schedule := rfl
@[simp] theorem enterContext_platform (s : State) (e : Exc) : (s.enterContext e).platform = s.platform := rfl
@[simp] theorem enterContext_freeCount (s : State) (e : Exc) : (s.enterContext e).freeCount = s.freeCount := rfl

@[simp] theorem storePlain_r (s : State) (a : Nat) (w : Width) (v : Word) : (s.storePlain a w v).r = s.r := rfl
@[simp] theorem storePlain_msp (s : State) (a : Nat) (w : Width) (v : Word) : (s.storePlain a w v).msp = s.msp := rfl
@[simp] theorem storePlain_psp (s : State) (a : Nat) (w : Width) (v : Word) : (s.storePlain a w v).psp = s.psp := rfl
@[simp] theorem storePlain_lr (s : State) (a : Nat) (w : Width) (v : Word) : (s.storePlain a w v).lr = s.lr := rfl
@[simp] theorem storePlain_pc (s : State) (a : Nat) (w : Width) (v : Word) : (s.storePlain a w v).pc = s.pc := rfl
@[simp] theorem storePlain_flags (s : State) (a : Nat) (w : Width) (v : Word) : (s.storePlain a w v).flags = s.flags := rfl
@[simp] theorem storePlain_tbit (s : State) (a : Nat) (w : Width) (v : Word) : (s.storePlain a w v).tbit = s.tbit := rfl
@[simp] theorem storePlain_ipsr (s : State) (a : Nat) (w : Width) (v : Word) : (s.storePlain a w v).ipsr = s.ipsr := rfl
@[simp] theorem storePlain_primask (s : State) (a : Nat) (w : Width) (v : Word) : (s.storePlain a w v).primask = s.primask := rfl
@[simp] theorem storePlain_spsel (s : State) (a : Nat) (w : Width) (v : Word) : (s.storePlain a w v).spsel = s.spsel := rfl
@[simp] theorem storePlain_pending (s : State) (a : Nat) (w : Width) (v : Word) : (s.storePlain a w v).pending = s.pending := rfl
@[simp] theorem storePlain_active (s : State) (a : Nat) (w : Width) (v : Word) : (s.storePlain a w v).active = s.active := rfl
@[simp] theorem storePlain_irqEnable (s : State) (a : Nat) (w : Width) (v : Word) : (s.storePlain a w v).irqEnable = s.irqEnable := rfl
@[simp] theorem storePlain_irqPrio (s : State) (a : Nat) (w : Width) (v : Word) : (s.storePlain a w v).irqPrio = s.irqPrio := rfl
@[simp] theorem storePlain_prioSVCall (s : State) (a : Nat) (w : Width) (v : Word) : (s.storePlain a w v).prioSVCall = s.prioSVCall := rfl
@[simp] theorem storePlain_prioPendSV (s : State) (a : Nat) (w : Width) (v : Word) : (s.storePlain a w v).prioPendSV = s.prioPendSV := rfl
@[simp] theorem storePlain_prioSysTick (s : State) (a : Nat) (w : Width) (v : Word) : (s.storePlain a w v).prioSysTick = s.prioSysTick := rfl
@[simp] theorem storePlain_sevOnPend (s : State) (a : Nat) (w : Width) (v : Word) : (s.storePlain a w v).sevOnPend = s.sevOnPend := rfl
@[simp] theorem storePlain_sleepDeep (s : State) (a : Nat) (w : Width) (v : Word) : (s.storePlain a w v).sleepDeep = s.sleepDeep := rfl
@[simp] theorem storePlain_sleepOnExit (s : State) (a : Nat) (w : Width) (v : Word) : (s.storePlain a w v).sleepOnExit = s.sleepOnExit := rfl
@[simp] theorem storePlain_sysTick (s : State) (a : Nat) (w : Width) (v : Word) : (s.storePlain a w v).sysTick = s.sysTick := rfl
@[simp] theorem storePlain_irqPrev (s : State) (a : Nat) (w : Width) (v : Word) : (s.storePlain a w v).irqPrev = s.irqPrev := rfl
@[simp] theorem storePlain_nmiPrev (s : State) (a : Nat) (w : Width) (v : Word) : (s.storePlain a w v).nmiPrev = s.nmiPrev := rfl
@[simp] theorem storePlain_sleeping (s : State) (a : Nat) (w : Width) (v : Word) : (s.storePlain a w v).sleeping = s.sleeping := rfl
@[simp] theorem storePlain_lockup (s : State) (a : Nat) (w : Width) (v : Word) : (s.storePlain a w v).lockup = s.lockup := rfl
@[simp] theorem storePlain_resetRequested (s : State) (a : Nat) (w : Width) (v : Word) : (s.storePlain a w v).resetRequested = s.resetRequested := rfl
@[simp] theorem storePlain_mem (s : State) (a : Nat) (w : Width) (v : Word) : (s.storePlain a w v).mem = s.mem.writeWidth a v w := rfl
@[simp] theorem storePlain_irqLine (s : State) (a : Nat) (w : Width) (v : Word) : (s.storePlain a w v).irqLine = s.irqLine := rfl
@[simp] theorem storePlain_nmiLine (s : State) (a : Nat) (w : Width) (v : Word) : (s.storePlain a w v).nmiLine = s.nmiLine := rfl
@[simp] theorem storePlain_halted (s : State) (a : Nat) (w : Width) (v : Word) : (s.storePlain a w v).halted = s.halted := rfl
@[simp] theorem storePlain_stale (s : State) (a : Nat) (w : Width) (v : Word) : (s.storePlain a w v).stale = overwrittenHalves s.mem a w ++ s.stale :=
  rfl
@[simp] theorem storePlain_schedule (s : State) (a : Nat) (w : Width) (v : Word) : (s.storePlain a w v).schedule = s.schedule := rfl
@[simp] theorem storePlain_platform (s : State) (a : Nat) (w : Width) (v : Word) : (s.storePlain a w v).platform = s.platform := rfl
@[simp] theorem storePlain_freeCount (s : State) (a : Nat) (w : Width) (v : Word) : (s.storePlain a w v).freeCount = s.freeCount := rfl

@[simp] theorem writeReg_pc (s : State) (n : Reg) (v : Word) : (s.writeReg n v).pc = s.pc := by unfold State.writeReg; (repeat' split) <;> simp
@[simp] theorem writeReg_flags (s : State) (n : Reg) (v : Word) : (s.writeReg n v).flags = s.flags :=
  by unfold State.writeReg; (repeat' split) <;> simp
@[simp] theorem writeReg_tbit (s : State) (n : Reg) (v : Word) : (s.writeReg n v).tbit = s.tbit := by unfold State.writeReg; (repeat' split) <;> simp
@[simp] theorem writeReg_ipsr (s : State) (n : Reg) (v : Word) : (s.writeReg n v).ipsr = s.ipsr := by unfold State.writeReg; (repeat' split) <;> simp
@[simp] theorem writeReg_primask (s : State) (n : Reg) (v : Word) : (s.writeReg n v).primask = s.primask :=
  by unfold State.writeReg; (repeat' split) <;> simp
@[simp] theorem writeReg_spsel (s : State) (n : Reg) (v : Word) : (s.writeReg n v).spsel = s.spsel :=
  by unfold State.writeReg; (repeat' split) <;> simp
@[simp] theorem writeReg_pending (s : State) (n : Reg) (v : Word) : (s.writeReg n v).pending = s.pending :=
  by unfold State.writeReg; (repeat' split) <;> simp
@[simp] theorem writeReg_active (s : State) (n : Reg) (v : Word) : (s.writeReg n v).active = s.active :=
  by unfold State.writeReg; (repeat' split) <;> simp
@[simp] theorem writeReg_irqEnable (s : State) (n : Reg) (v : Word) : (s.writeReg n v).irqEnable = s.irqEnable :=
  by unfold State.writeReg; (repeat' split) <;> simp
@[simp] theorem writeReg_irqPrio (s : State) (n : Reg) (v : Word) : (s.writeReg n v).irqPrio = s.irqPrio :=
  by unfold State.writeReg; (repeat' split) <;> simp
@[simp] theorem writeReg_prioSVCall (s : State) (n : Reg) (v : Word) : (s.writeReg n v).prioSVCall = s.prioSVCall :=
  by unfold State.writeReg; (repeat' split) <;> simp
@[simp] theorem writeReg_prioPendSV (s : State) (n : Reg) (v : Word) : (s.writeReg n v).prioPendSV = s.prioPendSV :=
  by unfold State.writeReg; (repeat' split) <;> simp
@[simp] theorem writeReg_prioSysTick (s : State) (n : Reg) (v : Word) : (s.writeReg n v).prioSysTick = s.prioSysTick :=
  by unfold State.writeReg; (repeat' split) <;> simp
@[simp] theorem writeReg_sevOnPend (s : State) (n : Reg) (v : Word) : (s.writeReg n v).sevOnPend = s.sevOnPend :=
  by unfold State.writeReg; (repeat' split) <;> simp
@[simp] theorem writeReg_sleepDeep (s : State) (n : Reg) (v : Word) : (s.writeReg n v).sleepDeep = s.sleepDeep :=
  by unfold State.writeReg; (repeat' split) <;> simp
@[simp] theorem writeReg_sleepOnExit (s : State) (n : Reg) (v : Word) : (s.writeReg n v).sleepOnExit = s.sleepOnExit :=
  by unfold State.writeReg; (repeat' split) <;> simp
@[simp] theorem writeReg_sysTick (s : State) (n : Reg) (v : Word) : (s.writeReg n v).sysTick = s.sysTick :=
  by unfold State.writeReg; (repeat' split) <;> simp
@[simp] theorem writeReg_irqPrev (s : State) (n : Reg) (v : Word) : (s.writeReg n v).irqPrev = s.irqPrev :=
  by unfold State.writeReg; (repeat' split) <;> simp
@[simp] theorem writeReg_nmiPrev (s : State) (n : Reg) (v : Word) : (s.writeReg n v).nmiPrev = s.nmiPrev :=
  by unfold State.writeReg; (repeat' split) <;> simp
@[simp] theorem writeReg_sleeping (s : State) (n : Reg) (v : Word) : (s.writeReg n v).sleeping = s.sleeping :=
  by unfold State.writeReg; (repeat' split) <;> simp
@[simp] theorem writeReg_lockup (s : State) (n : Reg) (v : Word) : (s.writeReg n v).lockup = s.lockup :=
  by unfold State.writeReg; (repeat' split) <;> simp
@[simp] theorem writeReg_resetRequested (s : State) (n : Reg) (v : Word) : (s.writeReg n v).resetRequested = s.resetRequested :=
  by unfold State.writeReg; (repeat' split) <;> simp
@[simp] theorem writeReg_mem (s : State) (n : Reg) (v : Word) : (s.writeReg n v).mem = s.mem := by unfold State.writeReg; (repeat' split) <;> simp
@[simp] theorem writeReg_irqLine (s : State) (n : Reg) (v : Word) : (s.writeReg n v).irqLine = s.irqLine :=
  by unfold State.writeReg; (repeat' split) <;> simp
@[simp] theorem writeReg_nmiLine (s : State) (n : Reg) (v : Word) : (s.writeReg n v).nmiLine = s.nmiLine :=
  by unfold State.writeReg; (repeat' split) <;> simp
@[simp] theorem writeReg_halted (s : State) (n : Reg) (v : Word) : (s.writeReg n v).halted = s.halted :=
  by unfold State.writeReg; (repeat' split) <;> simp
@[simp] theorem writeReg_stale (s : State) (n : Reg) (v : Word) : (s.writeReg n v).stale = s.stale :=
  by unfold State.writeReg; (repeat' split) <;> simp
@[simp] theorem writeReg_storeTrace (s : State) (n : Reg) (v : Word) : (s.writeReg n v).storeTrace = s.storeTrace :=
  by unfold State.writeReg; (repeat' split) <;> simp
@[simp] theorem writeReg_schedule (s : State) (n : Reg) (v : Word) : (s.writeReg n v).schedule = s.schedule :=
  by unfold State.writeReg; (repeat' split) <;> simp
@[simp] theorem writeReg_platform (s : State) (n : Reg) (v : Word) : (s.writeReg n v).platform = s.platform :=
  by unfold State.writeReg; (repeat' split) <;> simp
@[simp] theorem writeReg_freeCount (s : State) (n : Reg) (v : Word) : (s.writeReg n v).freeCount = s.freeCount :=
  by unfold State.writeReg; (repeat' split) <;> simp

@[simp] theorem drawWord_r (s : State) : s.drawWord.2.r = s.r := rfl
@[simp] theorem drawWord_msp (s : State) : s.drawWord.2.msp = s.msp := rfl
@[simp] theorem drawWord_psp (s : State) : s.drawWord.2.psp = s.psp := rfl
@[simp] theorem drawWord_lr (s : State) : s.drawWord.2.lr = s.lr := rfl
@[simp] theorem drawWord_pc (s : State) : s.drawWord.2.pc = s.pc := rfl
@[simp] theorem drawWord_flags (s : State) : s.drawWord.2.flags = s.flags := rfl
@[simp] theorem drawWord_tbit (s : State) : s.drawWord.2.tbit = s.tbit := rfl
@[simp] theorem drawWord_ipsr (s : State) : s.drawWord.2.ipsr = s.ipsr := rfl
@[simp] theorem drawWord_primask (s : State) : s.drawWord.2.primask = s.primask := rfl
@[simp] theorem drawWord_spsel (s : State) : s.drawWord.2.spsel = s.spsel := rfl
@[simp] theorem drawWord_pending (s : State) : s.drawWord.2.pending = s.pending := rfl
@[simp] theorem drawWord_active (s : State) : s.drawWord.2.active = s.active := rfl
@[simp] theorem drawWord_irqEnable (s : State) : s.drawWord.2.irqEnable = s.irqEnable := rfl
@[simp] theorem drawWord_irqPrio (s : State) : s.drawWord.2.irqPrio = s.irqPrio := rfl
@[simp] theorem drawWord_prioSVCall (s : State) : s.drawWord.2.prioSVCall = s.prioSVCall := rfl
@[simp] theorem drawWord_prioPendSV (s : State) : s.drawWord.2.prioPendSV = s.prioPendSV := rfl
@[simp] theorem drawWord_prioSysTick (s : State) : s.drawWord.2.prioSysTick = s.prioSysTick := rfl
@[simp] theorem drawWord_sevOnPend (s : State) : s.drawWord.2.sevOnPend = s.sevOnPend := rfl
@[simp] theorem drawWord_sleepDeep (s : State) : s.drawWord.2.sleepDeep = s.sleepDeep := rfl
@[simp] theorem drawWord_sleepOnExit (s : State) : s.drawWord.2.sleepOnExit = s.sleepOnExit := rfl
@[simp] theorem drawWord_sysTick (s : State) : s.drawWord.2.sysTick = s.sysTick := rfl
@[simp] theorem drawWord_irqPrev (s : State) : s.drawWord.2.irqPrev = s.irqPrev := rfl
@[simp] theorem drawWord_nmiPrev (s : State) : s.drawWord.2.nmiPrev = s.nmiPrev := rfl
@[simp] theorem drawWord_sleeping (s : State) : s.drawWord.2.sleeping = s.sleeping := rfl
@[simp] theorem drawWord_lockup (s : State) : s.drawWord.2.lockup = s.lockup := rfl
@[simp] theorem drawWord_resetRequested (s : State) : s.drawWord.2.resetRequested = s.resetRequested := rfl
@[simp] theorem drawWord_mem (s : State) : s.drawWord.2.mem = s.mem := rfl
@[simp] theorem drawWord_irqLine (s : State) : s.drawWord.2.irqLine = s.irqLine := rfl
@[simp] theorem drawWord_nmiLine (s : State) : s.drawWord.2.nmiLine = s.nmiLine := rfl
@[simp] theorem drawWord_halted (s : State) : s.drawWord.2.halted = s.halted := rfl
@[simp] theorem drawWord_stale (s : State) : s.drawWord.2.stale = s.stale := rfl
@[simp] theorem drawWord_storeTrace (s : State) : s.drawWord.2.storeTrace = s.storeTrace := rfl
@[simp] theorem drawWord_schedule (s : State) : s.drawWord.2.schedule = s.schedule := rfl
@[simp] theorem drawWord_platform (s : State) : s.drawWord.2.platform = s.platform := rfl
@[simp] theorem drawWord_freeCount (s : State) : s.drawWord.2.freeCount = s.freeCount + 1 := rfl

/-- A low register's write touches the general registers only. -/
theorem writeLow_eq (s : State) (n : LowReg) (v : Word) :
    s.writeLow n v = { s with r := s.r.setIfInBounds n.toNat v } := by
  have h : n.toNat < 8 := n.isLt
  have hn : (LowReg.toReg n).toNat = n.toNat := by
    simp only [LowReg.toReg, BitVec.toNat_setWidth]; omega
  unfold State.writeLow State.writeReg
  rw [if_neg (by intro e; rw [e] at hn; simp at hn; omega), if_neg (by intro e; rw [e] at hn; simp at hn; omega), hn]

@[simp] theorem writeLow_r (s : State) (n : LowReg) (v : Word) : (s.writeLow n v).r = s.r.setIfInBounds n.toNat v := by
  rw [writeLow_eq]
@[simp] theorem writeLow_msp (s : State) (n : LowReg) (v : Word) : (s.writeLow n v).msp = s.msp := by rw [writeLow_eq]
@[simp] theorem writeLow_psp (s : State) (n : LowReg) (v : Word) : (s.writeLow n v).psp = s.psp := by rw [writeLow_eq]
@[simp] theorem writeLow_lr (s : State) (n : LowReg) (v : Word) : (s.writeLow n v).lr = s.lr := by rw [writeLow_eq]
@[simp] theorem writeLow_pc (s : State) (n : LowReg) (v : Word) : (s.writeLow n v).pc = s.pc := by rw [writeLow_eq]
@[simp] theorem writeLow_flags (s : State) (n : LowReg) (v : Word) : (s.writeLow n v).flags = s.flags := by rw [writeLow_eq]
@[simp] theorem writeLow_tbit (s : State) (n : LowReg) (v : Word) : (s.writeLow n v).tbit = s.tbit := by rw [writeLow_eq]
@[simp] theorem writeLow_ipsr (s : State) (n : LowReg) (v : Word) : (s.writeLow n v).ipsr = s.ipsr := by rw [writeLow_eq]
@[simp] theorem writeLow_primask (s : State) (n : LowReg) (v : Word) : (s.writeLow n v).primask = s.primask := by rw [writeLow_eq]
@[simp] theorem writeLow_spsel (s : State) (n : LowReg) (v : Word) : (s.writeLow n v).spsel = s.spsel := by rw [writeLow_eq]
@[simp] theorem writeLow_pending (s : State) (n : LowReg) (v : Word) : (s.writeLow n v).pending = s.pending := by rw [writeLow_eq]
@[simp] theorem writeLow_active (s : State) (n : LowReg) (v : Word) : (s.writeLow n v).active = s.active := by rw [writeLow_eq]
@[simp] theorem writeLow_irqEnable (s : State) (n : LowReg) (v : Word) : (s.writeLow n v).irqEnable = s.irqEnable := by rw [writeLow_eq]
@[simp] theorem writeLow_irqPrio (s : State) (n : LowReg) (v : Word) : (s.writeLow n v).irqPrio = s.irqPrio := by rw [writeLow_eq]
@[simp] theorem writeLow_prioSVCall (s : State) (n : LowReg) (v : Word) : (s.writeLow n v).prioSVCall = s.prioSVCall := by rw [writeLow_eq]
@[simp] theorem writeLow_prioPendSV (s : State) (n : LowReg) (v : Word) : (s.writeLow n v).prioPendSV = s.prioPendSV := by rw [writeLow_eq]
@[simp] theorem writeLow_prioSysTick (s : State) (n : LowReg) (v : Word) : (s.writeLow n v).prioSysTick = s.prioSysTick := by rw [writeLow_eq]
@[simp] theorem writeLow_sevOnPend (s : State) (n : LowReg) (v : Word) : (s.writeLow n v).sevOnPend = s.sevOnPend := by rw [writeLow_eq]
@[simp] theorem writeLow_sleepDeep (s : State) (n : LowReg) (v : Word) : (s.writeLow n v).sleepDeep = s.sleepDeep := by rw [writeLow_eq]
@[simp] theorem writeLow_sleepOnExit (s : State) (n : LowReg) (v : Word) : (s.writeLow n v).sleepOnExit = s.sleepOnExit := by rw [writeLow_eq]
@[simp] theorem writeLow_sysTick (s : State) (n : LowReg) (v : Word) : (s.writeLow n v).sysTick = s.sysTick := by rw [writeLow_eq]
@[simp] theorem writeLow_irqPrev (s : State) (n : LowReg) (v : Word) : (s.writeLow n v).irqPrev = s.irqPrev := by rw [writeLow_eq]
@[simp] theorem writeLow_nmiPrev (s : State) (n : LowReg) (v : Word) : (s.writeLow n v).nmiPrev = s.nmiPrev := by rw [writeLow_eq]
@[simp] theorem writeLow_sleeping (s : State) (n : LowReg) (v : Word) : (s.writeLow n v).sleeping = s.sleeping := by rw [writeLow_eq]
@[simp] theorem writeLow_lockup (s : State) (n : LowReg) (v : Word) : (s.writeLow n v).lockup = s.lockup := by rw [writeLow_eq]
@[simp] theorem writeLow_resetRequested (s : State) (n : LowReg) (v : Word) : (s.writeLow n v).resetRequested = s.resetRequested := by rw [writeLow_eq]
@[simp] theorem writeLow_mem (s : State) (n : LowReg) (v : Word) : (s.writeLow n v).mem = s.mem := by rw [writeLow_eq]
@[simp] theorem writeLow_irqLine (s : State) (n : LowReg) (v : Word) : (s.writeLow n v).irqLine = s.irqLine := by rw [writeLow_eq]
@[simp] theorem writeLow_nmiLine (s : State) (n : LowReg) (v : Word) : (s.writeLow n v).nmiLine = s.nmiLine := by rw [writeLow_eq]
@[simp] theorem writeLow_halted (s : State) (n : LowReg) (v : Word) : (s.writeLow n v).halted = s.halted := by rw [writeLow_eq]
@[simp] theorem writeLow_stale (s : State) (n : LowReg) (v : Word) : (s.writeLow n v).stale = s.stale := by rw [writeLow_eq]
@[simp] theorem writeLow_storeTrace (s : State) (n : LowReg) (v : Word) : (s.writeLow n v).storeTrace = s.storeTrace := by rw [writeLow_eq]
@[simp] theorem writeLow_schedule (s : State) (n : LowReg) (v : Word) : (s.writeLow n v).schedule = s.schedule := by rw [writeLow_eq]
@[simp] theorem writeLow_platform (s : State) (n : LowReg) (v : Word) : (s.writeLow n v).platform = s.platform := by rw [writeLow_eq]
@[simp] theorem writeLow_freeCount (s : State) (n : LowReg) (v : Word) : (s.writeLow n v).freeCount = s.freeCount := by rw [writeLow_eq]

end Sys2Proof.Machine
end

