-- ==== Sys2Proof/Laws/Registers.lean ====
section
/-! SUPPORT. Laws of the registers: what a register reads after a write of a register, of the flags or of the pc. -/

namespace Sys2Proof.Machine

theorem toReg_toNat (n : LowReg) : (LowReg.toReg n).toNat = n.toNat := by
  have h : n.toNat < 8 := n.isLt
  simp only [LowReg.toReg, BitVec.toNat_setWidth]; omega

theorem toReg_inj {a b : LowReg} : LowReg.toReg a = LowReg.toReg b ↔ a = b := by
  constructor
  · intro h
    have := congrArg BitVec.toNat h
    rw [toReg_toNat, toReg_toNat] at this
    exact BitVec.eq_of_toNat_eq this
  · rintro rfl; rfl

theorem toReg_ne_high (n : LowReg) {k : Reg} (hk : 8 ≤ k.toNat) : LowReg.toReg n ≠ k := by
  intro h
  have h1 : n.toNat < 8 := n.isLt
  rw [← h, toReg_toNat] at hk
  omega

/-- A low register is read from the general registers. -/
theorem readLow_eq (s : State) (n : LowReg) : s.readLow n = (s.r[n.toNat]?).getD 0#32 := by
  unfold State.readLow State.readReg
  rw [if_neg (toReg_ne_high n (by decide)), if_neg (toReg_ne_high n (by decide)),
    if_neg (toReg_ne_high n (by decide)), toReg_toNat]

theorem getD_setIfInBounds (r : Vector Word 13) (i j : Nat) (hi : i < 13) (v : Word) :
    ((r.setIfInBounds i v)[j]?).getD 0#32 = if j = i then v else (r[j]?).getD 0#32 := by
  by_cases h : j = i
  · subst h; simp [hi]
  · simp [h, Ne.symm h]

/-- A low register after a write of a low register. -/
theorem readLow_writeLow (s : State) (d n : LowReg) (v : Word) :
    (s.writeLow d v).readLow n = if n = d then v else s.readLow n := by
  have hd : d.toNat < 8 := d.isLt
  rw [readLow_eq, readLow_eq, writeLow_r, getD_setIfInBounds _ _ _ (by omega)]
  by_cases h : n = d
  · subst h; simp
  · have : n.toNat ≠ d.toNat := fun e => h (BitVec.eq_of_toNat_eq e)
    simp [h, this]

@[simp] theorem readLow_writeLow_self (s : State) (d : LowReg) (v : Word) : (s.writeLow d v).readLow d = v := by
  rw [readLow_writeLow, if_pos rfl]

/-- What R13 reads depends on these fields only. -/
theorem sp_congr {s t : State} (h1 : t.ipsr = s.ipsr) (h2 : t.spsel = s.spsel) (h3 : t.msp = s.msp)
    (h4 : t.psp = s.psp) : t.sp = s.sp := by
  have hm : t.usesPsp = s.usesPsp := by unfold State.usesPsp State.mode; rw [h1, h2]
  unfold State.sp
  rw [hm, h3, h4]

/-- What a register other than the PC reads depends on these fields only. -/
theorem readReg_congr {s t : State} (h0 : t.r = s.r) (h1 : t.ipsr = s.ipsr) (h2 : t.spsel = s.spsel)
    (h3 : t.msp = s.msp) (h4 : t.psp = s.psp) (h5 : t.lr = s.lr) {n : Reg} (hn : n ≠ 15#4) :
    t.readReg n = s.readReg n := by
  simp only [State.readReg, sp_congr h1 h2 h3 h4, h0, h5, if_neg hn]

theorem readLow_congr {s t : State} (h0 : t.r = s.r) (n : LowReg) : t.readLow n = s.readLow n := by
  rw [readLow_eq, readLow_eq, h0]

@[simp] theorem readLow_setFlags (s : State) (f : Flags) (n : LowReg) : (s.setFlags f).readLow n = s.readLow n :=
  readLow_congr rfl n
@[simp] theorem readLow_advance (s : State) (k : Nat) (n : LowReg) : (s.advance k).readLow n = s.readLow n :=
  readLow_congr (s := s) (t := s.advance k) (advance_r s k) n
@[simp] theorem readLow_storePlain (s : State) (a : Nat) (w : Width) (v : Word) (n : LowReg) :
    (s.storePlain a w v).readLow n = s.readLow n := readLow_congr rfl n
@[simp] theorem readLow_drawWord (s : State) (n : LowReg) : s.drawWord.2.readLow n = s.readLow n := readLow_congr rfl n
@[simp] theorem readLow_setSp (s : State) (v : Word) (n : LowReg) : (s.setSp v).readLow n = s.readLow n :=
  readLow_congr (by simp) n

@[simp] theorem mode_writeLow (s : State) (n : LowReg) (v : Word) : (s.writeLow n v).mode = s.mode := by
  simp [State.mode]
@[simp] theorem sp_writeLow (s : State) (n : LowReg) (v : Word) : (s.writeLow n v).sp = s.sp :=
  sp_congr (by simp) (by simp) (by simp) (by simp)

/-- Every register but the one written and the PC, after a write of a low register. -/
theorem readReg_writeLow (s : State) (d : LowReg) (v : Word) {n : Reg} (hn : n ≠ LowReg.toReg d) (hpc : n ≠ 15#4) :
    (s.writeLow d v).readReg n = s.readReg n := by
  have hd : d.toNat < 8 := d.isLt
  have hne : n.toNat ≠ d.toNat := fun e => hn (BitVec.eq_of_toNat_eq (by rw [toReg_toNat]; exact e))
  simp only [State.readReg, sp_writeLow, writeLow_lr, writeLow_r, if_neg hpc]
  rw [getD_setIfInBounds _ _ _ (by omega), if_neg hne]

@[simp] theorem usesPsp_setSp (s : State) (v : Word) : (s.setSp v).usesPsp = s.usesPsp := by
  unfold State.usesPsp State.mode; rw [setSp_ipsr, setSp_spsel]

/-- R13 after a write of R13: bits [1:0] are 0 (10_state.md R24). -/
@[simp] theorem sp_setSp (s : State) (v : Word) : (s.setSp v).sp = alignSp v := by
  unfold State.sp
  rw [usesPsp_setSp]
  unfold State.setSp
  split <;> rfl

/-- The registers after a write of one of them: R13 loses bits [1:0]. -/
theorem readReg_writeReg (s : State) (d : Reg) (v : Word) {n : Reg} (hd : d ≠ 15#4) (hpc : n ≠ 15#4) :
    (s.writeReg d v).readReg n = if n = d then (if d = 13#4 then alignSp v else v) else s.readReg n := by
  unfold State.writeReg
  split
  · next h13 =>
    subst h13
    by_cases hn : n = 13#4
    · subst hn; simp [State.readReg]
    · rw [if_neg hn]
      simp only [State.readReg, if_neg hn, setSp_lr, setSp_r, if_neg hpc]
  · next h13 =>
    split
    · next h14 =>
      subst h14
      by_cases hn : n = 14#4
      · subst hn; simp [State.readReg]
      · rw [if_neg hn]
        simp only [State.readReg, if_neg hn, if_neg hpc]; rfl
    · next h14 =>
      have hd13 : d.toNat < 13 := by
        have h1 : d.toNat < 16 := d.isLt
        have h2 : d.toNat ≠ 13 := fun e => h13 (BitVec.eq_of_toNat_eq e)
        have h3 : d.toNat ≠ 14 := fun e => h14 (BitVec.eq_of_toNat_eq e)
        have h4 : d.toNat ≠ 15 := fun e => hd (BitVec.eq_of_toNat_eq e)
        omega
      simp only [State.readReg, if_neg hpc]
      by_cases hn : n = d
      · subst hn
        rw [if_neg h13, if_neg h14, getD_setIfInBounds _ _ _ hd13]
        simp
      · have hne : n.toNat ≠ d.toNat := fun e => hn (BitVec.eq_of_toNat_eq e)
        rw [getD_setIfInBounds _ _ _ hd13, if_neg hne, if_neg hn]
        rfl

theorem alignSp_idem (v : Word) : alignSp (alignSp v) = alignSp v := by
  simp [alignSp, BitVec.and_assoc]

theorem alignPc_idem (v : Word) : alignPc (alignPc v) = alignPc v := by
  simp [alignPc, BitVec.and_assoc]

end Sys2Proof.Machine
end

