-- ==== Sys2Proof/Laws/Access.lean ====
section
/-! SUPPORT. What an access can do: the plain cases, and, whatever the case, what it leaves alone. -/

namespace Sys2Proof.Machine

/-- The trace of stores, where it is on, grows from `s` to `t` and holds every byte that reads differently (70_reset_and_hazards.md R502; log 14). -/
def TraceCovers (s t : State) : Prop :=
  s.mem.wf = true → ∀ l, s.storeTrace = some l →
    ∃ l', t.storeTrace = some l' ∧ (∀ b, b ∈ l → b ∈ l') ∧ ∀ b, b ∉ l' → t.mem.read b = s.mem.read b

/-- A change of neither memory nor the trace. -/
theorem TraceCovers.same {s t : State} (hm : t.mem = s.mem) (ht : t.storeTrace = s.storeTrace) : TraceCovers s t :=
  fun _ l hl => ⟨l, ht.trans hl, fun _ h => h, fun _ _ => by rw [hm]⟩

theorem TraceCovers.trans {s t u : State} (h1 : TraceCovers s t) (hw : s.mem.wf = true → t.mem.wf = true)
    (h2 : TraceCovers t u) : TraceCovers s u := by
  intro h l hl
  obtain ⟨l1, e1, s1, r1⟩ := h1 h l hl
  obtain ⟨l2, e2, s2, r2⟩ := h2 (hw h) l1 e1
  exact ⟨l2, e2, fun b hb => s2 b (s1 b hb), fun b hb => (r2 b hb).trans (r1 b fun hc => hb (s2 b hc))⟩

/-- What any sequence of loads and stores leaves alone: the processor's registers, the mode, the active exceptions, the inputs. -/
structure BusFrame (s t : State) : Prop where
  eq : t = { s with
    pending := t.pending, irqEnable := t.irqEnable, irqPrio := t.irqPrio
    prioSVCall := t.prioSVCall, prioPendSV := t.prioPendSV, prioSysTick := t.prioSysTick
    sevOnPend := t.sevOnPend, sleepDeep := t.sleepDeep, sleepOnExit := t.sleepOnExit
    sysTick := t.sysTick, resetRequested := t.resetRequested
    mem := t.mem, stale := t.stale, storeTrace := t.storeTrace, freeCount := t.freeCount }
  hardFault : t.pending.hardFault = s.pending.hardFault
  svCall : t.pending.svCall = s.pending.svCall
  wf : s.mem.wf = true → t.mem.wf = true
  trace : s.storeTrace = none → t.storeTrace = none
  covers : TraceCovers s t

theorem BusFrame.refl (s : State) : BusFrame s s := ⟨rfl, rfl, rfl, id, id, .same rfl rfl⟩

theorem BusFrame.trans {s t u : State} (h1 : BusFrame s t) (h2 : BusFrame t u) : BusFrame s u := by
  refine ⟨?_, h2.hardFault.trans h1.hardFault, h2.svCall.trans h1.svCall, h2.wf ∘ h1.wf, h2.trace ∘ h1.trace,
    h1.covers.trans h1.wf h2.covers⟩
  have e2 := h2.eq
  rw [h1.eq] at e2
  exact e2

section
variable {s t : State} (h : BusFrame s t)
include h
theorem BusFrame.r_eq : t.r = s.r := by have e := congrArg State.r h.eq; exact e
theorem BusFrame.msp_eq : t.msp = s.msp := by have e := congrArg State.msp h.eq; exact e
theorem BusFrame.psp_eq : t.psp = s.psp := by have e := congrArg State.psp h.eq; exact e
theorem BusFrame.lr_eq : t.lr = s.lr := by have e := congrArg State.lr h.eq; exact e
theorem BusFrame.pc_eq : t.pc = s.pc := by have e := congrArg State.pc h.eq; exact e
theorem BusFrame.flags_eq : t.flags = s.flags := by have e := congrArg State.flags h.eq; exact e
theorem BusFrame.tbit_eq : t.tbit = s.tbit := by have e := congrArg State.tbit h.eq; exact e
theorem BusFrame.ipsr_eq : t.ipsr = s.ipsr := by have e := congrArg State.ipsr h.eq; exact e
theorem BusFrame.primask_eq : t.primask = s.primask := by have e := congrArg State.primask h.eq; exact e
theorem BusFrame.spsel_eq : t.spsel = s.spsel := by have e := congrArg State.spsel h.eq; exact e
theorem BusFrame.active_eq : t.active = s.active := by have e := congrArg State.active h.eq; exact e
theorem BusFrame.lockup_eq : t.lockup = s.lockup := by have e := congrArg State.lockup h.eq; exact e
theorem BusFrame.halted_eq : t.halted = s.halted := by have e := congrArg State.halted h.eq; exact e
theorem BusFrame.sleeping_eq : t.sleeping = s.sleeping := by have e := congrArg State.sleeping h.eq; exact e
theorem BusFrame.platform_eq : t.platform = s.platform := by have e := congrArg State.platform h.eq; exact e
end

theorem ppbRead_frame (s : State) (reg : PpbReg) : BusFrame s (ppbRead s reg).2 := by
  cases reg <;> exact ⟨rfl, rfl, rfl, id, id, .same rfl rfl⟩

theorem ppbWrite_frame {s s' : State} {reg : PpbReg} {v : Word} (h : ppbWrite s reg v = .ok () s') :
    BusFrame s s' := by
  cases reg <;> simp only [ppbWrite] at h
  case icsr => split at h <;> cases h; exact ⟨rfl, rfl, rfl, id, id, .same rfl rfl⟩
  case aircr =>
    split at h
    · cases h; exact BusFrame.refl s
    · split at h <;> cases h; exact ⟨rfl, rfl, rfl, id, id, .same rfl rfl⟩
  all_goals cases h; exact ⟨rfl, rfl, rfl, id, id, .same rfl rfl⟩

/-- A load leaves everything but the bus's own state alone. -/
theorem memRead_frame {s s' : State} {a : Word} {w : Width} {k : Config.AccessKind} {v : Word}
    (h : memRead s a w k = .ok v s') : BusFrame s s' := by
  unfold memRead at h
  split at h
  · cases h
  · split at h
    · unfold ppbLoad at h
      split at h
      · split at h
        · cases h; exact ppbRead_frame _ _
        · cases h
      · cases h
    · split at h
      · cases h
      · split at h <;> cases h
        · exact BusFrame.refl s
        · exact ⟨rfl, rfl, rfl, id, id, .same rfl rfl⟩

/-- The trace takes in the bytes of each store. -/
theorem storePlain_covers (s : State) (a : Nat) (w : Width) (v : Word) : TraceCovers s (s.storePlain a w v) := by
  refine fun hw l hl => ⟨(List.range w.bytes).map (a + ·) ++ l, by simp [State.storePlain, hl], ?_, fun b hb => ?_⟩
  · exact fun b hb => List.mem_append_right _ hb
  · apply read_writeWidth_outside hw
    by_contra hc
    exact hb (List.mem_append_left _ (List.mem_map.mpr ⟨b - a, List.mem_range.mpr (by omega), by omega⟩))

theorem storePlain_frame (s : State) (a : Nat) (w : Width) (v : Word) : BusFrame s (s.storePlain a w v) :=
  ⟨rfl, rfl, rfl, fun h => writeWidth_wf h _ _ _, fun h => by simp [State.storePlain, h], storePlain_covers s a w v⟩

/-- A store leaves everything but the bus's own state alone. -/
theorem memWrite_frame {s s' : State} {a : Word} {w : Width} {v : Word} {k : Config.AccessKind}
    (h : memWrite s a w v k = .ok () s') : BusFrame s s' := by
  unfold memWrite at h
  split at h
  · cases h
  · split at h
    · unfold ppbStore at h
      split at h
      · split at h
        · exact ppbWrite_frame h
        · cases h
      · cases h
    · split at h
      · cases h
      · split at h
        · split at h <;> cases h; exact storePlain_frame _ _ _ _
        · cases h; exact BusFrame.refl s

/-- A load from plain memory. -/
theorem memRead_plain {s : State} {a : Word} {w : Width} {k : Config.AccessKind} (h : s.Readable a w k) :
    memRead s a w k = .ok (s.mem.readWidth a.toNat w) s := by
  obtain ⟨h1, h2, h3⟩ := h
  unfold memRead
  have hp : regionOf a.toNat ≠ .ppb := by intro e; rw [e] at h2; simp [Region.memType] at h2
  simp [h1, hp, h3, h2]

/-- A store to plain memory. -/
theorem memWrite_plain {s : State} {a : Word} {w : Width} {v : Word} {k : Config.AccessKind} (h : s.Writable a w k) :
    memWrite s a w v k = .ok () (s.storePlain a.toNat w v) := by
  obtain ⟨⟨h1, h2, h3⟩, h4⟩ := h
  unfold memWrite
  have hp : regionOf a.toNat ≠ .ppb := by intro e; rw [e] at h2; simp [Region.memType] at h2
  simp [h1, hp, h3, h2, h4]

theorem busError_ppb_load {s : State} {a : Word} {w : Width} {k : Config.AccessKind}
    (h : isAligned a w = false ∨ (regionOf a.toNat ≠ .ppb ∧ busError s.platform a.toNat w.bytes k = true)) :
    ∃ c, memRead s a w k = .error c := by
  unfold memRead
  by_cases h1 : isAligned a w = true
  · obtain h | ⟨h2, h3⟩ := h
    · rw [h] at h1; exact absurd h1 (by decide)
    · exact ⟨.busError, by simp [h1, h2, h3]⟩
  · exact ⟨.unaligned, by simp [h1]⟩

theorem busError_ppb_store {s : State} {a : Word} {w : Width} {v : Word} {k : Config.AccessKind}
    (h : isAligned a w = false ∨ (regionOf a.toNat ≠ .ppb ∧ busError s.platform a.toNat w.bytes k = true)) :
    ∃ c, memWrite s a w v k = .error c := by
  unfold memWrite
  by_cases h1 : isAligned a w = true
  · obtain h | ⟨h2, h3⟩ := h
    · rw [h] at h1; exact absurd h1 (by decide)
    · exact ⟨.busError, by simp [h1, h2, h3]⟩
  · exact ⟨.unaligned, by simp [h1]⟩

/-- A load from a device: the low bytes of a free word. -/
theorem memRead_device {s : State} {a : Word} {w : Width} {k : Config.AccessKind} (h : s.OnDevice a w k) :
    memRead s a w k = .ok (w.truncate s.drawWord.1) s.drawWord.2 := by
  obtain ⟨h1, h2, h3⟩ := h
  unfold memRead
  have hp : regionOf a.toNat ≠ .ppb := by intro e; rw [e] at h2; simp [Region.memType] at h2
  simp [h1, hp, h3, h2]

/-- A store to a device: no change. -/
theorem memWrite_device {s : State} {a : Word} {w : Width} {v : Word} {k : Config.AccessKind} (h : s.OnDevice a w k) :
    memWrite s a w v k = .ok () s := by
  obtain ⟨h1, h2, h3⟩ := h
  unfold memWrite
  have hp : regionOf a.toNat ≠ .ppb := by intro e; rw [e] at h2; simp [Region.memType] at h2
  simp [h1, hp, h3, h2]

theorem memRead_busError {s : State} {a : Word} {k : Config.AccessKind} (h : s.BusErrorAt a k) :
    ∃ c, memRead s a .word k = .error c := busError_ppb_load (.inr h)

theorem memWrite_busError {s : State} {a : Word} {v : Word} {k : Config.AccessKind} (h : s.BusErrorAt a k) :
    ∃ c, memWrite s a .word v k = .error c := busError_ppb_store (.inr h)

/-! ### Sequences of words -/

/-- What a sequence of stores leaves alone, however it ends. -/
theorem storeWords_frame (k : Config.AccessKind) (vs : List Word) (a : Word) (n : Nat) (s : State) :
    match storeWords k vs a n s with
    | .all t => BusFrame s t
    | .stopped _ _ t => BusFrame s t
    | _ => True := by
  induction vs generalizing a n s with
  | nil => exact BusFrame.refl s
  | cons v vs ih =>
    simp only [storeWords]
    cases hw : memWrite s a .word v k with
    | ok u s' =>
      have f := memWrite_frame (s' := s') hw
      have := ih (a + 4#32) (n + 1) s'
      simp only
      revert this
      cases storeWords k vs (a + 4#32) (n + 1) s' <;> intro this
      · exact f.trans this
      · exact f.trans this
      · trivial
      · trivial
    | error c => exact BusFrame.refl s
    | fault _ => trivial
    | refused _ => trivial

/-- What a sequence of loads leaves alone, however it ends. -/
theorem loadWords_frame (k : Config.AccessKind) (n : Nat) (a : Word) (s : State) :
    match loadWords k n a s with
    | .all _ t => BusFrame s t
    | .stopped _ _ t => BusFrame s t
    | _ => True := by
  induction n generalizing a s with
  | zero => exact BusFrame.refl s
  | succ n ih =>
    simp only [loadWords]
    cases hr : memRead s a .word k with
    | ok v s' =>
      have f := memRead_frame hr
      have := ih (a + 4#32) s'
      simp only
      revert this
      cases loadWords k n (a + 4#32) s' <;> intro this <;> simp only [Loaded.push]
      · exact f.trans this
      · exact f.trans this
    | error c => exact BusFrame.refl s
    | fault _ => trivial
    | refused _ => trivial

theorem fillUnknown_frame (n : Nat) (a : Word) (s : State) : BusFrame s (fillUnknown n a s) := by
  induction n generalizing a s with
  | zero => exact BusFrame.refl s
  | succ n ih =>
    simp only [fillUnknown]
    split
    · refine BusFrame.trans ?_ (ih _ _)
      exact (show BusFrame s s.drawWord.2 from ⟨rfl, rfl, rfl, id, id, .same rfl rfl⟩).trans (storePlain_frame _ _ _ _)
    · exact ih _ _

theorem wordAt_zero (a : Word) : wordAt a 0 = a := by simp [wordAt]

theorem wordAt_succ (a : Word) (k : Nat) : wordAt (a + 4#32) k = wordAt a (k + 1) := by
  unfold wordAt
  rw [BitVec.add_assoc]
  congr 1
  apply BitVec.eq_of_toNat_eq
  simp [BitVec.toNat_add, BitVec.toNat_ofNat]
  omega

/-- Words loaded from plain memory: all of them, and no change. -/
theorem loadWords_plain {k : Config.AccessKind} {n : Nat} {a : Word} {s : State}
    (h : ∀ j, j < n → s.Readable (wordAt a j) .word k) :
    loadWords k n a s = .all ((List.range n).map fun j => s.wordOf (wordAt a j)) s := by
  induction n generalizing a with
  | zero => rfl
  | succ n ih =>
    have h0 := h 0 (by omega)
    rw [wordAt_zero] at h0
    simp only [loadWords, memRead_plain h0]
    rw [ih (fun j hj => by rw [wordAt_succ]; exact h (j + 1) (by omega))]
    simp only [Loaded.push, List.range_succ_eq_map, List.map_cons, List.map_map, wordAt_zero]
    congr 2
    apply List.map_congr_left
    intro j _
    simp [Function.comp, wordAt_succ]

/-- The state after words are stored one after the other to plain memory. -/
def storedPlain : List Word → Word → State → State
  | [], _, s => s
  | v :: vs, a, s => storedPlain vs (a + 4#32) (s.storePlain a.toNat .word v)

theorem Writable_storePlain {s : State} {a : Word} {w w' : Width} {k : Config.AccessKind} {v : Word} {c : Nat}
    (h : s.Writable a w k) : (s.storePlain c w' v).Writable a w k := h

/-- Words stored to plain memory: all of them. -/
theorem storeWords_plain {k : Config.AccessKind} {vs : List Word} {a : Word} {n : Nat} {s : State}
    (h : ∀ j, j < vs.length → s.Writable (wordAt a j) .word k) :
    storeWords k vs a n s = .all (storedPlain vs a s) := by
  induction vs generalizing a n s with
  | nil => rfl
  | cons v vs ih =>
    have h0 := h 0 (by simp)
    rw [wordAt_zero] at h0
    simp only [storeWords, memWrite_plain h0, storedPlain]
    exact ih (fun j hj => by rw [wordAt_succ]; exact h (j + 1) (by simp; omega))

/-- Words loaded up to a bus error at number `n`: the words before it, and no change. -/
theorem loadWords_stopped {k : Config.AccessKind} {m n : Nat} {a : Word} {s : State} (hn : n < m)
    (h : ∀ j, j < n → s.Readable (wordAt a j) .word k) (he : s.BusErrorAt (wordAt a n) k) :
    ∃ c, loadWords k m a s = .stopped ((List.range n).map fun j => s.wordOf (wordAt a j)) c s := by
  induction n generalizing a m with
  | zero =>
    obtain ⟨m, rfl⟩ : ∃ m', m = m' + 1 := ⟨m - 1, by omega⟩
    rw [wordAt_zero] at he
    obtain ⟨c, hc⟩ := memRead_busError he
    exact ⟨c, by simp [loadWords, hc]⟩
  | succ n ih =>
    obtain ⟨m, rfl⟩ : ∃ m', m = m' + 1 := ⟨m - 1, by omega⟩
    have h0 := h 0 (by omega)
    rw [wordAt_zero] at h0
    obtain ⟨c, hc⟩ := ih (m := m) (a := a + 4#32) (by omega) (fun j hj => by rw [wordAt_succ]; exact h (j + 1) (by omega))
      (by rw [wordAt_succ]; exact he)
    refine ⟨c, ?_⟩
    simp only [loadWords, memRead_plain h0, hc, Loaded.push, List.range_succ_eq_map, List.map_cons, List.map_map, wordAt_zero]
    congr 2
    apply List.map_congr_left
    intro j _
    simp [Function.comp, wordAt_succ]

/-- Words stored up to a bus error at number `n`: those before it. -/
theorem storeWords_stopped {k : Config.AccessKind} {vs : List Word} {n d : Nat} {a : Word} {s : State} (hn : n < vs.length)
    (h : ∀ j, j < n → s.Writable (wordAt a j) .word k) (he : s.BusErrorAt (wordAt a n) k) :
    ∃ c, storeWords k vs a d s = .stopped (d + n) c (storedPlain (vs.take n) a s) := by
  induction n generalizing a vs d s with
  | zero =>
    cases vs with
    | nil => simp at hn
    | cons v vs =>
      rw [wordAt_zero] at he
      obtain ⟨c, hc⟩ := memWrite_busError (v := v) he
      exact ⟨c, by simp [storeWords, hc, storedPlain]⟩
  | succ n ih =>
    cases vs with
    | nil => simp at hn
    | cons v vs =>
      have h0 := h 0 (by omega)
      rw [wordAt_zero] at h0
      obtain ⟨c, hc⟩ := ih (vs := vs) (a := a + 4#32) (d := d + 1) (s := s.storePlain a.toNat .word v) (by simpa using hn)
        (fun j hj => by rw [wordAt_succ]; exact h (j + 1) (by omega)) (by rw [wordAt_succ]; exact he)
      refine ⟨c, ?_⟩
      simp only [storeWords, memWrite_plain h0, hc, List.take_succ_cons, storedPlain]
      congr 1; omega

/-- Words loaded from a device: as many as asked for, and no change but in the count of free values. -/
theorem loadWords_device {k : Config.AccessKind} {n : Nat} {a : Word} {s : State}
    (h : ∀ j, j < n → s.OnDevice (wordAt a j) .word k) :
    ∃ vs m, loadWords k n a s = .all vs { s with freeCount := m } ∧ vs.length = n := by
  induction n generalizing a s with
  | zero => exact ⟨[], s.freeCount, rfl, rfl⟩
  | succ n ih =>
    have h0 := h 0 (by omega)
    rw [wordAt_zero] at h0
    obtain ⟨vs, m, hm, hl⟩ := ih (a := a + 4#32) (s := s.drawWord.2)
      (fun j hj => by rw [wordAt_succ]; exact h (j + 1) (by omega))
    refine ⟨Width.word.truncate s.drawWord.1 :: vs, m, ?_, by simp [hl]⟩
    simp only [loadWords, memRead_device h0, hm, Loaded.push]
    rfl

/-- Words stored to a device: no change. -/
theorem storeWords_device {k : Config.AccessKind} {vs : List Word} {a : Word} {d : Nat} {s : State}
    (h : ∀ j, j < vs.length → s.OnDevice (wordAt a j) .word k) : storeWords k vs a d s = .all s := by
  induction vs generalizing a d with
  | nil => rfl
  | cons v vs ih =>
    have h0 := h 0 (by simp)
    rw [wordAt_zero] at h0
    simp only [storeWords, memWrite_device h0]
    exact ih (fun j hj => by rw [wordAt_succ]; exact h (j + 1) (by simp; omega))

theorem storedPlain_eq (vs : List Word) (a : Word) (s : State) :
    storedPlain vs a s = { s with
      mem := (storedPlain vs a s).mem, stale := (storedPlain vs a s).stale
      storeTrace := (storedPlain vs a s).storeTrace } := by
  induction vs generalizing a s with
  | nil => rfl
  | cons v vs ih => simp only [storedPlain]; rw [ih]; rfl

theorem fillUnknown_eq (n : Nat) (a : Word) (s : State) :
    fillUnknown n a s = { s with
      mem := (fillUnknown n a s).mem, stale := (fillUnknown n a s).stale
      storeTrace := (fillUnknown n a s).storeTrace, freeCount := (fillUnknown n a s).freeCount } := by
  induction n generalizing a s with
  | zero => rfl
  | succ n ih =>
    simp only [fillUnknown]
    split
    · rw [ih]; rfl
    · rw [ih]

/-! ### Words stored to plain memory read back -/

/-- Normal memory lies below 0xA0000000, so an access there does not reach the end of the address space. -/
theorem normal_lt {a : Nat} (h : (regionOf a).memType = .normal) : a < 0xA0000000 := by
  by_contra hn
  have h1 : ¬ a < 0x20000000 := by omega
  have h2 : ¬ a < 0x40000000 := by omega
  have h3 : ¬ a < 0x60000000 := by omega
  unfold regionOf at h
  rw [if_neg h1, if_neg h2, if_neg h3, if_neg hn] at h
  split at h
  · cases h
  · split at h <;> cases h

/-- Consecutive words of normal memory lie one behind the other. -/
theorem wordAt_toNat {a : Word} {n : Nat} (h : ∀ j, j < n → (regionOf (wordAt a j).toNat).memType = .normal) :
    ∀ k, k < n → (wordAt a k).toNat = a.toNat + 4 * k ∧ a.toNat + 4 * k < 0xA0000000 := by
  intro k
  induction k with
  | zero => intro hk; have := normal_lt (h 0 hk); rw [wordAt_zero] at *; omega
  | succ k ih =>
    intro hk
    obtain ⟨h1, h2⟩ := ih (by omega)
    have h3 := normal_lt (h (k + 1) hk)
    have h4 : (wordAt a (k + 1)).toNat = ((wordAt a k).toNat + 4) % 2 ^ 32 := by
      unfold wordAt
      simp only [BitVec.toNat_add, BitVec.toNat_ofNat]
      omega
    omega

theorem storePlain_wf {s : State} (h : s.mem.wf = true) (a : Nat) (w : Width) (v : Word) :
    (s.storePlain a w v).mem.wf = true := writeWidth_wf h a v w

theorem storedPlain_wf {vs : List Word} {a : Word} {s : State} (h : s.mem.wf = true) :
    (storedPlain vs a s).mem.wf = true := by
  induction vs generalizing a s with
  | nil => exact h
  | cons v vs ih => exact ih (storePlain_wf h _ _ _)

/-- Bytes outside the stored words read as before. -/
theorem storedPlain_outside {vs : List Word} {a : Word} {s : State} {b : Nat} (hw : s.mem.wf = true)
    (h : ∀ j, j < vs.length → b < (wordAt a j).toNat ∨ (wordAt a j).toNat + 4 ≤ b) :
    (storedPlain vs a s).mem.read b = s.mem.read b := by
  induction vs generalizing a s with
  | nil => rfl
  | cons v vs ih =>
    rw [storedPlain, ih (storePlain_wf hw _ _ _) (fun j hj => by rw [wordAt_succ]; exact h (j + 1) (by simp; omega))]
    have h0 := h 0 (by simp)
    rw [wordAt_zero] at h0
    exact read_writeWidth_outside hw v .word h0

/-- Unknown words put into a frame leave the bytes outside them alone. -/
theorem fillUnknown_outside {n : Nat} {a : Word} {s : State} {b : Nat} (hw : s.mem.wf = true)
    (h : ∀ j, j < n → Outside (wordAt a j) .word b) : (fillUnknown n a s).mem.read b = s.mem.read b := by
  induction n generalizing a s with
  | zero => rfl
  | succ n ih =>
    have h0 := h 0 (by omega)
    rw [wordAt_zero] at h0
    have hs : ∀ j, j < n → Outside (wordAt (a + 4#32) j) .word b := fun j hj => by
      rw [wordAt_succ]; exact h (j + 1) (by omega)
    simp only [fillUnknown]
    split
    · rw [ih (storePlain_wf (s := s.drawWord.2) hw _ _ _) hs]
      exact read_writeWidth_outside hw _ .word h0
    · exact ih hw hs

/-- Each stored word reads back. -/
theorem storedPlain_word {vs : List Word} {a : Word} {s : State} (hw : s.mem.wf = true)
    (h : ∀ j, j < vs.length → (regionOf (wordAt a j).toNat).memType = .normal) (k : Nat) (hk : k < vs.length) :
    (storedPlain vs a s).wordOf (wordAt a k) = vs[k] := by
  induction vs generalizing a s k with
  | nil => simp at hk
  | cons v vs ih =>
    have ha := wordAt_toNat h
    cases k with
    | zero =>
      have h0 := ha 0 (by simp)
      rw [wordAt_zero] at *
      have e : (storedPlain (v :: vs) a s).wordOf a = (s.mem.writeWord a.toNat v).readWord a.toNat := by
        apply readWord_congr
        intro b hb1 hb2
        rw [storedPlain]
        refine (storedPlain_outside (storePlain_wf hw _ _ _) ?_).trans rfl
        intro j hj
        rw [wordAt_succ]
        have := ha (j + 1) (by simp; omega)
        omega
      rw [e, readWord_writeWord hw (by unfold addressSpace; omega)]
      rfl
    | succ k =>
      rw [storedPlain, ← wordAt_succ]
      rw [ih (storePlain_wf hw _ _ _) (fun j hj => by rw [wordAt_succ]; exact h (j + 1) (by simp; omega)) k
        (by simpa using hk)]
      rfl

end Sys2Proof.Machine
end

