-- ==== Sys2Proof/Laws/Ops.lean ====
section
/-! SUPPORT. What the shared operations can do: taking an exception, raising HardFault, returning from an exception, and words stored to plain
memory read back. -/

namespace Sys2Proof.Machine

/-! ### Exceptions' numbers and bits -/

theorem ofNumber_number (e : Exc) : Exc.ofNumber e.number = some e := by
  cases e with
  | irq m => revert m; decide
  | _ => decide

theorem number_ne_zero (e : Exc) : e.number ≠ 0#6 := by
  cases e with
  | irq m => revert m; decide
  | _ => decide

theorem number_of_ofNumber {n : BitVec 6} {e : Exc} (h : Exc.ofNumber n = some e) : e.number = n := by
  have := List.find?_some h
  simpa using this

theorem ofNumber_zero : Exc.ofNumber 0#6 = none := by decide

theorem number_inj {e f : Exc} (h : e.number = f.number) : e = f := by
  have h1 := ofNumber_number e
  rw [h, ofNumber_number f] at h1
  exact (Option.some.inj h1).symm

theorem getLsbD_setIrqBit (x : BitVec 9) (m : Fin 9) (b : Bool) (k : Nat) (hk : k < 9) :
    (setIrqBit x m b).getLsbD k = if k = m.val then b else x.getLsbD k := by
  unfold setIrqBit
  by_cases hkm : k = m.val
  · subst hkm
    cases b <;> simp
  · rw [if_neg hkm]
    cases b
    · rcases Nat.lt_or_gt_of_ne hkm with h | h
      · simp [hk, h]
      · have : ¬ (k - m.val = 0) := by omega
        simp [hk, this]
    · rcases Nat.lt_or_gt_of_ne hkm with h | h
      · simp [h]
      · have : ¬ (k - m.val = 0) := by omega
        simp [this]

/-- Setting the bit of one exception sets that bit and no other. -/
theorem get_set (x : ExcSet) (e f : Exc) (b : Bool) : (x.set e b).get f = if f = e then b else x.get f := by
  cases e <;> cases f <;> simp [ExcSet.set, ExcSet.get]
  rename_i m k
  have := getLsbD_setIrqBit x.irq m b k.val k.isLt
  simpa [Fin.ext_iff] using this

/-- Two sets with the same bits are one set. -/
theorem excSet_ext {x y : ExcSet} (h : ∀ e, x.get e = y.get e) : x = y := by
  have h1 := h .nmi; have h2 := h .hardFault; have h3 := h .svCall; have h4 := h .pendSV; have h5 := h .sysTick
  have h6 : x.irq = y.irq := by
    apply BitVec.eq_of_getLsbD_eq
    intro i hi
    exact h (.irq ⟨i, hi⟩)
  cases x; cases y
  simp_all [ExcSet.get]

theorem get_none (e : Exc) : ExcSet.none.get e = false := by
  cases e <;> simp [ExcSet.none, ExcSet.get]

theorem mem_all (e : Exc) : e ∈ Exc.all := by
  cases e with
  | irq m => revert m; decide
  | _ => decide

/-- The set of one active exception, once that is no longer active, is empty. -/
theorem set_false_of_count_one {x : ExcSet} {e : Exc} (hc : x.count = 1) (he : x.get e = true) :
    x.set e false = ExcSet.none := by
  apply excSet_ext
  intro f
  rw [get_set, get_none]
  by_cases hfe : f = e
  · simp [hfe]
  · rw [if_neg hfe]
    by_contra hf
    have hf' : x.get f = true := by simpa using hf
    have hn : Exc.all.Nodup := by decide
    have h2 : [e, f].countP (fun g => x.get g) ≤ Exc.all.countP fun g => x.get g := by
      apply List.Subperm.countP_le
      apply List.subperm_of_subset
      · simp [Ne.symm hfe]
      · intro g hg; exact mem_all g
    have : [e, f].countP (fun g => x.get g) = 2 := by simp [he, hf']
    unfold ExcSet.count at hc
    omega

theorem number_toNat_lt (e : Exc) : e.number.toNat < 25 := by
  cases e with
  | irq m => revert m; decide
  | _ => decide

theorem vector_toNat (e : Exc) : e.vector.toNat = 4 * e.number.toNat := by
  have := number_toNat_lt e
  unfold Exc.vector
  simp [BitVec.toNat_mul]
  omega

/-! ### Taking an exception -/

/-- The state in which a handler starts: `u` is the state after the stores of the frame, `e` the exception entered, `v` its vector. -/
def State.entered (u : State) (link : Word) (e : Exc) (v : Word) : State :=
  ({ u with lr := link }.enterContext e).jumpVector v

/-- Lockup inside an entry changes no byte of memory, and keeps the trace of the entry's stores. -/
theorem lockedUpInEntry_covers {s u : State} {sp : Word} (h : BusFrame (s.setSp sp) u) : TraceCovers s (s.lockedUpInEntry u) := by
  intro hw l hl
  obtain ⟨l', h1, h2, -⟩ := h.covers (by simpa using hw) l (by simpa using hl)
  exact ⟨l', h1, h2, fun _ _ => rfl⟩

theorem lockedUpInEntry_trace {s u : State} {sp : Word} (h : BusFrame (s.setSp sp) u) (hs : s.storeTrace = none) :
    (s.lockedUpInEntry u).storeTrace = none := h.trace (by simpa using hs)

/-- Everything an entry can do when it answers a next state: lockup with nothing else changed but the trace of stores, or the handler's start, of the
exception or (after a bus error, where HardFault could preempt) of HardFault in its place. -/
theorem exceptionEntry_cases {e : Exc} {ret : Word} {s t : State} (h : exceptionEntry e ret s = .next t) :
    (∃ u, BusFrame (s.setSp (frameAddress s.sp)) u ∧ t = s.lockedUpInEntry u) ∨
      ∃ u f v, BusFrame (s.setSp (frameAddress s.sp)) u ∧
      (f = e ∨ f = .hardFault ∧ -1 < s.executionPriority) ∧ t = u.entered s.linkValue f v := by
  have place : ∀ u : State, BusFrame (s.setSp (frameAddress s.sp)) u →
      entryError e s { u with lr := s.linkValue } = .next t →
      (∃ u, BusFrame (s.setSp (frameAddress s.sp)) u ∧ t = s.lockedUpInEntry u) ∨
      ∃ u f v, BusFrame (s.setSp (frameAddress s.sp)) u ∧
        (f = e ∨ f = .hardFault ∧ -1 < s.executionPriority) ∧ t = u.entered s.linkValue f v := by
    intro u hu he
    have hl : s.lockedUpInEntry { u with lr := s.linkValue } = s.lockedUpInEntry u := rfl
    unfold entryError hardFaultInPlace at he
    rw [hl] at he
    split at he
    · cases he; exact .inl ⟨u, hu, rfl⟩
    · rename_i hp
      split at he
      · cases he
        exact .inr ⟨u, .hardFault, _, hu, .inr ⟨rfl, by rw [not_or, not_or] at hp; omega⟩, rfl⟩
      · cases he; exact .inl ⟨u, hu, rfl⟩
  unfold exceptionEntry at h
  have f := storeWords_frame .stack (s.frameWords ret) (frameAddress s.sp) 0 (s.setSp (frameAddress s.sp))
  revert f h
  dsimp only
  cases storeWords .stack (s.frameWords ret) (frameAddress s.sp) 0 (s.setSp (frameAddress s.sp)) with
  | all u =>
    intro h f
    dsimp only at h
    split at h
    · cases h; exact .inr ⟨u, e, _, f, .inl rfl, rfl⟩
    · exact place u f h
  | stopped n c u =>
    intro h f
    exact place _ (BusFrame.trans f (fillUnknown_frame _ _ _)) h
  | fault w => intro h; cases h
  | refused w => intro h; cases h

/-- Everything that raising HardFault can do when it answers a next state. -/
theorem raiseHardFault_cases {c : HardFaultCause} {s t : State} (h : raiseHardFault c s = .next t) :
    (∃ u, BusFrame (s.setSp (frameAddress s.sp)) u ∧ t = s.lockedUpInEntry u) ∨
      ∃ u v, BusFrame (s.setSp (frameAddress s.sp)) u ∧ t = u.entered s.linkValue .hardFault v := by
  unfold raiseHardFault at h
  split at h
  · cases h; exact .inl ⟨_, BusFrame.refl _, by simp [State.lockedUpInEntry, State.lockedUp]⟩
  · obtain h | ⟨u, f, v, hu, hf, ht⟩ := exceptionEntry_cases h
    · exact .inl h
    · have : f = .hardFault := by
        obtain hf | ⟨hf, -⟩ := hf <;> exact hf
      subst this
      exact .inr ⟨u, v, hu, ht⟩

/-- An entry from a state whose stack is plain memory and whose vector can be read. -/
theorem exceptionEntry_plain {e : Exc} {ret : Word} {s : State} (h : s.CanStack e) :
    exceptionEntry e ret s =
      .next ((storedPlain (s.frameWords ret) (frameAddress s.sp) (s.setSp (frameAddress s.sp))).entered s.linkValue e
        ((storedPlain (s.frameWords ret) (frameAddress s.sp) (s.setSp (frameAddress s.sp))).mem.readWord
          (4 * e.number.toNat))) := by
  obtain ⟨hw, hv⟩ := h
  have hw' : ∀ j, j < (s.frameWords ret).length →
      (s.setSp (frameAddress s.sp)).Writable (wordAt (frameAddress s.sp) j) .word .stack := by
    intro j hj
    have := hw j (by simpa [State.frameWords] using hj)
    simpa [State.Writable, State.Readable] using this
  have hp : (storedPlain (s.frameWords ret) (frameAddress s.sp) (s.setSp (frameAddress s.sp))).platform = s.platform := by
    rw [storedPlain_eq]; simp
  unfold exceptionEntry
  dsimp only
  rw [storeWords_plain hw']
  generalize storedPlain (s.frameWords ret) (frameAddress s.sp) (s.setSp (frameAddress s.sp)) = u at hp ⊢
  have hvr : vectorRead { u with lr := s.linkValue } e.vector = some (u.mem.readWord (4 * e.number.toNat)) := by
    unfold vectorRead
    rw [vector_toNat]
    simp [hp, hv]
  dsimp only
  rw [hvr]
  rfl

/-! ### Returning from an exception -/

/-- Everything that a restored frame writes. -/
theorem restoreFrame_eq (s : State) (k : ReturnKind) (r0 r1 r2 r3 r12 lr ret psr : Word) :
    s.restoreFrame k r0 r1 r2 r3 r12 lr ret psr =
      { s with
        r := ((((s.r.setIfInBounds 0 r0).setIfInBounds 1 r1).setIfInBounds 2 r2).setIfInBounds 3 r3).setIfInBounds 12 r12
        lr := lr
        msp := if k = .threadProcess then s.msp else alignSp (stackAfterReturn (s.returnFrame k) psr)
        psp := if k = .threadProcess then alignSp (stackAfterReturn (s.returnFrame k) psr) else s.psp
        spsel := decide (k = .threadProcess)
        flags := Flags.ofWord psr, tbit := psr.getLsbD 24, ipsr := psr.extractLsb' 0 6
        pc := alignPc ret
        sleeping := s.sleeping || (k != .handlerMain && s.sleepOnExit)
        stale := [] } := by
  have w0 : ∀ (u : State) (v : Word), u.writeReg 0 v = { u with r := u.r.setIfInBounds 0 v } := fun _ _ => rfl
  have w1 : ∀ (u : State) (v : Word), u.writeReg 1 v = { u with r := u.r.setIfInBounds 1 v } := fun _ _ => rfl
  have w2 : ∀ (u : State) (v : Word), u.writeReg 2 v = { u with r := u.r.setIfInBounds 2 v } := fun _ _ => rfl
  have w3 : ∀ (u : State) (v : Word), u.writeReg 3 v = { u with r := u.r.setIfInBounds 3 v } := fun _ _ => rfl
  have w12 : ∀ (u : State) (v : Word), u.writeReg 12 v = { u with r := u.r.setIfInBounds 12 v } := fun _ _ => rfl
  unfold State.restoreFrame
  rw [w0, w1, w2, w3, w12]
  cases k <;> simp [State.setMsp, State.setPsp]

/-- What an error while unstacking can do. -/
theorem unstackError_cases {k : ReturnKind} {u t : State} (h : unstackError k u = .next t) :
    t = u.lockedUp ∨ ∃ v, k = .threadProcess ∧ t = u.entered 0xFFFFFFFD#32 .hardFault v := by
  unfold unstackError hardFaultInPlace at h
  split at h
  · split at h
    · cases h; exact .inr ⟨_, rfl, rfl⟩
    · cases h; exact .inl rfl
  · cases h; exact .inl rfl

/-- Everything an exception return can do when it answers a next state. -/
theorem exceptionReturn_cases {v : Word} {s t : State} (h : exceptionReturn v s = .next t) :
    ∃ k e u, ReturnKind.ofValue v = some k ∧ Exc.ofNumber s.ipsr = some e ∧ k.fits s.active.count = true ∧
      BusFrame (s.deactivate e) u ∧
      ((∃ r0 r1 r2 r3 r12 lr ret psr, u.stackedIpsrFits k (psr.extractLsb' 0 6) = true ∧
          t = u.restoreFrame k r0 r1 r2 r3 r12 lr ret psr) ∨
        t = u.lockedUp ∨ ∃ w, k = .threadProcess ∧ t = u.entered 0xFFFFFFFD#32 .hardFault w) := by
  unfold exceptionReturn at h
  split at h
  · cases h
  · rename_i k hk
    split at h
    · cases h
    · rename_i e he
      split at h
      · rename_i hfit
        unfold unstack at h
        have f := loadWords_frame .unstack 8 ((s.deactivate e).returnFrame k) (s.deactivate e)
        revert f h
        cases loadWords .unstack 8 ((s.deactivate e).returnFrame k) (s.deactivate e) with
        | all vs u =>
          intro h f
          split at h
          · rename_i heq
            cases heq
            split at h
            · rename_i hs
              cases h
              exact ⟨k, e, u, hk, he, hfit, f, .inl ⟨_, _, _, _, _, _, _, _, hs, rfl⟩⟩
            · cases h
          · cases h
          · rename_i heq; cases heq
          · cases h
          · cases h
        | stopped n c u =>
          intro h f
          exact ⟨k, e, u, hk, he, hfit, f, .inr (unstackError_cases h)⟩
        | fault w => intro h; cases h
        | refused w => intro h; cases h
      · cases h

/-- A write of the PC by BX or POP: a branch, or an exception return from Handler mode. -/
theorem bxWritePC_cases {v : Word} {s t : State} (h : bxWritePC v s = .next t) :
    t = s.interwork v ∨ (s.mode = .handler ∧ exceptionReturn v s = .next t) := by
  unfold bxWritePC at h
  split at h
  · rename_i hx
    refine .inr ⟨?_, h⟩
    unfold State.isExcReturn at hx
    simp at hx
    exact hx.1
  · cases h; exact .inl rfl

/-- An access, and what comes after it, when that answers a next state. -/
theorem run_cases {α : Type} {x : Access α} {s t : State} {k : α → State → Outcome} (h : x.run s k = .next t) :
    (∃ a s', x = .ok a s' ∧ k a s' = .next t) ∨ ∃ c, x = .error c ∧ raiseHardFault c s = .next t := by
  cases x with
  | ok a s' => exact .inl ⟨a, s', rfl, h⟩
  | error c => exact .inr ⟨c, rfl, h⟩
  | fault f => cases h
  | refused r => cases h

end Sys2Proof.Machine
end

