-- ==== Sys2Proof/Laws/Operands.lean ====
section
/-! SUPPORT. What the operand forms and the flag computation give: sums with carry, immediates and addresses, register lists, and the
parts of an exception return that plain memory leaves. -/

namespace Sys2Proof.Machine

/-! ### Sums -/

theorem sign_bit (x : Word) : x.getLsbD 31 = true ↔ x.toInt < 0 := by
  have h : x.getLsbD 31 = x.msb := (BitVec.msb_eq_getLsbD_last x).symm
  rw [h, BitVec.msb_eq_decide, BitVec.toInt_eq_toNat_cond]
  have := x.isLt
  simp
  split <;> omega

/-- What `AddWithCarry` answers, in integers (00_scope.md R12). -/
theorem addWithCarry_spec (x y : Word) (c : Bool) :
    (addWithCarry x y c).1 = BitVec.ofInt 32 (x.toInt + y.toInt + (c.toNat : Int)) ∧
    ((addWithCarry x y c).2.1 = true ↔ 4294967296 ≤ x.toNat + y.toNat + c.toNat) ∧
    ((addWithCarry x y c).2.2 = true ↔ x.toInt + y.toInt + (c.toNat : Int) < -2147483648 ∨
      2147483648 ≤ x.toInt + y.toInt + (c.toNat : Int)) := by
  have h1 : (addWithCarry x y c).1 = BitVec.ofInt 32 (x.toInt + y.toInt + (c.toNat : Int)) := by
    apply BitVec.eq_of_toNat_eq
    unfold addWithCarry
    simp only [BitVec.toNat_ofNat, BitVec.toNat_ofInt, BitVec.toInt_eq_toNat_cond]
    have := x.isLt
    have := y.isLt
    have : c.toNat ≤ 1 := Bool.toNat_le c
    split <;> split <;> omega
  refine ⟨h1, ?_, ?_⟩
  · unfold addWithCarry; simp
  · have h2 : (addWithCarry x y c).2.2 =
        decide ((addWithCarry x y c).1.toInt ≠ x.toInt + y.toInt + (c.toNat : Int)) := rfl
    rw [h2, h1]
    simp only [BitVec.toInt_ofInt, decide_eq_true_eq]
    have := x.toInt_lt
    have := y.toInt_lt
    have := x.le_toInt
    have := y.le_toInt
    have : c.toNat ≤ 1 := Bool.toNat_le c
    rw [Int.bmod_def]
    split <;> omega

theorem toInt_not (y : Word) : (~~~y).toInt = -1 - y.toInt := by
  simp only [BitVec.toInt_eq_toNat_cond, BitVec.toNat_not]
  have := y.isLt
  split <;> split <;> omega

/-! ### Immediates and addresses -/

theorem toNat_zext {n : Nat} (v : BitVec n) (h : n < 32) : (zext v).toNat = v.toNat := by
  unfold zext
  have := v.isLt
  have h2 : 2 ^ n ≤ 2 ^ 31 := Nat.pow_le_pow_right (by decide) (by omega)
  simp
  omega

theorem toInt_zext {n : Nat} (v : BitVec n) (h : n < 32) : (zext v).toInt = v.toNat := by
  have h1 := toNat_zext v h
  have := v.isLt
  have h2 : 2 ^ n ≤ 2 ^ 31 := Nat.pow_le_pow_right (by decide) (by omega)
  rw [BitVec.toInt_eq_toNat_cond, h1]
  split <;> omega

theorem wordOffset_eq {n : Nat} (v : BitVec n) : wordOffset v = BitVec.ofNat 32 (4 * v.toNat) := by
  unfold wordOffset zext
  apply BitVec.eq_of_toNat_eq
  rw [BitVec.toNat_setWidth, BitVec.toNat_append]
  simp [Nat.shiftLeft_eq]
  rw [Nat.mul_comm]

theorem halfOffset_eq {n : Nat} (v : BitVec n) : halfOffset v = BitVec.ofNat 32 (2 * v.toNat) := by
  unfold halfOffset zext
  apply BitVec.eq_of_toNat_eq
  rw [BitVec.toNat_setWidth, BitVec.toNat_append]
  simp [Nat.shiftLeft_eq]
  rw [Nat.mul_comm]

theorem branchOffset_eq {n : Nat} (v : BitVec n) : branchOffset v = BitVec.ofInt 32 (2 * v.toInt) := by
  unfold branchOffset sext
  show BitVec.ofInt 32 (v ++ 0#1).toInt = _
  congr 1
  rw [BitVec.toInt_append]
  by_cases h0 : n = 0
  · subst h0; simp [BitVec.toInt_zero_length]
  · simp [h0]

/-- Clearing the low two bits rounds down to a multiple of 4. -/
theorem align_four (x : Word) : x &&& 0xFFFFFFFC#32 = BitVec.ofNat 32 (x.toNat / 4 * 4) := by
  have h1 : x &&& 0xFFFFFFFC#32 = (x >>> 2) <<< 2 := by
    apply BitVec.eq_of_getLsbD_eq
    intro i hi
    have : ∀ i, i < 32 → (4294967292#32).getLsbD i = decide (2 ≤ i) := by decide
    simp only [BitVec.getLsbD_and, this i hi, BitVec.getLsbD_shiftLeft, BitVec.getLsbD_ushiftRight, hi]
    by_cases h3 : i < 2
    · simp [h3]
    · simp [h3, show 2 ≤ i by omega, show 2 + (i - 2) = i by omega]
  rw [h1]
  apply BitVec.eq_of_toNat_eq
  simp [BitVec.toNat_shiftLeft, Nat.shiftRight_eq_div_pow, Nat.shiftLeft_eq]

/-- The address of ADR and of LDR (literal). -/
theorem literal_eq (s : State) (imm8 : BitVec 8) : s.literalBase + wordOffset imm8 =
    BitVec.ofNat 32 ((s.pc + 4#32).toNat / 4 * 4 + 4 * imm8.toNat) := by
  unfold State.literalBase
  rw [align_four, wordOffset_eq, BitVec.ofNat_add]

/-! ### The stack pointer -/

theorem setSp_eq (s : State) (v : Word) :
    s.setSp v = { s with msp := (s.setSp v).msp, psp := (s.setSp v).psp } := by
  unfold State.setSp; split <;> rfl

/-- Writing the current stack pointer leaves the other one alone. -/
theorem setSp_other (s : State) (v : Word) :
    if s.usesPsp then (s.setSp v).msp = s.msp else (s.setSp v).psp = s.psp := by
  unfold State.setSp
  split <;> rfl

theorem aligned_sp {a : Word} (h : isAligned a .word = true) : alignSp a = a := by
  unfold isAligned at h
  simp at h
  unfold alignSp
  apply BitVec.eq_of_getLsbD_eq
  intro i hi
  have : ∀ i, i < 32 → (4294967292#32).getLsbD i = decide (2 ≤ i) := by decide
  rw [BitVec.getLsbD_and, this i hi]
  by_cases h2 : 2 ≤ i
  · simp [h2]
  · have : i = 0 ∨ i = 1 := by omega
    obtain rfl | rfl := this
    · simp [h.1]
    · simp [h.2]

/-! ### Register lists -/

theorem regsOfList_length : ∀ list : RegList, (regsOfList list).length = regCount list := by decide +kernel

theorem regsOfList_rank : ∀ (list : RegList) (i : LowReg), list.getLsbD i.toNat = true →
    (regsOfList list)[rankIn list i]? = some i := by decide +kernel

theorem regsOfList_nodup : ∀ list : RegList, (regsOfList list).Nodup := by decide +kernel

theorem mem_regsOfList : ∀ (list : RegList) (i : LowReg), i ∈ regsOfList list ↔ list.getLsbD i.toNat = true := by
  decide +kernel

theorem rankIn_lt (list : RegList) (i : LowReg) (h : list.getLsbD i.toNat = true) : rankIn list i < regCount list := by
  rw [← regsOfList_length]
  by_contra hc
  have := regsOfList_rank list i h
  rw [List.getElem?_eq_none (by omega)] at this
  cases this

/-- A low register that is not among those written reads as before. -/
theorem writeLows_other (l : List (LowReg × Word)) (s : State) (i : LowReg) (h : i ∉ l.map (·.1)) :
    (s.writeLows l).readLow i = s.readLow i := by
  induction l generalizing s with
  | nil => rfl
  | cons x l ih =>
    obtain ⟨j, v⟩ := x
    simp at h
    show ((s.writeLow j v).writeLows l).readLow i = _
    rw [ih _ (by simpa using h.2), readLow_writeLow, if_neg h.1]

/-- Of distinct registers, each reads the word at its place. -/
theorem writeLows_at (rs : List LowReg) (vs : List Word) (s : State) (hn : rs.Nodup) (k : Nat) (i : LowReg) (v : Word)
    (h1 : rs[k]? = some i) (h2 : vs[k]? = some v) : (s.writeLows (rs.zip vs)).readLow i = v := by
  induction rs generalizing vs s k with
  | nil => simp at h1
  | cons r rs ih =>
    cases vs with
    | nil => simp at h2
    | cons w vs =>
      show ((s.writeLow r w).writeLows (rs.zip vs)).readLow i = v
      cases k with
      | zero =>
        simp at h1 h2; subst h1; subst h2
        rw [writeLows_other]
        · simp
        · intro hm
          simp at hm
          obtain ⟨x, hx⟩ := hm
          exact (List.nodup_cons.mp hn).1 (List.of_mem_zip hx).1
      | succ k =>
        exact ih vs _ (List.nodup_cons.mp hn).2 k (by simpa using h1) (by simpa using h2)

theorem writeLows_eq (l : List (LowReg × Word)) (s : State) : s.writeLows l = { s with r := (s.writeLows l).r } := by
  induction l generalizing s with
  | nil => rfl
  | cons x l ih =>
    show (s.writeLow _ _).writeLows l = { s with r := ((s.writeLow _ _).writeLows l).r }
    rw [ih]
    rw [writeLow_eq]

/-- The high registers read as before. -/
theorem writeLows_high (l : List (LowReg × Word)) (s : State) (n : Reg) (h : 8 ≤ n.toNat) (hn : n ≠ 15#4) :
    (s.writeLows l).readReg n = s.readReg n := by
  induction l generalizing s with
  | nil => rfl
  | cons x l ih =>
    show ((s.writeLow _ _).writeLows l).readReg n = _
    rw [ih, readReg_writeLow _ _ _ (toReg_ne_high _ h).symm hn]

theorem settleLoaded_eq (base : Option LowReg) (l : List (LowReg × Word)) (s : State) :
    s.settleLoaded base l = { s with r := (s.settleLoaded base l).r, freeCount := (s.settleLoaded base l).freeCount } := by
  induction l generalizing s with
  | nil => rfl
  | cons x l ih =>
    simp only [State.settleLoaded]
    split
    · rw [ih, writeLow_eq]
    · rw [ih]

/-- After an LDM or POP that got an error, each register holds its old value or one that was loaded for it; the base keeps its value. -/
theorem settleLoaded_spec (base : Option LowReg) (l : List (LowReg × Word)) (s : State) (i : LowReg) :
    ((s.settleLoaded base l).readLow i = s.readLow i ∨
      (base ≠ some i ∧ ∃ v, (i, v) ∈ l ∧ (s.settleLoaded base l).readLow i = v)) := by
  induction l generalizing s with
  | nil => exact .inl rfl
  | cons x l ih =>
    obtain ⟨j, v⟩ := x
    simp only [State.settleLoaded]
    split
    · rename_i h
      obtain h1 | ⟨h1, v', h2, h3⟩ := ih (({ s with freeCount := s.freeCount + 1 }).writeLow j v)
      · rw [h1, readLow_writeLow]
        split
        · rename_i hij
          subst hij
          simp at h
          exact .inr ⟨h.2, v, by simp, rfl⟩
        · exact .inl rfl
      · exact .inr ⟨h1, v', by simp [h2], h3⟩
    · obtain h1 | ⟨h1, v', h2, h3⟩ := ih { s with freeCount := s.freeCount + 1 }
      · exact .inl h1
      · exact .inr ⟨h1, v', by simp [h2], h3⟩

/-- The high registers are no business of an LDM or POP that got an error. -/
theorem settleLoaded_high (base : Option LowReg) (l : List (LowReg × Word)) (s : State) (n : Reg) (h : 8 ≤ n.toNat)
    (hn : n ≠ 15#4) : (s.settleLoaded base l).readReg n = s.readReg n := by
  induction l generalizing s with
  | nil => rfl
  | cons x l ih =>
    simp only [State.settleLoaded]
    rw [ih]
    split
    · rw [readReg_writeLow _ _ _ (toReg_ne_high _ h).symm hn]; rfl
    · rfl

/-! ### Exception return -/

theorem deactivate_eq (s : State) (e : Exc) :
    s.deactivate e = { s with active := s.active.set e false, pending := (s.deactivate e).pending } := by
  unfold State.deactivate
  cases e with
  | irq m => dsimp only; split <;> rfl
  | _ => rfl

/-- Deactivating an interrupt whose line is asserted makes it pending; nothing else becomes pending. -/
theorem deactivate_pending (s : State) (e f : Exc) :
    (s.deactivate e).pending.get f =
      if f = e ∧ (∃ m, e = .irq m ∧ s.irqLine.getLsbD m.val = true) then true else s.pending.get f := by
  unfold State.deactivate
  cases e with
  | irq m =>
    dsimp only
    split
    · rename_i h
      dsimp only
      rw [get_set]
      by_cases hf : f = .irq m
      · rw [if_pos hf, if_pos ⟨hf, m, rfl, h⟩]
      · rw [if_neg hf, if_neg (fun h => hf h.1)]
    · rename_i h
      rw [if_neg]
      rintro ⟨-, m', h1, h2⟩
      cases h1; exact h h2
  | _ =>
    rw [if_neg]
    rintro ⟨-, m', h1, -⟩; cases h1

/-- Unstacking from plain memory. -/
theorem unstack_plain {k : ReturnKind} {s : State}
    (h : ∀ j, j < 8 → s.Readable (wordAt (s.returnFrame k) j) .word .unstack)
    (hs : s.stackedIpsrFits k ((s.wordOf (wordAt (s.returnFrame k) 7)).extractLsb' 0 6) = true) :
    unstack k s = .next (s.restoreFrame k (s.wordOf (s.returnFrame k)) (s.wordOf (wordAt (s.returnFrame k) 1))
      (s.wordOf (wordAt (s.returnFrame k) 2)) (s.wordOf (wordAt (s.returnFrame k) 3))
      (s.wordOf (wordAt (s.returnFrame k) 4)) (s.wordOf (wordAt (s.returnFrame k) 5))
      (s.wordOf (wordAt (s.returnFrame k) 6)) (s.wordOf (wordAt (s.returnFrame k) 7))) := by
  unfold unstack
  rw [loadWords_plain h, show List.range 8 = [0, 1, 2, 3, 4, 5, 6, 7] from by decide]
  simp only [List.map_cons, List.map_nil, wordAt_zero, hs, if_true]

end Sys2Proof.Machine
end

