-- ==== Sys2Proof/Laws/Forms.lean ====
section
/-! SUPPORT. What sequences of accesses are to the multiple forms, and what the single forms are to their address. -/

namespace Sys2Proof.Machine

/-! ### Sequences of accesses, whatever answers -/

theorem loadWords_inOrder {k : Config.AccessKind} {vs : List Word} {a : Word} {s t : State} (h : ReadInOrder k vs a s t) :
    loadWords k vs.length a s = .all vs t := by
  induction vs generalizing a s with
  | nil => cases h; rfl
  | cons v vs ih =>
    obtain ⟨u, h1, h2⟩ := h
    simp only [List.length_cons, loadWords, h1, ih h2, Loaded.push]

/-- A read that stops, stops the sequence. -/
theorem loadWords_fault {k : Config.AccessKind} {vs : List Word} {a : Word} {s u : State} {n : Nat} {f : Fault}
    (hn : vs.length < n) (h : ReadInOrder k vs a s u) (hf : memRead u (wordAt a vs.length) .word k = .fault f) :
    loadWords k n a s = .fault f := by
  induction vs generalizing a s n with
  | nil =>
    cases h
    obtain ⟨n, rfl⟩ : ∃ m, n = m + 1 := ⟨n - 1, by simp at hn; omega⟩
    rw [List.length_nil, wordAt_zero] at hf
    rw [loadWords, hf]
  | cons v vs ih =>
    obtain ⟨w, h1, h2⟩ := h
    obtain ⟨n, rfl⟩ : ∃ m, n = m + 1 := ⟨n - 1, by simp at hn; omega⟩
    rw [List.length_cons, ← wordAt_succ] at hf
    rw [loadWords, h1]
    dsimp only
    rw [ih (by simpa using hn) h2 hf]
    rfl

theorem storeWords_inOrder {k : Config.AccessKind} {vs : List Word} {a : Word} {s t : State} (h : WrittenInOrder k vs a s t)
    (d : Nat) : storeWords k vs a d s = .all t := by
  induction vs generalizing a s d with
  | nil => cases h; rfl
  | cons v vs ih =>
    obtain ⟨u, h1, h2⟩ := h
    simp only [storeWords, h1, ih h2]

/-- A store that stops, stops the sequence. -/
theorem storeWords_stop {k : Config.AccessKind} {vs : List Word} {a : Word} {s u : State} {n d : Nat} {v : Word}
    (hv : vs[n]? = some v) (h : WrittenInOrder k (vs.take n) a s u) :
    (∀ f, memWrite u (wordAt a n) .word v k = .fault f → storeWords k vs a d s = .fault f) ∧
      ∀ r, memWrite u (wordAt a n) .word v k = .refused r → storeWords k vs a d s = .refused r := by
  induction n generalizing vs a s d with
  | zero =>
    cases vs with
    | nil => simp at hv
    | cons x vs =>
      cases h
      simp only [List.getElem?_cons_zero, Option.some.injEq] at hv
      subst hv
      rw [wordAt_zero]
      exact ⟨fun f hf => by simp only [storeWords, hf], fun r hr => by simp only [storeWords, hr]⟩
  | succ n ih =>
    cases vs with
    | nil => simp at hv
    | cons x vs =>
      obtain ⟨w, h1, h2⟩ := h
      rw [← wordAt_succ]
      simp only [storeWords, h1]
      exact ih (by simpa using hv) h2

theorem readInOrder_frame {k : Config.AccessKind} {vs : List Word} {a : Word} {s t : State} (h : ReadInOrder k vs a s t) :
    BusFrame s t := by
  have := loadWords_frame k vs.length a s
  rw [loadWords_inOrder h] at this
  exact this

theorem writtenInOrder_frame {k : Config.AccessKind} {vs : List Word} {a : Word} {s t : State}
    (h : WrittenInOrder k vs a s t) : BusFrame s t := by
  have := storeWords_frame k vs a 0 s
  rw [storeWords_inOrder h] at this
  exact this

/-- Words of plain memory are read in order, with no change. -/
theorem readInOrder_plain {k : Config.AccessKind} {n : Nat} {a : Word} {s : State}
    (h : ∀ j, j < n → s.Readable (wordAt a j) .word k) :
    ReadInOrder k ((List.range n).map fun j => s.wordOf (wordAt a j)) a s s := by
  induction n generalizing a with
  | zero => rfl
  | succ n ih =>
    have h0 := h 0 (by omega)
    rw [wordAt_zero] at h0
    rw [List.range_succ_eq_map, List.map_cons, List.map_map]
    refine ⟨s, ?_, ?_⟩
    · rw [memRead_plain h0, wordAt_zero]; rfl
    · have := ih (a := a + 4#32) (fun j hj => by rw [wordAt_succ]; exact h (j + 1) (by omega))
      simpa only [wordAt_succ, Function.comp_def, Nat.succ_eq_add_one] using this

/-! ### Single forms -/

/-- A form of LDR is a load of the word at its address. -/
theorem WordLoad.exec_eq {s : State} {rt : LowReg} {a : Word} {i : Instr} (h : WordLoad s rt a i) :
    exec i s = s.loadTo rt a .word id := by
  obtain ⟨rn, imm5, rfl, rfl⟩ | ⟨rn, rm, rfl, rfl⟩ | ⟨imm8, rfl, rfl⟩ | ⟨imm8, rfl, rfl⟩ := h
  · rw [← wordOffset_eq]; rfl
  · rfl
  · rw [← wordOffset_eq]; rfl
  · rw [← literal_eq]; rfl

/-- A form of STR is a store of its register at its address. -/
theorem WordStore.exec_eq {s : State} {a v : Word} {i : Instr} (h : WordStore s a v i) :
    exec i s = (memWrite s a .word v .write).run s fun _ s' => .next (s'.advance 2) := by
  obtain ⟨rt, rfl, ⟨rn, imm5, rfl, rfl⟩ | ⟨rn, rm, rfl, rfl⟩ | ⟨imm8, rfl, rfl⟩⟩ := h
  · rw [← wordOffset_eq]; rfl
  · rfl
  · rw [← wordOffset_eq]; rfl

theorem byteOffset_eq (imm5 : BitVec 5) : zext imm5 = BitVec.ofNat 32 imm5.toNat := by
  apply BitVec.eq_of_toNat_eq
  rw [toNat_zext imm5 (by omega), BitVec.toNat_ofNat]
  have := imm5.isLt
  omega

/-- A narrow load is a load of its width from its address, of some extension. -/
theorem NarrowLoad.exec_eq {s : State} {a : Word} {w : Width} {i : Instr} (h : NarrowLoad s a w i) :
    w ≠ .word ∧ ∃ rt f, exec i s = s.loadTo rt a w f := by
  obtain ⟨rt, rn, ⟨rfl, imm5, rfl, rfl⟩ | ⟨rfl, imm5, rfl, rfl⟩ |
    ⟨rm, rfl, ⟨rfl, rfl | rfl⟩ | ⟨rfl, rfl | rfl⟩⟩⟩ := h
  · exact ⟨by decide, rt, id, by rw [← byteOffset_eq]; rfl⟩
  · exact ⟨by decide, rt, id, by rw [← halfOffset_eq]; rfl⟩
  · exact ⟨by decide, rt, id, rfl⟩
  · exact ⟨by decide, rt, signByte, rfl⟩
  · exact ⟨by decide, rt, id, rfl⟩
  · exact ⟨by decide, rt, signHalf, rfl⟩

/-- A narrow store is a store of its width at its address. -/
theorem NarrowStore.exec_eq {s : State} {a : Word} {w : Width} {i : Instr} (h : NarrowStore s a w i) :
    w ≠ .word ∧ ∃ rt, exec i s = s.storeFrom rt a w := by
  obtain ⟨rt, rn, ⟨rfl, imm5, rfl, rfl⟩ | ⟨rfl, imm5, rfl, rfl⟩ | ⟨rm, rfl, ⟨rfl, rfl⟩ | ⟨rfl, rfl⟩⟩⟩ := h
  · exact ⟨by decide, rt, by rw [← byteOffset_eq]; rfl⟩
  · exact ⟨by decide, rt, by rw [← halfOffset_eq]; rfl⟩
  · exact ⟨by decide, rt, rfl⟩
  · exact ⟨by decide, rt, rfl⟩

/-! ### Stops of single accesses -/

theorem ppbRegAt_none {a : Nat} (h : a ∉ registerAddresses) : ppbRegAt a = none := by
  unfold ppbRegAt
  rw [Option.map_eq_none_iff, List.find?_eq_none]
  intro e he
  have : e.1 ∈ registerAddresses := by
    have hm : ppbMap.map (·.1) = registerAddresses := rfl
    rw [← hm]
    exact List.mem_map_of_mem he
  rw [beq_iff_eq]
  rintro rfl
  exact h this

theorem memRead_noRegister {a : Word} (h : NoRegisterAt a) (s : State) (k : Config.AccessKind) :
    memRead s a .word k = .fault (.ppbNoRegister a.toNat) := by
  obtain ⟨h1, h2, h3⟩ := h
  unfold memRead ppbLoad
  simp [h1, h2, ppbRegAt_none h3]

theorem memWrite_noRegister {a : Word} (h : NoRegisterAt a) (s : State) (v : Word) (k : Config.AccessKind) :
    memWrite s a .word v k = .fault (.ppbNoRegister a.toNat) := by
  obtain ⟨h1, h2, h3⟩ := h
  unfold memWrite ppbStore
  simp [h1, h2, ppbRegAt_none h3]

/-- A store to declared flash is refused. -/
theorem memWrite_flash {s : State} {a : Word} {w : Width} {k : Config.AccessKind} (h : s.Readable a w k)
    (hf : inFlash s.platform a.toNat = true) (v : Word) : memWrite s a w v k = .refused .storeToFlash := by
  obtain ⟨h1, h2, h3⟩ := h
  unfold memWrite
  have hp : regionOf a.toNat ≠ .ppb := by intro e; rw [e] at h2; simp [Region.memType] at h2
  simp [h1, hp, h3, h2, hf]

/-! ### The multiple forms over sequences of accesses -/

theorem readReg_advance (u : State) {n : Reg} (h : n ≠ 15#4) : (u.advance 2).readReg n = u.readReg n :=
  readReg_congr (s := u) (t := u.advance 2) rfl rfl rfl rfl rfl rfl h

/-- The register of rank k in a list gets word number k of those loaded. -/
theorem writeLows_rank {list : RegList} {vs : List Word} {u : State} (hv : regCount list ≤ vs.length) {i : LowReg}
    (hi : list.getLsbD i.toNat = true) :
    vs[rankIn list i]? = some ((u.writeLows ((regsOfList list).zip vs)).readLow i) := by
  have hk : rankIn list i < vs.length := by have := rankIn_lt list i hi; omega
  rw [List.getElem?_eq_getElem hk]
  congr 1
  exact (writeLows_at _ _ _ (regsOfList_nodup _) (rankIn list i) i _ (regsOfList_rank _ _ hi)
      (List.getElem?_eq_getElem hk)).symm

theorem writeLows_notListed {list : RegList} {vs : List Word} {u : State} {i : LowReg} (hi : list.getLsbD i.toNat = false) :
    (u.writeLows ((regsOfList list).zip vs)).readLow i = u.readLow i := by
  apply writeLows_other
  intro hm
  simp only [List.mem_map] at hm
  obtain ⟨x, hx, rfl⟩ := hm
  have := (List.of_mem_zip hx).1
  rw [mem_regsOfList, hi] at this; cases this

/-- LDM is its reads in order, the words into the registers of the list, and the writeback. -/
theorem execLdm_inOrder {s u : State} {rn : LowReg} {list : RegList} {vs : List Word}
    (ha : isAligned (s.readLow rn) .word = true) (hv : vs.length = regCount list)
    (h : ReadInOrder .read vs (s.readLow rn) s u) :
    exec (.ldm rn list) s = .next ((if list.getLsbD rn.toNat then u.writeLows ((regsOfList list).zip vs)
        else (u.writeLows ((regsOfList list).zip vs)).writeLow rn (s.readLow rn + wordBytes (regCount list))).advance 2) := by
  have := loadWords_inOrder h
  rw [hv] at this
  simp only [exec, execLdm, ha, regsOfList_length]
  rw [this]; rfl

theorem PushWords.eq {s : State} {m : Bool} {list : RegList} {vs : List Word} (h : PushWords s m list vs) :
    vs = s.pushWords m list := by
  obtain ⟨h1, h2, h3⟩ := h
  have hl := regsOfList_length list
  apply List.ext_getElem?
  intro k
  unfold State.pushWords
  by_cases hk : k < regCount list
  · rw [List.getElem?_append_left (by simp [hl]; exact hk), List.getElem?_map]
    have hk' : k < (regsOfList list).length := by omega
    rw [List.getElem?_eq_getElem hk']
    have hm := (mem_regsOfList list _).mp (List.getElem_mem hk')
    have hr := regsOfList_rank list _ hm
    have : rankIn list (regsOfList list)[k] = k := by
      have hlt := rankIn_lt list _ hm
      rw [List.getElem?_eq_getElem (by omega)] at hr
      exact (List.Nodup.getElem_inj_iff (regsOfList_nodup list)).mp (Option.some.inj hr)
    have := h2 _ hm
    rw [‹rankIn list _ = k›] at this
    rw [this]; rfl
  · rw [List.getElem?_append_right (by simp [hl]; omega)]
    simp only [List.length_map, hl]
    by_cases hk2 : k = regCount list ∧ m = true
    · obtain ⟨rfl, rfl⟩ := hk2
      rw [h3 rfl]; simp
    · rw [List.getElem?_eq_none, List.getElem?_eq_none]
      · cases m <;> simp at *; omega
      · rw [h1]; cases m <;> simp at *; omega; omega

theorem isAligned_word (x : Word) : isAligned x .word = true ↔ x.toNat % 4 = 0 := by
  unfold isAligned
  simp [BitVec.getLsbD, Nat.testBit, Nat.shiftRight_eq_div_pow]
  omega

theorem alignSp_add {a : Word} (h : isAligned a .word = true) (n : Nat) :
    alignSp (a + BitVec.ofNat 32 (4 * n)) = a + BitVec.ofNat 32 (4 * n) := by
  apply aligned_sp
  rw [isAligned_word] at h ⊢
  simp only [BitVec.toNat_add, BitVec.toNat_ofNat]; omega

/-- What POP leaves once its words are read: SP, the registers of the list, and nothing else. -/
theorem popped_frame {s u : State} {list : RegList} {ws : List Word} {v : Word} (f : BusFrame s u) (hv :
    regCount list ≤ ws.length) :
    let t := (u.writeLows ((regsOfList list).zip ws)).setSp v
    t.sp = alignSp v ∧ (∀ i : LowReg, list.getLsbD i.toNat = true → ws[rankIn list i]? = some (t.readLow i)) ∧
      (∀ n : Reg, n ≠ 13#4 → n ≠ 15#4 → (8 ≤ n.toNat ∨ list.getLsbD n.toNat = false) → t.readReg n = s.readReg n) ∧
      (if s.usesPsp then t.msp = s.msp else t.psp = s.psp) ∧ t = { u with r := t.r, msp := t.msp, psp := t.psp } := by
  dsimp only
  generalize hz : (regsOfList list).zip ws = z
  have heq := writeLows_eq z u
  refine ⟨sp_setSp _ _, fun i hi => ?_, fun n h1 h2 h3 => ?_, ?_, ?_⟩
  · rw [readLow_setSp, ← hz]; exact writeLows_rank hv hi
  · have e : ((u.writeLows z).setSp v).readReg n = (u.writeLows z).readReg n := by
      have := readReg_writeReg (u.writeLows z) 13#4 v (n := n) (by decide) h2
      rw [if_neg h1] at this
      exact this
    have hu : u.readReg n = s.readReg n := readReg_congr f.r_eq f.ipsr_eq f.spsel_eq f.msp_eq f.psp_eq f.lr_eq h2
    rw [e]
    by_cases h8 : 8 ≤ n.toNat
    · rw [writeLows_high _ _ _ h8 h2, hu]
    · have h3' : list.getLsbD n.toNat = false := by obtain h | h := h3; exact absurd h h8; exact h
      have hnl : n = LowReg.toReg (n.setWidth 3) := by
        apply BitVec.eq_of_toNat_eq; rw [toReg_toNat]; simp; omega
      have hi : list.getLsbD (BitVec.setWidth 3 n : LowReg).toNat = false := by
        rw [show (BitVec.setWidth 3 n : LowReg).toNat = n.toNat by simp; omega]; exact h3'
      have := writeLows_notListed (vs := ws) (u := u) hi
      rw [hz] at this
      unfold State.readLow at this
      rw [← hnl] at this
      rw [this, hu]
  · have h1 := setSp_other (u.writeLows z) v
    have e1 : (u.writeLows z).usesPsp = s.usesPsp := by
      unfold State.usesPsp State.mode; rw [heq]; simp only [f.ipsr_eq, f.spsel_eq]
    have q1 : (u.writeLows z).msp = s.msp := by rw [heq]; exact f.msp_eq
    have q2 : (u.writeLows z).psp = s.psp := by rw [heq]; exact f.psp_eq
    rw [e1, q1, q2] at h1
    exact h1
  · rw [setSp_eq, heq]

/-- POP is its reads in order, the words into the registers of the list, SP moved up, and the PC written last. -/
theorem execPop_inOrder {s u : State} {p : Bool} {list : RegList} {ws : List Word} (ha : isAligned s.sp .word = true)
    (hv : ws.length = regCount list + (if p then 1 else 0)) (h : ReadInOrder .read ws s.sp s u) :
    exec (.pop p list) s = if p then loadWritePC ((ws[regCount list]?).getD 0#32)
        ((u.writeLows ((regsOfList list).zip ws)).setSp (s.sp + BitVec.ofNat 32 (4 * ws.length)))
      else .next (((u.writeLows ((regsOfList list).zip ws)).setSp (s.sp + BitVec.ofNat 32 (4 * ws.length))).advance 2) := by
  have := loadWords_inOrder h
  simp only [exec, execPop, ha, regsOfList_length]
  rw [← hv, this]; rfl

/-- Words stored to plain memory are taken in order. -/
theorem writtenInOrder_plain {k : Config.AccessKind} {vs : List Word} {a : Word} {s : State}
    (h : ∀ j, j < vs.length → s.Writable (wordAt a j) .word k) : WrittenInOrder k vs a s (storedPlain vs a s) := by
  induction vs generalizing a s with
  | nil => rfl
  | cons v vs ih =>
    have h0 := h 0 (by simp)
    rw [wordAt_zero] at h0
    exact ⟨_, memWrite_plain h0, ih fun j hj => by rw [wordAt_succ]; exact h (j + 1) (by simp; omega)⟩

/-- Words stored to plain memory and to devices are taken in order; the platform stays. -/
theorem writtenInOrder_taken {k : Config.AccessKind} {vs : List Word} {a : Word} {s : State}
    (h : ∀ j, j < vs.length → s.Writable (wordAt a j) .word k ∨ s.OnDevice (wordAt a j) .word k) :
    ∃ t, WrittenInOrder k vs a s t ∧ t.platform = s.platform := by
  induction vs generalizing a s with
  | nil => exact ⟨s, rfl, rfl⟩
  | cons v vs ih =>
    have h0 := h 0 (by simp)
    rw [wordAt_zero] at h0
    obtain ⟨u, hu⟩ : ∃ u, memWrite s a .word v k = .ok () u := by
      obtain h0 | h0 := h0
      · exact ⟨_, memWrite_plain h0⟩
      · exact ⟨_, memWrite_device h0⟩
    have hp := (memWrite_frame hu).platform_eq
    obtain ⟨t, h1, h2⟩ := ih (a := a + 4#32) (s := u) fun j hj => by
      have := h (j + 1) (by simp; omega)
      unfold State.Writable State.Readable State.OnDevice at *
      rw [wordAt_succ, hp]
      exact this
    exact ⟨t, ⟨u, hu, h1⟩, h2.trans hp⟩

/-! ### One word, by every form that makes one access -/

theorem regCount_one : ∀ rt : LowReg, regCount (oneRegister rt) = 1 := by decide +kernel

theorem regsOfList_one : ∀ rt : LowReg, regsOfList (oneRegister rt) = [rt] := by decide +kernel

theorem oneRegister_bit : ∀ rn rt : LowReg, (oneRegister rt).getLsbD rn.toNat = decide (rn = rt) := by decide +kernel

theorem advance_eq {s u : State} (h : u.pc = s.pc) : u.advance 2 = { u with pc := s.pc + 2#32 } := by
  unfold State.advance; rw [h]

/-- A word access that answers is what every form of one word read does. -/
theorem RegisterReads.of_access {s s' : State} {a v : Word} (ha : isAligned a .word = true)
    (h : memRead s a .word .read = .ok v s') : RegisterReads s a v s' := by
  have f := memRead_frame h
  have ro : ReadInOrder .read [v] a s s' := ⟨s', h, rfl⟩
  refine ⟨h, fun i rt hi => ?_, fun rt rn hr => ?_, fun rt hr => ?_, fun hr hx => ?_⟩
  · have e : exec i s = .next ((s'.writeLow rt v).advance 2) := by
      rw [hi.exec_eq]; unfold State.loadTo; rw [h]; rfl
    refine ⟨_, e, ?_, ⟨?_, ?_, ?_⟩, ?_⟩
    · rw [readLow_advance, readLow_writeLow_self]
    · rw [writeLow_eq]; rfl
    · intro n h1 h2
      rw [readReg_advance _ h2, readReg_writeLow _ _ _ h1 h2]
    · intro b; simp
    · simp [f.pc_eq]
  · subst hr
    have e := execLdm_inOrder (list := oneRegister rt) ha (by rw [regCount_one]; rfl) ro
    rw [e, oneRegister_bit, regsOfList_one, regCount_one]
    congr 1
    rw [advance_eq (s := s)]
    · simp only [decide_eq_true_eq]
      split <;> rfl
    · split <;> simp [State.writeLows, f.pc_eq]
  · subst hr
    have e := execPop_inOrder (p := false) (list := oneRegister rt) ha (by rw [regCount_one]; rfl) ro
    rw [e, regsOfList_one]
    simp only [Bool.false_eq_true, if_false]
    congr 1
    rw [advance_eq (s := s)]
    · rfl
    · simp [State.writeLows, f.pc_eq]
  · subst hr
    have hz : regsOfList 0#8 = [] := by decide
    have hc : regCount 0#8 = 0 := by decide
    have e := execPop_inOrder (p := true) (list := 0) ha (by rw [show regCount (0 : RegList) = 0 from hc]; rfl) ro
    rw [e, show regsOfList (0 : RegList) = [] from hz, show regCount (0 : RegList) = 0 from hc]
    simp only [if_true]
    show loadWritePC v (s'.setSp (s.sp + 4#32)) = _
    unfold loadWritePC bxWritePC State.isExcReturn
    rw [if_neg]
    · rfl
    · simp
      intro h1
      have hm : (s'.setSp (s.sp + 4#32)).mode = s.mode := by
        unfold State.mode; simp [f.ipsr_eq]
      rw [hm] at h1
      obtain h | h := hx
      · rw [h] at h1; cases h1
      · exact h

theorem execStm_one (s : State) (rn rt : LowReg) (a : Word) (hr : s.readLow rn = a) (ha : isAligned a .word = true) :
    exec (.stm rn (oneRegister rt)) s =
      (storeWords .write [s.readLow rt] a 0 s).run fun s' => .next ((s'.writeLow rn (a + wordBytes 1)).advance 2) := by
  subst hr
  simp only [exec, execStm, regsOfList_one, ha]
  have hu : stmUnknown rn [rt] = false := by
    unfold stmUnknown
    by_cases h : rn = rt
    · simp [h]
    · simp [h]
  simp only [State.stmWords, hu, List.map_cons, List.map_nil, Bool.and_false, Bool.false_eq_true, if_false]
  rfl

theorem execPush_one (s : State) (rt : LowReg) (a : Word) (hr : s.sp - 4#32 = a) (ha : isAligned a .word = true) :
    exec (.push false (oneRegister rt)) s =
      (storeWords .write [s.readLow rt] a 0 s).run fun s' => .next ((s'.setSp a).advance 2) := by
  have hw : s.pushWords false (oneRegister rt) = [s.readLow rt] := by unfold State.pushWords; rw [regsOfList_one]; rfl
  simp only [exec, execPush, hw]
  rw [show s.sp - wordBytes [s.readLow rt].length = a from hr, ha]; rfl

theorem execPush_lr (s : State) (a : Word) (hr : s.sp - 4#32 = a) (ha : isAligned a .word = true) :
    exec (.push true 0) s = (storeWords .write [s.lr] a 0 s).run fun s' => .next ((s'.setSp a).advance 2) := by
  have hz : regsOfList 0#8 = [] := by decide
  have hw : s.pushWords true 0 = [s.lr] := by unfold State.pushWords; rw [show regsOfList (0 : RegList) = [] from hz]; rfl
  simp only [exec, execPush, hw]
  rw [show s.sp - wordBytes [s.lr].length = a from hr, ha]; rfl

/-- A word access that is taken is what every form of one word store does. -/
theorem RegisterWrites.of_access {s s' : State} {a v : Word} (ha : isAligned a .word = true)
    (h : memWrite s a .word v .write = .ok () s') : RegisterWrites s a v s' := by
  have f := memWrite_frame h
  have so : ∀ d, storeWords .write [v] a d s = .all s' := fun d => storeWords_inOrder (vs := [v]) ⟨s', h, rfl⟩ d
  refine ⟨h, fun i hi => ?_, fun rt rn h1 h2 => ?_, fun rt h1 h2 => ?_, fun h1 h2 => ?_⟩
  · rw [hi.exec_eq, h]
    show Host.Outcome.next (s'.advance 2) = _
    rw [advance_eq f.pc_eq]
  · rw [execStm_one s rn rt a h1 ha, h2, so]
    show Host.Outcome.next _ = _
    rw [advance_eq (s := s) (by simp [f.pc_eq])]; rfl
  · rw [execPush_one s rt a h1 ha, h2, so]
    show Host.Outcome.next _ = _
    rw [advance_eq (s := s) (by simp [f.pc_eq])]
  · rw [execPush_lr s a h1 ha, h2, so]
    show Host.Outcome.next _ = _
    rw [advance_eq (s := s) (by simp [f.pc_eq])]

/-- A word access that is refused is what every form of one word store does. -/
theorem RegisterRefuses.of_access {s : State} {a v : Word} {r : Refusal} (ha : isAligned a .word = true)
    (h : memWrite s a .word v .write = .refused r) : RegisterRefuses s a v r := by
  have so : ∀ d, storeWords .write [v] a d s = .refused r := fun d => by simp only [storeWords, h]
  refine ⟨h, fun i hi => ?_, fun rt rn h1 h2 => ?_, fun rt h1 h2 => ?_, fun h1 h2 => ?_⟩
  · rw [hi.exec_eq, h]; rfl
  · rw [execStm_one s rn rt a h1 ha, h2, so]; rfl
  · rw [execPush_one s rt a h1 ha, h2, so]; rfl
  · rw [execPush_lr s a h1 ha, h2, so]; rfl

/-! ### The Private Peripheral Bus -/

theorem memRead_ppb {s : State} {a : Word} (reg : PpbReg) (h1 : isAligned a .word = true) (h2 : regionOf a.toNat = .ppb)
    (h3 : ppbRegAt a.toNat = some reg) : memRead s a .word .read = .ok (ppbRead s reg).1 (ppbRead s reg).2 := by
  unfold memRead ppbLoad; simp [h1, h2, h3]

theorem memWrite_ppb {s : State} {a v : Word} (reg : PpbReg) (h1 : isAligned a .word = true) (h2 : regionOf a.toNat = .ppb)
    (h3 : ppbRegAt a.toNat = some reg) : memWrite s a .word v .write = ppbWrite s reg v := by
  unfold memWrite ppbStore; simp [h1, h2, h3]

theorem memRead_ppbNarrow {a : Word} {w : Width} (hr : regionOf a.toNat = .ppb) (ha : isAligned a w = true) (hw : w ≠ .word)
    (s : State) (k) : memRead s a w k = .fault (.ppbNarrowAccess a.toNat) := by
  unfold memRead ppbLoad; simp [hr, ha, hw]

theorem memWrite_ppbNarrow {a : Word} {w : Width} (hr : regionOf a.toNat = .ppb) (ha : isAligned a w = true) (hw : w ≠ .word)
    (s : State) (v k) : memWrite s a w v k = .fault (.ppbNarrowAccess a.toNat) := by
  unfold memWrite ppbStore; simp [hr, ha, hw]

end Sys2Proof.Machine
end

