-- ==== Sys2Proof/Laws/PerInstr.lean ====
section
/-! SUPPORT. Laws stated of every instruction, one lemma per constructor. -/

namespace Sys2Proof.Laws

/-- The encoder writes two halfwords for a long instruction and one for any other (30_encoding.md R143). -/
def Length.Statement (i : Instr) : Prop := (encode i).length = if i.isLong then 2 else 1

theorem Length.lslsImm (rd rm : LowReg) (imm5 : BitVec 5) : Length.Statement (.lslsImm rd rm imm5) := rfl
theorem Length.movsReg (rd rm : LowReg) : Length.Statement (.movsReg rd rm) := rfl
theorem Length.lsrsImm (rd rm : LowReg) (imm5 : BitVec 5) : Length.Statement (.lsrsImm rd rm imm5) := rfl
theorem Length.asrsImm (rd rm : LowReg) (imm5 : BitVec 5) : Length.Statement (.asrsImm rd rm imm5) := rfl
theorem Length.addsReg (rd rn rm : LowReg) : Length.Statement (.addsReg rd rn rm) := rfl
theorem Length.subsReg (rd rn rm : LowReg) : Length.Statement (.subsReg rd rn rm) := rfl
theorem Length.addsImm3 (rd rn : LowReg) (imm3 : BitVec 3) : Length.Statement (.addsImm3 rd rn imm3) := rfl
theorem Length.subsImm3 (rd rn : LowReg) (imm3 : BitVec 3) : Length.Statement (.subsImm3 rd rn imm3) := rfl
theorem Length.movsImm (rd : LowReg) (imm8 : BitVec 8) : Length.Statement (.movsImm rd imm8) := rfl
theorem Length.cmpImm (rn : LowReg) (imm8 : BitVec 8) : Length.Statement (.cmpImm rn imm8) := rfl
theorem Length.addsImm8 (rdn : LowReg) (imm8 : BitVec 8) : Length.Statement (.addsImm8 rdn imm8) := rfl
theorem Length.subsImm8 (rdn : LowReg) (imm8 : BitVec 8) : Length.Statement (.subsImm8 rdn imm8) := rfl
theorem Length.ands (rdn rm : LowReg) : Length.Statement (.ands rdn rm) := rfl
theorem Length.eors (rdn rm : LowReg) : Length.Statement (.eors rdn rm) := rfl
theorem Length.lslsReg (rdn rs : LowReg) : Length.Statement (.lslsReg rdn rs) := rfl
theorem Length.lsrsReg (rdn rs : LowReg) : Length.Statement (.lsrsReg rdn rs) := rfl
theorem Length.asrsReg (rdn rs : LowReg) : Length.Statement (.asrsReg rdn rs) := rfl
theorem Length.adcs (rdn rm : LowReg) : Length.Statement (.adcs rdn rm) := rfl
theorem Length.sbcs (rdn rm : LowReg) : Length.Statement (.sbcs rdn rm) := rfl
theorem Length.rors (rdn rs : LowReg) : Length.Statement (.rors rdn rs) := rfl
theorem Length.tst (rn rm : LowReg) : Length.Statement (.tst rn rm) := rfl
theorem Length.rsbs (rd rn : LowReg) : Length.Statement (.rsbs rd rn) := rfl
theorem Length.cmpReg (rn rm : LowReg) : Length.Statement (.cmpReg rn rm) := rfl
theorem Length.cmn (rn rm : LowReg) : Length.Statement (.cmn rn rm) := rfl
theorem Length.orrs (rdn rm : LowReg) : Length.Statement (.orrs rdn rm) := rfl
theorem Length.muls (rdm rn : LowReg) : Length.Statement (.muls rdm rn) := rfl
theorem Length.bics (rdn rm : LowReg) : Length.Statement (.bics rdn rm) := rfl
theorem Length.mvns (rd rm : LowReg) : Length.Statement (.mvns rd rm) := rfl
theorem Length.addHigh (rdn rm : Reg) : Length.Statement (.addHigh rdn rm) := rfl
theorem Length.cmpHigh (rn rm : Reg) : Length.Statement (.cmpHigh rn rm) := rfl
theorem Length.mov (rd rm : Reg) : Length.Statement (.mov rd rm) := rfl
theorem Length.bx (rm : Reg) : Length.Statement (.bx rm) := rfl
theorem Length.blx (rm : Reg) : Length.Statement (.blx rm) := rfl
theorem Length.ldrLit (rt : LowReg) (imm8 : BitVec 8) : Length.Statement (.ldrLit rt imm8) := rfl
theorem Length.strReg (rt rn rm : LowReg) : Length.Statement (.strReg rt rn rm) := rfl
theorem Length.strhReg (rt rn rm : LowReg) : Length.Statement (.strhReg rt rn rm) := rfl
theorem Length.strbReg (rt rn rm : LowReg) : Length.Statement (.strbReg rt rn rm) := rfl
theorem Length.ldrsbReg (rt rn rm : LowReg) : Length.Statement (.ldrsbReg rt rn rm) := rfl
theorem Length.ldrReg (rt rn rm : LowReg) : Length.Statement (.ldrReg rt rn rm) := rfl
theorem Length.ldrhReg (rt rn rm : LowReg) : Length.Statement (.ldrhReg rt rn rm) := rfl
theorem Length.ldrbReg (rt rn rm : LowReg) : Length.Statement (.ldrbReg rt rn rm) := rfl
theorem Length.ldrshReg (rt rn rm : LowReg) : Length.Statement (.ldrshReg rt rn rm) := rfl
theorem Length.strImm (rt rn : LowReg) (imm5 : BitVec 5) : Length.Statement (.strImm rt rn imm5) := rfl
theorem Length.ldrImm (rt rn : LowReg) (imm5 : BitVec 5) : Length.Statement (.ldrImm rt rn imm5) := rfl
theorem Length.strbImm (rt rn : LowReg) (imm5 : BitVec 5) : Length.Statement (.strbImm rt rn imm5) := rfl
theorem Length.ldrbImm (rt rn : LowReg) (imm5 : BitVec 5) : Length.Statement (.ldrbImm rt rn imm5) := rfl
theorem Length.strhImm (rt rn : LowReg) (imm5 : BitVec 5) : Length.Statement (.strhImm rt rn imm5) := rfl
theorem Length.ldrhImm (rt rn : LowReg) (imm5 : BitVec 5) : Length.Statement (.ldrhImm rt rn imm5) := rfl
theorem Length.strSp (rt : LowReg) (imm8 : BitVec 8) : Length.Statement (.strSp rt imm8) := rfl
theorem Length.ldrSp (rt : LowReg) (imm8 : BitVec 8) : Length.Statement (.ldrSp rt imm8) := rfl
theorem Length.adr (rd : LowReg) (imm8 : BitVec 8) : Length.Statement (.adr rd imm8) := rfl
theorem Length.addRdSp (rd : LowReg) (imm8 : BitVec 8) : Length.Statement (.addRdSp rd imm8) := rfl
theorem Length.addSpImm (imm7 : BitVec 7) : Length.Statement (.addSpImm imm7) := rfl
theorem Length.subSpImm (imm7 : BitVec 7) : Length.Statement (.subSpImm imm7) := rfl
theorem Length.sxth (rd rm : LowReg) : Length.Statement (.sxth rd rm) := rfl
theorem Length.sxtb (rd rm : LowReg) : Length.Statement (.sxtb rd rm) := rfl
theorem Length.uxth (rd rm : LowReg) : Length.Statement (.uxth rd rm) := rfl
theorem Length.uxtb (rd rm : LowReg) : Length.Statement (.uxtb rd rm) := rfl
theorem Length.push (m : Bool) (reglist : RegList) : Length.Statement (.push m reglist) := rfl
theorem Length.cpsie : Length.Statement .cpsie := rfl
theorem Length.cpsid : Length.Statement .cpsid := rfl
theorem Length.rev (rd rm : LowReg) : Length.Statement (.rev rd rm) := rfl
theorem Length.rev16 (rd rm : LowReg) : Length.Statement (.rev16 rd rm) := rfl
theorem Length.revsh (rd rm : LowReg) : Length.Statement (.revsh rd rm) := rfl
theorem Length.pop (p : Bool) (reglist : RegList) : Length.Statement (.pop p reglist) := rfl
theorem Length.bkpt (imm8 : BitVec 8) : Length.Statement (.bkpt imm8) := rfl
theorem Length.nop : Length.Statement .nop := rfl
theorem Length.yield : Length.Statement .yield := rfl
theorem Length.wfe : Length.Statement .wfe := rfl
theorem Length.wfi : Length.Statement .wfi := rfl
theorem Length.sev : Length.Statement .sev := rfl
theorem Length.stm (rn : LowReg) (reglist : RegList) : Length.Statement (.stm rn reglist) := rfl
theorem Length.ldm (rn : LowReg) (reglist : RegList) : Length.Statement (.ldm rn reglist) := rfl
theorem Length.bCond (cond : Cond) (imm8 : BitVec 8) : Length.Statement (.bCond cond imm8) := rfl
theorem Length.udf (imm8 : BitVec 8) : Length.Statement (.udf imm8) := rfl
theorem Length.svc (imm8 : BitVec 8) : Length.Statement (.svc imm8) := rfl
theorem Length.b (imm11 : BitVec 11) : Length.Statement (.b imm11) := rfl
theorem Length.bl (imm24 : BitVec 24) : Length.Statement (.bl imm24) := rfl
theorem Length.msr (spec : SpecialReg) (rn : Reg) : Length.Statement (.msr spec rn) := rfl
theorem Length.mrs (rd : Reg) (spec : SpecialReg) : Length.Statement (.mrs rd spec) := rfl
theorem Length.dsb (option : BitVec 4) : Length.Statement (.dsb option) := rfl
theorem Length.dmb (option : BitVec 4) : Length.Statement (.dmb option) := rfl
theorem Length.isb (option : BitVec 4) : Length.Statement (.isb option) := rfl
theorem Length.udfW (imm16 : BitVec 16) : Length.Statement (.udfW imm16) := rfl

end Sys2Proof.Laws
end

