-- ==== Sys2Proof/Tests/Slice0.lean ====
section
/-! SUPPORT. The model's own tests: ill-formed terms, words written out from the spec's encodings, single steps whose results come
from spec/95_test_vectors.md, and for each statement with hypotheses a state and operands that meet them. -/

namespace Sys2Proof.Tests

open Sys2Proof.Machine

set_option Elab.async false

/-! ### Well-formedness: each check refuses an ill-formed term (30_encoding.md R149, R167) -/

theorem test_illFormed_lslsImm : (Instr.lslsImm 1 2 0).wellFormed = false := by decide
theorem test_illFormed_addHigh : (Instr.addHigh 15 15).wellFormed = false := by decide
theorem test_illFormed_cmpHigh : (Instr.cmpHigh 7 7).wellFormed = false ∧ (Instr.cmpHigh 15 8).wellFormed = false ∧
    (Instr.cmpHigh 8 15).wellFormed = false := by decide
theorem test_illFormed_bx : (Instr.bx 13).wellFormed = false ∧ (Instr.bx 15).wellFormed = false := by decide
theorem test_illFormed_blx : (Instr.blx 13).wellFormed = false ∧ (Instr.blx 15).wellFormed = false := by decide
theorem test_illFormed_push : (Instr.push false 0).wellFormed = false := by decide
theorem test_illFormed_pop : (Instr.pop false 0).wellFormed = false := by decide
theorem test_illFormed_stm : (Instr.stm 3 0).wellFormed = false := by decide
theorem test_illFormed_ldm : (Instr.ldm 3 0).wellFormed = false := by decide
theorem test_illFormed_msr : (Instr.msr .psp 13).wellFormed = false ∧ (Instr.msr .psp 15).wellFormed = false := by decide
theorem test_illFormed_mrs : (Instr.mrs 13 .psp).wellFormed = false ∧ (Instr.mrs 15 .psp).wellFormed = false := by decide

/-! ### Decoding: words bit by bit from 30_encoding.md R149 to R157 -/

theorem test_decode_shiftAddSub :
    decode 0b0000000011010001 0 = .instr (.lslsImm 1 2 3) ∧ decode 0b0000000000111010 0 = .instr (.movsReg 2 7) ∧
    decode 0b0000100000001000 0 = .instr (.lsrsImm 0 1 0) ∧ decode 0b0001001001101111 0 = .instr (.asrsImm 7 5 9) ∧
    decode 0b0001100010000000 0 = .instr (.addsReg 0 0 2) ∧ decode 0b0001101001100100 0 = .instr (.subsReg 4 4 1) ∧
    decode 0b0001110111001000 0 = .instr (.addsImm3 0 1 7) ∧ decode 0b0001111001001000 0 = .instr (.subsImm3 0 1 1) ∧
    decode 0b0010000000001011 0 = .instr (.movsImm 0 11) ∧ decode 0b0010100011111111 0 = .instr (.cmpImm 0 255) ∧
    decode 0b0011001011111111 0 = .instr (.addsImm8 2 255) ∧ decode 0b0011101100000001 0 = .instr (.subsImm8 3 1) := by
  decide +kernel

theorem test_decode_dataProcessing :
    decode 0b0100000000001010 0 = .instr (.ands 2 1) ∧ decode 0b0100000001110111 0 = .instr (.eors 7 6) ∧
    decode 0b0100000010001000 0 = .instr (.lslsReg 0 1) ∧ decode 0b0100000011001000 0 = .instr (.lsrsReg 0 1) ∧
    decode 0b0100000100011010 0 = .instr (.asrsReg 2 3) ∧ decode 0b0100000101011001 0 = .instr (.adcs 1 3) ∧
    decode 0b0100000110010101 0 = .instr (.sbcs 5 2) ∧ decode 0b0100000111110100 0 = .instr (.rors 4 6) ∧
    decode 0b0100001000001000 0 = .instr (.tst 0 1) ∧ decode 0b0100001001111110 0 = .instr (.rsbs 6 7) ∧
    decode 0b0100001010001000 0 = .instr (.cmpReg 0 1) ∧ decode 0b0100001011010000 0 = .instr (.cmn 0 2) ∧
    decode 0b0100001100101010 0 = .instr (.orrs 2 5) ∧ decode 0b0100001101010000 0 = .instr (.muls 0 2) ∧
    decode 0b0100001110001000 0 = .instr (.bics 0 1) ∧ decode 0b0100001111000010 0 = .instr (.mvns 2 0) := by
  decide +kernel

theorem test_decode_special :
    decode 0b0100010010001000 0 = .instr (.addHigh 8 1) ∧ decode 0b0100010101001010 0 = .instr (.cmpHigh 2 9) ∧
    decode 0b0100011011100010 0 = .instr (.mov 10 12) ∧ decode 0b0100011101110000 0 = .instr (.bx 14) ∧
    decode 0b0100011110011000 0 = .instr (.blx 3) := by
  decide +kernel

theorem test_decode_loadStore :
    decode 0b0100101100011001 0 = .instr (.ldrLit 3 25) ∧ decode 0b0101000001101000 0 = .instr (.strReg 0 5 1) ∧
    decode 0b0101001010001000 0 = .instr (.strhReg 0 1 2) ∧ decode 0b0101010010001000 0 = .instr (.strbReg 0 1 2) ∧
    decode 0b0101011010001000 0 = .instr (.ldrsbReg 0 1 2) ∧ decode 0b0101100010001000 0 = .instr (.ldrReg 0 1 2) ∧
    decode 0b0101101010001000 0 = .instr (.ldrhReg 0 1 2) ∧ decode 0b0101110010001000 0 = .instr (.ldrbReg 0 1 2) ∧
    decode 0b0101111011010001 0 = .instr (.ldrshReg 1 2 3) ∧ decode 0b0110000010000010 0 = .instr (.strImm 2 0 2) ∧
    decode 0b0110100000111100 0 = .instr (.ldrImm 4 7 0) ∧ decode 0b0111011111000001 0 = .instr (.strbImm 1 0 31) ∧
    decode 0b0111100011000001 0 = .instr (.ldrbImm 1 0 3) ∧ decode 0b1000000001100011 0 = .instr (.strhImm 3 4 1) ∧
    decode 0b1000111111011010 0 = .instr (.ldrhImm 2 3 31) ∧ decode 0b1001000111111111 0 = .instr (.strSp 1 255) ∧
    decode 0b1001100100000001 0 = .instr (.ldrSp 1 1) := by
  decide +kernel

theorem test_decode_addressAndMisc :
    decode 0b1010001111111001 0 = .instr (.adr 3 249) ∧ decode 0b1010100100000010 0 = .instr (.addRdSp 1 2) ∧
    decode 0b1011000000000100 0 = .instr (.addSpImm 4) ∧ decode 0b1011000010000010 0 = .instr (.subSpImm 2) ∧
    decode 0b1011001000110100 0 = .instr (.sxth 4 6) ∧ decode 0b1011001001001000 0 = .instr (.sxtb 0 1) ∧
    decode 0b1011001010001000 0 = .instr (.uxth 0 1) ∧ decode 0b1011001011001011 0 = .instr (.uxtb 3 1) ∧
    decode 0b1011010011110001 0 = .instr (.push false 0xF1) ∧ decode 0b1011010100000100 0 = .instr (.push true 4) ∧
    decode 0b1011011001100010 0 = .instr .cpsie ∧ decode 0b1011011001110010 0 = .instr .cpsid ∧
    decode 0b1011101000111011 0 = .instr (.rev 3 7) ∧ decode 0b1011101001000000 0 = .instr (.rev16 0 0) ∧
    decode 0b1011101011101000 0 = .instr (.revsh 0 5) ∧ decode 0b1011110101000001 0 = .instr (.pop true 0x41) ∧
    decode 0b1011110000000110 0 = .instr (.pop false 6) ∧ decode 0b1011111000000101 0 = .instr (.bkpt 5) := by
  decide +kernel

theorem test_decode_hintsAndMultiple :
    decode 0b1011111100000000 0 = .instr .nop ∧ decode 0b1011111100010000 0 = .instr .yield ∧
    decode 0b1011111100100000 0 = .instr .wfe ∧ decode 0b1011111100110000 0 = .instr .wfi ∧
    decode 0b1011111101000000 0 = .instr .sev ∧ decode 0b1100000101011100 0 = .instr (.stm 1 0x5C) ∧
    decode 0b1100100000011001 0 = .instr (.ldm 0 0x19) := by
  decide +kernel

theorem test_decode_branchAndTrap :
    decode 0b1101000111111100 0 = .instr (.bCond .ne 0xFC) ∧ decode 0b1101110100000000 0 = .instr (.bCond .le 0) ∧
    decode 0b1101111000000011 0 = .instr (.udf 3) ∧ decode 0b1101111100110010 0 = .instr (.svc 0x32) ∧
    decode 0b1110011111111110 0 = .instr (.b 0x7FE) := by
  decide +kernel

theorem test_decode_long :
    decode 0b1111000000000000 0b1111100001111110 = .instr (.bl 0x7E) ∧
    decode 0b1111011111111111 0b1111111101111110 = .instr (.bl 0xFFFF7E) ∧
    decode 0b1111001110000001 0b1000100000010100 = .instr (.msr .control 1) ∧
    decode 0b1111001111101111 0b1000000000010000 = .instr (.mrs 0 .primask) ∧
    decode 0b1111001110111111 0b1000111101001111 = .instr (.dsb 15) ∧
    decode 0b1111001110111111 0b1000111101011111 = .instr (.dmb 15) ∧
    decode 0b1111001110111111 0b1000111101101111 = .instr (.isb 15) ∧
    decode 0b1111011111110000 0b1010000000000001 = .instr (.udfW 1) := by
  decide +kernel

theorem test_decode_rejects :
    decode 0xC500 0 = .reject .emptyList ∧ decode 0xB400 0 = .reject .emptyList ∧ decode 0x4500 0 = .reject .cmpOperands ∧
    decode 0x44FF 0 = .reject .addPcPc ∧ decode 0x4768 0 = .reject .bxOperand ∧ decode 0x4771 0 = .reject .shouldBeBits ∧
    decode 0xF3EF 0x8D10 = .reject .msrOperand ∧ decode 0xF3EF 0x8004 = .reject .specialRegister ∧
    decode 0xBF50 0 = .reject .unallocatedHint ∧ decode 0xB100 0 = .reject .undefined ∧
    decode 0xE800 0 = .reject .undefined ∧ (decodeBytes [0x00, 0xF0]).1 = .reject .truncated := by
  decide +kernel

/-! ### Single steps -/

/-- The start of the single-instruction vectors (95_test_vectors.md, its head), with the HardFault vector. -/
def start : State :=
  { State.reset with msp := 0x20001000, pc := 0x100, tbit := true, mem := Memory.writeWord [] 0xC 0x401 }

/-- Words put into memory. -/
def words (l : List (Nat × Word)) (s : State) : State :=
  { s with mem := l.foldl (fun m p => m.writeWord p.1 p.2) s.mem }

/-- Values put into numbered registers. -/
def regs (l : List (Reg × Word)) (s : State) : State := l.foldl (fun s p => s.writeReg p.1 p.2) s

/-- The four flags as bits. -/
def nzcv (f : BitVec 4) (s : State) : State := { s with flags := Flags.ofWord (f ++ 0#28) }

/-- The step of the halfword instruction `w`, put at the pc, as seen through `f`. -/
def after {α : Type} (w : Nat) (s : State) (f : State → α) : Option α :=
  match step (s.withFetchWord 16 w) with
  | .next t => some (f t)
  | _ => none

/-- The same of an instruction of two halfwords. -/
def afterLong {α : Type} (w : Nat) (s : State) (f : State → α) : Option α :=
  match step (s.withFetchWord 32 w) with
  | .next t => some (f t)
  | _ => none

/-- The refusal of a step. -/
def refusalOf (w : Nat) (s : State) : Option Refusal :=
  match step (s.withFetchWord 16 w) with
  | .refused r => some r
  | _ => none

/-- A register and the flags. -/
def regFlags (n : Reg) (t : State) : Word × BitVec 4 := (t.readReg n, t.flags.bits)

-- 95_test_vectors.md Part 2, add, subtract, compare
theorem test_addsImm3 : after 0x1DC8 (regs [(1, 0xFFFFFFFC)] start) (regFlags 0) = some (3, 0b0010) := by decide +kernel
theorem test_addsImm8 : after 0x32FF (regs [(2, 0x7FFFFF01)] start) (regFlags 2) = some (0x80000000, 0b1001) := by
  decide +kernel
theorem test_addsReg : after 0x1880 (regs [(0, 0x80000000), (2, 0x80000000)] start) (regFlags 0) = some (0, 0b0111) := by
  decide +kernel
theorem test_adcs_carry : after 0x4148 (nzcv 0b0010 (regs [(0, 0xFFFFFFFF)] start)) (regFlags 0) = some (0, 0b0110) := by
  decide +kernel
theorem test_adcs_overflow : after 0x4148 (nzcv 0b0010 (regs [(0, 0x7FFFFFFF)] start)) (regFlags 0) =
    some (0x80000000, 0b1001) := by decide +kernel
theorem test_subsImm3 : after 0x1E48 start (regFlags 0) = some (0xFFFFFFFF, 0b1000) := by decide +kernel
theorem test_subsImm8_zero : after 0x3B01 (regs [(3, 1)] start) (regFlags 3) = some (0, 0b0110) := by decide +kernel
theorem test_subsImm8_overflow : after 0x3B01 (regs [(3, 0x80000000)] start) (regFlags 3) = some (0x7FFFFFFF, 0b0011) := by
  decide +kernel
theorem test_subsReg : after 0x1A64 (regs [(4, 3), (1, 5)] start) (regFlags 4) = some (0xFFFFFFFE, 0b1000) := by
  decide +kernel
theorem test_sbcs_carrySet : after 0x4188 (nzcv 0b0010 (regs [(0, 5), (1, 5)] start)) (regFlags 0) = some (0, 0b0110) := by
  decide +kernel
theorem test_sbcs_carryClear : after 0x4188 (regs [(0, 5), (1, 5)] start) (regFlags 0) = some (0xFFFFFFFF, 0b1000) := by
  decide +kernel
theorem test_rsbs_zero : after 0x427F start (regFlags 7) = some (0, 0b0110) := by decide +kernel
theorem test_rsbs_overflow : after 0x427F (regs [(7, 0x80000000)] start) (regFlags 7) = some (0x80000000, 0b1001) := by
  decide +kernel
theorem test_cmpImm : after 0x28FF start (fun t => t.flags.bits) = some 0b1000 := by decide +kernel
theorem test_cmpReg : after 0x4288 (regs [(0, 0x7FFFFFFF), (1, 0xFFFFFFFF)] start) (fun t => t.flags.bits) = some 0b1001 := by
  decide +kernel
theorem test_cmpHigh : after 0x454A (regs [(2, 0x80000000), (9, 1)] start) (fun t => t.flags.bits) = some 0b0011 := by
  decide +kernel
theorem test_cmn : after 0x42D0 (regs [(0, 1), (2, 0xFFFFFFFF)] start) (regFlags 0) = some (1, 0b0110) := by decide +kernel
theorem test_addHigh_flags : after 0x4488 (nzcv 0b1010 (regs [(8, 0x10), (1, 0xFFFFFFFF)] start)) (regFlags 8) =
    some (0xF, 0b1010) := by decide +kernel
theorem test_addHigh_pc : after 0x4487 (regs [(0, 0x41)] start) (fun t => (t.pc, t.tbit)) = some (0x144, true) := by
  decide +kernel
theorem test_addSpImm : after 0xB004 (regs [(13, 0x20000FF0)] start) (fun t => t.msp) = some 0x20001000 := by decide +kernel
theorem test_subSpImm : after 0xB082 start (fun t => t.msp) = some 0x20000FF8 := by decide +kernel
theorem test_addRdSp : after 0xA902 (regs [(13, 0x20000FF0)] start) (fun t => t.readReg 1) = some 0x20000FF8 := by
  decide +kernel
theorem test_adr : after 0xA3F9 start (fun t => t.readReg 3) = some 0x4E8 := by decide +kernel
theorem test_adr_unalignedPc : after 0xA001 (Machine.State.branchTo start 0x102) (fun t => t.readReg 0) = some 0x108 := by
  decide +kernel

-- Part 1 and Part 2, logic, moves, shifts
theorem test_ands : after 0x400A (nzcv 0b0011 (regs [(2, 0xF0F0F0F0), (1, 0x0FF00FF0)] start)) (regFlags 2) =
    some (0x00F000F0, 0b0011) := by decide +kernel
theorem test_orrs : after 0x432A (regs [(2, 0x80000000), (5, 1)] start) (regFlags 2) = some (0x80000001, 0b1000) := by
  decide +kernel
theorem test_eors : after 0x4077 (regs [(7, 0x12345678), (6, 0x12345678)] start) (regFlags 7) = some (0, 0b0100) := by
  decide +kernel
theorem test_bics : after 0x4388 (regs [(0, 0xFFFFFFFF), (1, 0xFFFF)] start) (regFlags 0) = some (0xFFFF0000, 0b1000) := by
  decide +kernel
theorem test_mvns : after 0x43C2 (nzcv 0b0011 (regs [(0, 0xFFFFFFFF)] start)) (regFlags 2) = some (0, 0b0111) := by
  decide +kernel
theorem test_tst : after 0x4208 (nzcv 0b0011 (regs [(0, 1), (1, 2)] start)) (regFlags 0) = some (1, 0b0111) := by
  decide +kernel
theorem test_movsImm : after 0x200B (nzcv 0b0011 start) (regFlags 0) = some (0xB, 0b0011) := by decide +kernel
theorem test_movsReg : after 0x003A (nzcv 0b0010 (regs [(7, 0x80000000)] start)) (regFlags 2) = some (0x80000000, 0b1010) := by
  decide +kernel
theorem test_mov_high : after 0x46E2 (nzcv 0b1111 (regs [(12, 0xCAFE)] start)) (regFlags 10) = some (0xCAFE, 0b1111) := by
  decide +kernel
theorem test_mov_pc : after 0x46F7 (regs [(14, 0x205)] start) (fun t => (t.pc, t.tbit)) = some (0x204, true) := by
  decide +kernel
theorem test_muls : after 0x4350 (nzcv 0b0011 (regs [(0, 0x10000), (2, 0x10001)] start)) (regFlags 0) =
    some (0x10000, 0b0011) := by decide +kernel
theorem test_muls_zero : after 0x4350 (nzcv 0b0011 (regs [(0, 0x10000), (2, 0x10000)] start)) (regFlags 0) =
    some (0, 0b0111) := by decide +kernel
theorem test_lslsImm : after 0x00D1 (regs [(2, 0x20000001)] start) (regFlags 1) = some (8, 0b0010) := by decide +kernel
theorem test_lsrsImm : after 0x09AC (regs [(5, 0xE0)] start) (regFlags 4) = some (3, 0b0010) := by decide +kernel
theorem test_lsrsImm_32 : after 0x0808 (regs [(1, 0x80000000)] start) (regFlags 0) = some (0, 0b0110) := by decide +kernel
theorem test_asrsImm : after 0x126F (regs [(5, 0x80000100)] start) (regFlags 7) = some (0xFFC00000, 0b1010) := by
  decide +kernel
theorem test_asrsImm_32 : after 0x1008 (regs [(1, 0x80000000)] start) (regFlags 0) = some (0xFFFFFFFF, 0b1010) := by
  decide +kernel
theorem test_lslsReg_32 : after 0x4088 (regs [(0, 3), (1, 32)] start) (regFlags 0) = some (0, 0b0110) := by decide +kernel
theorem test_lslsReg_256 : after 0x4088 (nzcv 0b0010 (regs [(0, 3), (1, 0x100)] start)) (regFlags 0) = some (3, 0b0010) := by
  decide +kernel
theorem test_lsrsReg_32 : after 0x40C8 (regs [(0, 0x80000000), (1, 32)] start) (regFlags 0) = some (0, 0b0110) := by
  decide +kernel
theorem test_lsrsReg_33 : after 0x40C8 (regs [(0, 0x80000000), (1, 33)] start) (regFlags 0) = some (0, 0b0100) := by
  decide +kernel
theorem test_asrsReg_33 : after 0x411A (regs [(2, 0x80000000), (3, 33)] start) (regFlags 2) = some (0xFFFFFFFF, 0b1010) := by
  decide +kernel
theorem test_rors_1 : after 0x41F4 (regs [(4, 1), (6, 1)] start) (regFlags 4) = some (0x80000000, 0b1010) := by decide +kernel
theorem test_rors_32 : after 0x41F4 (nzcv 0b0010 (regs [(4, 1), (6, 32)] start)) (regFlags 4) = some (1, 0b0000) := by
  decide +kernel
theorem test_rev : after 0xBA3B (regs [(7, 0x11223344)] start) (fun t => t.readReg 3) = some 0x44332211 := by decide +kernel
theorem test_rev16 : after 0xBA40 (regs [(0, 0x11223344)] start) (fun t => t.readReg 0) = some 0x22114433 := by decide +kernel
theorem test_revsh : after 0xBAE8 (regs [(5, 0x11223380)] start) (fun t => t.readReg 0) = some 0xFFFF8033 := by decide +kernel
theorem test_sxth : after 0xB234 (regs [(6, 0x12348000)] start) (fun t => t.readReg 4) = some 0xFFFF8000 := by decide +kernel
theorem test_sxtb : after 0xB248 (regs [(1, 0x80)] start) (fun t => t.readReg 0) = some 0xFFFFFF80 := by decide +kernel
theorem test_uxth : after 0xB288 (regs [(1, 0xFFFF8001)] start) (fun t => t.readReg 0) = some 0x8001 := by decide +kernel
theorem test_uxtb : after 0xB2CB (regs [(1, 0x123456FF)] start) (fun t => t.readReg 3) = some 0xFF := by decide +kernel

-- Part 1 and Part 2, loads and stores
theorem test_ldrImm : after 0x683C (words [(0x20000010, 0xDEADBEEF)] (regs [(7, 0x20000010)] start)) (fun t => t.readReg 4) =
    some 0xDEADBEEF := by decide +kernel
theorem test_ldrImm_unaligned : after 0x683C (regs [(7, 0x20000012), (4, 9)] start)
    (fun t => (t.readReg 4, t.mem.readWord 0x20000FF8, t.mem.readWord 0x20000FFC, t.msp, t.lr, t.ipsr, t.pc)) =
    some (9, 0x100, 0x01000000, 0x20000FE0, 0xFFFFFFF9, 3, 0x400) := by decide +kernel
theorem test_ldrReg : after 0x5888 (words [(0x20000008, 0x01020304)] (regs [(1, 0x20000000), (2, 8)] start))
    (fun t => t.readReg 0) = some 0x01020304 := by decide +kernel
theorem test_ldrSp : after 0x9901 (words [(0x20000FF4, 0x77)] (regs [(13, 0x20000FF0)] start)) (fun t => t.readReg 1) =
    some 0x77 := by decide +kernel
theorem test_ldrLit : after 0x4B19 (words [(0x168, 0x55AA)] (Machine.State.branchTo start 0x102)) (fun t => t.readReg 3) =
    some 0x55AA := by decide +kernel
theorem test_ldrbImm : after 0x78C1 (words [(0x20000000, 0x80112233)] (regs [(0, 0x20000000)] start)) (fun t => t.readReg 1) =
    some 0x80 := by decide +kernel
theorem test_ldrbReg : after 0x5C88 (words [(0x20000000, 0xAA0000)] (regs [(1, 0x20000000), (2, 2)] start))
    (fun t => t.readReg 0) = some 0xAA := by decide +kernel
theorem test_ldrsbReg : after 0x5688 (words [(0x20000000, 0xFF00)] (regs [(1, 0x20000000), (2, 1)] start))
    (fun t => t.readReg 0) = some 0xFFFFFFFF := by decide +kernel
theorem test_ldrhImm : after 0x8FDA (words [(0x2000003C, 0xBEEF0000)] (regs [(3, 0x20000000)] start)) (fun t => t.readReg 2) =
    some 0xBEEF := by decide +kernel
theorem test_ldrhReg : after 0x5A88 (words [(0x20000000, 0xFFFE0000)] (regs [(1, 0x20000000), (2, 2)] start))
    (fun t => t.readReg 0) = some 0xFFFE := by decide +kernel
theorem test_ldrshReg : after 0x5ED1 (words [(0x20000004, 0x8001)] (regs [(2, 0x20000000), (3, 4)] start))
    (fun t => t.readReg 1) = some 0xFFFF8001 := by decide +kernel
theorem test_strImm : after 0x6082 (regs [(0, 0x20000000), (2, 0x11223344)] start)
    (fun t => (t.mem.read 0x20000008, t.mem.read 0x20000009, t.mem.read 0x2000000A, t.mem.read 0x2000000B)) =
    some (0x44, 0x33, 0x22, 0x11) := by decide +kernel
theorem test_strReg : after 0x5068 (regs [(0, 0x55), (5, 0x20000000), (1, 0x10)] start) (fun t => t.mem.readWord 0x20000010) =
    some 0x55 := by decide +kernel
theorem test_strSp : after 0x91FF (regs [(13, 0x20000000), (1, 0x99)] start) (fun t => t.mem.readWord 0x200003FC) =
    some 0x99 := by decide +kernel
theorem test_strhImm : after 0x8063 (words [(0x20000000, 0x11111111)] (regs [(4, 0x20000000), (3, 0xAABBCCDD)] start))
    (fun t => t.mem.readWord 0x20000000) = some 0xCCDD1111 := by decide +kernel
theorem test_strhReg : after 0x5288 (regs [(0, 0xABCD), (1, 0x20000000), (2, 2)] start) (fun t => t.mem.readWord 0x20000000) =
    some 0xABCD0000 := by decide +kernel
theorem test_strbImm : after 0x77C1 (regs [(0, 0x20000000), (1, 0x1FF)] start) (fun t => t.mem.readWord 0x2000001C) =
    some 0xFF000000 := by decide +kernel
theorem test_strbReg : after 0x5488 (regs [(0, 0xAB), (1, 0x20000000), (2, 3)] start) (fun t => t.mem.readWord 0x20000000) =
    some 0xAB000000 := by decide +kernel
theorem test_ldm_baseInList :
    after 0xC819 (words [(0x20000000, 0xA), (0x20000004, 0xB), (0x20000008, 0xC)] (regs [(0, 0x20000000)] start))
      (fun t => (t.readReg 0, t.readReg 3, t.readReg 4)) = some (0xA, 0xB, 0xC) := by decide +kernel
theorem test_ldm_writeback : after 0xC90C (words [(0x20000000, 0xA), (0x20000004, 0xB)] (regs [(1, 0x20000000)] start))
    (fun t => (t.readReg 1, t.readReg 2, t.readReg 3)) = some (0x20000008, 0xA, 0xB) := by decide +kernel
theorem test_stm : after 0xC15C (regs [(1, 0x20000000), (2, 2), (3, 3), (4, 4), (6, 6)] start)
    (fun t => (t.mem.readWord 0x20000000, t.mem.readWord 0x20000004, t.mem.readWord 0x2000000C, t.readReg 1)) =
    some (2, 3, 6, 0x20000010) := by decide +kernel
theorem test_stm_baseLowest : after 0xC560 (regs [(5, 0x20000000), (6, 6)] start)
    (fun t => (t.mem.readWord 0x20000000, t.mem.readWord 0x20000004, t.readReg 5)) =
    some (0x20000000, 6, 0x20000008) := by decide +kernel
theorem test_push_lr : after 0xB504 (regs [(2, 0x22), (14, 0x105)] start)
    (fun t => (t.mem.readWord 0x20000FF8, t.mem.readWord 0x20000FFC, t.msp)) = some (0x22, 0x105, 0x20000FF8) := by
  decide +kernel
theorem test_pop_pc : after 0xBD41 (words [(0x20000FF4, 1), (0x20000FF8, 2), (0x20000FFC, 0x201)]
    (regs [(13, 0x20000FF4)] start)) (fun t => (t.readReg 0, t.readReg 6, t.msp, t.pc, t.tbit)) =
    some (1, 2, 0x20001000, 0x200, true) := by decide +kernel
theorem test_pop_clearsT : after 0xBD00 (words [(0x20000FFC, 0x200)] (regs [(13, 0x20000FFC)] start))
    (fun t => (t.msp, t.pc, t.tbit)) = some (0x20001000, 0x200, false) := by decide +kernel

-- Part 2, branches
theorem test_b_back : after 0xE400 (Machine.State.branchTo start 0x1000) (fun t => t.pc) = some 0x804 := by decide +kernel
theorem test_b_forward : after 0xE3FF start (fun t => t.pc) = some 0x902 := by decide +kernel
theorem test_bCond_taken : after 0xD1FC (Machine.State.branchTo start 0x110) (fun t => t.pc) = some 0x10C := by decide +kernel
theorem test_bCond_notTaken : after 0xD1FC (nzcv 0b0100 (Machine.State.branchTo start 0x110)) (fun t => t.pc) = some 0x112 := by
  decide +kernel
theorem test_bl_back : afterLong 0xF7FFFF7E (Machine.State.branchTo start 0x200) (fun t => (t.pc, t.lr)) =
    some (0x100, 0x205) := by decide +kernel
theorem test_bl_minimum : afterLong 0xF400D000 (Machine.State.branchTo start 0x01000000) (fun t => (t.pc, t.lr)) =
    some (4, 0x01000005) := by decide +kernel
theorem test_bx : after 0x4700 (regs [(0, 0x300)] start) (fun t => (t.pc, t.tbit)) = some (0x300, false) := by decide +kernel
theorem test_blx : after 0x4780 (regs [(0, 0x301)] start) (fun t => (t.pc, t.tbit, t.lr)) = some (0x300, true, 0x103) := by
  decide +kernel

/-- The conditions' table of 95_test_vectors.md: LE and GT are opposites on 1000, 0001 and 1101, HI and LS on 0010 and 0100. -/
theorem test_conditions :
    (∀ f : BitVec 4, conditionPassed (Flags.ofWord (f ++ 0#28)) .le = !conditionPassed (Flags.ofWord (f ++ 0#28)) .gt) ∧
    conditionPassed (Flags.ofWord (0b1000#4 ++ 0#28)) .le = true ∧
    conditionPassed (Flags.ofWord (0b0001#4 ++ 0#28)) .le = true ∧
    conditionPassed (Flags.ofWord (0b1101#4 ++ 0#28)) .le = true ∧
    conditionPassed (Flags.ofWord (0b0010#4 ++ 0#28)) .hi = true ∧
    conditionPassed (Flags.ofWord (0b0110#4 ++ 0#28)) .hi = false := by decide +kernel

-- Part 1 and Part 2, miscellaneous
theorem test_cpsid : after 0xB672 start (fun t => t.primask) = some true := by decide +kernel
theorem test_cpsie : after 0xB662 { start with primask := true } (fun t => t.primask) = some false := by decide +kernel
theorem test_nop : after 0xBF00 start (fun t => t.pc) = some 0x102 := by decide +kernel
theorem test_wfi : after 0xBF30 start (fun t => (t.sleeping, t.pc)) = some (true, 0x102) := by decide +kernel
theorem test_barriers : afterLong 0xF3BF8F5F start (fun t => t.pc) = some 0x104 ∧
    afterLong 0xF3BF8F4F start (fun t => t.pc) = some 0x104 ∧ afterLong 0xF3BF8F6F start (fun t => t.pc) = some 0x104 := by
  decide +kernel
theorem test_mrs_psr : afterLong 0xF3EF8003 (nzcv 0b1010 start) (fun t => t.readReg 0) = some 0xA0000000 := by decide +kernel
theorem test_mrs_psr_handler : afterLong 0xF3EF8103
    (nzcv 0b0110 { start with ipsr := 15, active := ExcSet.none.set .sysTick true }) (fun t => t.readReg 1) =
    some 0x6000000F := by decide +kernel
theorem test_msr_psp : afterLong 0xF3808809 (regs [(0, 0x20000803)] start) (fun t => t.psp) = some 0x20000800 := by
  decide +kernel
theorem test_msr_control : afterLong 0xF3818814 (regs [(1, 2)] start) (fun t => t.spsel) = some true := by decide +kernel
theorem test_svc : after 0xDF32 (words [(0x2C, 0x501)] start)
    (fun t => (t.mem.readWord 0x20000FF8, t.mem.readWord 0x20000FFC, t.lr, t.ipsr, t.pc)) =
    some (0x102, 0x01000000, 0xFFFFFFF9, 11, 0x500) := by decide +kernel
theorem test_svc_masked : after 0xDF32 { start with primask := true } (fun t => (t.mem.readWord 0x20000FF8, t.ipsr, t.pc)) =
    some (0x100, 3, 0x400) := by decide +kernel
theorem test_udf : after 0xDE00 start (fun t => (t.mem.readWord 0x20000FF8, t.ipsr)) = some (0x100, 3) := by decide +kernel
theorem test_udf_lockup : after 0xDE00 { start with ipsr := 3, active := ExcSet.none.set .hardFault true }
    (fun t => (t.lockup, t.msp)) = some (true, 0x20001000) := by decide +kernel
theorem test_udfW : afterLong 0xF7F0A000 start (fun t => (t.mem.readWord 0x20000FF8, t.ipsr)) = some (0x100, 3) := by
  decide +kernel
theorem test_bkpt : after 0xBE00 start (fun t => (t.mem.readWord 0x20000FF8, t.ipsr)) = some (0x100, 3) := by decide +kernel
theorem test_undefined : after 0xB100 start (fun t => (t.mem.readWord 0x20000FF8, t.ipsr)) = some (0x100, 3) := by
  decide +kernel
theorem test_hints_refused : refusalOf 0xBF10 start = some .yieldNotInSource ∧ refusalOf 0xBF20 start = some .wfeNotSupported ∧
    refusalOf 0xBF40 start = some .sevNotSupported := by decide +kernel

-- Part 2, exceptions, system registers
/-- IPR0 = 0x40: IRQ1 (priority 0) before IRQ0 (priority 64), both pending (60_exceptions.md R412). -/
theorem test_priority : after 0xBF00
    (words [(0x40, 0x601), (0x44, 0x701)]
      { start with irqEnable := 3, pending := { ExcSet.none with irq := 3 }, irqPrio := start.irqPrio.set 0 1 })
    (fun t => (t.ipsr, t.pc)) = some (17, 0x700) := by decide +kernel
/-- SYST_CSR clears COUNTFLAG when read, IPR2 holds IRQ8 only, AIRCR takes its key (10_state.md R64, R48, R57). -/
theorem test_systemRegisters :
    after 0x6808
      (regs [(1, 0xE000E010)]
        { start with sysTick := { start.sysTick with enable := true, tickInt := true, clkSource := true, countFlag := true } })
      (fun t => (t.readReg 0, t.sysTick.countFlag)) = some (0x00010007, false) ∧
    after 0x6008 (regs [(0, 0xFFFFFFFF), (1, 0xE000E408)] start) (fun t => (t.irqPrio[7], t.irqPrio[8])) = some (0, 3) ∧
    after 0x6008 (regs [(0, 0x05FA0004), (1, 0xE000ED0C)] start) (fun t => t.resetRequested) = some true := by
  decide +kernel

/-! ### Witnesses: for each statement with hypotheses, values that meet them, clause by clause -/

/-- RAM at both ends of an access, a device, an interrupt handler on the main stack: the states the witnesses use. -/
def inRam : State := regs [(1, 0x20000000), (2, 0x1FFFFFFC), (13, 0x20000F80)] start

/-- In the handler of IRQ0, with a frame on each stack that returns to Thread mode. -/
def inHandler : State :=
  words [(0x20000F9C, 0x01000000), (0x2000089C, 0x01000000)]
    { start with
      ipsr := 16, active := ExcSet.none.set (.irq 0) true, msp := 0x20000F80, psp := 0x20000880 }

/-- In the handler of IRQ0 inside SVCall's, with a frame that returns to SVCall's. -/
def inNested : State :=
  words [(0x20000F9C, 0x0100000B)]
    { start with
      ipsr := 16, active := (ExcSet.none.set (.irq 0) true).set .svCall true, msp := 0x20000F80 }

/-- A platform that answers every access with a bus error. -/
def busErrorsEverywhere : Config.Platform :=
  { start.platform with
    busErrors := [⟨0, 0xFFFFFFFF, [1, 2, 4], [.read, .write, .fetch, .vector, .stack, .unstack]⟩] }

/-- Plain memory everywhere but at the word at `a`, where every word access gets a bus error. -/
def withErrorAt (a : Nat) (s : State) : State :=
  { s with
    platform := { s.platform with busErrors := [⟨a, a + 3, [4], [.read, .write, .vector, .stack, .unstack]⟩] } }

theorem test_witness_DecodeOfEncode : (Instr.cmpHigh 8 0).wellFormed = true ∧ (Instr.addHigh 15 14).wellFormed = true ∧
    (Instr.bl 0x800000).wellFormed = true := by decide

theorem test_witness_EncodeOfDecode : decode 0x4540 0xFFFF = .instr (.cmpHigh 0 8) ∧
    decode 0xF400 0xD000 = .instr (.bl 0x800000) := by decide +kernel

/-- The 32-bit patterns that no row of R157 selects: 0xF000 0x8000, the barrier block with op = hw2[7:4] of 3 and of 15, MSR's
first half with hw2[12] = 1. -/
theorem test_witness_UndefinedPatternsRejected :
    (0xE800#16).extractLsb' 11 5 = 0b11101#5 ∧ (0xFFFF#16).extractLsb' 11 5 = 0b11111#5 ∧
    (0xF000#16).extractLsb' 11 5 = 0b11110#5 ∧ (0x7FFF#16).getLsbD 15 = false ∧
    ((0xEFFF#16).getLsbD 14 = true ∧ (0xEFFF#16).getLsbD 12 = false) ∧
    (∀ w : Word, w = 0xF0008000 ∨ w = 0xF3BF8F3F ∨ w = 0xF3BF8FFF ∨ w = 0xF3809808 →
      w.extractLsb' 27 5 = 0b11110#5 ∧ w &&& 0xF800D000#32 ≠ 0xF000D000#32 ∧ w &&& 0xFFE0D000#32 ≠ 0xF3808000#32 ∧
      w &&& 0xFFE0D000#32 ≠ 0xF3E08000#32 ∧ w &&& 0xFFF0D0F0#32 ≠ 0xF3B08040#32 ∧ w &&& 0xFFF0D0F0#32 ≠ 0xF3B08050#32 ∧
      w &&& 0xFFF0D0F0#32 ≠ 0xF3B08060#32 ∧ w &&& 0xFFF0F000#32 ≠ 0xF7F0A000#32) ∧
    (0xBF00 ≤ (0xBF01#16).toNat ∧ (0xBF01#16).toNat ≤ 0xBFFF ∧ (0xBF01#16).extractLsb' 0 4 ≠ 0#4) := by
  refine ⟨by decide, by decide, by decide, by decide, by decide, ?_, by decide⟩
  rintro w (rfl | rfl | rfl | rfl) <;> decide

/-- A short instruction with an empty schedule, and a long one on the processor's turn. -/
theorem test_witness_StepRunsDecodedInstruction :
    (let s0 := start.withFetchWord 16 0xBF00
     ProcessorTurn s0 s0.sample ∧ s0.sample.AboutToExecute ∧ s0.sample.tbit = true ∧ s0.sample.Fetchable s0.sample.pc ∧
     decode (s0.sample.mem.readHalf s0.sample.pc.toNat) 0 = .instr .nop) ∧
    (let s0 := start.withFetchWord 32 0xF000F87E
     ProcessorTurn { s0 with schedule := [.processor] } s0.sample ∧ s0.sample.AboutToExecute ∧ s0.sample.tbit = true ∧
     s0.sample.Fetchable s0.sample.pc ∧ s0.sample.Fetchable (s0.sample.pc + 2#32) ∧
     decode (s0.sample.mem.readHalf s0.sample.pc.toNat) (s0.sample.mem.readHalf (s0.sample.pc + 2#32).toNat) =
       .instr (.bl 0x7E)) := by
  refine ⟨⟨.inl ⟨rfl, rfl, rfl⟩, ?_⟩, ⟨.inr ⟨[], rfl, rfl⟩, ?_⟩⟩ <;> unfold State.AboutToExecute State.Fetchable <;> decide +kernel

/-- T clear; an Execute Never address; a bus error; a second halfword past the end of the executable region; an Undefined and
an Unpredictable pattern, of one halfword (the region's last) and of two: each at a processor's turn about to execute. -/
theorem test_witness_FetchErrors :
    (∀ s : State, s.schedule = [] → s.resetRequested = false → ProcessorTurn s s.sample) ∧
    (let s := { start with tbit := false }.sample
     s.AboutToExecute ∧ s.tbit = false) ∧
    (let s := { start with pc := 0x40000000 }.sample
     s.AboutToExecute ∧ (regionOf s.pc.toNat).xn = true) ∧
    (let s := { start with platform := busErrorsEverywhere }.sample
     s.AboutToExecute ∧ busError s.platform s.pc.toNat 2 .fetch = true) ∧
    (let s := { start with pc := 0x3FFFFFFE, mem := Memory.writeHalf [] 0x3FFFFFFE 0xF000 }.sample
     s.AboutToExecute ∧ s.Fetchable s.pc ∧ isLongHalf (s.mem.readHalf s.pc.toNat) = true ∧
       (regionOf (s.pc + 2#32).toNat).xn = true) ∧
    (∀ w : Nat, w = 0xB100 ∨ w = 0xC500 →
     let s := { start with pc := 0x3FFFFFFE, mem := Memory.writeHalf [] 0x3FFFFFFE (BitVec.ofNat 16 w) }.sample
     s.AboutToExecute ∧ s.tbit = true ∧ s.Fetchable s.pc ∧ isLongHalf (s.mem.readHalf s.pc.toNat) = false ∧
       decode (s.mem.readHalf s.pc.toNat) (s.mem.readHalf (s.pc + 2#32).toNat) =
         .reject (if w = 0xB100 then .undefined else .emptyList)) ∧
    (∀ w : Nat, w = 0xF0008000 ∨ w = 0xF3EF8004 →
     let s := (start.withFetchWord 32 w).sample
     s.AboutToExecute ∧ s.tbit = true ∧ s.Fetchable s.pc ∧ s.Fetchable (s.pc + 2#32) ∧
       decode (s.mem.readHalf s.pc.toNat) (s.mem.readHalf (s.pc + 2#32).toNat) =
         .reject (if w = 0xF0008000 then .undefined else .specialRegister)) := by
  refine ⟨fun s h1 h2 => .inl ⟨h1, h2, rfl⟩, ?_, ?_, ?_, ?_, ?_, ?_⟩ <;> unfold State.AboutToExecute
  · decide +kernel
  · decide +kernel
  · decide +kernel
  · unfold State.Fetchable; decide +kernel
  · unfold State.Fetchable; rintro w (rfl | rfl) <;> decide +kernel
  · unfold State.Fetchable; rintro w (rfl | rfl) <;> decide +kernel

/-- With nothing stale, and with an old halfword. -/
theorem test_witness_StaleFetchIsOldOrNew :
    start.tbit = true ∧ (regionOf 0x100).xn = false ∧ busError start.platform 0x100 2 .fetch = false ∧
    ({ start with stale := [(0x100, 0xBF00)] }).oldHalves 0x100 = [0xBF00] := by decide +kernel

theorem test_witness_HighRegisterResult : (0#4 : Reg) ≠ 15#4 ∧ (13#4 : Reg) ≠ 15#4 ∧ (14#4 : Reg) ≠ 15#4 := by decide

/-- Each width, at the first and the last bytes of the RAM's region. -/
theorem test_witness_LoadResult : start.Readable 0x20000000 .word .read ∧ start.Readable 0x3FFFFFFC .word .read ∧
    start.Readable 0x3FFFFFFE .half .read ∧ start.Readable 0x3FFFFFFF .byte .read := by
  unfold State.Readable; decide +kernel

theorem test_witness_StoreResult : start.mem.wf = true ∧ start.Writable 0x20000000 .word .write ∧
    start.Writable 0x3FFFFFFC .word .write ∧ start.Writable 0x3FFFFFFE .half .write ∧ start.Writable 0x3FFFFFFF .byte .write := by
  unfold State.Writable State.Readable; decide +kernel

/-- Each clause of an access by itself; then PUSH and POP with a stack pointer that is not aligned (no instruction leaves such a one), and LDM, STM,
PUSH and POP with a bus error at their first word and at a later one. -/
theorem test_witness_AccessErrorsRaiseHardFault : isAligned 0x20000001 .half = false ∧ isAligned 0x20000002 .word = false ∧
    (regionOf 0x20000000 ≠ .ppb ∧ busError busErrorsEverywhere 0x20000000 4 .read = true) ∧
    (regionOf 0xDFFFFFFF ≠ .ppb ∧ busError busErrorsEverywhere 0xDFFFFFFF 1 .write = true) ∧
    (regionOf 0xE0100000 ≠ .ppb ∧ busError busErrorsEverywhere 0xE0100000 2 .write = true) ∧
    isAligned ((regs [(1, 0x20000002)] start).readLow 1) .word = false ∧
    (let s := { start with msp := 0x20000F82 }
     isAligned s.sp .word = false ∧ isAligned (s.sp - BitVec.ofNat 32 (4 * (regCount 0xFF + 1))) .word = false) ∧
    (∀ k, k = 0 ∨ k = 3 →
      let s := withErrorAt (0x20000000 + 4 * k) inRam
      k < regCount 0xFF ∧ s.mem.wf = true ∧ isAligned (s.readLow 1) .word = true ∧
      (∀ j, j < k → s.Readable (wordAt (s.readLow 1) j) .word .read ∧ s.Writable (wordAt (s.readLow 1) j) .word .write) ∧
      s.BusErrorAt (wordAt (s.readLow 1) k) .read ∧ s.BusErrorAt (wordAt (s.readLow 1) k) .write) ∧
    (∀ k, k = 0 ∨ k = 8 →
      let s := withErrorAt (0x20000F5C + 4 * k) inRam
      let base := s.sp - BitVec.ofNat 32 (4 * (regCount 0xFF + 1))
      k < regCount 0xFF + 1 ∧ isAligned base .word = true ∧ (∀ j, j < k → s.Writable (wordAt base j) .word .write) ∧
        s.BusErrorAt (wordAt base k) .write) ∧
    (∀ k, k = 0 ∨ k = 8 →
      let s := withErrorAt (0x20000F80 + 4 * k) inRam
      k < regCount 0xFF + 1 ∧ isAligned s.sp .word = true ∧ (∀ j, j < k → s.Readable (wordAt s.sp j) .word .read) ∧
        s.BusErrorAt (wordAt s.sp k) .read) := by
  refine ⟨by decide +kernel, by decide +kernel, by decide +kernel, by decide +kernel, by decide +kernel, by decide +kernel,
    by decide +kernel, ?_, ?_, ?_⟩ <;> unfold State.BusErrorAt <;> (try unfold State.Writable) <;> unfold State.Readable <;>
    rintro k (rfl | rfl) <;> decide +kernel

/-- The base in the list, and not; all eight registers and one. -/
theorem test_witness_LoadMultipleResult : isAligned (inRam.readLow 1) .word = true ∧
    (∀ k, k < regCount 0xFF → inRam.Readable (wordAt (inRam.readLow 1) k) .word .read) ∧
    (∀ k, k < regCount 0x01 → inRam.Readable (wordAt (inRam.readLow 2) k) .word .read) ∧
    (0xFF#8).getLsbD 1 = true ∧ (0x01#8).getLsbD 1 = false := by
  unfold State.Readable; decide +kernel

theorem test_witness_StoreMultipleResult : inRam.mem.wf = true ∧ isAligned (inRam.readLow 1) .word = true ∧
    (∀ k, k < regCount 0xFF → inRam.Writable (wordAt (inRam.readLow 1) k) .word .write) ∧
    rankIn 0xFF 0 = 0 ∧ rankIn 0x02 1 = 0 ∧ (0xFF#8).getLsbD 7 = true := by
  unfold State.Writable State.Readable; decide +kernel

/-- LR alone, and every register. -/
theorem test_witness_PushResult : inRam.mem.wf = true ∧
    (let base := inRam.sp - BitVec.ofNat 32 (4 * (regCount 0 + 1))
     isAligned base .word = true ∧ ∀ k, k < regCount 0 + 1 → inRam.Writable (wordAt base k) .word .write) ∧
    (let base := inRam.sp - BitVec.ofNat 32 (4 * (regCount 0xFF + 1))
     isAligned base .word = true ∧ ∀ k, k < regCount 0xFF + 1 → inRam.Writable (wordAt base k) .word .write) := by
  unfold State.Writable State.Readable; decide +kernel

theorem test_witness_PopResult : isAligned inRam.sp .word = true ∧
    (∀ k, k < regCount 0xFF → inRam.Readable (wordAt inRam.sp k) .word .read) := by
  unfold State.Readable; decide +kernel

/-- In Thread mode, and in Handler mode with a value that is no EXC_RETURN. -/
theorem test_witness_PopPcResult : isAligned inRam.sp .word = true ∧
    (∀ k, k < regCount 0xFF + 1 → inRam.Readable (wordAt inRam.sp k) .word .read) ∧ inRam.mode = .thread ∧
    (inHandler.mode = .handler ∧ isAligned inHandler.sp .word = true ∧
      (∀ k, k < regCount 0 + 1 → inHandler.Readable (wordAt inHandler.sp k) .word .read) ∧
      (inHandler.wordOf (wordAt inHandler.sp (regCount 0))).extractLsb' 4 28 ≠ 0xFFFFFFF#28) := by
  unfold State.Readable; decide +kernel

/-- A device in each width at the first and the last addresses of its region; and the sequences of LDM, STM, PUSH and POP, in Thread mode. -/
theorem test_witness_DeviceAccess :
    (let s := regs [(1, 0x40000000), (13, 0x40000100)] start
     s.mode = .thread ∧ s.OnDevice 0x40000000 .word .read ∧ s.OnDevice 0xFFFFFFFC .word .write ∧
     s.OnDevice 0xDFFFFFFE .half .read ∧ s.OnDevice 0xE0100000 .half .write ∧ s.OnDevice 0x5FFFFFFF .byte .read ∧
     s.OnDevice 0xA0000000 .byte .write ∧
     isAligned (s.readLow 1) .word = true ∧ isAligned s.sp .word = true ∧
     isAligned (s.sp - BitVec.ofNat 32 (4 * (regCount 0xFF + 1))) .word = true ∧
     (∀ k, k < regCount 0xFF → s.OnDevice (wordAt (s.readLow 1) k) .word .read) ∧
     (∀ k, k < regCount 0xFF → s.OnDevice (wordAt (s.readLow 1) k) .word .write) ∧
     (∀ k, k < regCount 0xFF + 1 →
       s.OnDevice (wordAt (s.sp - BitVec.ofNat 32 (4 * (regCount 0xFF + 1))) k) .word .write) ∧
     (∀ k, k < regCount 0xFF + 1 → s.OnDevice (wordAt s.sp k) .word .read)) := by
  unfold State.OnDevice; decide +kernel

/-- Any register's address can be in a base register. -/
theorem test_witness_SystemRegisterReads : (regs [(1, 0xE000E100)] start).readLow 1 = 0xE000E100 ∧
    (regs [(1, 0xE000ED20)] start).readLow 1 = 0xE000ED20 := by decide +kernel

theorem test_witness_EffectfulRegisterReads : (regs [(1, 0xE000E010)] start).readLow 1 = 0xE000E010 ∧
    (regs [(1, 0xE000ED04)] start).readLow 1 = 0xE000ED04 ∧ (regs [(1, 0xE000ED0C)] start).readLow 1 = 0xE000ED0C := by
  decide +kernel

theorem test_witness_InterruptRegisterWrites :
    ∀ a : Word, a = 0xE000E100 ∨ a = 0xE000E180 ∨ a = 0xE000E200 ∨ a = 0xE000E400 ∨ a = 0xE000E404 ∨ a = 0xE000E408 →
      (regs [(0, 0x1FF), (1, a)] start).readLow 1 = a ∧ (regs [(0, 0x1FF), (1, a)] start).readLow 0 = 0x1FF := by
  rintro a (rfl | rfl | rfl | rfl | rfl | rfl) <;> decide +kernel

theorem test_witness_ClearPendingRule :
    (let s := regs [(0, 0x1FF), (1, 0xE000E280)] start
     s.readLow 1 = 0xE000E280 ∧ s.readLow 0 = 0x1FF) := by decide +kernel

/-- AIRCR with a wrong key, with the key, and with VECTCLRACTIVE; ICSR with and without a pair of contrary bits. -/
theorem test_witness_SystemControlWrites :
    (let s := regs [(0, 0x05FA0006), (1, 0xE000ED0C), (2, 0x05FA0004), (3, 0x05F90004), (4, 0xE000ED04), (5, 0x18000000)] start
     (s.readLow 3).extractLsb' 16 16 ≠ 0x05FA#16 ∧
     ((s.readLow 2).extractLsb' 16 16 = 0x05FA#16 ∧ (s.readLow 2).getLsbD 1 = false) ∧
     ((s.readLow 0).extractLsb' 16 16 = 0x05FA#16 ∧ (s.readLow 0).getLsbD 1 = true ∧ s.readLow 1 = 0xE000ED0C) ∧
     s.readLow 4 = 0xE000ED04 ∧ ((s.readLow 5).getLsbD 28 && (s.readLow 5).getLsbD 27) = true ∧
     ((0x96000000#32).getLsbD 28 && (0x96000000#32).getLsbD 27) = false ∧
     ((0x94000000#32).getLsbD 26 && (0x94000000#32).getLsbD 25) = false ∧
     ((0x94000000#32).getLsbD 28 && (0x94000000#32).getLsbD 27) = false) := by decide +kernel

theorem test_witness_BranchResult : conditionPassed (nzcv 0b0100 start).flags .eq = true ∧
    conditionPassed start.flags .eq = false := by decide +kernel

theorem test_witness_ConditionsCompare : ∃ t, exec (.cmpReg 0 1) start = .next t := ⟨_, rfl⟩

theorem test_witness_BranchExchangeResult : start.mode = .thread ∧ inHandler.mode = .handler ∧
    (inHandler.readReg 0).extractLsb' 4 28 ≠ 0xFFFFFFF#28 := by decide +kernel

theorem test_witness_MoveFromSpecial : Reg.notSpPc 0 = true ∧ Reg.notSpPc 14 = true ∧ Reg.notSpPc 12 = true := by decide

/-- With room for a frame and a priority above the running code's; and masked. -/
theorem test_witness_SupervisorCall : start.mem.wf = true ∧ start.prio .svCall < start.executionPriority ∧
    start.CanStack .svCall ∧ ({ start with primask := true }).executionPriority ≤ start.prio .svCall := by
  unfold State.CanStack State.Writable State.Readable; decide +kernel

theorem test_witness_UndefinedAndBreakpoint : start.mem.wf = true ∧ start.active.nmi = false ∧
    start.active.hardFault = false ∧ start.CanStack .hardFault ∧ start.platform.debuggerAttached = false ∧
    ({ start with ipsr := 3, active := ExcSet.none.set .hardFault true }).active.hardFault = true ∧
    ({ start with platform := { start.platform with debuggerAttached := true } }).platform.debuggerAttached = true := by
  unfold State.CanStack State.Writable State.Readable; decide +kernel

/-- A stack pointer that is 8-byte aligned, and one that is only word-aligned. -/
theorem test_witness_ExceptionEntryResult : start.mem.wf = true ∧ start.CanStack (.irq 8) ∧ start.CanStack .nmi ∧
    ({ start with msp := 0x20000FFC }).CanStack (.irq 0) ∧ (0x20000FFC#32) &&& 3#32 = 0#32 := by
  unfold State.CanStack State.Writable State.Readable; decide +kernel

/-- The three kinds of return. -/
theorem test_witness_ExceptionReturnResult :
    (∀ k : ReturnKind, k = .threadMain ∨ k = .threadProcess → inHandler.mode = .handler ∧
      Exc.ofNumber inHandler.ipsr = some (.irq 0) ∧ k.fits inHandler.active.count = true ∧
      (∀ j, j < 8 → inHandler.Readable (wordAt (inHandler.returnFrame k) j) .word .unstack) ∧
      (inHandler.deactivate (.irq 0)).stackedIpsrFits k
        ((inHandler.wordOf (wordAt (inHandler.returnFrame k) 7)).extractLsb' 0 6) = true) ∧
    (inNested.mode = .handler ∧ Exc.ofNumber inNested.ipsr = some (.irq 0) ∧
      ReturnKind.handlerMain.fits inNested.active.count = true ∧
      (∀ j, j < 8 → inNested.Readable (wordAt (inNested.returnFrame .handlerMain) j) .word .unstack) ∧
      (inNested.deactivate (.irq 0)).stackedIpsrFits .handlerMain
        ((inNested.wordOf (wordAt (inNested.returnFrame .handlerMain) 7)).extractLsb' 0 6) = true) ∧
    (regs [(0, 0xFFFFFFF9)] inHandler).readReg 0 = 0xFFFFFFF9#32 := by
  refine ⟨?_, ?_, by decide +kernel⟩
  · unfold State.Readable; rintro k (rfl | rfl) <;> decide +kernel
  · unfold State.Readable; decide +kernel

/-- POP of the PC alone, and of eight registers with it. -/
theorem test_witness_PopReturnsFromException :
    ∀ list : RegList, list = 0 ∨ list = 0xFF →
      let s := words [(0x20000F80 + 4 * regCount list, 0xFFFFFFF9)] inHandler
      s.mode = .handler ∧ isAligned s.sp .word = true ∧
        (∀ k, k < regCount list + 1 → s.Readable (wordAt s.sp k) .word .read) ∧
        (s.wordOf (wordAt s.sp (regCount list))).extractLsb' 4 28 = 0xFFFFFFF#28 := by
  unfold State.Readable; rintro list (rfl | rfl) <;> decide +kernel

/-- A reserved value, a return to Handler mode with one active exception, one to Thread mode with two. -/
theorem test_witness_BadReturnsRefused :
    (let s := regs [(0, 0xFFFFFFF0), (1, 0xFFFFFFF1)] inHandler
     s.mode = .handler ∧ (s.readReg 0).extractLsb' 4 28 = 0xFFFFFFF#28 ∧ (s.readReg 0).extractLsb' 0 4 = 0#4 ∧
       (s.readReg 1).extractLsb' 4 28 = 0xFFFFFFF#28 ∧ (s.readReg 1).extractLsb' 0 4 = 0b0001#4 ∧ s.active.count ≤ 1) ∧
    (let s := regs [(0, 0xFFFFFFF9), (1, 0xFFFFFFFD)] inNested
     s.mode = .handler ∧ (s.readReg 0).extractLsb' 4 28 = 0xFFFFFFF#28 ∧ (s.readReg 0).extractLsb' 0 4 = 0b1001#4 ∧
       (s.readReg 1).extractLsb' 0 4 = 0b1101#4 ∧ s.active.count ≠ 1) := by decide +kernel

/-- The start of the single steps meets the invariant. -/
theorem test_start_inv : start.Inv where
  memWf := by decide +kernel
  mspAligned := by decide +kernel
  pspAligned := by decide +kernel
  pcAligned := by decide +kernel
  ipsrLegal := .inl rfl
  handlerOnMain := fun h => absurd rfl h
  hardFaultNotPending := rfl
  svCallNotPending := rfl
  handledIsActive := fun _ _ e h => by rw [show Exc.ofNumber start.ipsr = none by decide +kernel] at h; cases h
  threadIdle := fun _ => rfl
  noTrace := rfl

theorem test_witness_EntryThenReturnRestores : start.Inv ∧ start.lockup = false ∧ start.halted = false ∧
    start.active.get (.irq 8) = false ∧ start.CanStack (.irq 8) ∧
    (∀ k, k < 8 → busError start.platform (wordAt (frameAddress start.sp) k).toNat 4 .unstack = false) ∧
    ∃ t, exceptionEntry (.irq 8) start.pc start = .next t := by
  refine ⟨test_start_inv, ?_, ?_, ?_, ?_, ?_, ⟨_, rfl⟩⟩ <;>
    (try unfold State.CanStack State.Writable State.Readable) <;> decide +kernel

/-- IRQ0 and IRQ1 pending and enabled with equal priority: IRQ0 is the candidate. -/
def twoPending : State := { start with irqEnable := 3, pending := { ExcSet.none with irq := 3 } }

theorem test_witness_ExecutionPriorityRule : inNested.active.get (.irq 0) = true ∧ inNested.active.get .svCall = true ∧
    inNested.executionPriorityNoMask = 0 ∧ start.executionPriorityNoMask = 256 := by decide +kernel

theorem test_witness_CandidateRule : twoPending.candidate = some (.irq 0) ∧ start.candidate = none := by decide +kernel

theorem test_witness_TakenExceptionRule : twoPending.takeable = some (.irq 0) ∧
    ({ start with primask := true, pending := ExcSet.none.set .nmi true }).takeable = some .nmi := by decide +kernel

theorem test_witness_ExceptionTakenBeforeInstruction :
    ProcessorTurn twoPending twoPending.sample ∧ twoPending.sample.halted = false ∧ twoPending.sample.lockup = false ∧
    twoPending.sample.sleeping = false ∧ twoPending.sample.takeable = some (.irq 0) :=
  ⟨.inl ⟨rfl, rfl, rfl⟩, by decide +kernel⟩

/-- Locked up, with and without a pending NMI. -/
theorem test_witness_LockupRule :
    (let s0 := { start with lockup := true, pending := ExcSet.none.set .nmi true }
     ProcessorTurn s0 s0.sample ∧ s0.sample.halted = false ∧ s0.sample.lockup = true ∧ s0.sample.pending.nmi = true ∧
       s0.sample.active.nmi = false) ∧
    (let s0 := { start with lockup := true }
     ProcessorTurn s0 s0.sample ∧ s0.sample.halted = false ∧ s0.sample.lockup = true ∧ s0.sample.pending.nmi = false) :=
  ⟨⟨.inl ⟨rfl, rfl, rfl⟩, by decide +kernel⟩, ⟨.inl ⟨rfl, rfl, rfl⟩, by decide +kernel⟩⟩

/-- Asleep with PRIMASK set: IRQ0 wakes the core; with nothing pending, and inside a handler of the same priority, it sleeps on. -/
theorem test_witness_SleepRule :
    (let s0 := { twoPending with sleeping := true, primask := true }
     ProcessorTurn s0 s0.sample ∧ s0.sample.halted = false ∧ s0.sample.lockup = false ∧ s0.sample.sleeping = true ∧
       s0.sample.candidate = some (.irq 0) ∧ s0.sample.prio (.irq 0) < s0.sample.executionPriorityNoMask) ∧
    ({ start with sleeping := true }.sample).candidate = none ∧
    (let s := { twoPending with sleeping := true, ipsr := 11, active := ExcSet.none.set .svCall true }.sample
     s.candidate = some (.irq 0) ∧ s.executionPriorityNoMask ≤ s.prio (.irq 0)) :=
  ⟨⟨.inl ⟨rfl, rfl, rfl⟩, by decide +kernel⟩, by decide +kernel, by decide +kernel⟩

/-- An enabled timer that counts from 99. -/
def counting : State := { start with sysTick := { start.sysTick with enable := true, tickInt := true, reload := 99 } }

theorem test_witness_SysTickTickRule : ({ counting with schedule := [.tick] }).schedule = .tick :: [] ∧
    counting.sysTick.enable = true ∧ counting.halted = false ∧ start.sysTick.enable = false := by decide +kernel

theorem test_witness_SysTickPeriod : counting.sysTick.enable = true ∧ counting.halted = false ∧
    counting.sysTick.current = 0#24 ∧ 100 ≤ counting.sysTick.reload.toNat + 1 ∧ 1 ≤ counting.sysTick.reload.toNat := by
  decide +kernel

/-- A reset turn, a requested reset, and a reset in the middle of a store, of a step that faults and of one that is refused. -/
theorem test_witness_ResetResult : busError start.platform 0 4 .vector = false ∧ busError start.platform 4 4 .vector = false ∧
    ({ start with schedule := [.reset] }).schedule = .reset :: [] ∧
    ({ start with resetRequested := true }).schedule = [] ∧ ({ start with resetRequested := true }).resetRequested = true ∧
    ({ start with schedule := [.resetMidStep] }).schedule = .resetMidStep :: [] ∧ start.mem.wf = true ∧
    (let midStep := fun s : State => processorStep { s.sample with storeTrace := some [] }
     (∃ u, midStep ((regs [(0, 0x20000000)] start).withFetchWord 16 0x6082) = .next u ∧
       u.storeTrace = some [0x20000008, 0x20000009, 0x2000000A, 0x2000000B]) ∧
     (∃ f, midStep ((regs [(0, 0xE000E100)] start).withFetchWord 16 0x7001) = .fault f) ∧
     (∃ r, midStep (start.withFetchWord 16 0xBF10) = .refused r)) := by
  refine ⟨by decide +kernel, by decide +kernel, rfl, rfl, rfl, rfl, by decide +kernel, ⟨_, rfl, by decide +kernel⟩, ⟨_, rfl⟩,
    ⟨_, rfl⟩⟩

/-- A bus error at the sixth word of HardFault's frame: the lockup keeps the memory and the trace of the stacking stores (60_exceptions.md R427,
70_reset_and_hazards.md R502). -/
theorem test_lockupInEntry_keeps_trace : ∃ t,
    exceptionEntry .hardFault 0 { withErrorAt 0x20000FF4 start with storeTrace := some [] } = .next t ∧
      t.lockup = true ∧ t.mem = start.mem ∧ 0x20000FE0 ∈ t.storeTrace.getD [] := by
  exact ⟨_, rfl, rfl, rfl, by decide +kernel⟩

theorem test_witness_StepKeepsInv : start.Inv ∧ ∃ t, step start = .next t := ⟨test_start_inv, _, rfl⟩

theorem test_witness_PrimaskWriters : ∃ t, exec .cpsid start = .next t ∧ t.primask ≠ start.primask :=
  ⟨_, rfl, by decide⟩

theorem test_witness_ModeChanges : ∃ t, exec (.svc 0) start = .next t ∧ t.ipsr ≠ start.ipsr := ⟨_, rfl, by decide +kernel⟩

/-- Entry: an error at the first word of the frame, at a later one and on the vector; stuck and not. Return: an error at the first and the
last word of a frame, of each kind, with and without one on HardFault's vector. -/
theorem test_witness_BusErrorInEntryOrReturn :
    start.mem.wf = true ∧
    (∀ n, n = 0 ∨ n = 7 →
      let s := withErrorAt (0x20000FE0 + 4 * n) start
      (∀ j, j < n → s.Writable (wordAt (frameAddress s.sp) j) .word .stack) ∧
        s.BusErrorAt (wordAt (frameAddress s.sp) n) .stack ∧
        ¬(s.active.nmi = true ∨ s.active.hardFault = true ∨ busError s.platform 12 4 .vector = true)) ∧
    (let s := withErrorAt 0x60 start
     (∀ j, j < 8 → s.Writable (wordAt (frameAddress s.sp) j) .word .stack) ∧
       busError s.platform (4 * (Exc.irq 8).number.toNat) 4 .vector = true ∧
       ¬(s.active.nmi = true ∨ s.active.hardFault = true ∨ busError s.platform 12 4 .vector = true)) ∧
    (let s := withErrorAt 0xC start
     (∀ j, j < 8 → s.Writable (wordAt (frameAddress s.sp) j) .word .stack) ∧
       busError s.platform (4 * Exc.hardFault.number.toNat) 4 .vector = true) ∧
    (∀ k : ReturnKind, ∀ n, n = 0 ∨ n = 7 → ∀ r : Word × Nat,
      k = .threadMain ∧ r = (0xFFFFFFF9, 0x20000F80) ∨ k = .threadProcess ∧ r = (0xFFFFFFFD, 0x20000880) →
      let s := regs [(0, r.1)] (withErrorAt (r.2 + 4 * n) inHandler)
      s.mode = .handler ∧ Exc.ofNumber s.ipsr = some (.irq 0) ∧ s.readReg 0 = r.1 ∧ k.fits s.active.count = true ∧
        (∀ j, j < n → s.Readable (wordAt (s.returnFrame k) j) .word .unstack) ∧
        s.BusErrorAt (wordAt (s.returnFrame k) n) .unstack ∧ busError s.platform 12 4 .vector = false) ∧
    (let s := regs [(0, 0xFFFFFFF1)] (withErrorAt 0x20000F9C inNested)
     s.mode = .handler ∧ Exc.ofNumber s.ipsr = some (.irq 0) ∧ s.readReg 0 = 0xFFFFFFF1 ∧
       ReturnKind.handlerMain.fits s.active.count = true ∧
       (∀ j, j < 7 → s.Readable (wordAt (s.returnFrame .handlerMain) j) .word .unstack) ∧
       s.BusErrorAt (wordAt (s.returnFrame .handlerMain) 7) .unstack) ∧
    (let s := regs [(0, 0xFFFFFFFD)] { inHandler with platform := busErrorsEverywhere }
     s.readReg 0 = 0xFFFFFFFD ∧ s.BusErrorAt (wordAt (s.returnFrame .threadProcess) 0) .unstack ∧
       busError s.platform 12 4 .vector = true) := by
  refine ⟨by decide +kernel, ?_, ?_, ?_, ?_, ?_, ?_⟩ <;> (try unfold State.BusErrorAt) <;> (try unfold State.Writable) <;>
    (try unfold State.Readable)
  · rintro n (rfl | rfl) <;> decide +kernel
  · decide +kernel
  · decide +kernel
  · rintro k n (rfl | rfl) r (⟨rfl, rfl⟩ | ⟨rfl, rfl⟩) <;> decide +kernel
  · decide +kernel
  · decide +kernel

theorem test_witness_PlatformConstant : ∃ t, step start = .next t := ⟨_, rfl⟩

/-! ### Witnesses of the sequences of accesses, of every form of one access, of the stops and of the other turns -/

/-- The first 64 KB declared to be flash. -/
def withFlash (s : State) : State := { s with platform := { s.platform with flash := [⟨0, 0xFFFF⟩] } }

/-- A word and narrow stores to the first and last addresses of a flash range, each by some form. -/
theorem test_witness_StoreResult_flash :
    let s := withFlash (regs [(1, 0xFFFC), (2, 3)] start)
    (s.Readable 0 .word .write ∧ s.Readable 0xFFFC .word .write ∧ s.Readable 0xFFFF .byte .write ∧ s.Readable 0xFFFE .half .write) ∧
    (inFlash s.platform (0x0#32).toNat = true ∧ inFlash s.platform (0xFFFC#32).toNat = true ∧
      inFlash s.platform (0xFFFF#32).toNat = true ∧ inFlash s.platform (0xFFFE#32).toNat = true) ∧
    WordStore s 0 0 (.strImm 0 0 0) ∧ WordStore s 0xFFFC 3 (.strReg 2 1 0) ∧ NarrowStore s 0xFFFF .byte (.strbReg 0 1 2) ∧
    NarrowStore s 0xFFFE .half (.strhImm 0 1 1) := by
  dsimp only
  refine ⟨by unfold State.Readable; decide +kernel, by decide +kernel, ⟨0, by decide +kernel, .inl ⟨0, 0, rfl, by decide +kernel⟩⟩,
    ⟨2, by decide +kernel, .inr (.inl ⟨1, 0, rfl, by decide +kernel⟩)⟩,
    ⟨0, 1, .inr (.inr ⟨2, by decide +kernel, .inl ⟨rfl, rfl⟩⟩)⟩, ⟨0, 1, .inr (.inl ⟨rfl, 1, rfl, by decide +kernel⟩)⟩⟩

/-- Words of system registers are read, and the address after them holds no register: LDM, POP and POP with the PC from SYST_CSR on. -/
theorem test_witness_readsInOrder :
    let s := regs [(1, 0xE000E010), (13, 0xE000E010)] start
    isAligned (s.readLow 1) .word = true ∧ isAligned s.sp .word = true ∧ s.mode = .thread ∧ s.readLow 1 = s.sp ∧
    (∃ vs u, vs.length = regCount 0x0F ∧ ReadInOrder .read vs s.sp s u) ∧
    (∃ vs v u, vs.length = regCount 0x07 ∧ ReadInOrder .read (vs ++ [v]) s.sp s u) ∧
    ∃ vs u f, vs.length < regCount 0x1F ∧ ReadInOrder .read vs s.sp s u ∧
      memRead u (wordAt s.sp vs.length) .word .read = .fault f := by
  have e : ∃ a b c d u, ReadInOrder .read [a, b, c, d] (0xE000E010 : Word) (regs [(1, 0xE000E010), (13, 0xE000E010)] start) u :=
    ⟨_, _, _, _, _, _, memRead_ppb .systCsr (by decide) (by decide) (by decide), _, memRead_ppb .systRvr (by decide) (by decide) (by decide),
      _, memRead_ppb .systCvr (by decide) (by decide) (by decide), _, memRead_ppb .systCalib (by decide) (by decide) (by decide), rfl⟩
  obtain ⟨a, b, c, d, u, h⟩ := e
  have hs : (regs [(1, 0xE000E010), (13, 0xE000E010)] start).sp = 0xE000E010 := by decide +kernel
  refine ⟨by decide +kernel, by decide +kernel, by decide +kernel, by decide +kernel, ?_, ?_, ?_⟩ <;> rw [hs]
  · exact ⟨[a, b, c, d], _, (by decide : 4 = regCount 0x0F), h⟩
  · exact ⟨[a, b, c], d, _, (by decide : 3 = regCount 0x07), h⟩
  · exact ⟨[a, b, c, d], _, _, (by decide : 4 < regCount 0x1F), h,
      memRead_noRegister (by show NoRegisterAt (wordAt 0xE000E010 4); unfold NoRegisterAt; decide +kernel) _ _⟩

/-- The words of STM and PUSH are taken by the SysTick registers, whatever they are; the fifth is stopped at an address without one; the first by flash. -/
theorem test_witness_writesInOrder :
    let s := regs [(1, 0xE000E010), (13, 0xE000E020)] start
    let s5 := regs [(13, 0xE000E024)] start
    isAligned (s.readLow 1) .word = true ∧ regCount 0x0F = 4 ∧
    (∀ (s : State) (a b c d : Word), ∃ u, WrittenInOrder .write [a, b, c, d] 0xE000E010 s u) ∧
    (s.sp - BitVec.ofNat 32 (4 * (regCount 0x1D + 0)) = 0xE000E010 ∧ PushWords s false 0x1D [0, 0, 0, 0]) ∧
    (s.sp - BitVec.ofNat 32 (4 * (regCount 0x0D + 1)) = 0xE000E010 ∧ PushWords s true 0x0D [0, 0, 0, s.lr]) ∧
    (s5.sp - BitVec.ofNat 32 (4 * (regCount 0x1F + 0)) = 0xE000E010 ∧ PushWords s5 false 0x1F [0, 0, 0, 0, 0]) ∧
    (∀ (u : State) (v : Word), ∃ f, memWrite u (wordAt 0xE000E010 4) .word v .write = .fault f) ∧
    ∀ v : Word, ∃ r, memWrite (withFlash s) (wordAt 0 0) .word v .write = .refused r := by
  refine ⟨by decide +kernel, by decide, fun s a b c d => ⟨_, _, memWrite_ppb .systCsr (by decide) (by decide) (by decide),
    _, memWrite_ppb .systRvr (by decide) (by decide) (by decide), _, memWrite_ppb .systCvr (by decide) (by decide) (by decide),
    _, memWrite_ppb .systCalib (by decide) (by decide) (by decide), rfl⟩, ?_, ?_, ?_, fun u v =>
    ⟨_, memWrite_noRegister (by unfold NoRegisterAt; decide +kernel) _ _ _⟩, fun v =>
    ⟨_, memWrite_flash (by unfold State.Readable; decide +kernel) (by decide +kernel) _⟩⟩ <;>
  unfold PushWords <;> decide +kernel

/-- Word forms of each kind at a register and at an address without one; narrow forms at the bus's ends. -/
theorem test_witness_systemRegisterForms :
    let s := regs [(1, 0xE000E100), (2, 0xE000E000), (3, 0x100), (13, 0xE000E100)] start
    (WordLoad s 0 0xE000E100 (.ldrImm 0 1 0) ∧ WordLoad s 0 0xE000E100 (.ldrReg 0 2 3) ∧
      WordLoad s 0 0xE000E100 (.ldrSp 0 0) ∧ WordLoad { s with pc := 0xE000E0F2 } 0 0xE000E100 (.ldrLit 0 3)) ∧
    (WordStore s 0xE000E100 0x100 (.strImm 3 1 0) ∧ WordStore s 0xE000E100 0x100 (.strReg 3 2 3) ∧
      WordStore s 0xE000E100 0x100 (.strSp 3 0)) ∧
    (s.readLow 1 = 0xE000E100 ∧ s.readLow 3 = 0x100 ∧ s.sp = 0xE000E100 ∧ s.mode = .thread ∧
      (regs [(13, 0xE000E104)] s).sp - 4#32 = 0xE000E100) ∧
    (∀ a : Word, a = 0xE0000000 ∨ a = 0xE000E020 ∨ a = 0xE000ED08 ∨ a = 0xE00FFFFC → NoRegisterAt a) ∧
    (WordLoad s 0 0xE000E120 (.ldrImm 0 1 8) ∧ WordStore s 0xE000E120 0x100 (.strImm 3 1 8)) ∧
    (regionOf (0xE0000000#32).toNat = .ppb ∧ regionOf (0xE00FFFFF#32).toNat = .ppb ∧ regionOf (0xE00FFFFE#32).toNat = .ppb) ∧
    (NarrowLoad s 0xE000E103 .byte (.ldrbImm 0 1 3) ∧ NarrowLoad s 0xE000E100 .half (.ldrshReg 0 2 3) ∧
      NarrowStore s 0xE000E103 .byte (.strbImm 0 1 3) ∧ NarrowStore s 0xE000E100 .half (.strhReg 0 2 3)) := by
  dsimp only
  refine ⟨⟨.inl ⟨1, 0, rfl, by decide +kernel⟩, .inr (.inl ⟨2, 3, rfl, by decide +kernel⟩), .inr (.inr (.inl ⟨0, rfl, by decide +kernel⟩)),
      .inr (.inr (.inr ⟨3, rfl, by decide +kernel⟩))⟩,
    ⟨⟨3, by decide +kernel, .inl ⟨1, 0, rfl, by decide +kernel⟩⟩, ⟨3, by decide +kernel, .inr (.inl ⟨2, 3, rfl, by decide +kernel⟩)⟩,
      ⟨3, by decide +kernel, .inr (.inr ⟨0, rfl, by decide +kernel⟩)⟩⟩, by decide +kernel, ?_,
    ⟨.inl ⟨1, 8, rfl, by decide +kernel⟩, ⟨3, by decide +kernel, .inl ⟨1, 8, rfl, by decide +kernel⟩⟩⟩, by decide +kernel,
    ⟨0, 1, .inl ⟨rfl, 3, rfl, by decide +kernel⟩⟩, ⟨0, 2, .inr (.inr ⟨3, by decide +kernel, .inr ⟨rfl, .inr rfl⟩⟩)⟩,
    ⟨0, 1, .inl ⟨rfl, 3, rfl, by decide +kernel⟩⟩, ⟨0, 2, .inr (.inr ⟨3, by decide +kernel, .inr ⟨rfl, rfl⟩⟩)⟩⟩
  unfold NoRegisterAt
  rintro a (rfl | rfl | rfl | rfl) <;> decide +kernel

/-- A frame that meets flash at its first word and at a later one, and one that meets an address without a register: at its first word, and after
devices. -/
theorem test_witness_ExceptionEntryResult_stops :
    (let s := withFlash (regs [(13, 0x1000)] start)
     s.Readable (wordAt (frameAddress s.sp) 0) .word .stack ∧ inFlash s.platform (wordAt (frameAddress s.sp) 0).toNat = true) ∧
    (let s := { regs [(13, 0x20001000)] start with platform := { start.platform with flash := [⟨0x20000FF0, 0x20000FFF⟩] } }
     (∀ j, j < 4 → s.Writable (wordAt (frameAddress s.sp) j) .word .stack) ∧ s.Readable (wordAt (frameAddress s.sp) 4) .word .stack ∧
       inFlash s.platform (wordAt (frameAddress s.sp) 4).toNat = true) ∧
    NoRegisterAt (wordAt (frameAddress 0xE0100000) 0) ∧
    (let s := regs [(13, 0xE0000010)] start
     (∀ j, j < 4 → s.OnDevice (wordAt (frameAddress s.sp) j) .word .stack) ∧ NoRegisterAt (wordAt (frameAddress s.sp) 4)) := by
  unfold State.Writable State.Readable State.OnDevice NoRegisterAt; decide +kernel

/-- The bad returns by BX and by POP of a list; a stacked IPSR that does not fit, for each kind of return: a frame to Handler mode that names Thread mode,
the exception returned from, or one that is not active; a frame to Thread mode, on either stack, that names an exception. -/
theorem test_witness_BadReturnsRefused_forms :
    (∀ v : Word, v = 0xFFFFFFF0 ∨ v = 0xFFFFFFF1 →
      let s := words [(0x20000F80, 0), (0x20000F84, v)] (regs [(0, v)] inHandler)
      s.mode = .handler ∧ ReturnsBy (.bx 0) s v 0x20000F80 ∧ ReturnsBy (.pop true 0x80) s v 0x20000F88 ∧
        v.extractLsb' 4 28 = 0xFFFFFFF#28 ∧ s.active.count ≤ 1) ∧
    (∀ n : Word, n = 0 ∨ n = 16 ∨ n = 17 →
      let s := words [(0x20000F9C, n)] (regs [(0, 0xFFFFFFF1)] inNested)
      s.mode = .handler ∧ ReturnsBy (.bx 0) s 0xFFFFFFF1 0x20000F80 ∧
        (∀ k, k < 8 → s.Readable (wordAt 0x20000F80 k) .word .unstack) ∧
        ∀ e, Exc.ofNumber ((s.wordOf (wordAt 0x20000F80 7)).extractLsb' 0 6) = some e →
          s.active.get e = false ∨ e.number = s.ipsr) ∧
    (let s := words [(0x20000F80, 0xFFFFFFF9), (0x20000FA0, 11), (0x2000089C, 11)] (regs [(0, 0xFFFFFFFD)] inHandler)
     s.mode = .handler ∧ ReturnsBy (.pop true 0) s 0xFFFFFFF9 0x20000F84 ∧ ReturnsBy (.bx 0) s 0xFFFFFFFD 0x20000F80 ∧
       s.psp = 0x20000880 ∧ (∀ k, k < 8 → s.Readable (wordAt 0x20000F84 k) .word .unstack) ∧
       (∀ k, k < 8 → s.Readable (wordAt 0x20000880 k) .word .unstack) ∧
       (s.wordOf (wordAt 0x20000F84 7)).extractLsb' 0 6 ≠ 0#6 ∧ (s.wordOf (wordAt 0x20000880 7)).extractLsb' 0 6 ≠ 0#6) := by
  refine ⟨?_, ?_, ?_⟩
  · rintro v (rfl | rfl) <;> dsimp only <;>
    exact ⟨by decide +kernel, .inl ⟨0, rfl, by decide +kernel, by decide +kernel⟩,
      .inr ⟨0x80, rfl, by decide +kernel, by unfold State.Readable; decide +kernel, by decide +kernel, by decide +kernel⟩,
      by decide +kernel, by decide +kernel⟩
  · rintro n (rfl | rfl | rfl) <;> dsimp only <;>
    refine ⟨by decide +kernel, .inl ⟨0, rfl, by decide +kernel, by decide +kernel⟩, by unfold State.Readable; decide +kernel, ?_⟩
    · intro e h
      exact absurd h (by rw [show Exc.ofNumber _ = none by decide +kernel]; exact nofun)
    · intro e h
      obtain rfl : Exc.irq 0 = e := Option.some.inj ((show _ = some (Exc.irq 0) by decide +kernel).symm.trans h)
      exact .inr (by decide +kernel)
    · intro e h
      obtain rfl : Exc.irq 1 = e := Option.some.inj ((show _ = some (Exc.irq 1) by decide +kernel).symm.trans h)
      exact .inl (by decide +kernel)
  · exact ⟨by decide +kernel,
      .inr ⟨0, rfl, by decide +kernel, by unfold State.Readable; decide +kernel, by decide +kernel, by decide +kernel⟩,
      .inl ⟨0, rfl, by decide +kernel, by decide +kernel⟩, by decide +kernel, by unfold State.Readable; decide +kernel,
      by unfold State.Readable; decide +kernel, by decide +kernel, by decide +kernel⟩

/-- The turns of a debugger, with and without one attached, of a wake-up and of the lines; a halted core. -/
theorem test_witness_turns :
    (let s := { start with
       schedule := [.debugEntry], lockup := true, sleeping := true, platform := { start.platform with debuggerAttached := true } }
     s.schedule = .debugEntry :: [] ∧ s.platform.debuggerAttached = true) ∧
    ({ start with schedule := [.debugEntry], sleeping := true }).platform.debuggerAttached = false ∧
    (let s0 := { start with halted := true }
     ProcessorTurn s0 s0.sample ∧ s0.sample.halted = true) ∧
    ({ start with schedule := [.wake], sleeping := true }).schedule = .wake :: [] ∧
    ({ start with schedule := [.lines 1 true] }).schedule = .lines 1 true :: [] :=
  ⟨⟨rfl, rfl⟩, rfl, ⟨.inl ⟨rfl, rfl, rfl⟩, rfl⟩, rfl, rfl⟩

/-- Both resets between steps, and bus errors on either word of the vector table. -/
theorem test_witness_ResetResult_stops :
    ResetNext { start with schedule := [.reset] } [] ∧ ResetNext { start with resetRequested := true } [] ∧
    (∀ a : Nat, a = 0 ∨ a = 4 →
      let p := (withErrorAt a start).platform
      busError p 0 4 .vector = true ∨ busError p 4 4 .vector = true) :=
  ⟨.inl rfl, .inr ⟨rfl, rfl, rfl⟩, by rintro a (rfl | rfl) <;> decide +kernel⟩

/-- A step that changes PRIMASK: of CPSID, and resets of either kind. -/
theorem test_witness_PrimaskWriters_steps :
    (∃ t, step (start.withFetchWord 16 0xB672) = .next t ∧ t.primask ≠ (start.withFetchWord 16 0xB672).primask) ∧
    (∀ turn : Turn, turn = .reset ∨ turn = .resetMidStep →
      ∃ t, step { start with primask := true, schedule := [turn] } = .next t ∧ t.primask ≠ true) := by
  refine ⟨⟨_, rfl, by decide +kernel⟩, ?_⟩
  rintro turn (rfl | rfl)
  · exact ⟨_, rfl, by decide +kernel⟩
  · exact ⟨_, rfl, by decide +kernel⟩

/-- A step that changes IPSR: an exception taken, an NMI ending a lockup, an SVC, an Undefined instruction, a return, and a reset. -/
theorem test_witness_ModeChanges_steps :
    ∀ s : State, s = twoPending ∨ s = { start with lockup := true, pending := ExcSet.none.set .nmi true } ∨
        s = start.withFetchWord 16 0xDF00 ∨ s = start.withFetchWord 16 0xB100 ∨
        s = (regs [(0, 0xFFFFFFF9)] inHandler).withFetchWord 16 0x4700 ∨ s = { inHandler with schedule := [.reset] } →
      ∃ t, step s = .next t ∧ t.ipsr ≠ s.ipsr := by
  rintro s (rfl | rfl | rfl | rfl | rfl | rfl) <;> exact ⟨_, rfl, by decide +kernel⟩

end Sys2Proof.Tests
end

section
/-! The choice among the pending exceptions (spec/60_exceptions.md R411, R412) and the clearing of pending bits by software (R465). -/

namespace Sys2Proof.Machine

/-! ### Clearing pending bits by software -/

/-- R465 for one bit: software clears it unless the line is level-sensitive and still asserted. -/
theorem clearPendingIrqs_bit (s : State) (v : BitVec 9) {m : Nat} (hm : m < 9) :
    (s.clearPendingIrqs v).pending.irq.getLsbD m =
      if v.getLsbD m && !(!s.platform.irqPulse.getLsbD m && s.irqLine.getLsbD m) then false
      else s.pending.irq.getLsbD m := by
  simp only [State.clearPendingIrqs, BitVec.getLsbD_and, BitVec.getLsbD_not, hm, decide_true, Bool.true_and]
  split
  case isTrue cleared => rw [cleared, Bool.not_true, Bool.and_false]
  case isFalse kept => rw [Bool.eq_false_of_not_eq_true kept, Bool.not_false, Bool.and_true]

/-- Bit m of a word is bit m of the part of it that stands for the interrupts. -/
theorem irqBits_bit (v : Word) {m : Nat} (hm : m < 9) : (v.extractLsb' 0 9).getLsbD m = v.getLsbD m := by
  simp [hm]

/-- Settles O28: a word written at ICPR's address is the clearing of the interrupts whose bits it sets. -/
theorem clearPendingRule : Obligations.ClearPendingRule := by
  intro s v
  have store : memWrite s 0xE000E280#32 .word v .write = .ok () (s.clearPendingIrqs (v.extractLsb' 0 9)) :=
    memWrite_ppb .icpr (by decide) (by decide) (by decide)
  refine ⟨_, RegisterWrites.of_access (by decide) store, fun m hm => ?_⟩
  rw [← irqBits_bit v hm]
  exact clearPendingIrqs_bit s _ hm

/-! ### The candidate -/

/-- e comes before every other exception of the list: by its priority value, or by its number at the same value (R412). -/
def State.MostUrgentOf (s : State) (l : List Exc) (e : Exc) : Prop :=
  e ∈ l ∧ ∀ f ∈ l, s.prio e < s.prio f ∨ (s.prio e = s.prio f ∧ e.number.toNat ≤ f.number.toNat)

/-- One more exception, of a larger number than all before it, leaves the choice the most urgent one. -/
theorem moreUrgent_mostUrgentOf {s : State} {l : List Exc} {b x : Exc} (hb : s.MostUrgentOf l b)
    (hx : ∀ f ∈ l, f.number.toNat < x.number.toNat) :
    ∃ e, s.moreUrgent (some b) x = some e ∧ s.MostUrgentOf (l ++ [x]) e := by
  obtain ⟨mem, least⟩ := hb
  by_cases hlt : s.prio x < s.prio b
  · refine ⟨x, by simp [State.moreUrgent, hlt], by simp, fun f hf => ?_⟩
    obtain hf | rfl : f ∈ l ∨ f = x := by simpa using hf
    · have := least f hf
      omega
    · exact .inr ⟨rfl, le_rfl⟩
  · refine ⟨b, by simp [State.moreUrgent, hlt], by simp [mem], fun f hf => ?_⟩
    obtain hf | rfl : f ∈ l ∨ f = x := by simpa using hf
    · exact least f hf
    · have := hx b mem
      omega

/-- Over a list by rising number, `moreUrgent` chooses nothing exactly from the empty list, and else the most urgent exception. -/
theorem foldl_moreUrgent_spec (s : State) {l : List Exc} (hl : l.Pairwise fun e f => e.number.toNat < f.number.toNat) :
    (l.foldl s.moreUrgent none = none ∧ l = []) ∨ ∃ e, l.foldl s.moreUrgent none = some e ∧ s.MostUrgentOf l e := by
  induction l using List.reverseRecOn with
  | nil => exact .inl ⟨rfl, rfl⟩
  | append_singleton l x ih =>
    obtain ⟨sorted, -, before⟩ := List.pairwise_append.mp hl
    simp only [List.foldl_append, List.foldl_cons, List.foldl_nil]
    right
    obtain ⟨none_eq, rfl⟩ | ⟨b, some_eq, most⟩ := ih sorted
    · exact ⟨x, rfl, by simp [State.MostUrgentOf]⟩
    · rw [some_eq]
      exact moreUrgent_mostUrgentOf most fun f hf => before f hf x (by simp)

theorem all_sorted : Exc.all.Pairwise fun e f => e.number.toNat < f.number.toNat := by decide

/-- The exceptions among which the candidate is chosen. -/
theorem mem_pendingEnabled {s : State} {e : Exc} :
    e ∈ (Exc.all.filter fun e => s.pending.get e && s.excEnabled e) ↔ s.pending.get e = true ∧ s.excEnabled e = true := by
  simp [mem_all]

/-- What `candidate` answers (R412). -/
theorem candidate_spec (s : State) :
    (s.candidate = none ∧ ∀ e, ¬(s.pending.get e = true ∧ s.excEnabled e = true)) ∨
    ∃ e, s.candidate = some e ∧ s.pending.get e = true ∧ s.excEnabled e = true ∧
      ∀ f, s.pending.get f = true → s.excEnabled f = true →
        s.prio e < s.prio f ∨ (s.prio e = s.prio f ∧ e.number.toNat ≤ f.number.toNat) := by
  obtain ⟨none_eq, empty⟩ | ⟨e, some_eq, mem, least⟩ := foldl_moreUrgent_spec s (all_sorted.filter _)
  · refine .inl ⟨none_eq, fun e he => ?_⟩
    simpa [empty] using mem_pendingEnabled.mpr he
  · obtain ⟨pending, enabled⟩ := mem_pendingEnabled.mp mem
    exact .inr ⟨e, some_eq, pending, enabled, fun f hp he => least f (mem_pendingEnabled.mpr ⟨hp, he⟩)⟩

theorem takeable_eq_some_iff {s : State} {e : Exc} :
    s.takeable = some e ↔ s.candidate = some e ∧ s.prio e < s.executionPriority := by
  unfold State.takeable
  cases s.candidate with
  | none => simp
  | some c =>
    simp only [Option.ite_none_right_eq_some, Option.some.injEq]
    constructor
    · rintro ⟨h, rfl⟩; exact ⟨rfl, h⟩
    · rintro ⟨rfl, h⟩; exact ⟨h, rfl⟩

/-! ### The execution priority -/

theorem le_foldl_min_iff {α : Type} (f : α → Int) (l : List α) (a c : Int) :
    c ≤ l.foldl (fun p x => min p (f x)) a ↔ c ≤ a ∧ ∀ x ∈ l, c ≤ f x := by
  induction l generalizing a with
  | nil => simp
  | cons x l ih => simp [ih, and_assoc]

/-- No active exception has a priority value below the execution priority (R411). -/
theorem executionPriority_le_prio {s : State} {e : Exc} (h : s.active.get e = true) : s.executionPriority ≤ s.prio e := by
  have noMask : s.executionPriorityNoMask ≤ s.prio e :=
    ((le_foldl_min_iff ..).mp le_rfl).2 e (by simp [mem_all, h])
  unfold State.executionPriority
  split
  · exact (min_le_left ..).trans noMask
  · exact noMask

/-- Settles O46: the first two parts are what `candidate` answers; an active exception bounds the execution priority, so it cannot be
taken. -/
theorem candidateRule : Obligations.CandidateRule := by
  intro s
  refine ⟨?_, ?_, fun e => takeable_eq_some_iff, fun e active taken => ?_⟩
  · obtain ⟨none_eq, unpending⟩ | ⟨e, some_eq, pending, enabled, -⟩ := candidate_spec s
    · exact iff_of_true none_eq unpending
    · exact iff_of_false (by simp [some_eq]) fun h => h e ⟨pending, enabled⟩
  · intro e he
    obtain ⟨none_eq, -⟩ | ⟨c, some_eq, rule⟩ := candidate_spec s
    · simp [none_eq] at he
    · obtain rfl : c = e := Option.some.inj (some_eq.symm.trans he)
      exact rule
  · exact (takeable_eq_some_iff.mp taken).2.not_ge (executionPriority_le_prio active)

end Sys2Proof.Machine
end

section
/-! The decoder and the encoder are inverse to each other (spec/30_encoding.md Parts 2 and 3). -/

namespace Sys2Proof.Machine

/-! ### Fields of a concatenation -/

/-- A field that lies in the upper part of a concatenation. -/
theorem extract_high {n m : Nat} (x : BitVec n) (y : BitVec m) {a l : Nat} (h : m ≤ a) :
    (HAppend.hAppend (γ := no_index (BitVec (n + m))) x y).extractLsb' a l = x.extractLsb' (a - m) l :=
  BitVec.extractLsb'_append_eq_of_le h

/-- A field that lies in the lower part of a concatenation. -/
theorem extract_low {n m : Nat} (x : BitVec n) (y : BitVec m) {a l : Nat} (h : a + l ≤ m) :
    (HAppend.hAppend (γ := no_index (BitVec (n + m))) x y).extractLsb' a l = y.extractLsb' a l :=
  BitVec.extractLsb'_append_eq_of_add_le h

/-- The four-bit register number that `hireg` splits is put together again. -/
theorem split_reg (r : Reg) : (r.extractLsb' 3 1 ++ r.extractLsb' 0 3 : Reg) = r :=
  BitVec.extractLsb'_append_extractLsb' (w := 1) (len := 3)

theorem ofNumber_specialReg (sr : SpecialReg) : SpecialReg.ofNumber sr.number = some sr := by cases sr <;> rfl

/-! ### Decoding what is encoded -/

theorem decodeBytes_short {h : Half} (short : isLongHalf h = false) (rest : List Byte) :
    decodeBytes (bytesOfHalves [h] ++ rest) = (decode16 h, rest) := by
  simp only [bytesOfHalves, List.cons_append, List.nil_append, decodeBytes, half_of_bytes]
  simp [short]

theorem decodeBytes_long {h1 h2 : Half} (long : isLongHalf h1 = true) (rest : List Byte) :
    decodeBytes (bytesOfHalves [h1, h2] ++ rest) = (decode32 h1 h2, rest) := by
  simp only [bytesOfHalves, List.cons_append, List.nil_append, decodeBytes, half_of_bytes]
  simp [long]

/-- A short instruction is written as one halfword, which decodes to it. -/
theorem decode16_encode {i : Instr} (wf : i.wellFormed = true) (short : i.isLong = false) :
    ∃ h, encode i = [h] ∧ isLongHalf h = false ∧ decode16 h = .instr i := by
  cases i with
  | bl | msr | mrs | dsb | dmb | isb | udfW => cases short
  | lslsImm | movsReg | lsrsImm | asrsImm | addsReg | subsReg | addsImm3 | subsImm3 | movsImm | cmpImm | addsImm8
  | subsImm8 =>
    refine ⟨_, rfl, ?_, ?_⟩ <;>
      simp_all [isLongHalf, decode16, decodeShiftAddSub, imm5Format, threeRegFormat, imm8Format, low, imm5Of, imm8Of,
        Instr.wellFormed, extract_high, extract_low, -BitVec.extractLsb'_toNat]
  | ands | eors | lslsReg | lsrsReg | asrsReg | adcs | sbcs | rors | tst | rsbs | cmpReg | cmn | orrs | muls | bics
  | mvns =>
    refine ⟨_, rfl, ?_, ?_⟩ <;>
      simp [isLongHalf, decode16, decodeDataProcessing, dpFormat, low, extract_high, extract_low,
        -BitVec.extractLsb'_toNat]
  | addHigh | cmpHigh | mov | bx | blx =>
    refine ⟨_, rfl, ?_, ?_⟩ <;>
      simp [isLongHalf, decode16, decodeSpecial, hireg, splitReg, rm4, Decoded.guard, wf, split_reg, extract_high,
        extract_low, -BitVec.extractLsb'_toNat]
  | strReg | strhReg | strbReg | ldrsbReg | ldrReg | ldrhReg | ldrbReg | ldrshReg =>
    refine ⟨_, rfl, ?_, ?_⟩ <;>
      simp [isLongHalf, decode16, decodeLoadStoreReg, threeRegFormat, low, extract_high, extract_low,
        -BitVec.extractLsb'_toNat]
  | ldrLit | strImm | ldrImm | strbImm | ldrbImm | strhImm | ldrhImm | strSp | ldrSp | adr | addRdSp =>
    refine ⟨_, rfl, ?_, ?_⟩ <;>
      simp [isLongHalf, decode16, decodeLoadStoreImm, imm5Format, imm8Format, low, imm5Of, imm8Of, extract_high,
        extract_low, -BitVec.extractLsb'_toNat]
  | addSpImm | subSpImm | sxth | sxtb | uxth | uxtb | cpsie | cpsid | rev | rev16 | revsh | bkpt | nop | yield | wfe | wfi
  | sev =>
    refine ⟨_, rfl, ?_, ?_⟩ <;>
      simp [isLongHalf, decode16, decodeMisc, decodeCps, decodeHint, twoRegFormat, low, imm8Of, extract_high,
        extract_low, -BitVec.extractLsb'_toNat]
  | push p list | pop p list =>
    refine ⟨_, rfl, ?_, ?_⟩ <;> cases p <;>
      simp_all [isLongHalf, decode16, decodeMisc, bitOf, imm8Of, Decoded.guard, Instr.wellFormed, extract_high,
        extract_low, -BitVec.extractLsb'_toNat]
  | stm | ldm =>
    refine ⟨_, rfl, ?_, ?_⟩ <;>
      simp [isLongHalf, decode16, decodeMultiple, imm8Format, low, imm8Of, Decoded.guard, wf, extract_high, extract_low,
        -BitVec.extractLsb'_toNat]
  | bCond c imm8 =>
    refine ⟨_, rfl, ?_, ?_⟩ <;> cases c <;>
      simp [isLongHalf, decode16, decodeCondBranch, Cond.number, Cond.ofNumber, imm8Of, extract_high, extract_low,
        -BitVec.extractLsb'_toNat]
  | udf | svc | b =>
    refine ⟨_, rfl, ?_, ?_⟩ <;>
      simp [isLongHalf, decode16, decodeCondBranch, Cond.ofNumber, imm8Of, extract_high, extract_low,
        -BitVec.extractLsb'_toNat]

/-- NOT (J EOR S) gives back I from J = NOT (I EOR S) (R147). -/
theorem not_xor_not_xor (i s : BitVec 1) : ~~~(~~~(i ^^^ s) ^^^ s) = i := by
  revert i s; decide

/-- The parts of BL's offset are put together again. -/
theorem split_imm24 (v : BitVec 24) :
    (v.extractLsb' 23 1 ++ v.extractLsb' 22 1 ++ v.extractLsb' 21 1 ++ v.extractLsb' 11 10 ++ v.extractLsb' 0 11 : BitVec 24) = v := by
  rw [BitVec.extractLsb'_append_extractLsb'_eq_extractLsb' (by rfl), BitVec.extractLsb'_append_extractLsb'_eq_extractLsb' (by rfl),
    BitVec.extractLsb'_append_extractLsb'_eq_extractLsb' (by rfl), BitVec.extractLsb'_append_extractLsb'_eq_extractLsb' (by rfl)]
  exact BitVec.extractLsb'_eq_self

/-- The parts of UDF.W's immediate are put together again. -/
theorem split_imm16 (v : BitVec 16) : (v.extractLsb' 12 4 ++ v.extractLsb' 0 12 : BitVec 16) = v :=
  BitVec.extractLsb'_append_extractLsb' (w := 4) (len := 12)

/-- A long instruction is written as two halfwords, which decode to it. -/
theorem decode32_encode {i : Instr} (wf : i.wellFormed = true) (long : i.isLong = true) :
    ∃ h1 h2, encode i = [h1, h2] ∧ isLongHalf h1 = true ∧ decode32 h1 h2 = .instr i := by
  cases i with
  | bl imm24 =>
    refine ⟨_, _, rfl, ?_, ?_⟩ <;>
      simp [isLongHalf, decode32, decodeBl, not_xor_not_xor, split_imm24, extract_high, extract_low, -BitVec.extractLsb'_toNat]
  | msr | mrs =>
    refine ⟨_, _, rfl, ?_, ?_⟩ <;>
      simp [isLongHalf, decode32, decodeMsr, decodeMrs, ofNumber_specialReg, Decoded.guard, wf, extract_high, extract_low, -BitVec.extractLsb'_toNat]
  | dsb | dmb | isb =>
    refine ⟨_, _, rfl, ?_, ?_⟩ <;>
      simp [isLongHalf, decode32, decodeBarrier, Decoded.guard, extract_high, extract_low, -BitVec.extractLsb'_toNat]
  | udfW imm16 =>
    refine ⟨_, _, rfl, ?_, ?_⟩ <;>
      simp [isLongHalf, decode32, split_imm16, extract_high, extract_low, -BitVec.extractLsb'_toNat]
  | _ => cases long

/-- Settles O1: a short instruction decodes from its one halfword, a long one from its two. -/
theorem decodeOfEncode : Obligations.DecodeOfEncode := by
  intro i rest wf
  cases size : i.isLong with
  | false =>
    obtain ⟨h, enc, short, dec⟩ := decode16_encode wf size
    rw [enc, decodeBytes_short short, dec]
  | true =>
    obtain ⟨h1, h2, enc, long, dec⟩ := decode32_encode wf size
    rw [enc, decodeBytes_long long, dec]

end Sys2Proof.Machine
end

section
namespace Sys2Proof.Machine

/-! ### Encoding what is decoded -/

/-- The number of a concatenation. -/
theorem toNat_concat {n m : Nat} (x : BitVec n) (y : BitVec m) :
    (HAppend.hAppend (γ := no_index (BitVec (n + m))) x y).toNat = x.toNat * 2 ^ m + y.toNat := by
  rw [BitVec.toNat_append, ← Nat.shiftLeft_add_eq_or_of_lt y.isLt, Nat.shiftLeft_eq]

theorem number_of_ofNumber_cond {n : BitVec 4} {c : Cond} (h : Cond.ofNumber n = some c) : c.number = n := by
  revert h; revert c n; decide

theorem number_of_ofNumber_specialReg {n : BitVec 8} {sr : SpecialReg} (h : SpecialReg.ofNumber n = some sr) :
    sr.number = n := by
  unfold SpecialReg.ofNumber at h
  split at h <;> cases h <;> exact (BitVec.eq_of_toNat_eq ‹_›).symm

theorem guard_eq_instr {ok : Bool} {why : Reject} {i j : Instr} :
    Decoded.guard ok why i = .instr j ↔ ok = true ∧ i = j := by
  cases ok <;> simp [Decoded.guard]

/-- `i` is a well-formed instruction and `hs` its encoding. -/
def Encodes (hs : List Half) (i : Instr) : Prop := i.wellFormed = true ∧ encode i = hs

/-- The encoding is `w` when it has the same number. -/
theorem Encodes.of_toNat {w h : Half} {i : Instr} (wf : i.wellFormed = true) (enc : encode i = [h])
    (eq : h.toNat = w.toNat) : Encodes [w] i :=
  ⟨wf, by rw [enc, BitVec.eq_of_toNat_eq eq]⟩

theorem decodeShiftAddSub_encodes {w : Half} {i : Instr} (hclass : w.toNat / 2048 < 8)
    (h : decodeShiftAddSub w = .instr i) : Encodes [w] i := by
  unfold decodeShiftAddSub at h
  dsimp only at h
  split at h
  case h_1 =>
    split at h <;> cases h <;> refine .of_toNat (by simp_all [Instr.wellFormed]) rfl ?_ <;>
      simp_all [imm5Format, low, imm5Of, toNat_concat, Nat.shiftRight_eq_div_pow, ← BitVec.toNat_inj] <;> omega
  case h_4 =>
    split at h <;> cases h <;> refine .of_toNat rfl rfl ?_ <;>
      simp [threeRegFormat, low, toNat_concat, Nat.shiftRight_eq_div_pow] at * <;> omega
  all_goals
    cases h
    refine .of_toNat rfl rfl ?_
    simp [imm5Format, imm8Format, low, imm5Of, imm8Of, toNat_concat, Nat.shiftRight_eq_div_pow] at *
    omega

theorem decodeDataProcessing_encodes {w : Half} {i : Instr} (hclass : w.toNat / 1024 = 16)
    (h : decodeDataProcessing w = .instr i) : Encodes [w] i := by
  unfold decodeDataProcessing at h
  dsimp only at h
  split at h <;> cases h <;> refine .of_toNat rfl rfl ?_ <;>
    simp [dpFormat, low, toNat_concat, Nat.shiftRight_eq_div_pow] at * <;> omega

theorem toNat_hireg (op : BitVec 2) (w : Half) :
    (hireg op (splitReg w) (rm4 w)).toNat = 17 * 1024 + op.toNat * 256 + w.toNat % 256 := by
  simp [hireg, splitReg, rm4, extract_high, extract_low, toNat_concat, Nat.shiftRight_eq_div_pow]
  omega

theorem decodeSpecial_encodes {w : Half} {i : Instr} (hclass : w.toNat / 1024 = 17)
    (h : decodeSpecial w = .instr i) : Encodes [w] i := by
  unfold decodeSpecial at h
  dsimp only at h
  split at h
  case h_1 =>
    obtain ⟨wf, rfl⟩ := guard_eq_instr.mp h
    refine .of_toNat wf rfl ?_
    simp [toNat_hireg, Nat.shiftRight_eq_div_pow] at *; omega
  case h_2 =>
    obtain ⟨wf, rfl⟩ := guard_eq_instr.mp h
    refine .of_toNat wf rfl ?_
    simp [toNat_hireg, Nat.shiftRight_eq_div_pow] at *; omega
  case h_3 =>
    cases h
    refine .of_toNat rfl rfl ?_
    simp [toNat_hireg, Nat.shiftRight_eq_div_pow] at *; omega
  case h_4 =>
    split at h
    case isFalse => cases h
    case isTrue zeros =>
      split at h <;> obtain ⟨wf, rfl⟩ := guard_eq_instr.mp h <;> refine .of_toNat wf rfl ?_ <;>
        simp [rm4, toNat_concat, Nat.shiftRight_eq_div_pow, ← BitVec.toNat_inj] at * <;> omega

theorem decodeLoadStoreReg_encodes {w : Half} {i : Instr} (hclass : w.toNat / 4096 = 5)
    (h : decodeLoadStoreReg w = .instr i) : Encodes [w] i := by
  unfold decodeLoadStoreReg at h
  dsimp only at h
  split at h <;> cases h <;> refine .of_toNat rfl rfl ?_ <;>
    simp [threeRegFormat, low, toNat_concat, Nat.shiftRight_eq_div_pow] at * <;> omega

theorem decodeLoadStoreImm_encodes {w : Half} {i : Instr} (hclass : 12 ≤ w.toNat / 2048 ∧ w.toNat / 2048 ≤ 21)
    (h : decodeLoadStoreImm w = .instr i) : Encodes [w] i := by
  unfold decodeLoadStoreImm at h
  dsimp only at h
  split at h <;> cases h <;> refine .of_toNat rfl rfl ?_ <;>
    simp [imm5Format, imm8Format, low, imm5Of, imm8Of, toNat_concat, Nat.shiftRight_eq_div_pow] at * <;> omega

theorem decodeHint_encodes {w : Half} {i : Instr} (hclass : w.toNat / 256 = 0xBF)
    (h : decodeHint w = .instr i) : Encodes [w] i := by
  unfold decodeHint at h
  split at h
  case isFalse => cases h
  case isTrue zeros =>
    split at h <;> cases h <;> refine .of_toNat rfl rfl ?_ <;>
      simp [Nat.shiftRight_eq_div_pow, ← BitVec.toNat_inj] at * <;> omega

theorem decodeCps_encodes {w : Half} {i : Instr} (hclass : w.toNat / 256 = 0xB6)
    (h : decodeCps w = .instr i) : Encodes [w] i := by
  unfold decodeCps at h
  split at h
  case isFalse => cases h
  case isTrue ones =>
    split at h
    case isFalse => cases h
    case isTrue zeros =>
      split at h <;> cases h <;> refine .of_toNat rfl rfl ?_ <;>
        simp [Nat.shiftRight_eq_div_pow, ← BitVec.toNat_inj] at * <;> omega

theorem decodeMisc_encodes {w : Half} {i : Instr} (hclass : w.toNat / 4096 = 11)
    (h : decodeMisc w = .instr i) : Encodes [w] i := by
  unfold decodeMisc at h
  dsimp only at h
  split at h
  case h_1 =>
    split at h <;> cases h <;> refine .of_toNat rfl rfl ?_ <;>
      simp [toNat_concat, Nat.shiftRight_eq_div_pow, ← BitVec.toNat_inj] at * <;> omega
  case h_3 | h_7 =>
    obtain ⟨wf, rfl⟩ := guard_eq_instr.mp h
    refine .of_toNat wf rfl ?_
    simp [imm8Of, bitOf, toNat_concat, Nat.shiftRight_eq_div_pow] at *; omega
  case h_5 =>
    refine decodeCps_encodes ?_ h
    simp [Nat.shiftRight_eq_div_pow] at *; omega
  case h_10 =>
    refine decodeHint_encodes ?_ h
    simp [Nat.shiftRight_eq_div_pow] at *; omega
  case h_11 => cases h
  case h_2 | h_6 =>
    split at h <;> cases h <;> refine .of_toNat rfl rfl ?_ <;>
      simp [twoRegFormat, low, toNat_concat, Nat.shiftRight_eq_div_pow] at * <;> omega
  case h_4 | h_8 | h_9 =>
    cases h
    refine .of_toNat rfl rfl ?_
    simp [imm8Of, bitOf, toNat_concat, Nat.shiftRight_eq_div_pow] at *; omega

theorem decodeMultiple_encodes {w : Half} {i : Instr} (hclass : w.toNat / 4096 = 12)
    (h : decodeMultiple w = .instr i) : Encodes [w] i := by
  unfold decodeMultiple at h
  dsimp only at h
  split at h <;> obtain ⟨wf, rfl⟩ := guard_eq_instr.mp h <;> refine .of_toNat wf rfl ?_ <;>
    simp [imm8Format, low, imm8Of, toNat_concat, Nat.shiftRight_eq_div_pow, ← BitVec.toNat_inj] at * <;> omega

theorem decodeCondBranch_encodes {w : Half} {i : Instr} (hclass : w.toNat / 4096 = 13)
    (h : decodeCondBranch w = .instr i) : Encodes [w] i := by
  unfold decodeCondBranch at h
  split at h
  case h_1 c hc =>
    cases h
    refine .of_toNat rfl rfl ?_
    rw [number_of_ofNumber_cond hc]
    simp [imm8Of, toNat_concat, Nat.shiftRight_eq_div_pow]; omega
  case h_2 none_eq =>
    have last : ∀ n : BitVec 4, Cond.ofNumber n = none → n ≠ 14#4 → n = 15#4 := by decide
    have number := last _ none_eq
    split at h <;> cases h <;> refine .of_toNat rfl rfl ?_ <;>
      simp [imm8Of, toNat_concat, Nat.shiftRight_eq_div_pow, ← BitVec.toNat_inj] at * <;> omega

theorem decode16_encodes {w : Half} {i : Instr} (h : decode16 w = .instr i) : Encodes [w] i := by
  have field : (w.extractLsb' 11 5).toNat = w.toNat / 2048 := by
    simp [Nat.shiftRight_eq_div_pow]; omega
  unfold decode16 at h
  rw [field] at h
  split at h
  case h_1 | h_2 | h_3 | h_4 | h_5 | h_6 | h_7 | h_8 => exact decodeShiftAddSub_encodes (by omega) h
  case h_9 =>
    split at h <;> rename_i bit <;> simp [Nat.shiftRight_eq_div_pow, ← BitVec.toNat_inj] at bit
    · exact decodeDataProcessing_encodes (by omega) h
    · exact decodeSpecial_encodes (by omega) h
  case h_10 =>
    cases h
    refine .of_toNat rfl rfl ?_
    simp [imm8Format, low, imm8Of, toNat_concat, Nat.shiftRight_eq_div_pow]; omega
  case h_11 | h_12 => exact decodeLoadStoreReg_encodes (by omega) h
  case h_13 | h_14 => exact decodeMisc_encodes (by omega) h
  case h_15 | h_16 => exact decodeMultiple_encodes (by omega) h
  case h_17 | h_18 => exact decodeCondBranch_encodes (by omega) h
  case h_19 =>
    cases h
    refine .of_toNat rfl rfl ?_
    simp [toNat_concat]; omega
  case h_20 | h_21 | h_22 => cases h
  case h_23 =>
    have := w.isLt
    simp only [imp_false] at *
    exact decodeLoadStoreImm_encodes (by omega) h

/-- The encoding is `h1`, `h2` when its halfwords have the same numbers. -/
theorem Encodes.of_toNat_long {h1 h2 k1 k2 : Half} {i : Instr} (wf : i.wellFormed = true) (enc : encode i = [k1, k2])
    (eq1 : k1.toNat = h1.toNat) (eq2 : k2.toNat = h2.toNat) : Encodes [h1, h2] i :=
  ⟨wf, by rw [enc, BitVec.eq_of_toNat_eq eq1, BitVec.eq_of_toNat_eq eq2]⟩

theorem decodeBl_encodes {h1 h2 : Half} {i : Instr} (first : h1.toNat / 2048 = 30)
    (second : h2.toNat / 16384 = 3 ∧ h2.toNat / 4096 % 2 = 1) (h : decodeBl h1 h2 = .instr i) : Encodes [h1, h2] i := by
  cases h
  refine .of_toNat_long rfl rfl ?_ ?_ <;>
    simp [not_xor_not_xor, extract_high, extract_low, toNat_concat, Nat.shiftRight_eq_div_pow] <;> omega

theorem decodeMsr_encodes {h1 h2 : Half} {i : Instr} (first : h1.toNat / 32 = 0x79C) (h : decodeMsr h1 h2 = .instr i) :
    Encodes [h1, h2] i := by
  unfold decodeMsr at h
  split at h
  case isFalse => cases h
  case isTrue drawn =>
    split at h
    case h_2 => cases h
    case h_1 sr number =>
      obtain ⟨wf, rfl⟩ := guard_eq_instr.mp h
      refine .of_toNat_long wf rfl ?_ ?_
      · simp [toNat_concat, Nat.shiftRight_eq_div_pow, ← BitVec.toNat_inj] at *; omega
      · rw [number_of_ofNumber_specialReg number]
        simp [toNat_concat, Nat.shiftRight_eq_div_pow, ← BitVec.toNat_inj] at *; omega

theorem decodeMrs_encodes {h1 h2 : Half} {i : Instr} (first : h1.toNat / 32 = 0x79F) (h : decodeMrs h1 h2 = .instr i) :
    Encodes [h1, h2] i := by
  unfold decodeMrs at h
  split at h
  case isFalse => cases h
  case isTrue drawn =>
    split at h
    case h_2 => cases h
    case h_1 sr number =>
      obtain ⟨wf, rfl⟩ := guard_eq_instr.mp h
      refine .of_toNat_long wf rfl ?_ ?_
      · simp [Nat.shiftRight_eq_div_pow, ← BitVec.toNat_inj] at *; omega
      · rw [number_of_ofNumber_specialReg number]
        simp [toNat_concat, Nat.shiftRight_eq_div_pow, ← BitVec.toNat_inj] at *; omega

theorem decodeBarrier_encodes {h1 h2 : Half} {i : Instr} (first : h1.toNat / 16 = 0xF3B)
    (h : decodeBarrier h1 h2 = .instr i) : Encodes [h1, h2] i := by
  unfold decodeBarrier at h
  dsimp only at h
  split at h
  case h_4 => cases h
  all_goals
    obtain ⟨drawn, rfl⟩ := guard_eq_instr.mp h
    refine .of_toNat_long rfl rfl ?_ ?_ <;>
      simp [toNat_concat, Nat.shiftRight_eq_div_pow, ← BitVec.toNat_inj] at * <;> omega

theorem decode32_encodes {h1 h2 : Half} {i : Instr} (h : decode32 h1 h2 = .instr i) : Encodes [h1, h2] i := by
  unfold decode32 at h
  split at h
  case isFalse => cases h
  case isTrue long =>
    split_ifs at h with bl msr mrs barrier udf
    · refine decodeBl_encodes ?_ ?_ h <;> simp [Nat.shiftRight_eq_div_pow, ← BitVec.toNat_inj] at * <;> omega
    · refine decodeMsr_encodes ?_ h
      simp [Nat.shiftRight_eq_div_pow, ← BitVec.toNat_inj] at *; omega
    · refine decodeMrs_encodes ?_ h
      simp [Nat.shiftRight_eq_div_pow, ← BitVec.toNat_inj] at *; omega
    · refine decodeBarrier_encodes ?_ h
      simp [Nat.shiftRight_eq_div_pow, ← BitVec.toNat_inj] at *; omega
    · cases h
      refine .of_toNat_long rfl rfl ?_ ?_ <;>
        simp [extract_high, extract_low, toNat_concat, Nat.shiftRight_eq_div_pow, ← BitVec.toNat_inj] at * <;> omega

/-- Settles O2: every decoder's instruction has the halfwords it was decoded from as its encoding. -/
theorem encodeOfDecode : Obligations.EncodeOfDecode := by
  intro h1 h2 i h
  unfold decode at h
  split at h
  case isTrue long => rw [if_pos long]; exact decode32_encodes h
  case isFalse short => rw [if_neg short]; exact decode16_encodes h

/-- Settles O3. -/
theorem sampleWordsDecode : Obligations.SampleWordsDecode := by
  unfold Obligations.SampleWordsDecode
  decide +kernel

end Sys2Proof.Machine
end

section
namespace Sys2Proof.Machine

/-! ### The Undefined patterns -/

/-- A bit of a concatenation. -/
theorem bit_concat {n m : Nat} (x : BitVec n) (y : BitVec m) (i : Nat) :
    (HAppend.hAppend (γ := no_index (BitVec (n + m))) x y).getLsbD i =
      if i < m then y.getLsbD i else x.getLsbD (i - m) :=
  BitVec.getLsbD_append

/-- A mask of the upper `l` bits of a halfword keeps the field there. -/
theorem and_high_mask {a l : Nat} (h : Half) (size : l + a = 16) :
    h &&& (BitVec.allOnes l ++ 0#a).cast size = (h.extractLsb' a l ++ 0#a).cast size := by
  apply BitVec.eq_of_getLsbD_eq
  intro i hi
  simp only [BitVec.getLsbD_and, BitVec.getLsbD_cast, BitVec.getLsbD_append, BitVec.getLsbD_allOnes,
    BitVec.getLsbD_extractLsb', BitVec.getLsbD_zero]
  by_cases low : i < a
  · simp [low]
  · simp [low, show i - a < l by omega, show a + (i - a) = i by omega]

/-- The mask of bits 15, 14 and 12 of the second halfword. -/
theorem and_D000 {h : Half} {x : BitVec 2} {y : BitVec 1} (hx : h.extractLsb' 14 2 = x) (hy : h.extractLsb' 12 1 = y) :
    h &&& 0xD000#16 = (x ++ 0#1 ++ y ++ 0#12 : Half) := by
  subst hx hy
  apply BitVec.eq_of_getLsbD_eq
  intro i hi
  interval_cases i <;> simp [bit_concat, -BitVec.getLsbD_eq_getElem]

/-- The mask of bits 15, 14, 12 and 7..4 of the second halfword. -/
theorem and_D0F0 {h : Half} {x : BitVec 2} {y : BitVec 1} {z : BitVec 4} (hx : h.extractLsb' 14 2 = x)
    (hy : h.extractLsb' 12 1 = y) (hz : h.extractLsb' 4 4 = z) :
    h &&& 0xD0F0#16 = (x ++ 0#1 ++ y ++ 0#4 ++ z ++ 0#4 : Half) := by
  subst hx hy hz
  apply BitVec.eq_of_getLsbD_eq
  intro i hi
  interval_cases i <;> simp [bit_concat, -BitVec.getLsbD_eq_getElem]

/-- Masks act on the two halfwords of a long instruction one by one. -/
theorem and_halves {h1 h2 m1 m2 v1 v2 : Half} (first : h1 &&& m1 = v1) (second : h2 &&& m2 = v2) :
    (h1 ++ h2 : Word) &&& (m1 ++ m2 : Word) = (v1 ++ v2 : Word) := by
  rw [BitVec.and_append, first, second]

/-- The field above two fields that lie side by side. -/
theorem field_join {h : Half} {a k l : Nat} {x : BitVec k} {y : BitVec l} (upper : h.extractLsb' (a + l) k = x)
    (lower : h.extractLsb' a l = y) : h.extractLsb' a (k + l) = x ++ y := by
  rw [← upper, ← lower, BitVec.extractLsb'_append_extractLsb'_eq_extractLsb' rfl]

theorem and_F800 {h : Half} {x : BitVec 5} (hx : h.extractLsb' 11 5 = x) : h &&& 0xF800#16 = (x ++ 0#11 : Half) := by
  subst hx
  exact and_high_mask (a := 11) (l := 5) h rfl

theorem and_FFE0 {h : Half} {x : BitVec 5} {y : BitVec 6} (hx : h.extractLsb' 11 5 = x) (hy : h.extractLsb' 5 6 = y) :
    h &&& 0xFFE0#16 = (x ++ y ++ 0#5 : Half) := by
  rw [← field_join (a := 5) hx hy]
  exact and_high_mask (a := 5) (l := 11) h rfl

theorem and_FFF0 {h : Half} {x : BitVec 5} {y : BitVec 7} (hx : h.extractLsb' 11 5 = x) (hy : h.extractLsb' 4 7 = y) :
    h &&& 0xFFF0#16 = (x ++ y ++ 0#4 : Half) := by
  rw [← field_join (a := 4) hx hy]
  exact and_high_mask (a := 4) (l := 12) h rfl

theorem and_F000 {h : Half} {x : BitVec 4} (hx : h.extractLsb' 12 4 = x) : h &&& 0xF000#16 = (x ++ 0#12 : Half) := by
  subst hx
  exact and_high_mask (a := 12) (l := 4) h rfl

/-- A pair that no row selects by its first match and mask is Undefined (R157, R166). -/
theorem decode32_undefined {h1 h2 : Half} (long : h1.extractLsb' 11 5 = 0b11110#5)
    (bl : (h1 ++ h2 : Word) &&& 0xF800D000#32 ≠ 0xF000D000#32)
    (msr : (h1 ++ h2 : Word) &&& 0xFFE0D000#32 ≠ 0xF3808000#32)
    (mrs : (h1 ++ h2 : Word) &&& 0xFFE0D000#32 ≠ 0xF3E08000#32)
    (dsb : (h1 ++ h2 : Word) &&& 0xFFF0D0F0#32 ≠ 0xF3B08040#32)
    (dmb : (h1 ++ h2 : Word) &&& 0xFFF0D0F0#32 ≠ 0xF3B08050#32)
    (isb : (h1 ++ h2 : Word) &&& 0xFFF0D0F0#32 ≠ 0xF3B08060#32)
    (udf : (h1 ++ h2 : Word) &&& 0xFFF0F000#32 ≠ 0xF7F0A000#32) : decode32 h1 h2 = .reject .undefined := by
  unfold decode32
  rw [if_pos long, if_neg, if_neg, if_neg]
  · split_ifs with barrier udfW
    · obtain ⟨h14, h12, h4⟩ := barrier
      have row : ∀ op : BitVec 4, h2.extractLsb' 4 4 = op → _ := fun op hop =>
        and_halves (and_FFF0 long h4) (and_D0F0 h14 h12 hop)
      unfold decodeBarrier
      dsimp only
      split
      · exact absurd (row 4#4 (BitVec.eq_of_toNat_eq ‹_›)) dsb
      · exact absurd (row 5#4 (BitVec.eq_of_toNat_eq ‹_›)) dmb
      · exact absurd (row 6#4 (BitVec.eq_of_toNat_eq ‹_›)) isb
      · rfl
    · obtain ⟨h4, h12⟩ := udfW
      exact absurd (and_halves (and_FFF0 long h4) (and_F000 h12)) udf
    · rfl
  · rintro ⟨h14, h12, h5⟩
    exact mrs (and_halves (and_FFE0 long h5) (and_D000 h14 h12))
  · rintro ⟨h14, h12, h5⟩
    exact msr (and_halves (and_FFE0 long h5) (and_D000 h14 h12))
  · rintro ⟨h14, h12⟩
    exact bl (and_halves (and_F800 long) (and_D000 h14 h12))

/-- A pair is Undefined by bits 15, 14 and 12 of its second halfword alone (R166). -/
theorem decode32_undefined_of_second {h1 h2 : Half}
    (h : h2.getLsbD 15 = false ∨ (h2.getLsbD 14 = true ∧ h2.getLsbD 12 = false)) : decode32 h1 h2 = .reject .undefined := by
  have top : ∀ x : BitVec 2, h2.extractLsb' 14 2 = x → x.getLsbD 1 = h2.getLsbD 15 ∧ x.getLsbD 0 = h2.getLsbD 14 := by
    rintro _ rfl; simp
  have bit12 : ∀ y : BitVec 1, h2.extractLsb' 12 1 = y → y.getLsbD 0 = h2.getLsbD 12 := by
    rintro _ rfl; simp
  have top4 : ∀ x : BitVec 4, h2.extractLsb' 12 4 = x →
      x.getLsbD 3 = h2.getLsbD 15 ∧ x.getLsbD 2 = h2.getLsbD 14 ∧ x.getLsbD 0 = h2.getLsbD 12 := by
    rintro _ rfl; simp
  unfold decode32
  split_ifs with long bl msr mrs barrier udf <;> try rfl
  · obtain ⟨h14, h12⟩ := bl
    have := top _ h14; have := bit12 _ h12; simp_all
  · obtain ⟨h14, -⟩ := msr
    have := top _ h14; simp_all
  · obtain ⟨h14, -⟩ := mrs
    have := top _ h14; simp_all
  · obtain ⟨h14, -⟩ := barrier
    have := top _ h14; simp_all
  · obtain ⟨-, h12⟩ := udf
    have := top4 _ h12; simp_all

theorem decode_long {h1 h2 : Half} (h : 29 ≤ (h1.extractLsb' 11 5).toNat) : decode h1 h2 = decode32 h1 h2 := by
  simp only [decode, isLongHalf, h, decide_true, if_true]

/-- The unallocated ranges of the short encodings are Undefined (R165). -/
theorem decode_undefined_range {h1 h2 : Half}
    (h : (0xB100 ≤ h1.toNat ∧ h1.toNat ≤ 0xB1FF) ∨ (0xB300 ≤ h1.toNat ∧ h1.toNat ≤ 0xB3FF) ∨
      (0xB600 ≤ h1.toNat ∧ h1.toNat ≤ 0xB65F) ∨ (0xB680 ≤ h1.toNat ∧ h1.toNat ≤ 0xB6FF) ∨
      (0xB700 ≤ h1.toNat ∧ h1.toNat ≤ 0xB9FF) ∨ (0xBA80 ≤ h1.toNat ∧ h1.toNat ≤ 0xBABF) ∨
      (0xBB00 ≤ h1.toNat ∧ h1.toNat ≤ 0xBBFF) ∨
      (0xBF00 ≤ h1.toNat ∧ h1.toNat ≤ 0xBFFF ∧ h1.extractLsb' 0 4 ≠ 0#4)) :
    decode h1 h2 = .reject .undefined := by
  have field : (h1.extractLsb' 11 5).toNat = h1.toNat / 2048 := by
    simp [Nat.shiftRight_eq_div_pow]; omega
  have op : (h1.extractLsb' 8 4).toNat = h1.toNat / 256 % 16 := by simp [Nat.shiftRight_eq_div_pow]
  have misc : decode h1 h2 = decodeMisc h1 := by
    have : h1.toNat / 2048 = 22 ∨ h1.toNat / 2048 = 23 := by omega
    obtain this | this := this <;> simp [decode, isLongHalf, decode16, field, this, -BitVec.extractLsb'_toNat]
  rw [misc]
  unfold decodeMisc
  dsimp only
  rw [op]
  split
  case h_5 =>
    have : h1.extractLsb' 5 3 ≠ 0b011#3 := by
      simp [← BitVec.toNat_inj, Nat.shiftRight_eq_div_pow]; omega
    simp [decodeCps, this]
  case h_6 =>
    have : (h1.extractLsb' 6 2).toNat = 2 := by simp [Nat.shiftRight_eq_div_pow]; omega
    simp only [this]
  case h_10 =>
    have : h1.extractLsb' 0 4 ≠ 0#4 := by
      obtain h | h | h | h | h | h | h | ⟨-, -, h⟩ := h
      on_goal 8 => exact h
      all_goals omega
    simp [decodeHint, this]
  case h_11 => rfl
  all_goals omega

/-- Settles O4. -/
theorem undefinedPatternsRejected : Obligations.UndefinedPatternsRejected := by
  refine ⟨fun h1 h2 h => ?_, fun h1 h2 long h => ?_, ?_, fun h1 h2 => decode_undefined_range⟩
  · obtain h | h := h
    all_goals
      rw [decode_long (by simp [h, -BitVec.extractLsb'_toNat])]
      simp [decode32, h]
  · rw [decode_long (by simp [long, -BitVec.extractLsb'_toNat])]
    exact decode32_undefined_of_second h
  · intro h1 h2 long w bl msr mrs dsb dmb isb udf
    rw [decode_long (by simp [long, -BitVec.extractLsb'_toNat])]
    exact decode32_undefined long bl msr mrs dsb dmb isb udf
end Sys2Proof.Machine
end

section
/-! What an instruction can do: `exec_cases` says it once for all of them; the invariant, the frames of a step and the writers of PRIMASK and
IPSR are read off from it. -/

namespace Sys2Proof.Machine

/-! ### Addresses of instructions -/

theorem align_two (x : Word) : alignPc x = BitVec.ofNat 32 (x.toNat / 2 * 2) := by
  have shifts : alignPc x = (x >>> 1) <<< 1 := by
    apply BitVec.eq_of_getLsbD_eq
    intro i hi
    have mask : ∀ i, i < 32 → (0xFFFFFFFE#32).getLsbD i = decide (1 ≤ i) := by decide
    simp only [alignPc, BitVec.getLsbD_and, mask i hi, BitVec.getLsbD_shiftLeft, BitVec.getLsbD_ushiftRight, hi]
    by_cases low : i < 1
    · simp [low]
    · simp [low, show 1 ≤ i by omega, show 1 + (i - 1) = i by omega]
  rw [shifts]
  apply BitVec.eq_of_toNat_eq
  simp [BitVec.toNat_shiftLeft, Nat.shiftRight_eq_div_pow, Nat.shiftLeft_eq]

theorem alignPc_eq_iff {x : Word} : alignPc x = x ↔ x.toNat % 2 = 0 := by
  rw [align_two, ← BitVec.toNat_inj]
  simp only [BitVec.toNat_ofNat]
  have := x.isLt
  omega

/-- An address stays halfword-aligned when something even is added. -/
theorem alignPc_add {x y : Word} (hx : alignPc x = x) (hy : y.toNat % 2 = 0) : alignPc (x + y) = x + y := by
  rw [alignPc_eq_iff] at hx ⊢
  rw [BitVec.toNat_add]
  omega

theorem branchOffset_even {n : Nat} (v : BitVec n) : (branchOffset v).toNat % 2 = 0 := by
  rw [branchOffset_eq, BitVec.toNat_ofInt]
  omega

theorem mode_eq_thread {s : State} : s.mode = .thread ↔ s.ipsr = 0#6 := by
  unfold State.mode
  split <;> simp_all

theorem mode_eq_handler {s : State} : s.mode = .handler ↔ s.ipsr ≠ 0#6 := by
  unfold State.mode
  split <;> simp_all

/-! ### What every step of the processor keeps -/

/-- What an instruction and an exception keep alike: the platform, PRIMASK, the canonical form of memory, and the trace of the stores. -/
structure Calm (s t : State) : Prop where
  platform : t.platform = s.platform
  primask : t.primask = s.primask
  wf : s.mem.wf = true → t.mem.wf = true
  trace : s.storeTrace = none → t.storeTrace = none
  covers : TraceCovers s t

theorem Calm.refl (s : State) : Calm s s := ⟨rfl, rfl, id, id, .same rfl rfl⟩

theorem Calm.trans {s t u : State} (h1 : Calm s t) (h2 : Calm t u) : Calm s u where
  platform := h2.platform.trans h1.platform
  primask := h2.primask.trans h1.primask
  wf := h2.wf ∘ h1.wf
  trace := h2.trace ∘ h1.trace
  covers := h1.covers.trans h1.wf h2.covers

/-- A change that leaves the platform, PRIMASK, memory and the trace. -/
theorem Calm.same {s t : State} (hp : t.platform = s.platform) (hm : t.primask = s.primask) (mem : t.mem = s.mem)
    (tr : t.storeTrace = s.storeTrace) : Calm s t :=
  ⟨hp, hm, by rw [mem]; exact id, by rw [tr]; exact id, .same mem tr⟩

theorem BusFrame.calm {s t : State} (h : BusFrame s t) : Calm s t :=
  ⟨h.platform_eq, h.primask_eq, h.wf, h.trace, h.covers⟩

/-- What an instruction keeps that completes without an exception: besides, the exceptions' active bits, the mode, the two pending bits
of HardFault and SVCall, and the alignment of the stack pointers and of the pc. -/
structure Kept (s t : State) : Prop extends Calm s t where
  ipsr : t.ipsr = s.ipsr
  active : t.active = s.active
  lockup : t.lockup = s.lockup
  halted : t.halted = s.halted
  spsel : s.ipsr ≠ 0#6 → t.spsel = s.spsel
  msp : alignSp s.msp = s.msp → alignSp t.msp = t.msp
  psp : alignSp s.psp = s.psp → alignSp t.psp = t.psp
  pc : alignPc s.pc = s.pc → alignPc t.pc = t.pc
  hardFault : t.pending.hardFault = s.pending.hardFault
  svCall : t.pending.svCall = s.pending.svCall

theorem Kept.refl (s : State) : Kept s s := ⟨.refl s, rfl, rfl, rfl, rfl, fun _ => rfl, id, id, id, rfl, rfl⟩

theorem Kept.trans {s t u : State} (h1 : Kept s t) (h2 : Kept t u) : Kept s u where
  toCalm := h1.toCalm.trans h2.toCalm
  ipsr := h2.ipsr.trans h1.ipsr
  active := h2.active.trans h1.active
  lockup := h2.lockup.trans h1.lockup
  halted := h2.halted.trans h1.halted
  spsel h := (h2.spsel (by rwa [h1.ipsr])).trans (h1.spsel h)
  msp := h2.msp ∘ h1.msp
  psp := h2.psp ∘ h1.psp
  pc := h2.pc ∘ h1.pc
  hardFault := h2.hardFault.trans h1.hardFault
  svCall := h2.svCall.trans h1.svCall

theorem BusFrame.kept {s t : State} (h : BusFrame s t) : Kept s t where
  toCalm := h.calm
  ipsr := h.ipsr_eq
  active := h.active_eq
  lockup := h.lockup_eq
  halted := h.halted_eq
  spsel _ := h.spsel_eq
  msp := by rw [h.msp_eq]; exact id
  psp := by rw [h.psp_eq]; exact id
  pc := by rw [h.pc_eq]; exact id
  hardFault := h.hardFault
  svCall := h.svCall

/-! ### The updates of an instruction -/

/-- A change of R0 to R12, LR, the flags, T, sleep, the stale halfwords, the schedule, the lines or the count of free values. -/
theorem Kept.plain {s t : State}
    (h : t = { s with
      r := t.r, lr := t.lr, flags := t.flags, tbit := t.tbit, sleeping := t.sleeping, stale := t.stale
      schedule := t.schedule, irqLine := t.irqLine, nmiLine := t.nmiLine, freeCount := t.freeCount }) : Kept s t := by
  rw [h]
  exact ⟨.same rfl rfl rfl rfl, rfl, rfl, rfl, rfl, fun _ => rfl, id, id, id, rfl, rfl⟩

/-- A change of the pc to a halfword-aligned address. -/
theorem Kept.withPc (s : State) {a : Word} (h : alignPc s.pc = s.pc → alignPc a = a) : Kept s { s with pc := a } :=
  ⟨.same rfl rfl rfl rfl, rfl, rfl, rfl, rfl, fun _ => rfl, id, id, h, rfl, rfl⟩

theorem writeLow_kept (s : State) (n : LowReg) (v : Word) : Kept s (s.writeLow n v) := by
  rw [writeLow_eq]
  exact .plain rfl

theorem setFlags_kept (s : State) (f : Flags) : Kept s (s.setFlags f) := .plain rfl

theorem advance_two_kept (s : State) : Kept s (s.advance 2) := .withPc s fun h => alignPc_add h (by decide)

theorem advance_four_kept (s : State) : Kept s (s.advance 4) := .withPc s fun h => alignPc_add h (by decide)

theorem branchTo_alignPc_kept (s : State) (a : Word) : Kept s (s.branchTo (alignPc a)) :=
  .withPc s fun _ => alignPc_idem a

theorem branchTo_target_kept {n : Nat} (s : State) (v : BitVec n) :
    Kept s (s.branchTo (s.branchTarget (branchOffset v))) :=
  .withPc s fun h => alignPc_add (alignPc_add h (by decide)) (branchOffset_even v)

theorem interwork_kept (s : State) (v : Word) : Kept s (s.interwork v) :=
  (Kept.plain (t := { s with tbit := v.getLsbD 0 }) rfl).trans (.withPc _ fun _ => alignPc_idem v)

theorem setMsp_kept (s : State) (v : Word) : Kept s (s.setMsp v) :=
  ⟨.same rfl rfl rfl rfl, rfl, rfl, rfl, rfl, fun _ => rfl, fun _ => alignSp_idem v, id, id, rfl, rfl⟩

theorem setPsp_kept (s : State) (v : Word) : Kept s (s.setPsp v) :=
  ⟨.same rfl rfl rfl rfl, rfl, rfl, rfl, rfl, fun _ => rfl, id, fun _ => alignSp_idem v, id, rfl, rfl⟩

theorem setSp_kept (s : State) (v : Word) : Kept s (s.setSp v) := by
  unfold State.setSp
  split
  · exact setPsp_kept s v
  · exact setMsp_kept s v

theorem writeReg_kept (s : State) (n : Reg) (v : Word) : Kept s (s.writeReg n v) := by
  unfold State.writeReg
  split_ifs
  · exact setSp_kept s v
  · exact .plain rfl
  · exact .plain rfl

theorem writeLows_kept (l : List (LowReg × Word)) (s : State) : Kept s (s.writeLows l) := by
  rw [writeLows_eq]
  exact .plain rfl

theorem settleLoaded_kept (base : Option LowReg) (l : List (LowReg × Word)) (s : State) : Kept s (s.settleLoaded base l) := by
  rw [settleLoaded_eq]
  exact .plain rfl

theorem drawWord_kept (s : State) : Kept s s.drawWord.2 := .plain rfl

/-! ### The cases of an instruction -/

/-- The instructions that write PRIMASK. -/
def WritesPrimask (i : Instr) : Prop := i = .cpsie ∨ i = .cpsid ∨ ∃ rn, i = .msr .primask rn

/-- The instructions that can return from an exception. -/
def MayReturn (i : Instr) : Prop := (∃ rm, i = .bx rm) ∨ ∃ list, i = .pop true list

/-- What an instruction that leads from `s` to `t` has done: completed, with PRIMASK kept or written; halted the core; raised HardFault, from a
state in which all but registers and memory is as before; entered SVCall; or returned from an exception. -/
inductive ExecCase (i : Instr) (s t : State) : Prop where
  | completed (h : Kept s t)
  | primaskWritten (hi : WritesPrimask i) (h : Kept s { t with primask := s.primask })
  | haltedCore (h : t = { s with halted := true })
  | hardFault (c : HardFaultCause) (u : State) (hu : Kept s u) (h : raiseHardFault c u = .next t)
  | supervisorCall (imm8 : BitVec 8) (hi : i = .svc imm8) (h : exceptionEntry .svCall (s.pc + 2#32) s = .next t)
  | returned (hi : MayReturn i) (v : Word) (u : State) (hu : Kept s u) (h : exceptionReturn v u = .next t)

theorem next_eq {s t : State} (h : (.next s : Outcome) = .next t) : t = s := by cases h; rfl

theorem addTo_kept {s t : State} {rd : LowReg} {x y : Word} {c : Bool} (h : s.addTo rd x y c = .next t) : Kept s t := by
  rw [next_eq h]
  exact ((writeLow_kept ..).trans (setFlags_kept ..)).trans (advance_two_kept _)

theorem addFlags_kept {s t : State} {x y : Word} {c : Bool} (h : s.addFlags x y c = .next t) : Kept s t := by
  rw [next_eq h]
  exact (setFlags_kept ..).trans (advance_two_kept _)

theorem resultNZ_kept {s t : State} {rd : LowReg} {v : Word} (h : s.resultNZ rd v = .next t) : Kept s t := by
  rw [next_eq h]
  exact ((writeLow_kept ..).trans (setFlags_kept ..)).trans (advance_two_kept _)

theorem shiftedTo_kept {s t : State} {rd : LowReg} {p : Word × Bool} (h : s.shiftedTo rd p = .next t) : Kept s t := by
  rw [next_eq h]
  exact ((writeLow_kept ..).trans (setFlags_kept ..)).trans (advance_two_kept _)

theorem shiftByReg_kept {s t : State} {rd rs : LowReg} {f : Word → Nat → Word × Bool}
    (h : s.shiftByReg rd rs f = .next t) : Kept s t := by
  unfold State.shiftByReg at h
  dsimp only at h
  split at h <;> exact shiftedTo_kept h

theorem resultPlain_kept {s t : State} {rd : LowReg} {v : Word} (h : s.resultPlain rd v = .next t) : Kept s t := by
  rw [next_eq h]
  exact (writeLow_kept ..).trans (advance_two_kept _)

section
variable {i : Instr} {s t : State}

theorem ExecCase.of_access {α : Type} {x : Access α} {k : α → State → Outcome} (h : x.run s k = .next t)
    (frame : ∀ a u, x = .ok a u → Kept s u) (rest : ∀ a u, k a u = .next t → Kept u t) : ExecCase i s t := by
  obtain ⟨a, u, hx, hk⟩ | ⟨c, -, hc⟩ := run_cases h
  · exact .completed ((frame a u hx).trans (rest a u hk))
  · exact .hardFault c s (.refl s) hc

theorem ExecCase.of_load {rt : LowReg} {a : Word} {w : Width} {f : Word → Word} (h : s.loadTo rt a w f = .next t) :
    ExecCase i s t :=
  .of_access h (fun _ _ hx => (memRead_frame hx).kept) fun _ u hk => by
    rw [next_eq hk]
    exact (writeLow_kept ..).trans (advance_two_kept _)

theorem ExecCase.of_store {rt : LowReg} {a : Word} {w : Width} (h : s.storeFrom rt a w = .next t) : ExecCase i s t :=
  .of_access h (fun _ _ hx => (memWrite_frame hx).kept) fun _ u hk => by
    rw [next_eq hk]
    exact advance_two_kept _

/-- A sequence of stores completes and goes on, or raises HardFault with the stores it has made. -/
theorem ExecCase.of_stores {s0 : State} {vs : List Word} {a : Word} {k : State → Outcome} (h0 : Kept s s0)
    (h : (storeWords .write vs a 0 s0).run k = .next t) (rest : ∀ u, k u = .next t → Kept u t) : ExecCase i s t := by
  have frame := storeWords_frame .write vs a 0 s0
  unfold Stored.run at h
  split at h
  case h_1 u eq => rw [eq] at frame; exact .completed ((h0.trans frame.kept).trans (rest u h))
  case h_2 c u eq => rw [eq] at frame; exact .hardFault c u (h0.trans frame.kept) h
  all_goals cases h

/-- A sequence of loads completes and goes on, or raises HardFault with the registers already reached settled. -/
theorem ExecCase.of_loads {n : Nat} {a : Word} {base : Option LowReg} {regs : List LowReg} {k : List Word → State → Outcome}
    (h : (loadWords .read n a s).run base regs k = .next t)
    (rest : ∀ vs u, Kept s u → k vs u = .next t → ExecCase i s t) : ExecCase i s t := by
  have frame := loadWords_frame .read n a s
  unfold Loaded.run at h
  split at h
  case h_1 vs u eq => rw [eq] at frame; exact rest vs u frame.kept h
  case h_2 vs c u eq =>
    rw [eq] at frame
    exact .hardFault c _ (frame.kept.trans (settleLoaded_kept ..)) h
  all_goals cases h

theorem ExecCase.of_bxWritePC {v : Word} {u : State} (hi : MayReturn i) (hu : Kept s u) (h : bxWritePC v u = .next t) :
    ExecCase i s t := by
  obtain rfl | ⟨-, h⟩ := bxWritePC_cases h
  · exact .completed (hu.trans (interwork_kept ..))
  · exact .returned hi v u hu h

theorem execLdm_cases {rn : LowReg} {list : RegList} (h : execLdm rn list s = .next t) : ExecCase i s t := by
  unfold execLdm at h
  dsimp only at h
  split at h
  · exact .hardFault _ s (.refl s) h
  · refine .of_loads h fun vs u hu hk => .completed ?_
    have loaded := hu.trans (writeLows_kept ((regsOfList list).zip vs) u)
    rw [next_eq hk]
    split
    · exact loaded.trans (advance_two_kept _)
    · exact loaded.trans ((writeLow_kept ..).trans (advance_two_kept _))

theorem execStm_cases {rn : LowReg} {list : RegList} (h : execStm rn list s = .next t) : ExecCase i s t := by
  unfold execStm at h
  dsimp only at h
  split at h
  · exact .hardFault _ s (.refl s) h
  · refine .of_stores ?_ h fun u hk => ?_
    · split
      · exact drawWord_kept s
      · exact .refl s
    · rw [next_eq hk]
      exact (writeLow_kept ..).trans (advance_two_kept _)

theorem execPush_cases {m : Bool} {list : RegList} (h : execPush m list s = .next t) : ExecCase i s t := by
  unfold execPush at h
  dsimp only at h
  split at h
  · exact .hardFault _ s (.refl s) h
  · refine .of_stores (.refl s) h fun u hk => ?_
    rw [next_eq hk]
    exact (setSp_kept ..).trans (advance_two_kept _)

theorem execPop_cases {p : Bool} {list : RegList} (h : execPop p list s = .next t) : ExecCase (.pop p list) s t := by
  unfold execPop at h
  dsimp only at h
  split at h
  · exact .hardFault _ s (.refl s) h
  · refine .of_loads h fun vs u hu hk => ?_
    have popped := fun sp => (hu.trans (writeLows_kept ((regsOfList list).zip vs) u)).trans (setSp_kept _ sp)
    split at hk
    case isTrue withPc =>
      subst withPc
      exact .of_bxWritePC (.inr ⟨list, rfl⟩) (popped _) hk
    case isFalse => rw [next_eq hk]; exact .completed ((popped _).trans (advance_two_kept _))

theorem execMsr_cases {sr : SpecialReg} {rn : Reg} (h : execMsr sr rn s = .next t) : ExecCase (.msr sr rn) s t := by
  obtain rfl := next_eq h
  cases sr with
  | apsr | iapsr | eapsr | psr => exact .completed ((setFlags_kept ..).trans (advance_four_kept _))
  | ipsr | epsr | iepsr => exact .completed (advance_four_kept s)
  | msp => exact .completed ((setMsp_kept ..).trans (advance_four_kept _))
  | psp => exact .completed ((setPsp_kept ..).trans (advance_four_kept _))
  | primask => exact .primaskWritten (.inr (.inr ⟨rn, rfl⟩)) (advance_four_kept s)
  | control =>
    refine .completed (.trans ?_ (advance_four_kept _))
    by_cases thread : s.mode = .thread
    · rw [State.writeSpecial, if_pos thread]
      exact ⟨.same rfl rfl rfl rfl, rfl, rfl, rfl, rfl, fun handler => absurd (mode_eq_thread.mp thread) handler, id, id,
        id, rfl, rfl⟩
    · rw [State.writeSpecial, if_neg thread]
      exact .refl s

end

/-- What every instruction does that gives a next state. -/
theorem exec_cases {i : Instr} {s t : State} (h : exec i s = .next t) : ExecCase i s t := by
  cases i with
  | addsReg | addsImm3 | addsImm8 | adcs | subsReg | subsImm3 | subsImm8 | sbcs | rsbs => exact .completed (addTo_kept h)
  | cmn | cmpReg | cmpImm | cmpHigh => exact .completed (addFlags_kept h)
  | ands | orrs | eors | bics | movsImm | movsReg | mvns => exact .completed (resultNZ_kept h)
  | muls =>
    rw [next_eq h]
    exact .completed (((writeLow_kept ..).trans (setFlags_kept ..)).trans (advance_two_kept _))
  | tst =>
    rw [next_eq h]
    exact .completed ((setFlags_kept ..).trans (advance_two_kept _))
  | lslsImm rd rm imm5 =>
    change execLslsImm rd rm imm5 s = _ at h
    unfold execLslsImm at h
    split at h <;> exact .completed (shiftedTo_kept h)
  | lsrsImm | asrsImm => exact .completed (shiftedTo_kept h)
  | lslsReg | lsrsReg | asrsReg | rors => exact .completed (shiftByReg_kept h)
  | addHigh d m =>
    change execAddHigh d m s = _ at h
    unfold execAddHigh at h
    dsimp only at h
    split at h <;> rw [next_eq h]
    · exact .completed (branchTo_alignPc_kept ..)
    · exact .completed ((writeReg_kept ..).trans (advance_two_kept _))
  | mov d m =>
    change execMov d m s = _ at h
    unfold execMov at h
    split at h <;> rw [next_eq h]
    · exact .completed (branchTo_alignPc_kept ..)
    · exact .completed ((writeReg_kept ..).trans (advance_two_kept _))
  | sxth | sxtb | uxth | uxtb | rev | rev16 | revsh => exact .completed (resultPlain_kept h)
  | adr | addRdSp => rw [next_eq h]; exact .completed ((writeLow_kept ..).trans (advance_two_kept _))
  | addSpImm | subSpImm => rw [next_eq h]; exact .completed ((setSp_kept ..).trans (advance_two_kept _))
  | ldrLit | ldrReg | ldrhReg | ldrbReg | ldrsbReg | ldrshReg | ldrImm | ldrbImm | ldrhImm | ldrSp => exact .of_load h
  | strReg | strhReg | strbReg | strImm | strbImm | strhImm | strSp => exact .of_store h
  | ldm => exact execLdm_cases h
  | stm => exact execStm_cases h
  | push => exact execPush_cases h
  | pop => exact execPop_cases h
  | b => rw [next_eq h]; exact .completed (branchTo_target_kept ..)
  | bCond c imm8 =>
    change execBCond c imm8 s = _ at h
    unfold execBCond at h
    split at h <;> rw [next_eq h]
    · exact .completed (branchTo_target_kept ..)
    · exact .completed (advance_two_kept s)
  | bl imm24 =>
    rw [next_eq h]
    exact .completed ((branchTo_target_kept s imm24).trans (.plain rfl))
  | bx rm => exact .of_bxWritePC (.inl ⟨rm, rfl⟩) (.refl s) h
  | blx =>
    rw [next_eq h]
    exact .completed (.trans (.plain rfl) (interwork_kept ..))
  | cpsie => rw [next_eq h]; exact .primaskWritten (.inl rfl) (advance_two_kept s)
  | cpsid => rw [next_eq h]; exact .primaskWritten (.inr (.inl rfl)) (advance_two_kept s)
  | nop => rw [next_eq h]; exact .completed (advance_two_kept s)
  | wfi => rw [next_eq h]; exact .completed (.trans (.plain rfl) (advance_two_kept _))
  | dsb | dmb => rw [next_eq h]; exact .completed (advance_four_kept s)
  | isb => rw [next_eq h]; exact .completed (.trans (.plain rfl) (advance_four_kept _))
  | msr => exact execMsr_cases h
  | mrs => rw [next_eq h]; exact .completed ((writeReg_kept ..).trans (advance_four_kept _))
  | svc imm8 =>
    change execSvc imm8 s = _ at h
    unfold execSvc at h
    split at h
    · exact .hardFault _ s (.refl s) h
    · exact .supervisorCall imm8 rfl h
  | udf | udfW => exact .hardFault .undefined s (.refl s) h
  | bkpt imm8 =>
    change execBkpt imm8 s = _ at h
    unfold execBkpt at h
    split at h
    · exact .haltedCore (next_eq h)
    · exact .hardFault _ s (.refl s) h
  | yield | wfe | sev => cases h

end Sys2Proof.Machine
end

section
/-! Exceptions and the invariant (spec/60_exceptions.md sections 4 to 6): every entry, every return and every instruction keeps it. -/

namespace Sys2Proof.Machine

/-! ### Entries and returns are calm -/

theorem entered_calm (u : State) (link : Word) (e : Exc) (v : Word) : Calm u (u.entered link e v) := .same rfl rfl rfl rfl

theorem lockedUpInEntry_calm {s u : State} {sp : Word} (h : BusFrame (s.setSp sp) u) : Calm s (s.lockedUpInEntry u) :=
  ⟨rfl, rfl, id, lockedUpInEntry_trace h, lockedUpInEntry_covers h⟩

theorem exceptionEntry_calm {e : Exc} {ret : Word} {s t : State} (h : exceptionEntry e ret s = .next t) : Calm s t := by
  obtain ⟨u, frame, rfl⟩ | ⟨u, f, v, frame, -, rfl⟩ := exceptionEntry_cases h
  · exact lockedUpInEntry_calm frame
  · exact ((setSp_kept ..).toCalm.trans frame.calm).trans (entered_calm ..)

theorem raiseHardFault_calm {c : HardFaultCause} {s t : State} (h : raiseHardFault c s = .next t) : Calm s t := by
  obtain ⟨u, frame, rfl⟩ | ⟨u, v, frame, rfl⟩ := raiseHardFault_cases h
  · exact lockedUpInEntry_calm frame
  · exact ((setSp_kept ..).toCalm.trans frame.calm).trans (entered_calm ..)

theorem exceptionReturn_calm {v : Word} {s t : State} (h : exceptionReturn v s = .next t) : Calm s t := by
  obtain ⟨k, e, u, -, -, -, frame, done⟩ := exceptionReturn_cases h
  have deactivated : Calm s (s.deactivate e) := by
    rw [deactivate_eq]
    exact .same rfl rfl rfl rfl
  refine (deactivated.trans frame.calm).trans ?_
  obtain ⟨r0, r1, r2, r3, r12, lr, ret, psr, -, rfl⟩ | rfl | ⟨w, -, rfl⟩ := done
  · rw [restoreFrame_eq]; exact .same rfl rfl rfl rfl
  · exact .same rfl rfl rfl rfl
  · exact .trans (.same rfl rfl rfl rfl) (entered_calm u ..)

/-! ### The invariant -/

theorem Kept.inv {s t : State} (h : Kept s t) (inv : s.Inv) : t.Inv where
  memWf := h.wf inv.memWf
  mspAligned := h.msp inv.mspAligned
  pspAligned := h.psp inv.pspAligned
  pcAligned := h.pc inv.pcAligned
  ipsrLegal := by rw [h.ipsr]; exact inv.ipsrLegal
  handlerOnMain hne := by
    rw [h.ipsr] at hne
    exact (h.spsel hne).trans (inv.handlerOnMain hne)
  hardFaultNotPending := h.hardFault.trans inv.hardFaultNotPending
  svCallNotPending := h.svCall.trans inv.svCallNotPending
  handledIsActive hl hh := by
    rw [h.ipsr, h.active]
    exact inv.handledIsActive (h.lockup ▸ hl) (h.halted ▸ hh)
  threadIdle := by rw [h.ipsr, h.active]; exact inv.threadIdle
  noTrace := h.trace inv.noTrace

/-- The invariant of the locked-up state is the invariant without the rule that the exception handled is active. -/
theorem State.Inv.lockedUp {s : State} (inv : s.Inv) : s.lockedUp.Inv :=
  { inv with handledIsActive := nofun }

theorem Kept.lockedUp {s t : State} (h : Kept s t) : Kept s.lockedUp t.lockedUp :=
  { h with lockup := rfl, toCalm := ⟨h.platform, h.primask, h.wf, h.trace, h.covers⟩ }

/-- A handler's context has the invariant, whatever was active before (R420, R424). -/
theorem entered_inv {u : State} (inv : u.lockedUp.Inv) (link : Word) (e : Exc) (v : Word) : (u.entered link e v).Inv where
  memWf := inv.memWf
  mspAligned := inv.mspAligned
  pspAligned := inv.pspAligned
  pcAligned := alignPc_idem v
  ipsrLegal := .inr (by simp [State.entered, ofNumber_number])
  handlerOnMain _ := rfl
  hardFaultNotPending := by
    change (u.pending.set e false).get .hardFault = false
    rw [get_set]
    split
    · rfl
    · exact inv.hardFaultNotPending
  svCallNotPending := by
    change (u.pending.set e false).get .svCall = false
    rw [get_set]
    split
    · rfl
    · exact inv.svCallNotPending
  handledIsActive _ _ f hf := by
    obtain rfl : e = f := by simpa [State.entered, ofNumber_number] using hf
    simp [State.entered, get_set]
  threadIdle h := absurd h (number_ne_zero e)
  noTrace := inv.noTrace

theorem exceptionEntry_inv {e : Exc} {ret : Word} {s t : State} (inv : s.lockedUp.Inv)
    (h : exceptionEntry e ret s = .next t) : t.Inv := by
  obtain ⟨u, frame, rfl⟩ | ⟨u, f, v, frame, -, rfl⟩ := exceptionEntry_cases h
  · exact { inv with noTrace := lockedUpInEntry_trace frame inv.noTrace }
  · exact entered_inv (((setSp_kept s _).trans frame.kept).lockedUp.inv inv) ..

theorem raiseHardFault_inv {c : HardFaultCause} {s t : State} (inv : s.lockedUp.Inv)
    (h : raiseHardFault c s = .next t) : t.Inv := by
  unfold raiseHardFault at h
  split at h
  · cases h; exact inv
  · exact exceptionEntry_inv inv h

/-- The exception returned from is active no longer; the rest of the invariant stays (R430, R464). -/
theorem deactivate_inv {s : State} (inv : s.Inv) {e : Exc} (he : Exc.ofNumber s.ipsr = some e) :
    (s.deactivate e).lockedUp.Inv := by
  have hardFault : (s.deactivate e).pending.get .hardFault = false := by
    rw [deactivate_pending, if_neg]
    · exact inv.hardFaultNotPending
    · rintro ⟨rfl, m, h, -⟩; cases h
  have svCall : (s.deactivate e).pending.get .svCall = false := by
    rw [deactivate_pending, if_neg]
    · exact inv.svCallNotPending
    · rintro ⟨rfl, m, h, -⟩; cases h
  have handler : s.ipsr ≠ 0#6 := fun h => by rw [h, ofNumber_zero] at he; cases he
  rw [deactivate_eq]
  exact { inv with
    hardFaultNotPending := hardFault, svCallNotPending := svCall, handledIsActive := nofun
    threadIdle := fun h => absurd h handler }

theorem exceptionReturn_inv {v : Word} {s t : State} (inv : s.Inv) (hl : s.lockup = false) (hh : s.halted = false)
    (h : exceptionReturn v s = .next t) : t.Inv := by
  obtain ⟨k, e, u, -, he, fits, frame, done⟩ := exceptionReturn_cases h
  have unstacked : u.lockedUp.Inv := frame.kept.lockedUp.inv (deactivate_inv inv he)
  have active : u.active = s.active.set e false := by rw [frame.active_eq, deactivate_eq]
  obtain ⟨r0, r1, r2, r3, r12, lr, ret, psr, fit, rfl⟩ | rfl | ⟨w, -, rfl⟩ := done
  · have legal : psr.extractLsb' 0 6 = 0#6 ∧ u.active = ExcSet.none ∧ k ≠ .handlerMain ∨
        ∃ f, Exc.ofNumber (psr.extractLsb' 0 6) = some f ∧ u.active.get f = true ∧ k = .handlerMain := by
      cases k with
      | handlerMain =>
        simp only [State.stackedIpsrFits] at fit
        split at fit
        case h_1 f hf => exact .inr ⟨f, hf, fit, rfl⟩
        case h_2 => cases fit
      | threadMain | threadProcess =>
        refine .inl ⟨by simpa [State.stackedIpsrFits] using fit, ?_, nofun⟩
        rw [active]
        exact set_false_of_count_one (by simpa [ReturnKind.fits] using fits) (inv.handledIsActive hl hh e he)
    rw [restoreFrame_eq]
    constructor
    case memWf => exact unstacked.memWf
    case mspAligned =>
      dsimp only; split
      · exact unstacked.mspAligned
      · exact alignSp_idem _
    case pspAligned =>
      dsimp only; split
      · exact alignSp_idem _
      · exact unstacked.pspAligned
    case pcAligned => exact alignPc_idem _
    case hardFaultNotPending => exact unstacked.hardFaultNotPending
    case svCallNotPending => exact unstacked.svCallNotPending
    case noTrace => exact unstacked.noTrace
    all_goals dsimp only
    all_goals obtain ⟨zero, idle, hk⟩ | ⟨f, hf, hactive, hk⟩ := legal
    · exact .inl zero
    · exact .inr (by rw [hf]; rfl)
    · exact fun h => absurd zero h
    · exact fun _ => by rw [hk]; rfl
    · intro _ _ f hf
      rw [zero, ofNumber_zero] at hf; cases hf
    · intro _ _ g hg
      obtain rfl : f = g := Option.some.inj (hf.symm.trans hg)
      exact hactive
    · exact fun _ => idle
    · intro h
      rw [h, ofNumber_zero] at hf; cases hf
  · exact unstacked
  · exact entered_inv unstacked ..

/-- Every instruction keeps the invariant. -/
theorem exec_inv {i : Instr} {s t : State} (inv : s.Inv) (hl : s.lockup = false) (hh : s.halted = false)
    (h : exec i s = .next t) : t.Inv := by
  cases exec_cases h with
  | completed kept => exact kept.inv inv
  | primaskWritten _ kept =>
    exact { kept.inv inv with }
  | haltedCore eq => rw [eq]; exact { inv with handledIsActive := nofun }
  | hardFault c u kept h => exact raiseHardFault_inv (kept.inv inv).lockedUp h
  | supervisorCall _ _ h => exact exceptionEntry_inv inv.lockedUp h
  | returned _ v u kept h =>
    exact exceptionReturn_inv (kept.inv inv) (kept.lockup.trans hl) (kept.halted.trans hh) h

end Sys2Proof.Machine
end

section
/-! What a step of the machine can do: `step_cases` says it once, over whose turn it is (spec/60_exceptions.md R413, spec/00_scope.md R18). -/

namespace Sys2Proof.Machine

/-! ### Fetching -/

/-- A fetch that succeeds has T set and an executable address, and draws at most one free value. -/
theorem fetch16_frame {s t : State} {a : Word} {hw : Half} (h : fetch16 s a = .ok hw t) :
    t = { s with freeCount := t.freeCount } := by
  unfold fetch16 at h
  split_ifs at h
  cases h
  unfold State.fetchedHalf
  dsimp only
  split <;> rfl

/-- The halfword now in memory or, where it has been overwritten, one of those recorded (R128). -/
theorem fetchedHalf_spec (s : State) (a : Nat) :
    (s.fetchedHalf a).1 = s.mem.readHalf a ∨ (a, (s.fetchedHalf a).1) ∈ s.stale := by
  unfold State.fetchedHalf
  dsimp only
  split
  case h_1 => exact .inl rfl
  case h_2 =>
    have inside : Config.freeNat s.freeCount % ((s.oldHalves a).length + 1) < (s.mem.readHalf a :: s.oldHalves a).length :=
      Nat.mod_lt _ (Nat.succ_pos _)
    rw [List.getElem?_eq_getElem inside, Option.getD_some]
    obtain now | old := List.mem_cons.mp (List.getElem_mem inside)
    · exact .inl now
    · refine .inr ?_
      obtain ⟨e, he, eq⟩ := List.mem_map.mp old
      obtain ⟨mem, addr⟩ := List.mem_filter.mp he
      rwa [← eq, ← beq_iff_eq.mp addr]

/-- What the fetch and the execution of the next instruction can do. -/
theorem runNext_cases {s t : State} (h : runNext s = .next t) :
    (∃ c u, u = { s with freeCount := u.freeCount } ∧ raiseHardFault c u = .next t) ∨
    ∃ i hw1 hw2 u, u = { s with freeCount := u.freeCount } ∧ decode hw1 hw2 = .instr i ∧ exec i u = .next t := by
  have run : ∀ (hw1 hw2 : Half) (u : State), u = { s with freeCount := u.freeCount } →
      runDecoded (decode hw1 hw2) u = .next t →
      (∃ c u, u = { s with freeCount := u.freeCount } ∧ raiseHardFault c u = .next t) ∨
      ∃ i hw1 hw2 u, u = { s with freeCount := u.freeCount } ∧ decode hw1 hw2 = .instr i ∧ exec i u = .next t := by
    intro hw1 hw2 u hu h
    unfold runDecoded at h
    split at h
    case h_1 i dec => exact .inr ⟨i, hw1, hw2, u, hu, dec, h⟩
    case h_2 => exact .inl ⟨_, u, hu, h⟩
    case h_3 => cases h
  unfold runNext at h
  obtain ⟨hw1, s1, f1, h⟩ | ⟨c, -, h⟩ := run_cases h
  case inr => exact .inl ⟨c, s, rfl, h⟩
  have e1 := fetch16_frame f1
  split at h
  case isFalse => exact run _ _ _ e1 h
  case isTrue =>
    obtain ⟨hw2, s2, f2, h⟩ | ⟨c, -, h⟩ := run_cases h
    · exact run _ _ s2 (by rw [fetch16_frame f2, e1]) h
    · exact .inl ⟨c, s1, e1, h⟩

/-! ### The processor -/

/-- What the processor can do in its step from `s` (R413, R447, R482): nothing, the entry of NMI out of lockup, the entry of the exception to be
taken, HardFault for an instruction that cannot be fetched or is Undefined, or an instruction. -/
inductive ProcessorCase (s t : State) : Prop where
  | stays (h : t = s)
  | nmi (hh : s.halted = false) (hl : s.lockup = true) (pending : s.pending.nmi = true) (idle : s.active.nmi = false)
      (h : exceptionEntry .nmi 0xFFFFFFFE#32 { s with lockup := false } = .next t)
  | taken (e : Exc) (hh : s.halted = false) (hl : s.lockup = false) (he : s.takeable = some e)
      (h : exceptionEntry e s.pc { s with sleeping := false } = .next t)
  | fetchFault (c : HardFaultCause) (u : State) (hu : u = { s with sleeping := false, freeCount := u.freeCount })
      (h : raiseHardFault c u = .next t)
  | runs (i : Instr) (hw1 hw2 : Half) (u : State) (hh : s.halted = false) (hl : s.lockup = false) (he : s.takeable = none)
      (hu : u = { s with sleeping := false, freeCount := u.freeCount }) (dec : decode hw1 hw2 = .instr i)
      (h : exec i u = .next t)

theorem awakeStep_cases {s t : State} (hh : s.halted = false) (hl : s.lockup = false)
    (h : awakeStep { s with sleeping := false } = .next t) : ProcessorCase s t := by
  unfold awakeStep at h
  split at h
  case h_1 e he => exact .taken e hh hl he h
  case h_2 he =>
    obtain ⟨c, u, hu, h⟩ | ⟨i, hw1, hw2, u, hu, dec, h⟩ := runNext_cases h
    · exact .fetchFault c u hu h
    · exact .runs i hw1 hw2 u hh hl he hu dec h

theorem processorStep_cases {s t : State} (h : processorStep s = .next t) : ProcessorCase s t := by
  unfold processorStep at h
  split_ifs at h with halted lockup nmi sleeping wakes
  · exact .stays (next_eq h)
  · obtain ⟨pending, idle⟩ : s.pending.nmi = true ∧ s.active.nmi = false := by simpa using nmi
    exact .nmi (by simpa using halted) lockup pending idle h
  · exact .stays (next_eq h)
  · exact awakeStep_cases (by simpa using halted) (by simpa using lockup) h
  · exact .stays (next_eq h)
  · have awake : { s with sleeping := false } = s := by
      cases s; simp_all
    exact awakeStep_cases (by simpa using halted) (by simpa using lockup) (by rw [awake]; exact h)

/-! ### The turns -/

/-- What a step of the machine can do (R18). -/
inductive StepCase (s t : State) : Prop where
  | reset (rest : List Turn) (hr : ResetNext s rest) (h : warmReset { s with schedule := rest } = .next t)
  | resetMidStep (rest : List Turn) (hr : s.schedule = .resetMidStep :: rest)
      (h : midStepReset { s with schedule := rest }.sample = .next t)
  | quiet (h : Kept s t)
  | haltedByDebugger (rest : List Turn)
      (h : t = { s with schedule := rest, sleeping := false, lockup := false, halted := true })
  | processor (s1 : State) (turn : ProcessorTurn s s1) (h : ProcessorCase s1 t)

theorem sample_kept (s : State) : Kept s s.sample :=
  ⟨.same rfl rfl rfl rfl, rfl, rfl, rfl, rfl, fun _ => rfl, id, id, id, rfl, rfl⟩

theorem countDown_kept (s : State) : Kept s s.countDown := by
  unfold State.countDown
  split_ifs <;> exact ⟨.same rfl rfl rfl rfl, rfl, rfl, rfl, rfl, fun _ => rfl, id, id, id, rfl, rfl⟩

theorem sysTickTick_kept (s : State) : Kept s s.sysTickTick := by
  unfold State.sysTickTick
  split
  · exact countDown_kept s
  · exact .refl s

/-- The state from which the processor starts its turn: the turn is taken off the schedule and the lines are sampled. -/
theorem ProcessorTurn.kept {s s1 : State} (h : ProcessorTurn s s1) : Kept s s1 := by
  obtain ⟨-, -, rfl⟩ | ⟨rest, -, rfl⟩ := h
  · exact sample_kept s
  · exact .trans (.plain rfl) (sample_kept _)

/-- At the processor's turn the step is the processor's. -/
theorem ProcessorTurn.step_eq {s s1 : State} (h : ProcessorTurn s s1) : step s = processorStep s1 := by
  obtain ⟨empty, noReset, rfl⟩ | ⟨rest, first, rfl⟩ := h
  · simp [step, empty, idleTurn, noReset, processorTurn]
  · simp [step, first, takeTurn, processorTurn]

theorem step_cases {s t : State} (h : step s = .next t) : StepCase s t := by
  unfold step at h
  split at h
  case h_1 empty =>
    unfold idleTurn at h
    split at h
    case isTrue requested =>
      have same : { s with schedule := [] } = s := by rw [← empty]
      exact .reset [] (.inr ⟨empty, rfl, requested⟩) (by rw [same]; exact h)
    case isFalse noReset =>
      exact .processor s.sample (.inl ⟨empty, by simpa using noReset, rfl⟩) (processorStep_cases h)
  case h_2 turn rest first =>
    cases turn with
    | processor => exact .processor _ (.inr ⟨rest, first, rfl⟩) (processorStep_cases h)
    | lines irq nmi => rw [next_eq h]; exact .quiet (.trans (.plain rfl) (sample_kept _))
    | tick => rw [next_eq h]; exact .quiet (.trans (.plain rfl) (sysTickTick_kept _))
    | reset => exact .reset rest (.inl first) h
    | resetMidStep => exact .resetMidStep rest first h
    | wake => rw [next_eq h]; exact .quiet (.plain rfl)
    | debugEntry =>
      rw [next_eq h]
      unfold State.debugEntry
      split
      · exact .haltedByDebugger rest rfl
      · exact .quiet (.plain rfl)

end Sys2Proof.Machine
end

section
/-! Reset (spec/70_reset_and_hazards.md section 1), and what every step of the machine keeps. -/

namespace Sys2Proof.Machine

/-! ### Reset -/

theorem ResetNext.step_eq {s : State} {rest : List Turn} (h : ResetNext s rest) :
    step s = warmReset { s with schedule := rest } := by
  obtain first | ⟨empty, rfl, requested⟩ := h
  · simp [step, first, takeTurn]
  · have same : { s with schedule := [] } = s := by rw [← empty]
    rw [same]
    simp [step, empty, idleTurn, requested]

theorem step_resetMidStep {s : State} {rest : List Turn} (h : s.schedule = .resetMidStep :: rest) :
    step s = midStepReset { s with schedule := rest }.sample := by
  simp [step, h, takeTurn]

/-- The platform answers the read of address 0 or 4 with a bus error. -/
def ResetVectorError (p : Config.Platform) : Prop := busError p 0 4 .vector = true ∨ busError p 4 4 .vector = true

theorem vectorRead_eq (s : State) (a : Word) :
    vectorRead s a = if busError s.platform a.toNat 4 .vector then none else some (s.mem.readWord a.toNat) := rfl

/-- A reset whose vectors can be read (R500). -/
theorem warmReset_ok {s : State} (h : ¬ResetVectorError s.platform) :
    ∃ u, warmReset s =
      .next { s.afterReset u (s.mem.readWord 0) (s.mem.readWord 4) with freeCount := s.freeCount + 18 } := by
  obtain ⟨h0, h4⟩ := not_or.mp h
  refine ⟨Unknowns.free s.freeCount, ?_⟩
  simp [warmReset, resetWith, vectorRead_eq, h0, h4, State.afterReset]

/-- A reset whose vectors cannot be read is refused (R503). -/
theorem warmReset_refused {s : State} (h : ResetVectorError s.platform) : warmReset s = .refused .resetVectorBusError := by
  unfold warmReset resetWith
  simp only [vectorRead_eq]
  obtain h | h := h
  · simp [h]
  · simp [h]

/-- The state after a reset: the values of `afterReset` in unchanged memory. -/
theorem warmReset_next {s t : State} (h : warmReset s = .next t) :
    ∃ u sp v, t = { s.afterReset u sp v with freeCount := t.freeCount } := by
  by_cases error : ResetVectorError s.platform
  · rw [warmReset_refused error] at h; cases h
  · obtain ⟨u, eq⟩ := warmReset_ok error
    rw [eq] at h
    exact ⟨u, _, _, by rw [next_eq h]⟩

/-- The state after a reset has the values of R68 and R504. -/
theorem afterReset_values (s : State) (u : Unknowns) (sp v : Word) (n : Nat) :
    ResetValues { s.afterReset u sp v with freeCount := n } where
  mode := ⟨rfl, rfl⟩
  primask := rfl
  spsel := rfl
  idle e := ⟨get_none e, get_none e⟩
  enables := rfl
  priorities := ⟨fun _ h => Vector.getElem_replicate h, rfl, rfl, rfl⟩
  scr := ⟨rfl, rfl, rfl⟩
  sysTick := ⟨rfl, rfl, rfl, rfl⟩
  awake := ⟨rfl, rfl, rfl⟩

theorem alignSp_low (v : Word) : alignSp v &&& 3#32 = 0#32 := by
  rw [alignSp, BitVec.and_assoc]
  simp

theorem afterReset_spec (s : State) (u : Unknowns) (n : Nat) :
    AfterReset s s.schedule { s.afterReset u (s.mem.readWord 0) (s.mem.readWord 4) with freeCount := n } where
  values := afterReset_values ..
  vectors := ⟨rfl, rfl, rfl⟩
  psp := alignSp_low _
  inputs := ⟨rfl, rfl, rfl, rfl⟩
  levels := ⟨rfl, rfl⟩
  records := ⟨rfl, rfl, rfl⟩

theorem afterReset_inv {s : State} (wf : s.mem.wf = true) (u : Unknowns) (sp v : Word) (n : Nat) :
    ({ s.afterReset u sp v with freeCount := n } : State).Inv where
  memWf := wf
  mspAligned := alignSp_idem _
  pspAligned := alignSp_idem _
  pcAligned := alignPc_idem _
  ipsrLegal := .inl rfl
  handlerOnMain h := absurd rfl h
  hardFaultNotPending := rfl
  svCallNotPending := rfl
  handledIsActive _ _ e he := by
    replace he : Exc.ofNumber 0#6 = some e := he
    rw [ofNumber_zero] at he; cases he
  threadIdle _ := rfl
  noTrace := rfl

theorem scramble_eq (l : List Nat) (s : State) :
    scramble l s = { s with mem := (scramble l s).mem, freeCount := (scramble l s).freeCount } := by
  induction l generalizing s with
  | nil => rfl
  | cons a l ih => rw [scramble, ih]; rfl

theorem scramble_wf {l : List Nat} {s : State} (h : s.mem.wf = true) : (scramble l s).mem.wf = true := by
  induction l generalizing s with
  | nil => exact h
  | cons a l ih => exact ih (write_wf h a _)

/-- Only the bytes of the trace are scrambled. -/
theorem scramble_outside {l : List Nat} {s : State} (h : s.mem.wf = true) {b : Nat} (hb : b ∉ l) :
    (scramble l s).mem.read b = s.mem.read b := by
  induction l generalizing s with
  | nil => rfl
  | cons a l ih =>
    obtain ⟨hne, hl⟩ := not_or.mp (mt List.mem_cons.mpr hb)
    exact (ih (write_wf h a _) hl).trans (read_write_ne h hne _)

theorem midStepReset_eq {s u : State} (h : processorStep { s with storeTrace := some [] } = .next u) :
    midStepReset s = warmReset (scramble (u.storeTrace.getD []) { s with freeCount := u.freeCount }) := by
  simp [midStepReset, h]

theorem midStepReset_next {s t : State} (h : midStepReset s = .next t) :
    ∃ l n, warmReset (scramble l { s with freeCount := n }) = .next t := by
  unfold midStepReset at h
  split at h
  case h_1 u _ => exact ⟨_, _, h⟩
  all_goals cases h

/-- After a reset of either kind. -/
theorem reset_next {s t : State} {rest : List Turn} (h : ResetNext s rest ∨ s.schedule = .resetMidStep :: rest)
    (hs : step s = .next t) :
    ∃ (s1 : State) (u : Unknowns) (sp v : Word), t = { s1.afterReset u sp v with freeCount := t.freeCount } ∧ s1.platform = s.platform ∧
      (s.mem.wf = true → s1.mem.wf = true) := by
  obtain h | h := h
  · rw [h.step_eq] at hs
    obtain ⟨u, sp, v, eq⟩ := warmReset_next hs
    exact ⟨_, u, sp, v, eq, rfl, id⟩
  · rw [step_resetMidStep h] at hs
    obtain ⟨l, n, hs⟩ := midStepReset_next hs
    obtain ⟨u, sp, v, eq⟩ := warmReset_next hs
    exact ⟨_, u, sp, v, eq, by rw [scramble_eq]; rfl, fun wf => scramble_wf wf⟩

/-! ### What a step keeps -/

theorem ProcessorCase.inv {s t : State} (inv : s.Inv) (h : ProcessorCase s t) : t.Inv := by
  cases h with
  | stays h => rw [h]; exact inv
  | nmi _ _ _ _ h => exact exceptionEntry_inv (s := { s with lockup := false }) inv.lockedUp h
  | taken e _ _ _ h =>
    have awake : Kept s { s with sleeping := false } := .plain rfl
    exact exceptionEntry_inv (awake.inv inv).lockedUp h
  | fetchFault c u hu h =>
    have awake : Kept s u := .plain (by rw [hu])
    exact raiseHardFault_inv (awake.inv inv).lockedUp h
  | runs i hw1 hw2 u hh hl _ hu _ h =>
    have awake : Kept s u := .plain (by rw [hu])
    exact exec_inv (awake.inv inv) (awake.lockup.trans hl) (awake.halted.trans hh) h

/-- Settles O56, by the cases of a step. -/
theorem stepKeepsInv : Obligations.StepKeepsInv := by
  intro s t inv h
  have afterReset : ∀ rest, ResetNext s rest ∨ s.schedule = .resetMidStep :: rest → t.Inv := fun rest hr => by
    obtain ⟨s1, u, sp, v, eq, -, wf⟩ := reset_next hr h
    rw [eq]
    exact afterReset_inv (wf inv.memWf) u sp v _
  cases step_cases h with
  | reset rest hr _ => exact afterReset rest (.inl hr)
  | resetMidStep rest hr _ => exact afterReset rest (.inr hr)
  | quiet kept => exact kept.inv inv
  | haltedByDebugger rest eq => rw [eq]; exact { inv with handledIsActive := fun _ h => nomatch h }
  | processor s1 turn h => exact h.inv (turn.kept.inv inv)

end Sys2Proof.Machine
end

section
/-! The statements about the steps of the machine: resets, the writers of PRIMASK and IPSR, the platform, the processor's turn. -/

namespace Sys2Proof.Machine

/-! ### The platform, PRIMASK and IPSR -/

/-- An instruction is calm but for PRIMASK. -/
theorem exec_calm {i : Instr} {s t : State} (h : exec i s = .next t) : Calm s { t with primask := s.primask } := by
  have forget : ∀ {t : State}, Calm s t → Calm s { t with primask := s.primask } := fun c =>
    ⟨c.platform, rfl, c.wf, c.trace, c.covers⟩
  cases exec_cases h with
  | completed kept => exact forget kept.toCalm
  | primaskWritten _ kept => exact kept.toCalm
  | haltedCore eq => rw [eq]; exact .same rfl rfl rfl rfl
  | hardFault c u kept h => exact forget (kept.toCalm.trans (raiseHardFault_calm h))
  | supervisorCall _ _ h => exact forget (exceptionEntry_calm h)
  | returned _ v u kept h => exact forget (kept.toCalm.trans (exceptionReturn_calm h))

/-- A step of the processor is calm but for PRIMASK. -/
theorem ProcessorCase.calm {s t : State} (h : ProcessorCase s t) : Calm s { t with primask := s.primask } := by
  have forget : ∀ {t : State}, Calm s t → Calm s { t with primask := s.primask } := fun c =>
    ⟨c.platform, rfl, c.wf, c.trace, c.covers⟩
  have awake : ∀ {u : State}, u = { s with sleeping := false, freeCount := u.freeCount } → Calm s u := fun hu => by
    rw [hu]; exact .same rfl rfl rfl rfl
  cases h with
  | stays eq => rw [eq]; exact .refl s
  | nmi _ _ _ _ h =>
    have outOfLockup : Calm s { s with lockup := false } := .same rfl rfl rfl rfl
    exact forget (outOfLockup.trans (exceptionEntry_calm h))
  | taken _ _ _ _ h => exact forget (.trans (awake rfl) (exceptionEntry_calm h))
  | fetchFault c u hu h => exact forget ((awake hu).trans (raiseHardFault_calm h))
  | runs i hw1 hw2 u _ _ _ hu _ h =>
    have calm := (awake hu).trans (exec_calm h)
    exact ⟨calm.platform, rfl, calm.wf, calm.trace, calm.covers⟩

/-- Settles O59, by the cases of a step. -/
theorem platformConstant : Obligations.PlatformConstant := by
  intro s t h
  have afterReset : ∀ rest, ResetNext s rest ∨ s.schedule = .resetMidStep :: rest → t.platform = s.platform := by
    intro rest hr
    obtain ⟨s1, u, sp, v, eq, platform, -⟩ := reset_next hr h
    rw [eq]
    exact platform
  cases step_cases h with
  | reset rest hr _ => exact afterReset rest (.inl hr)
  | resetMidStep rest hr _ => exact afterReset rest (.inr hr)
  | quiet kept => exact kept.platform
  | haltedByDebugger rest eq => rw [eq]
  | processor s1 turn h => exact h.calm.platform.trans turn.kept.platform

/-- The processor's turn runs an instruction when its step does. -/
theorem executes_of_runs {s0 s t u : State} {i : Instr} {hw1 hw2 : Half} (turn : ProcessorTurn s0 s) (hh : s.halted = false)
    (hl : s.lockup = false) (he : s.takeable = none) (hu : u = { s with sleeping := false, freeCount := u.freeCount })
    (dec : decode hw1 hw2 = .instr i) (h : exec i u = .next t) : Executes s0 i t :=
  ⟨s, u, hw1, hw2, turn, hh, hl, he, hu, dec, h⟩

/-- An instruction that changes PRIMASK is one of its writers. -/
theorem exec_primask {i : Instr} {s t : State} (h : exec i s = .next t) (changed : t.primask ≠ s.primask) :
    WritesPrimask i := by
  cases exec_cases h with
  | completed kept => exact absurd kept.primask changed
  | primaskWritten hi _ => exact hi
  | haltedCore eq => exact absurd (by rw [eq]) changed
  | hardFault c u kept h => exact absurd ((raiseHardFault_calm h).primask.trans kept.primask) changed
  | supervisorCall _ _ h => exact absurd (exceptionEntry_calm h).primask changed
  | returned _ v u kept h => exact absurd ((exceptionReturn_calm h).primask.trans kept.primask) changed

/-- Settles O57, by the cases of an instruction and of a step. -/
theorem primaskWriters : Obligations.PrimaskWriters := by
  refine ⟨fun i s t => exec_primask, fun s t h changed => ?_, fun s t rest hr h => ?_⟩
  · cases step_cases h with
    | reset rest hr _ => exact .inl ⟨rest, .inl hr⟩
    | resetMidStep rest hr _ => exact .inl ⟨rest, .inr hr⟩
    | quiet kept => exact absurd kept.primask changed
    | haltedByDebugger rest eq => exact absurd (by rw [eq]) changed
    | processor s1 turn h =>
      rw [← turn.kept.primask] at changed
      cases h with
      | stays eq => exact absurd (by rw [eq]) changed
      | nmi _ _ _ _ h => exact absurd (exceptionEntry_calm h).primask changed
      | taken _ _ _ _ h => exact absurd (exceptionEntry_calm h).primask changed
      | fetchFault c u hu h => exact absurd ((raiseHardFault_calm h).primask.trans (by rw [hu])) changed
      | runs i hw1 hw2 u hh hl he hu dec h =>
        have same : u.primask = s1.primask := by rw [hu]
        exact .inr ⟨i, executes_of_runs turn hh hl he hu dec h, exec_primask h (by rwa [same])⟩
  · obtain ⟨s1, u, sp, v, eq, -⟩ := reset_next hr h
    rw [eq]
    rfl

theorem exceptionEntry_ipsr {e : Exc} {ret : Word} {s t : State} (h : exceptionEntry e ret s = .next t) :
    t.ipsr = s.ipsr ∨ t.ipsr = e.number ∨ t.ipsr = 3#6 := by
  obtain ⟨u, -, rfl⟩ | ⟨u, f, v, -, rfl | ⟨rfl, -⟩, rfl⟩ := exceptionEntry_cases h
  · exact .inl rfl
  · exact .inr (.inl rfl)
  · exact .inr (.inr rfl)

theorem raiseHardFault_ipsr {c : HardFaultCause} {s t : State} (h : raiseHardFault c s = .next t) :
    t.ipsr = s.ipsr ∨ t.ipsr = 3#6 := by
  obtain ⟨u, -, rfl⟩ | ⟨u, v, -, rfl⟩ := raiseHardFault_cases h
  · exact .inl rfl
  · exact .inr rfl

/-- How an instruction changes IPSR. -/
theorem exec_ipsr {i : Instr} {s t : State} (h : exec i s = .next t) (changed : t.ipsr ≠ s.ipsr) :
    t.ipsr = 3#6 ∨ (t.ipsr = 11#6 ∧ ∃ imm8, i = .svc imm8) ∨ MayReturn i := by
  cases exec_cases h with
  | completed kept => exact absurd kept.ipsr changed
  | primaskWritten _ kept => exact absurd kept.ipsr changed
  | haltedCore eq => exact absurd (by rw [eq]) changed
  | hardFault c u kept h =>
    obtain same | entered := raiseHardFault_ipsr h
    · exact absurd (same.trans kept.ipsr) changed
    · exact .inl entered
  | supervisorCall imm8 hi h =>
    obtain same | entered | inPlace := exceptionEntry_ipsr h
    · exact absurd same changed
    · exact .inr (.inl ⟨entered, imm8, hi⟩)
    · exact .inl inPlace
  | returned hi _ _ _ _ => exact .inr (.inr hi)

/-- Settles O58, by the cases of an instruction and of a step. -/
theorem modeChanges : Obligations.ModeChanges := by
  refine ⟨fun i s t => exec_ipsr, fun s t h changed => ?_, fun s t rest hr h => ?_⟩
  · cases step_cases h with
    | reset rest hr _ => exact .inl ⟨rest, .inl hr⟩
    | resetMidStep rest hr _ => exact .inl ⟨rest, .inr hr⟩
    | quiet kept => exact absurd kept.ipsr changed
    | haltedByDebugger rest eq => exact absurd (by rw [eq]) changed
    | processor s1 turn h =>
      rw [← turn.kept.ipsr] at changed
      cases h with
      | stays eq => exact absurd (by rw [eq]) changed
      | nmi hh hl pending idle h =>
        obtain same | entered | inPlace := exceptionEntry_ipsr h
        · exact absurd same changed
        · exact .inr (.inr (.inl ⟨.nmi, ⟨s1, turn, hh, .inr ⟨hl, rfl, pending, idle⟩⟩, entered⟩))
        · exact .inr (.inl ⟨s1, turn, inPlace⟩)
      | taken e hh hl he h =>
        obtain same | entered | inPlace := exceptionEntry_ipsr h
        · exact absurd same changed
        · exact .inr (.inr (.inl ⟨e, ⟨s1, turn, hh, .inl ⟨hl, he⟩⟩, entered⟩))
        · exact .inr (.inl ⟨s1, turn, inPlace⟩)
      | fetchFault c u hu h =>
        obtain same | entered := raiseHardFault_ipsr h
        · exact absurd (same.trans (by rw [hu])) changed
        · exact .inr (.inl ⟨s1, turn, entered⟩)
      | runs i hw1 hw2 u hh hl he hu dec h =>
        have same : u.ipsr = s1.ipsr := by rw [hu]
        obtain hardFault | other := exec_ipsr h (by rwa [same])
        · exact .inr (.inl ⟨s1, turn, hardFault⟩)
        · exact .inr (.inr (.inr ⟨i, executes_of_runs turn hh hl he hu dec h, other⟩))
  · obtain ⟨s1, u, sp, v, eq, -⟩ := reset_next hr h
    rw [eq]
    rfl

/-! ### Reset -/

/-- Settles O55. -/
theorem invAtReset : Obligations.InvAtReset := by
  refine ⟨?_, ?_, rfl, rfl⟩
  · refine ⟨rfl, rfl, rfl, rfl, .inl rfl, fun h => absurd rfl h, rfl, rfl, fun _ _ e he => ?_, fun _ => rfl, rfl⟩
    replace he : Exc.ofNumber 0#6 = some e := he
    rw [ofNumber_zero] at he; cases he
  · exact {
      mode := ⟨rfl, rfl⟩, primask := rfl, spsel := rfl, idle := fun e => ⟨get_none e, get_none e⟩, enables := rfl
      priorities := ⟨fun _ h => Vector.getElem_replicate h, rfl, rfl, rfl⟩
      scr := ⟨rfl, rfl, rfl⟩, sysTick := ⟨rfl, rfl, rfl, rfl⟩, awake := ⟨rfl, rfl, rfl⟩ }

/-- Every byte that the step's trace does not name is as before it (R502). -/
theorem traced_bytes {s u : State} (wf : s.mem.wf = true) (h : processorStep { s with storeTrace := some [] } = .next u) :
    ∀ b, b ∉ u.storeTrace.getD [] → u.mem.read b = s.mem.read b := by
  obtain ⟨l, trace, -, same⟩ := (processorStep_cases h).calm.covers wf [] rfl
  replace trace : u.storeTrace = some l := trace
  rw [trace]
  exact same

/-- A reset of `s1`, which differs from `s` in its memory and in what a reset clears. -/
theorem warmReset_after {s s1 : State} {rest : List Turn} (platform : s1.platform = s.platform) (schedule : s1.schedule = rest)
    (irqLine : s1.irqLine = s.irqLine) (nmiLine : s1.nmiLine = s.nmiLine) (ok : ¬ResetVectorError s.platform) :
    ∃ t, warmReset s1 = .next t ∧ AfterReset s rest t ∧ t.mem = s1.mem := by
  obtain ⟨u, eq⟩ := warmReset_ok (s := s1) (by rwa [platform])
  have spec := afterReset_spec s1 u (s1.freeCount + 18)
  exact ⟨_, eq, ⟨spec.values, spec.vectors, spec.psp, ⟨platform, schedule, irqLine, nmiLine⟩, ⟨irqLine, nmiLine⟩,
    spec.records⟩, rfl⟩

theorem scrambled_after {s s1 : State} {rest : List Turn} {l : List Nat} (platform : s1.platform = s.platform)
    (schedule : s1.schedule = rest) (irqLine : s1.irqLine = s.irqLine) (nmiLine : s1.nmiLine = s.nmiLine)
    (ok : ¬ResetVectorError s.platform) :
    ∃ t, warmReset (scramble l s1) = .next t ∧ AfterReset s rest t ∧ t.mem = (scramble l s1).mem :=
  warmReset_after (by rw [scramble_eq]; exact platform) (by rw [scramble_eq]; exact schedule)
    (by rw [scramble_eq]; exact irqLine) (by rw [scramble_eq]; exact nmiLine) ok

/-- Settles O54: a reset is `afterReset` of the state it strikes; one in the middle of a step of that state with the traced bytes scrambled. -/
theorem resetResult : Obligations.ResetResult := by
  intro s rest error
  refine ⟨fun hr => ⟨fun ok => ?_, fun err => ?_⟩, fun hr wf => ⟨fun u hu => ⟨?_, fun ok => ?_, fun err => ?_⟩, ?_, ?_⟩⟩
  · rw [hr.step_eq]
    exact warmReset_after rfl rfl rfl rfl ok
  · rw [hr.step_eq]
    exact warmReset_refused err
  · exact traced_bytes (s := { s with schedule := rest }.sample) wf hu
  · rw [step_resetMidStep hr, midStepReset_eq hu]
    obtain ⟨t, eq, after, mem⟩ := scrambled_after (s := s) (s1 := { { s with schedule := rest }.sample with
      freeCount := u.freeCount }) (l := u.storeTrace.getD []) rfl rfl rfl rfl ok
    refine ⟨t, eq, after, fun b hb => ?_⟩
    rw [mem]
    exact scramble_outside (s := { { s with schedule := rest }.sample with freeCount := u.freeCount }) wf hb
  · rw [step_resetMidStep hr, midStepReset_eq hu]
    refine warmReset_refused ?_
    rw [scramble_eq]
    exact err
  · intro f hf
    rw [step_resetMidStep hr, midStepReset, hf]
  · intro r hf
    rw [step_resetMidStep hr, midStepReset, hf]

end Sys2Proof.Machine
end

section
/-! The processor's turn (spec/60_exceptions.md R413, R447, R482), fetches (spec/20_memory.md R112, R128), priorities (R410 to R412), the
sampler (R460) and the SysTick timer (R470, R471). -/

namespace Sys2Proof.Machine

/-! ### Priorities -/

theorem prioValue_nonneg (p : BitVec 2) : 0 ≤ prioValue p := by
  unfold prioValue; omega

/-- Only NMI and HardFault have a priority value below 0 (R410). -/
theorem prio_neg_iff {s : State} {e : Exc} : s.prio e < 0 ↔ e = .nmi ∨ e = .hardFault := by
  cases e with
  | nmi | hardFault => simp [State.prio]
  | svCall | pendSV | sysTick | irq =>
    simp only [State.prio, reduceCtorEq, or_self, iff_false, not_lt]
    exact prioValue_nonneg _

theorem le_executionPriorityNoMask_iff {s : State} {c : Int} :
    c ≤ s.executionPriorityNoMask ↔ c ≤ 256 ∧ ∀ e, s.active.get e = true → c ≤ s.prio e := by
  unfold State.executionPriorityNoMask
  rw [le_foldl_min_iff]
  simp [mem_all]

/-- The execution priority is negative exactly while NMI or HardFault is active (R411). -/
theorem executionPriority_le_neg_one_iff {s : State} :
    s.executionPriority ≤ -1 ↔ s.active.nmi = true ∨ s.active.hardFault = true := by
  have noMask : 0 ≤ s.executionPriorityNoMask ↔ ¬(s.active.nmi = true ∨ s.active.hardFault = true) := by
    rw [le_executionPriorityNoMask_iff]
    constructor
    · rintro ⟨-, h⟩ (active | active)
      · exact absurd (h .nmi active) (by simp [State.prio])
      · exact absurd (h .hardFault active) (by simp [State.prio])
    · refine fun h => ⟨by decide, fun e active => not_lt.mp fun neg => h ?_⟩
      obtain rfl | rfl := prio_neg_iff.mp neg
      · exact .inl active
      · exact .inr active
  have masked : 0 ≤ s.executionPriority ↔ 0 ≤ s.executionPriorityNoMask := by
    unfold State.executionPriority
    split
    · exact ⟨fun h => (le_min_iff.mp h).1, fun h => le_min h le_rfl⟩
    · rfl
  rw [← not_iff_not, ← noMask, ← masked]
  omega

/-- Settles O44. -/
theorem hardFaultOrLockup : Obligations.HardFaultOrLockup := by
  intro c s
  unfold raiseHardFault HardFaultOutcome
  simp only [executionPriority_le_neg_one_iff, Bool.or_eq_true]
  rfl

theorem foldl_min_attained {α : Type} (f : α → Int) (l : List α) (a : Int) :
    l.foldl (fun p x => min p (f x)) a = a ∨ ∃ x ∈ l, l.foldl (fun p x => min p (f x)) a = f x := by
  induction l generalizing a with
  | nil => exact .inl rfl
  | cons x l ih =>
    obtain eq | ⟨y, hy, eq⟩ := ih (min a (f x))
    · simp only [List.foldl_cons, eq]
      obtain h | h := min_choice a (f x)
      · exact .inl h
      · exact .inr ⟨x, List.mem_cons_self, h⟩
    · exact .inr ⟨y, List.mem_cons_of_mem x hy, eq⟩

/-- Settles O45: a minimum is a lower bound, and attained. -/
theorem executionPriorityRule : Obligations.ExecutionPriorityRule := by
  intro s
  obtain ⟨le256, lower⟩ := le_executionPriorityNoMask_iff.mp (le_refl s.executionPriorityNoMask)
  refine ⟨lower, le256, ?_, rfl⟩
  obtain eq | ⟨e, he, eq⟩ := foldl_min_attained s.prio (Exc.all.filter fun e => s.active.get e) 256
  · exact .inl eq
  · exact .inr ⟨e, (List.mem_filter.mp he).2, eq⟩

/-- Settles O47: what is taken is strictly below the execution priority. -/
theorem takenExceptionRule : Obligations.TakenExceptionRule := by
  intro s e taken
  obtain ⟨-, below⟩ := takeable_eq_some_iff.mp taken
  have preempts : ∀ f, s.active.get f = true → s.prio e < s.prio f := fun f active =>
    below.trans_le (executionPriority_le_prio active)
  refine ⟨preempts, ?_, fun mask => prio_neg_iff.mp (below.trans_le ?_)⟩
  · cases active : s.active.get e with
    | false => rfl
    | true => exact absurd (preempts e active) (lt_irrefl _)
  · simp [State.executionPriority, mask]

/-! ### The processor's turn -/

/-- A core that is about to execute runs the next instruction. -/
theorem step_of_aboutToExecute {s0 s : State} (turn : ProcessorTurn s0 s) (about : s.AboutToExecute) : step s0 = runNext s := by
  obtain ⟨halted, lockup, sleeping, none_taken⟩ := about
  simp [turn.step_eq, processorStep, halted, lockup, sleeping, awakeStep, none_taken]

/-- A fetch with nothing stale returns the halfword in memory. -/
theorem fetch16_fetchable {s : State} {a : Word} (tbit : s.tbit = true) (h : s.Fetchable a) :
    fetch16 s a = .ok (s.mem.readHalf a.toNat) s := by
  obtain ⟨executable, noError, fresh⟩ := h
  simp [fetch16, tbit, executable, noError, State.fetchedHalf, fresh]

/-- A fetch that cannot be made gets an error. -/
theorem fetch16_error {s : State} {a : Word}
    (h : s.tbit = false ∨ (regionOf a.toNat).xn = true ∨ busError s.platform a.toNat 2 .fetch = true) :
    ∃ c, fetch16 s a = .error c := by
  unfold fetch16
  split_ifs with h1 h2 h3
  · exact ⟨_, rfl⟩
  · exact ⟨_, rfl⟩
  · exact ⟨_, rfl⟩
  · simp_all

/-- The next instruction, when it can be fetched, is run as it decodes. -/
theorem runNext_fetchable {s : State} (tbit : s.tbit = true) (first : s.Fetchable s.pc)
    (second : isLongHalf (s.mem.readHalf s.pc.toNat) = true → s.Fetchable (s.pc + 2#32)) :
    runNext s = runDecoded (decode (s.mem.readHalf s.pc.toNat) (s.mem.readHalf (s.pc + 2#32).toNat)) s := by
  unfold runNext
  simp only [fetch16_fetchable tbit first, Access.run]
  split
  case isTrue long => simp only [fetch16_fetchable tbit (second long)]
  case isFalse short => simp [decode, short]

/-- Settles O5. -/
theorem stepRunsDecodedInstruction : Obligations.StepRunsDecodedInstruction := by
  intro s0 s i turn about tbit first _ second dec
  rw [step_of_aboutToExecute turn about, runNext_fetchable tbit first second, dec]
  rfl

/-- An error of the first fetch. -/
theorem runNext_firstError {s : State}
    (h : s.tbit = false ∨ (regionOf s.pc.toNat).xn = true ∨ busError s.platform s.pc.toNat 2 .fetch = true) :
    runNext s = HardFaultOutcome s := by
  obtain ⟨c, error⟩ := fetch16_error h
  unfold runNext
  rw [error]
  exact hardFaultOrLockup c s

/-- Settles O6. -/
theorem fetchErrors : Obligations.FetchErrors := by
  intro s0 s turn about
  rw [step_of_aboutToExecute turn about]
  refine ⟨fun h => runNext_firstError (.inl h), fun h => runNext_firstError (.inr (.inl h)),
    fun h => runNext_firstError (.inr (.inr h)), fun first long h => ?_, fun tbit first second why dec => ?_⟩
  · cases tbit : s.tbit with
    | false => exact runNext_firstError (.inl tbit)
    | true =>
      obtain ⟨c, error⟩ := fetch16_error (s := s) (.inr h)
      unfold runNext
      simp only [fetch16_fetchable tbit first, Access.run, long, if_true, error]
      exact hardFaultOrLockup c s
  · rw [runNext_fetchable tbit first second, dec]
    split
    case isTrue undefined => rw [undefined]; exact hardFaultOrLockup .undefined s
    case isFalse other =>
      cases why with
      | undefined => exact absurd rfl other
      | _ => rfl

/-- Settles O7. -/
theorem staleFetchIsOldOrNew : Obligations.StaleFetchIsOldOrNew := by
  intro s a tbit executable noError
  have fetched : fetch16 s a = .ok (s.fetchedHalf a.toNat).1 (s.fetchedHalf a.toNat).2 := by
    simp [fetch16, tbit, executable, noError]
  exact ⟨_, _, fetched, fetchedHalf_spec s a.toNat, fetch16_frame fetched⟩

/-- Settles O48. -/
theorem exceptionTakenBeforeInstruction : Obligations.ExceptionTakenBeforeInstruction := by
  intro s0 s e turn halted lockup sleeping taken
  simp [turn.step_eq, processorStep, halted, lockup, sleeping, awakeStep, taken]

/-- Settles O49. -/
theorem lockupRule : Obligations.LockupRule := by
  refine ⟨fun s0 s turn halted lockup => ⟨fun pending idle => ?_, fun h => ?_⟩, fun s rest first => ⟨fun attached => ?_,
    fun detached => ?_⟩, fun s0 s turn halted => ?_⟩
  · simp [turn.step_eq, processorStep, halted, lockup, pending, idle]
  · obtain h | h := h <;> simp [turn.step_eq, processorStep, halted, lockup, h]
  · simp [step, first, takeTurn, State.debugEntry, attached]
  · simp [step, first, takeTurn, State.debugEntry, detached]
  · simp [turn.step_eq, processorStep, halted]

/-- Settles O50. -/
theorem sleepRule : Obligations.SleepRule := by
  refine ⟨fun s0 s turn halted lockup sleeping => ⟨fun e candidate below => ?_, fun h => ?_⟩, fun s rest first => ?_⟩
  · have wakes : s.wakes = true := by simp [State.wakes, candidate, below]
    simp [turn.step_eq, processorStep, halted, lockup, sleeping, wakes]
  · have stays : s.wakes = false := by
      obtain h | ⟨e, h, le⟩ := h
      · simp [State.wakes, h]
      · simpa [State.wakes, h] using le
    simp [turn.step_eq, processorStep, halted, lockup, sleeping, stays]
  · simp [step, first, takeTurn]

/-! ### The sampler -/

/-- Settles O51. -/
theorem samplerRule : Obligations.SamplerRule := by
  refine ⟨fun s => ⟨fun m hm => ?_, ?_, rfl⟩, fun s rest irq nmi first => ?_⟩
  · simp only [State.sample, BitVec.getLsbD_or, BitVec.getLsbD_and, BitVec.getLsbD_not, hm, decide_true, Bool.true_and,
      Bool.and_or_distrib_left, Bool.or_assoc]
  · simp only [State.sample, sampleLine, Bool.and_or_distrib_left, Bool.or_assoc]
  · simp [step, first, takeTurn]

/-! ### The SysTick timer -/

/-- One tick of a timer that counts (R470, R471), in one equation. -/
theorem countDown_eq (s : State) :
    s.countDown = { s with
      sysTick :=
        { s.sysTick with
          current := if s.sysTick.current = 0#24 then s.sysTick.reload else s.sysTick.current - 1#24
          countFlag := s.sysTick.countFlag || decide (s.sysTick.current = 1#24) }
      pending :=
        { s.pending with
          sysTick := s.pending.sysTick || (decide (s.sysTick.current = 1#24) && s.sysTick.tickInt) } } := by
  unfold State.countDown
  split_ifs with zero one
  · simp [zero]
  · simp [one]
  · simp [one]

theorem sysTickTick_eq {s : State} (enable : s.sysTick.enable = true) (halted : s.halted = false) :
    s.sysTickTick = s.countDown := by
  simp [State.sysTickTick, enable, halted]

/-- Settles O52. -/
theorem sysTickTickRule : Obligations.SysTickTickRule := by
  intro s rest first
  have tick : step s = .next ({ s with schedule := rest } : State).sysTickTick := by simp [step, first, takeTurn]
  rw [tick]
  refine ⟨fun off => ?_, fun enable halted => ?_⟩
  · obtain off | off := off <;> simp [State.sysTickTick, off]
  · rw [sysTickTick_eq (s := { s with schedule := rest }) enable halted, countDown_eq]

/-- The timer of `s` after the k-th tick of a period that starts at a count of 0. -/
structure TicksAfter (s : State) (k : Nat) (t : State) : Prop where
  enable : t.sysTick.enable = true
  halted : t.halted = false
  reload : t.sysTick.reload = s.sysTick.reload
  tickInt : t.sysTick.tickInt = s.sysTick.tickInt
  current : t.sysTick.current.toNat = s.sysTick.reload.toNat + 1 - k
  before : 1 ≤ s.sysTick.reload.toNat → k ≤ s.sysTick.reload.toNat →
    t.pending = s.pending ∧ t.sysTick.countFlag = s.sysTick.countFlag
  event : 1 ≤ s.sysTick.reload.toNat → k = s.sysTick.reload.toNat + 1 →
    t.pending = { s.pending with sysTick := s.pending.sysTick || s.sysTick.tickInt } ∧ t.sysTick.countFlag = true

theorem ticksAfter_one {s : State} (enable : s.sysTick.enable = true) (halted : s.halted = false)
    (zero : s.sysTick.current = 0#24) : TicksAfter s 1 s.sysTickTick := by
  rw [sysTickTick_eq enable halted, countDown_eq]
  constructor <;> simp [zero, enable, halted]
  omega

theorem ticksAfter_succ {s t : State} {k : Nat} (h : TicksAfter s k t) (hk : k ≤ s.sysTick.reload.toNat) (hk1 : 1 ≤ k) :
    TicksAfter s (k + 1) t.sysTickTick := by
  have notZero : t.sysTick.current ≠ 0#24 := by
    rw [Ne, ← BitVec.toNat_inj, h.current]; simp; omega
  have one : t.sysTick.current = 1#24 ↔ k = s.sysTick.reload.toNat := by
    rw [← BitVec.toNat_inj, h.current]; simp; omega
  obtain ⟨pending, countFlag⟩ := h.before (hk1.trans hk) hk
  rw [sysTickTick_eq h.enable h.halted, countDown_eq]
  constructor
  case current =>
    simp only [notZero, if_false]
    rw [BitVec.toNat_sub_of_le (by rw [BitVec.le_def, h.current]; simp; omega), h.current]
    simp; omega
  case before =>
    intro _ le
    have : k ≠ s.sysTick.reload.toNat := by omega
    simp [one, this, pending, countFlag]
  case event =>
    intro _ eq
    have : k = s.sysTick.reload.toNat := by omega
    simp [one, this, pending, h.tickInt]
  all_goals simp [h.enable, h.halted, h.reload, h.tickInt]

/-- Settles O53, by induction on the number of ticks. -/
theorem sysTickPeriod : Obligations.SysTickPeriod := by
  intro s k enable halted zero hk1 hk
  have ticks : TicksAfter s k ((State.sysTickTick)^[k] s) := by
    induction k, hk1 using Nat.le_induction with
    | base => exact ticksAfter_one enable halted zero
    | succ k hk1 ih =>
      rw [Function.iterate_succ_apply']
      exact ticksAfter_succ (ih (by omega)) (by omega) hk1
  exact ⟨ticks.current, ticks.before, ticks.event⟩

end Sys2Proof.Machine
end

section
/-! The data-processing instructions (spec/41_data_processing_a.md, spec/42_data_processing_b.md): result, flags, frame. -/

namespace Sys2Proof.Machine

/-! ### Frames of one low register -/

/-- A write of a low register and a move of the pc. -/
theorem writeLow_plainFrame (s : State) (rd : LowReg) (v : Word) (n : Nat) :
    PlainFrame rd s ((s.writeLow rd v).advance n) := by
  refine ⟨by rw [writeLow_eq]; rfl, fun k hk hpc => ?_, fun _ => by simp⟩
  have pcOnly : ((s.writeLow rd v).advance n).readReg k = (s.writeLow rd v).readReg k :=
    readReg_congr (by simp) (by simp) (by simp) (by simp) (by simp) (by simp) hpc
  exact pcOnly.trans (readReg_writeLow s rd v hk hpc)

/-- A write of a low register and of the flags, and a move of the pc. -/
theorem writeLow_flagFrame (s : State) (rd : LowReg) (v : Word) (f : Flags) (n : Nat) :
    FlagFrame rd s (((s.writeLow rd v).setFlags f).advance n) := by
  refine ⟨by rw [writeLow_eq]; rfl, fun k hk hpc => ?_, fun _ => by simp⟩
  have flagsAndPc : (((s.writeLow rd v).setFlags f).advance n).readReg k = (s.writeLow rd v).readReg k :=
    readReg_congr (by simp) (by simp) (by simp) (by simp) (by simp) (by simp) hpc
  exact flagsAndPc.trans (readReg_writeLow s rd v hk hpc)

/-! ### Add, subtract, compare -/

/-- The flags of a sum whose exact value is `exact` (R12, R13). -/
theorem flagsOfAdd_spec {x y : Word} {c : Bool} {exact : Int} {carry : Prop}
    (he : exact = x.toInt + y.toInt + c.toNat) (hc : carry ↔ 4294967296 ≤ x.toNat + y.toNat + c.toNat) :
    ArithFlags (flagsOfAdd x y c) exact carry := by
  obtain ⟨result, carryOut, overflow⟩ := addWithCarry_spec x y c
  rw [← he] at result overflow
  refine ⟨?_, ?_, by rw [hc]; exact carryOut, overflow⟩
  · rw [← result]; exact sign_bit _
  · rw [← result]; exact decide_eq_true_iff

/-- An instruction that adds with all four flags completes with the exact result reduced to a word. -/
theorem addTo_completes {i : Instr} {s : State} {rd : LowReg} {x y result : Word} {c : Bool} {exact : Int} {carry : Prop}
    (h : exec i s = s.addTo rd x y c) (he : exact = x.toInt + y.toInt + c.toNat)
    (hr : BitVec.ofInt 32 exact = result) (hc : carry ↔ 4294967296 ≤ x.toNat + y.toNat + c.toNat) :
    ArithCompletes i s rd result exact carry := by
  refine ⟨_, h, ?_, flagsOfAdd_spec he hc, writeLow_flagFrame .., by simp⟩
  rw [readLow_advance, readLow_setFlags, readLow_writeLow_self, (addWithCarry_spec x y c).1, ← he, hr]

theorem addFlags_completes {i : Instr} {s : State} {x y : Word} {c : Bool} {exact : Int} {carry : Prop}
    (h : exec i s = s.addFlags x y c) (he : exact = x.toInt + y.toInt + c.toNat)
    (hc : carry ↔ 4294967296 ≤ x.toNat + y.toNat + c.toNat) : CompareCompletes i s exact carry :=
  ⟨_, h, flagsOfAdd_spec he hc, fun _ => rfl, rfl⟩

theorem ofInt_toInt_add (x y : Word) : BitVec.ofInt 32 (x.toInt + y.toInt) = x + y := by
  rw [BitVec.ofInt_add, BitVec.ofInt_toInt, BitVec.ofInt_toInt]

theorem ofInt_toInt_sub (x y : Word) : BitVec.ofInt 32 (x.toInt - y.toInt) = x - y := by
  rw [sub_eq_add_neg, BitVec.ofInt_add, BitVec.ofInt_neg, BitVec.ofInt_toInt, BitVec.ofInt_toInt, BitVec.sub_eq_add_neg]

theorem zext_eq {n : Nat} (v : BitVec n) : zext v = BitVec.ofNat 32 v.toNat := by
  apply BitVec.eq_of_toNat_eq
  simp [zext]

/-- A subtraction is the addition of the complement and 1: the carry is set when there is no borrow (R12). -/
theorem sub_carry (x y : Word) : y.toNat ≤ x.toNat ↔ 4294967296 ≤ x.toNat + (~~~y).toNat + true.toNat := by
  rw [BitVec.toNat_not]
  have := y.isLt
  simp only [Bool.toNat_true]
  omega

theorem sub_exact (x y : Word) : x.toInt - y.toInt = x.toInt + (~~~y).toInt + true.toNat := by
  rw [toInt_not]
  simp only [Bool.toNat_true]
  omega

section
variable {i : Instr} {s : State} {rd : LowReg} {x y : Word}

theorem add_completes (h : exec i s = s.addTo rd x y false) :
    ArithCompletes i s rd (x + y) (x.toInt + y.toInt) (4294967296 ≤ x.toNat + y.toNat) :=
  addTo_completes h (by simp) (ofInt_toInt_add x y) (by simp)

theorem sub_completes (h : exec i s = s.addTo rd x (~~~y) true) :
    ArithCompletes i s rd (x - y) (x.toInt - y.toInt) (y.toNat ≤ x.toNat) :=
  addTo_completes h (sub_exact x y) (ofInt_toInt_sub x y) (sub_carry x y)

theorem adc_completes {c : Bool} (h : exec i s = s.addTo rd x y c) :
    ArithCompletes i s rd (x + y + BitVec.ofNat 32 c.toNat) (x.toInt + y.toInt + c.toNat)
      (4294967296 ≤ x.toNat + y.toNat + c.toNat) := by
  refine addTo_completes h rfl ?_ Iff.rfl
  rw [BitVec.ofInt_add, ofInt_toInt_add, BitVec.ofInt_natCast]

theorem sbc_completes {c : Bool} (h : exec i s = s.addTo rd x (~~~y) c) :
    ArithCompletes i s rd (x - y - BitVec.ofNat 32 (1 - c.toNat)) (x.toInt - y.toInt - ((1 : Int) - c.toNat))
      (y.toNat + (1 - c.toNat) ≤ x.toNat) := by
  have le := Bool.toNat_le c
  refine addTo_completes h ?_ ?_ ?_
  · rw [toInt_not]; omega
  · have borrow : ((1 : Int) - c.toNat) = ((1 - c.toNat : Nat) : Int) := by omega
    rw [sub_eq_add_neg, borrow, BitVec.ofInt_add, ofInt_toInt_sub, BitVec.ofInt_neg, BitVec.ofInt_natCast,
      ← BitVec.sub_eq_add_neg]
  · rw [BitVec.toNat_not]
    have := y.isLt
    omega

theorem neg_completes (h : exec i s = s.addTo rd (~~~x) 0#32 true) : ArithCompletes i s rd (-x) (-x.toInt) (x = 0#32) := by
  refine addTo_completes h ?_ ?_ ?_
  · rw [toInt_not]; simp; omega
  · rw [BitVec.ofInt_neg, BitVec.ofInt_toInt]
  · rw [BitVec.toNat_not, ← BitVec.toNat_inj]
    have := x.isLt
    simp
    omega

end

/-- Settles O8: each form is `addTo` of operands whose exact sum is the form's exact result. -/
theorem addSubtractResult : Obligations.AddSubtractResult := by
  intro s rd rn rm imm3 imm8
  have imm3Int : (zext imm3).toInt = imm3.toNat := toInt_zext imm3 (by decide)
  have imm8Int : (zext imm8).toInt = imm8.toNat := toInt_zext imm8 (by decide)
  have imm3Nat : (zext imm3).toNat = imm3.toNat := toNat_zext imm3 (by decide)
  have imm8Nat : (zext imm8).toNat = imm8.toNat := toNat_zext imm8 (by decide)
  have carry : (if s.flags.c then 1 else 0) = s.flags.c.toNat := by cases s.flags.c <;> rfl
  dsimp only
  rw [carry, ← imm3Int, ← imm8Int, ← imm3Nat, ← imm8Nat]
  refine ⟨add_completes rfl, ?_, ?_, adc_completes rfl, sub_completes rfl, ?_, ?_, sbc_completes rfl, neg_completes rfl⟩
  · rw [imm3Nat, ← zext_eq, ← imm3Nat]; exact add_completes rfl
  · rw [imm8Nat, ← zext_eq, ← imm8Nat]; exact add_completes rfl
  · rw [imm3Nat, ← zext_eq, ← imm3Nat]; exact sub_completes rfl
  · rw [imm8Nat, ← zext_eq, ← imm8Nat]; exact sub_completes rfl

/-- N and Z of a result (R13). -/
theorem setNZ_spec (f : Flags) (v : Word) : LogicFlags f (f.setNZ v) v :=
  ⟨sign_bit v, decide_eq_true_iff, rfl, rfl⟩

/-- Settles O9. -/
theorem compareFlags : Obligations.CompareFlags := by
  intro s rn rm hn hm imm8
  have imm8Int : (zext imm8).toInt = imm8.toNat := toInt_zext imm8 (by decide)
  have imm8Nat : (zext imm8).toNat = imm8.toNat := toNat_zext imm8 (by decide)
  dsimp only
  rw [← imm8Int, ← imm8Nat]
  refine ⟨addFlags_completes (c := false) rfl (by simp) (by simp), addFlags_completes rfl (sub_exact ..) (sub_carry ..),
    addFlags_completes rfl (sub_exact ..) (sub_carry ..), addFlags_completes rfl (sub_exact ..) (sub_carry ..), ?_⟩
  exact ⟨_, rfl, setNZ_spec .., fun _ => rfl, rfl⟩

/-! ### Conditions -/

/-- The 32-bit difference is the exact one, or 2^32 above or below it (R12). -/
theorem toInt_sub_cases (x y : Word) :
    (x - y).toInt = if x.toInt - y.toInt < -2147483648 then x.toInt - y.toInt + 4294967296
      else if 2147483648 ≤ x.toInt - y.toInt then x.toInt - y.toInt - 4294967296 else x.toInt - y.toInt := by
  have x1 := x.le_toInt
  have x2 := x.toInt_lt
  have y1 := y.le_toInt
  have y2 := y.toInt_lt
  rw [BitVec.toInt_sub, Int.bmod_def]
  norm_num at x1 x2 y1 y2 ⊢
  split_ifs <;> omega

/-- N differs from V after a compare exactly when the first value is the lesser, signed (43_branch.md R325). -/
theorem lessSigned_iff {x y : Word} {n v : Bool} (hn : n = true ↔ (x - y).toInt < 0)
    (hv : v = true ↔ x.toInt - y.toInt < -2147483648 ∨ 2147483648 ≤ x.toInt - y.toInt) :
    (n != v) = true ↔ x.toInt < y.toInt := by
  rw [toInt_sub_cases] at hn
  rw [bne_iff_ne, ne_eq, Bool.eq_iff_iff, hn, hv]
  have x1 := x.le_toInt
  have x2 := x.toInt_lt
  have y1 := y.le_toInt
  have y2 := y.toInt_lt
  norm_num at x1 x2 y1 y2
  split_ifs <;> omega

/-- The flags of a compare say how the two values compare (43_branch.md R325, as 90_conflicts.md C1 has it). -/
theorem conditionPassed_compare {f : Flags} {x y : Word} (n : f.n = true ↔ (x - y).toInt < 0) (z : f.z = true ↔ x = y)
    (c : f.c = true ↔ y.toNat ≤ x.toNat) (less : (f.n != f.v) = true ↔ x.toInt < y.toInt)
    (v : f.v = true ↔ x.toInt - y.toInt < -2147483648 ∨ 2147483648 ≤ x.toInt - y.toInt) (cond : Cond) :
    conditionPassed f cond = true ↔ match cond with
      | .eq => x = y
      | .ne => x ≠ y
      | .cs => y.toNat ≤ x.toNat
      | .cc => x.toNat < y.toNat
      | .mi => (x - y).toInt < 0
      | .pl => 0 ≤ (x - y).toInt
      | .vs => x.toInt - y.toInt < -2147483648 ∨ 2147483648 ≤ x.toInt - y.toInt
      | .vc => -2147483648 ≤ x.toInt - y.toInt ∧ x.toInt - y.toInt < 2147483648
      | .hi => y.toNat < x.toNat
      | .ls => x.toNat ≤ y.toNat
      | .ge => y.toInt ≤ x.toInt
      | .lt => x.toInt < y.toInt
      | .gt => y.toInt < x.toInt
      | .le => x.toInt ≤ y.toInt := by
  have zNat : f.z = true ↔ x.toNat = y.toNat := z.trans BitVec.toNat_inj.symm
  have zInt : f.z = true ↔ x.toInt = y.toInt := z.trans BitVec.toInt_inj.symm
  have same : (f.n == f.v) = !(f.n != f.v) := by simp [bne]
  cases cond with
  | eq => exact z
  | ne => simp [conditionPassed, ← z]
  | cs => exact c
  | cc => simp [conditionPassed, ← Bool.not_eq_true, c]
  | mi => exact n
  | pl => simp [conditionPassed, ← Bool.not_eq_true, n]
  | vs => exact v
  | vc =>
    simp only [conditionPassed, Bool.not_eq_true', ← Bool.not_eq_true, v]
    omega
  | hi =>
    simp only [conditionPassed, Bool.and_eq_true, Bool.not_eq_true', ← Bool.not_eq_true, c, zNat]
    omega
  | ls =>
    simp only [conditionPassed, Bool.or_eq_true, Bool.not_eq_true', ← Bool.not_eq_true, c, zNat]
    omega
  | ge =>
    simp only [conditionPassed, same, Bool.not_eq_true', ← Bool.not_eq_true, less]
    omega
  | lt => exact less
  | gt =>
    simp only [conditionPassed, same, Bool.and_eq_true, Bool.not_eq_true', ← Bool.not_eq_true, less, zInt]
    omega
  | le =>
    simp only [conditionPassed, Bool.or_eq_true, less, zInt]
    omega

/-- Settles O31: the conditions of the flags of an exact difference. -/
theorem conditionsCompare : Obligations.ConditionsCompare := by
  intro s t rn rm h x y
  obtain ⟨t', eq, ⟨n, z, c, v⟩, -, -⟩ := (compareFlags s rn rm 0 0 0).2.1
  obtain rfl : t' = t := by rw [h] at eq; exact next_eq eq
  rw [ofInt_toInt_sub] at n z
  have zero : t'.flags.z = true ↔ x = y := z.trans sub_eq_zero
  have passed := conditionPassed_compare n zero c (lessSigned_iff n v) v
  have eqDecide {b : Bool} {p : Prop} [Decidable p] (h : b = true ↔ p) : b = decide p := by
    rw [Bool.eq_iff_iff, h, decide_eq_true_iff]
  exact ⟨eqDecide (passed .eq), eqDecide (passed .ne), eqDecide (passed .cs), eqDecide (passed .cc), eqDecide (passed .hi),
    eqDecide (passed .ls), eqDecide (passed .ge), eqDecide (passed .lt), eqDecide (passed .gt), eqDecide (passed .le),
    eqDecide (passed .mi), eqDecide (passed .pl), eqDecide (passed .vs), eqDecide (passed .vc)⟩

end Sys2Proof.Machine
end

section
/-! Logic, moves, shifts, extension, high registers and address arithmetic (spec/41_data_processing_a.md, spec/42_data_processing_b.md). -/

namespace Sys2Proof.Machine

/-! ### Logic and moves -/

section
variable {i : Instr} {s : State} {rd : LowReg} {result : Word}

theorem resultNZ_completes (h : exec i s = s.resultNZ rd result) : LogicCompletes i s rd result :=
  ⟨_, h, by simp, setNZ_spec .., writeLow_flagFrame .., by simp⟩

theorem shiftedTo_completes {r : Word × Bool} {carry : Bool} (h : exec i s = s.shiftedTo rd r) (hr : r = (result, carry)) :
    ShiftCompletes i s rd result carry := by
  obtain rfl := hr
  obtain ⟨n, z, -, v⟩ := setNZ_spec s.flags result
  exact ⟨_, h, by simp, ⟨n, z, rfl, v⟩, writeLow_flagFrame .., by simp⟩

theorem resultPlain_completes (h : exec i s = s.resultPlain rd result) : PlainCompletes i s rd result :=
  ⟨_, h, by simp, writeLow_plainFrame .., by simp⟩

end

/-- Settles O10. -/
theorem logicalResult : Obligations.LogicalResult := by
  intro s rd rm imm8
  dsimp only
  have product : BitVec.ofInt 32 ((s.readLow rm).toInt * (s.readLow rd).toInt) =
      BitVec.ofNat 32 ((s.readLow rm).toNat * (s.readLow rd).toNat) := by
    rw [BitVec.ofInt_mul, BitVec.ofInt_toInt, BitVec.ofInt_toInt, BitVec.ofNat_mul, BitVec.ofNat_toNat, BitVec.ofNat_toNat]
    simp
  refine ⟨resultNZ_completes rfl, resultNZ_completes rfl, resultNZ_completes rfl, resultNZ_completes rfl, resultNZ_completes rfl,
    resultNZ_completes rfl, ?_, ?_, product⟩
  · rw [← zext_eq]
    exact resultNZ_completes rfl
  · rw [product]
    exact resultNZ_completes rfl

/-! ### Shifts -/

theorem lslC_eq (x : Word) (n : Nat) :
    lslC x n = (BitVec.ofNat 32 (x.toNat * 2 ^ n), decide (n ≤ 32) && x.getLsbD (32 - n)) := by
  have shifted : x <<< n = BitVec.ofNat 32 (x.toNat * 2 ^ n) := by
    apply BitVec.eq_of_toNat_eq
    simp [Nat.shiftLeft_eq]
  have beyond (h : 32 ≤ n) : (0#32 : Word) = BitVec.ofNat 32 (x.toNat * 2 ^ n) := by
    rw [← shifted, BitVec.shiftLeft_eq_zero h]
  unfold lslC
  split_ifs with short full
  · rw [shifted, decide_eq_true (by omega), Bool.true_and]
  · subst full
    rw [beyond le_rfl]
    simp
  · rw [← beyond (by omega), decide_eq_false (by omega), Bool.false_and]

theorem lsrC_eq (x : Word) (n : Nat) :
    lsrC x n = (BitVec.ofNat 32 (x.toNat / 2 ^ n), decide (n ≤ 32) && x.getLsbD (n - 1)) := by
  have shifted : x >>> n = BitVec.ofNat 32 (x.toNat / 2 ^ n) := by
    apply BitVec.eq_of_toNat_eq
    rw [BitVec.toNat_ushiftRight, Nat.shiftRight_eq_div_pow, BitVec.toNat_ofNat,
      Nat.mod_eq_of_lt (lt_of_le_of_lt (Nat.div_le_self ..) x.isLt)]
  have beyond (h : 32 ≤ n) : (0#32 : Word) = BitVec.ofNat 32 (x.toNat / 2 ^ n) := by
    rw [← shifted, BitVec.ushiftRight_eq_zero h]
  unfold lsrC
  split_ifs with short full
  · rw [shifted, decide_eq_true (by omega), Bool.true_and]
  · subst full
    rw [beyond le_rfl]
    simp
  · rw [← beyond (by omega), decide_eq_false (by omega), Bool.false_and]

theorem asrC_eq (x : Word) (n : Nat) : asrC x n = (BitVec.ofInt 32 (x.toInt / 2 ^ n), x.getLsbD (min (n - 1) 31)) := by
  have shifted : x.sshiftRight n = BitVec.ofInt 32 (x.toInt / 2 ^ n) := by
    rw [BitVec.sshiftRight_eq, Int.shiftRight_eq_div_pow]
    rfl
  have signs (h : 32 ≤ n) : x.sshiftRight n = if x.getLsbD 31 then 0xFFFFFFFF#32 else 0#32 := by
    apply BitVec.eq_of_getLsbD_eq
    intro k hk
    rw [BitVec.getLsbD_sshiftRight, BitVec.msb_eq_getLsbD_last, decide_eq_false (by omega : ¬32 ≤ k),
      if_neg (by omega : ¬n + k < 32)]
    cases sign : x.getLsbD 31
    · simp
    · change true = (BitVec.allOnes 32).getLsbD k
      rw [BitVec.getLsbD_allOnes, decide_eq_true hk]
  unfold asrC
  split_ifs with short sign
  · rw [shifted, min_eq_left (by omega)]
  · rw [← shifted, min_eq_right (by omega), signs (by omega), sign]
    rfl
  · rw [← shifted, min_eq_right (by omega), signs (by omega), Bool.eq_false_of_not_eq_true sign]
    rfl

theorem rotateRight_zero (x : Word) : x.rotateRight 0 = x := by
  simp [BitVec.rotateRight_def]

theorem rorC_eq (x : Word) (n : Nat) : rorC x n = (x.rotateRight n, (x.rotateRight n).getLsbD 31) := by
  unfold rorC
  dsimp only
  split_ifs with whole
  · rw [← BitVec.rotateRight_mod_eq_rotateRight, whole, rotateRight_zero]
  · have small : n % 32 < 32 := Nat.mod_lt _ (by decide)
    have top : (x.rotateRight n).getLsbD 31 = x.getLsbD (n % 32 - 1) := by
      rw [BitVec.getLsbD_rotateRight, decide_eq_false (by omega), cond_false, decide_eq_true (by omega), Bool.true_and]
      congr 1
      omega
    rw [top, BitVec.rotateRight_def]

theorem lowByte_toNat (x : Word) : (x.extractLsb' 0 8).toNat = x.toNat % 256 := by
  simp [BitVec.extractLsb'_toNat]

theorem lowHalf_toNat (x : Word) : (x.extractLsb' 0 16).toNat = x.toNat % 65536 := by
  simp [BitVec.extractLsb'_toNat]

/-- A shift by the low byte of a register: by 0 the value and the carry stay (41_data_processing_a.md R267). -/
theorem shiftByReg_completes {i : Instr} {s : State} {rdn rs : LowReg} {shift : Word → Nat → Word × Bool}
    {result : Nat → Word} {carry : Nat → Bool} (h : exec i s = s.shiftByReg rdn rs shift)
    (hs : ∀ n, shift (s.readLow rdn) n = (result n, carry n)) (h0 : result 0 = s.readLow rdn) :
    ShiftCompletes i s rdn (result ((s.readLow rs).toNat % 256))
      (if (s.readLow rs).toNat % 256 = 0 then s.flags.c else carry ((s.readLow rs).toNat % 256)) := by
  unfold State.shiftByReg at h
  rw [lowByte_toNat] at h
  by_cases zero : (s.readLow rs).toNat % 256 = 0
  · rw [if_pos zero] at h ⊢
    rw [zero, h0]
    exact shiftedTo_completes h rfl
  · rw [if_neg zero] at h ⊢
    exact shiftedTo_completes h (hs _)

/-- Settles O11. -/
theorem immediateShiftResult : Obligations.ImmediateShiftResult := by
  intro s rd rm imm5 x n
  have small := imm5.isLt
  have nonzero (h : imm5 ≠ 0#5) : imm5.toNat ≠ 0 := fun h0 => h (BitVec.eq_of_toNat_eq h0)
  have length : 1 ≤ n ∧ n ≤ 32 := by
    by_cases h : imm5 = 0#5
    · simp [n, h]
    · have := nonzero h
      simp only [n, if_neg h]
      omega
  refine ⟨?_, shiftedTo_completes rfl ?_, shiftedTo_completes rfl ?_⟩
  · by_cases h : imm5 = 0#5
    · subst h
      refine shiftedTo_completes (r := (x, s.flags.c)) rfl ?_
      simp
    · refine shiftedTo_completes (r := lslC x imm5.toNat) ?_ ?_
      · change (if imm5 = 0#5 then _ else _) = _
        rw [if_neg h]
      · rw [lslC_eq, if_neg h, decide_eq_true (by omega), Bool.true_and]
  · change lsrC x n = _
    rw [lsrC_eq, decide_eq_true (by omega), Bool.true_and]
  · change asrC x n = _
    rw [asrC_eq, min_eq_left (by omega)]

/-- Settles O12. -/
theorem registerShiftResult : Obligations.RegisterShiftResult := by
  intro s rdn rs
  refine ⟨shiftByReg_completes rfl (lslC_eq _) ?_, shiftByReg_completes rfl (lsrC_eq _) ?_,
    shiftByReg_completes rfl (asrC_eq _) ?_, shiftByReg_completes rfl (rorC_eq _) ?_⟩
  · simp
  · simp
  · simp
  · exact rotateRight_zero _

/-! ### High registers and address arithmetic -/

/-- A write of any register but the PC, and a move of the pc. -/
theorem writeReg_highFrame (s : State) {d : Reg} (hd : d ≠ 15#4) (v : Word) (n : Nat) :
    HighFrame d s ((s.writeReg d v).advance n) := by
  have others : SameRegsBut d s ((s.writeReg d v).advance n) := by
    intro k hk hpc
    have pcOnly : ((s.writeReg d v).advance n).readReg k = (s.writeReg d v).readReg k :=
      readReg_congr (by simp) (by simp) (by simp) (by simp) (by simp) (by simp) hpc
    rw [pcOnly, readReg_writeReg s d v hd hpc, if_neg hk]
  refine ⟨?_, others, fun _ => by simp, ?_, ?_⟩
  · unfold State.writeReg
    split_ifs
    · rw [setSp_eq]; rfl
    · rfl
    · rfl
  · rintro (notSp | psp)
    · simp only [advance_msp, State.writeReg, if_neg notSp]
      split_ifs <;> rfl
    · unfold State.writeReg
      have other := setSp_other s v
      rw [if_pos psp] at other
      split_ifs
      · exact other
      · rfl
      · rfl
  · rintro (notSp | msp)
    · simp only [advance_psp, State.writeReg, if_neg notSp]
      split_ifs <;> rfl
    · unfold State.writeReg
      have other := setSp_other s v
      rw [if_neg (by simp [msp])] at other
      split_ifs
      · exact other
      · rfl
      · rfl

theorem readReg_writeReg_self (s : State) {d : Reg} (hd : d ≠ 15#4) (v : Word) (n : Nat) :
    ((s.writeReg d v).advance n).readReg d = if d = 13#4 then v &&& 0xFFFFFFFC#32 else v := by
  have pcOnly : ((s.writeReg d v).advance n).readReg d = (s.writeReg d v).readReg d :=
    readReg_congr (by simp) (by simp) (by simp) (by simp) (by simp) (by simp) hd
  rw [pcOnly, readReg_writeReg s d v hd hd, if_pos rfl]
  rfl

/-- An instruction that writes any register but the PC, and goes on. -/
theorem writeReg_completes {i : Instr} {s : State} {d : Reg} {v : Word} (hd : d ≠ 15#4)
    (h : exec i s = .next ((s.writeReg d v).advance 2)) :
    ∃ t, exec i s = .next t ∧ HighFrame d s t ∧ t.pc = s.pc + 2#32 ∧
      t.readReg d = if d = 13#4 then v &&& 0xFFFFFFFC#32 else v :=
  ⟨_, h, writeReg_highFrame s hd v 2, by simp, readReg_writeReg_self s hd v 2⟩

/-- Settles O13. -/
theorem highRegisterResult : Obligations.HighRegisterResult := by
  intro s d m
  refine ⟨fun hd => writeReg_completes hd (if_neg hd), ?_, fun hd => writeReg_completes hd (if_neg hd), rfl⟩
  rfl

/-- An instruction that moves SP, and goes on. -/
theorem setSp_completes {i : Instr} {s : State} {v : Word} (h : exec i s = .next ((s.setSp v).advance 2)) :
    ∃ t, exec i s = .next t ∧ HighFrame 13 s t ∧ t.pc = s.pc + 2#32 ∧ t.sp = v &&& 0xFFFFFFFC#32 :=
  writeReg_completes (d := 13#4) (by decide) h

/-- Settles O14. -/
theorem addressArithmeticResult : Obligations.AddressArithmeticResult := by
  intro s rd imm8 imm7
  rw [← wordOffset_eq, ← wordOffset_eq, ← literal_eq]
  exact ⟨resultPlain_completes rfl, resultPlain_completes rfl, setSp_completes rfl, setSp_completes rfl⟩

/-! ### Extension and byte reversal -/

theorem sext_eq {n : Nat} (v : BitVec n) : sext v = BitVec.ofInt 32 v.toInt := rfl

theorem byteReverse_byte (x : Word) : ∀ k, k < 4 → (byteReverse x).extractLsb' (8 * k) 8 = x.extractLsb' (24 - 8 * k) 8
  | 0, _ => by simp [byteReverse, extract_low]
  | 1, _ => by simp [byteReverse, extract_low, extract_high]
  | 2, _ => by simp [byteReverse, extract_low, extract_high]
  | 3, _ => by simp [byteReverse, extract_high]

theorem extract_sext {n a l : Nat} (v : BitVec n) (h : a + l ≤ min n 32) : (sext v).extractLsb' a l = v.extractLsb' a l := by
  refine BitVec.eq_of_getLsbD_eq fun k hk => ?_
  rw [BitVec.getLsbD_extractLsb', BitVec.getLsbD_extractLsb', sext, BitVec.getLsbD_signExtend, if_pos (by omega),
    decide_eq_true (by omega : a + k < 32), Bool.true_and]

theorem byteReverseSigned_bytes (x : Word) : (byteReverseSigned x).extractLsb' 0 8 = x.extractLsb' 8 8 ∧
    (byteReverseSigned x).extractLsb' 8 8 = x.extractLsb' 0 8 := by
  rw [byteReverseSigned, extract_sext _ (by decide), extract_sext _ (by decide), extract_low _ _ (by decide),
    extract_high _ _ (by decide)]
  simp

theorem byteReverseSigned_sign (x : Word) (k : Nat) (low : 16 ≤ k) (high : k < 32) :
    (byteReverseSigned x).getLsbD k = x.getLsbD 7 := by
  rw [byteReverseSigned, sext, BitVec.getLsbD_signExtend, if_neg (by omega), decide_eq_true high, Bool.true_and,
    BitVec.msb_eq_getLsbD_last, bit_concat]
  simp

/-- Settles O15. -/
theorem extendAndReverseResult : Obligations.ExtendAndReverseResult := by
  intro s rd rm x
  refine ⟨resultPlain_completes rfl, resultPlain_completes rfl, ?_, ?_, ⟨_, resultPlain_completes rfl, byteReverse_byte x⟩,
    ⟨_, resultPlain_completes rfl, ?_⟩, ⟨_, resultPlain_completes rfl, ?_⟩⟩
  · rw [← lowByte_toNat, ← zext_eq]
    exact resultPlain_completes rfl
  · rw [← lowHalf_toNat, ← zext_eq]
    exact resultPlain_completes rfl
  · simp [byteReverseHalves, extract_low, extract_high, x]
  · obtain ⟨byte0, byte1⟩ := byteReverseSigned_bytes x
    exact ⟨byte0, byte1, byteReverseSigned_sign x⟩

end Sys2Proof.Machine
end

section
/-! Branches and miscellaneous instructions (spec/43_branch.md, spec/44_misc.md). -/

namespace Sys2Proof.Machine

/-! ### Branches -/

/-- Settles O30. -/
theorem branchResult : Obligations.BranchResult := by
  intro s imm11 imm8 imm24 c
  rw [← branchOffset_eq, ← branchOffset_eq, ← branchOffset_eq]
  refine ⟨rfl, fun h => if_pos h, fun h => if_neg (by simp [h]), rfl⟩

/-- A value that starts no exception return: in Thread mode, or with other high bits (43_branch.md R321). -/
theorem isExcReturn_eq_false {t : State} {v : Word} (plain : t.mode = .thread ∨ v.extractLsb' 4 28 ≠ 0xFFFFFFF#28) :
    t.isExcReturn v = false := by
  unfold State.isExcReturn
  rcases plain with thread | other
  · simp [thread]
  · simp [other]

/-- Settles O32. -/
theorem branchExchangeResult : Obligations.BranchExchangeResult := by
  refine fun s rm => ⟨fun plain => ?_, rfl⟩
  change bxWritePC (s.readReg rm) s = _
  rw [bxWritePC, isExcReturn_eq_false plain]
  rfl

/-! ### Miscellaneous instructions -/

/-- Settles O33: each is the meaning of its instruction, field by field. -/
theorem simpleSystemInstructions : Obligations.SimpleSystemInstructions :=
  fun _ _ => ⟨rfl, rfl, rfl, rfl, rfl, rfl, rfl⟩

/-- Settles O38. -/
theorem unsupportedHintsRefused : Obligations.UnsupportedHintsRefused :=
  fun _ => ⟨rfl, rfl, rfl⟩

/-- A PSR word's parts do not overlap: they may be added as well as ORed (10_state.md R31, R32). -/
theorem psr_or_eq_add (f : BitVec 4) (e : BitVec 6) :
    (f ++ 0#28 : Word) ||| (0#26 ++ e : Word) = (f ++ 0#28 : Word) + (0#26 ++ e : Word) := by
  rw [BitVec.add_eq_or_of_and_eq_zero]
  refine BitVec.eq_of_getLsbD_eq fun k hk => ?_
  rw [BitVec.getLsbD_and, bit_concat, bit_concat]
  by_cases low : k < 28
  · simp [low]
  · simp [show ¬k < 6 by omega]

theorem ipsrWord_eq (s : State) : s.ipsrWord = (0#26 ++ s.ipsr : Word) := by
  apply BitVec.eq_of_toNat_eq
  rw [toNat_concat, State.ipsrWord, toNat_zext _ (by decide)]
  simp

/-- Settles O34. -/
theorem moveFromSpecial : Obligations.MoveFromSpecial := by
  intro s rd sr h apsr ipsr
  obtain ⟨notSp, notPc⟩ : rd ≠ 13#4 ∧ rd ≠ 15#4 := by simpa [Reg.notSpPc] using h
  refine ⟨_, rfl, writeReg_highFrame s notPc _ 4, by simp, ?_⟩
  rw [readReg_writeReg_self s notPc, if_neg notSp]
  have both : s.apsrWord ||| s.ipsrWord = apsr + ipsr := by
    rw [ipsrWord_eq]
    exact psr_or_eq_add ..
  cases sr with
  | apsr => rfl
  | iapsr => exact both
  | eapsr => rfl
  | psr => exact both
  | ipsr => exact ipsrWord_eq s
  | epsr => rfl
  | iepsr => exact ipsrWord_eq s
  | msp => rfl
  | psp => rfl
  | primask =>
    change zext (bitOf s.primask) = _
    cases s.primask <;> rfl
  | control =>
    change zext (bitOf (s.spsel && decide (s.mode = .thread)) ++ 0#1) = _
    by_cases thread : s.mode = .thread
    · cases s.spsel <;> simp [thread, bitOf, zext]
    · simp [thread, bitOf, zext]

/-- Settles O35. -/
theorem moveToSpecial : Obligations.MoveToSpecial := by
  intro s rn sr x flags
  cases sr with
  | control =>
    change Host.Outcome.next ((if s.mode = .thread then _ else _ : State).advance 4) = _
    split_ifs <;> rfl
  | _ => rfl

end Sys2Proof.Machine
end

section
/-! Single loads and stores (spec/40_memory_access.md): over plain memory, over devices, and their errors. -/

namespace Sys2Proof.Machine

/-! ### The address of each form -/

section
variable (s : State) (rt rn rm : LowReg) (imm5 : BitVec 5) (imm8 : BitVec 8)

theorem exec_ldrImm : exec (.ldrImm rt rn imm5) s = s.loadTo rt (s.readLow rn + BitVec.ofNat 32 (4 * imm5.toNat)) .word id := by
  rw [← wordOffset_eq]; rfl

theorem exec_ldrReg : exec (.ldrReg rt rn rm) s = s.loadTo rt (s.readLow rn + s.readLow rm) .word id := rfl

theorem exec_ldrSp : exec (.ldrSp rt imm8) s = s.loadTo rt (s.sp + BitVec.ofNat 32 (4 * imm8.toNat)) .word id := by
  rw [← wordOffset_eq]; rfl

theorem exec_ldrLit : exec (.ldrLit rt imm8) s =
    s.loadTo rt (BitVec.ofNat 32 ((s.pc + 4#32).toNat / 4 * 4 + 4 * imm8.toNat)) .word id := by
  rw [← literal_eq]; rfl

theorem exec_ldrbImm : exec (.ldrbImm rt rn imm5) s = s.loadTo rt (s.readLow rn + BitVec.ofNat 32 imm5.toNat) .byte id := by
  rw [← byteOffset_eq]; rfl

theorem exec_ldrbReg : exec (.ldrbReg rt rn rm) s = s.loadTo rt (s.readLow rn + s.readLow rm) .byte id := rfl

theorem exec_ldrsbReg : exec (.ldrsbReg rt rn rm) s = s.loadTo rt (s.readLow rn + s.readLow rm) .byte signByte := rfl

theorem exec_ldrhImm : exec (.ldrhImm rt rn imm5) s = s.loadTo rt (s.readLow rn + BitVec.ofNat 32 (2 * imm5.toNat)) .half id := by
  rw [← halfOffset_eq]; rfl

theorem exec_ldrhReg : exec (.ldrhReg rt rn rm) s = s.loadTo rt (s.readLow rn + s.readLow rm) .half id := rfl

theorem exec_ldrshReg : exec (.ldrshReg rt rn rm) s = s.loadTo rt (s.readLow rn + s.readLow rm) .half signHalf := rfl

theorem exec_strImm : exec (.strImm rt rn imm5) s = s.storeFrom rt (s.readLow rn + BitVec.ofNat 32 (4 * imm5.toNat)) .word := by
  rw [← wordOffset_eq]; rfl

theorem exec_strReg : exec (.strReg rt rn rm) s = s.storeFrom rt (s.readLow rn + s.readLow rm) .word := rfl

theorem exec_strSp : exec (.strSp rt imm8) s = s.storeFrom rt (s.sp + BitVec.ofNat 32 (4 * imm8.toNat)) .word := by
  rw [← wordOffset_eq]; rfl

theorem exec_strhImm : exec (.strhImm rt rn imm5) s = s.storeFrom rt (s.readLow rn + BitVec.ofNat 32 (2 * imm5.toNat)) .half := by
  rw [← halfOffset_eq]; rfl

theorem exec_strhReg : exec (.strhReg rt rn rm) s = s.storeFrom rt (s.readLow rn + s.readLow rm) .half := rfl

theorem exec_strbImm : exec (.strbImm rt rn imm5) s = s.storeFrom rt (s.readLow rn + BitVec.ofNat 32 imm5.toNat) .byte := by
  rw [← byteOffset_eq]; rfl

theorem exec_strbReg : exec (.strbReg rt rn rm) s = s.storeFrom rt (s.readLow rn + s.readLow rm) .byte := rfl

end

/-! ### Plain memory -/

section
variable {i : Instr} {s : State} {rt : LowReg} {a : Word} {w : Width} {f : Word → Word}

theorem loadTo_completes {value : Word} (h : exec i s = s.loadTo rt a w f) (hv : f (s.mem.readWidth a.toNat w) = value) :
    LoadCompletes i s rt a w value := by
  intro plain
  rw [State.loadTo, memRead_plain plain] at h
  exact ⟨_, h, by simp [hv], writeLow_plainFrame .., by simp⟩

theorem readHalf_byte (m : Memory) (b : Nat) : ∀ k, k < 2 → (m.readHalf b).extractLsb' (8 * k) 8 = m.read (b + k)
  | 0, _ => by simp [Memory.readHalf, extract_low]
  | 1, _ => by simp [Memory.readHalf, extract_high]

theorem readWord_byte (m : Memory) (b : Nat) : ∀ k, k < 4 → (m.readWord b).extractLsb' (8 * k) 8 = m.read (b + k)
  | 0, _ => by simp [Memory.readWord, extract_low]
  | 1, _ => by simp [Memory.readWord, extract_low, extract_high]
  | 2, _ => by simp [Memory.readWord, extract_low, extract_high]
  | 3, _ => by simp [Memory.readWord, extract_high]

/-- The bytes that a store leaves (20_memory.md R105, R111). -/
theorem read_writeWidth {m : Memory} (hm : m.wf = true) {b : Nat} (hb : b + w.bytes ≤ addressSpace) (v : Word) {k : Nat}
    (hk : k < w.bytes) : (m.writeWidth b v w).read (b + k) = v.extractLsb' (8 * k) 8 := by
  cases w with
  | byte =>
    obtain rfl : k = 0 := Nat.lt_one_iff.mp hk
    rw [Nat.mul_zero, Nat.add_zero]
    exact (read_write hm hb _ _).trans (if_pos rfl)
  | half =>
    have small : k < 2 := hk
    rw [← readHalf_byte _ _ k small, Memory.writeWidth, readHalf_writeHalf hm hb]
    refine BitVec.eq_of_getLsbD_eq fun j hj => ?_
    simp [hj, show 8 * k + j < 16 by omega, -BitVec.getLsbD_eq_getElem]
  | word => rw [← readWord_byte _ _ k hk, Memory.writeWidth, readWord_writeWord hm hb]

theorem storeFrom_completes (h : exec i s = s.storeFrom rt a w) : StoreCompletes i s a w (s.readLow rt) := by
  intro wf plain
  rw [State.storeFrom, memWrite_plain plain] at h
  have low := normal_lt plain.1.2.1
  have bytes : w.bytes ≤ 4 := by cases w <;> decide
  refine ⟨_, h, fun k hk => ?_, fun b hb => ?_, rfl, by simp⟩
  · exact read_writeWidth wf (by unfold addressSpace; omega) _ hk
  · exact read_writeWidth_outside wf _ w hb

/-! ### Errors -/

theorem loadTo_faults (h : exec i s = s.loadTo rt a w f) : AccessFaults i s a w .read := by
  intro bad
  obtain ⟨c, error⟩ := busError_ppb_load bad
  rw [h, State.loadTo, error]
  exact hardFaultOrLockup c s

theorem storeFrom_faults (h : exec i s = s.storeFrom rt a w) : AccessFaults i s a w .write := by
  intro bad
  obtain ⟨c, error⟩ := busError_ppb_store (v := s.readLow rt) bad
  rw [h, State.storeFrom, error]
  exact hardFaultOrLockup c s

/-! ### Devices -/

theorem loadTo_device {form : Word → Prop} (h : exec i s = s.loadTo rt a w f) (hf : ∀ v, form (f (w.truncate v))) :
    DeviceLoads i s rt a w form := by
  intro device
  rw [State.loadTo, memRead_device device] at h
  obtain ⟨-, others, -⟩ := writeLow_plainFrame s.drawWord.2 rt (f (w.truncate s.drawWord.1)) 2
  refine ⟨_, h, by simpa using hf _, fun n hn hpc => (others n hn hpc).trans ?_, ?_⟩
  · exact readReg_congr (by simp) (by simp) (by simp) (by simp) (by simp) (by simp) hpc
  · rw [writeLow_eq]; rfl

theorem storeFrom_device (h : exec i s = s.storeFrom rt a w) : DeviceStores i s a w := by
  intro device
  rw [h, State.storeFrom, memWrite_device device]
  rfl

end

/-! ### Extensions -/

theorem signByte_zext (b : Byte) : signByte (b.setWidth 32) = BitVec.ofInt 32 b.toInt := by
  unfold signByte
  rw [sext_eq]
  congr 2
  exact BitVec.eq_of_toNat_eq (by simp [b.isLt])

theorem signHalf_zext (b : Half) : signHalf (b.setWidth 32) = BitVec.ofInt 32 b.toInt := by
  unfold signHalf
  rw [sext_eq]
  congr 2
  exact BitVec.eq_of_toNat_eq (by simp [b.isLt])

/-- Settles O16. -/
theorem loadResult : Obligations.LoadResult := by
  intro s rt rn rm imm5 imm8
  refine ⟨loadTo_completes (exec_ldrImm ..) rfl, loadTo_completes (exec_ldrReg ..) rfl, loadTo_completes (exec_ldrSp ..) rfl,
    loadTo_completes (exec_ldrLit ..) rfl, loadTo_completes (exec_ldrbImm ..) (zext_eq _),
    loadTo_completes (exec_ldrbReg ..) (zext_eq _), loadTo_completes (exec_ldrsbReg ..) (signByte_zext _),
    loadTo_completes (exec_ldrhImm ..) (zext_eq _), loadTo_completes (exec_ldrhReg ..) (zext_eq _),
    loadTo_completes (exec_ldrshReg ..) (signHalf_zext _)⟩

/-- Settles O17. -/
theorem storeResult : Obligations.StoreResult := by
  intro s rt rn rm imm5 imm8
  refine ⟨⟨storeFrom_completes (exec_strImm ..), storeFrom_completes (exec_strReg ..), storeFrom_completes (exec_strSp ..),
    storeFrom_completes (exec_strhImm ..), storeFrom_completes (exec_strhReg ..), storeFrom_completes (exec_strbImm ..),
    storeFrom_completes (exec_strbReg ..)⟩, ?_, ?_⟩
  · intro a x i plain flash
    have refused := memWrite_flash plain flash x
    refine ⟨refused, fun form => ?_⟩
    rw [form.exec_eq, refused]
    rfl
  · intro a w i plain flash form
    obtain ⟨-, rt, eq⟩ := form.exec_eq
    rw [eq, State.storeFrom, memWrite_flash plain flash]
    rfl

end Sys2Proof.Machine
end

section
/-! LDM, STM, PUSH and POP (spec/40_memory_access.md R220 to R232): over plain memory, and over whatever answers. -/

namespace Sys2Proof.Machine

/-- The pc moves on after writes of low registers. -/
theorem advance_registers {x u s : State} (registers : x = { u with r := x.r }) (pc : u.pc = s.pc) :
    x.advance 2 = { u with r := (x.advance 2).r, pc := s.pc + 2#32 } := by
  rw [← pc]
  conv => lhs; rw [registers]
  rfl

theorem writeLow_registers (s : State) (rn : LowReg) (v : Word) :
    s.writeLow rn v = { s with r := (s.writeLow rn v).r } := by
  rw [writeLow_eq]

/-- A word stored to plain memory reads back. -/
theorem storedPlain_at {vs : List Word} {a v : Word} {s : State} {kind : Config.AccessKind} {k : Nat} (wf : s.mem.wf = true)
    (plain : ∀ j, j < vs.length → s.Writable (wordAt a j) .word kind) (hv : vs[k]? = some v) :
    (storedPlain vs a s).wordOf (wordAt a k) = v := by
  obtain ⟨hk, rfl⟩ := List.getElem?_eq_some_iff.mp hv
  exact storedPlain_word wf (fun j hj => (plain j hj).1.2.1) k hk

/-! ### LDM -/

/-- The words read in order from plain memory, by their place. -/
theorem plainWords_at {n j : Nat} (s : State) (a : Word) (h : j < n) :
    ((List.range n).map fun j => s.wordOf (wordAt a j))[j]? = some (s.wordOf (wordAt a j)) := by
  simp [h]

section
variable {s u : State} {rn : LowReg} {list : RegList} {vs : List Word}

/-- LDM over accesses that anything answers. -/
theorem execLdm_spec (ha : isAligned (s.readLow rn) .word = true) (hv : vs.length = regCount list)
    (h : ReadInOrder .read vs (s.readLow rn) s u) :
    ∃ t, exec (.ldm rn list) s = .next t ∧
      (∀ i : LowReg, list.getLsbD i.toNat = true → vs[rankIn list i]? = some (t.readLow i)) ∧
      (∀ i : LowReg, list.getLsbD i.toNat = false → i ≠ rn → t.readLow i = s.readLow i) ∧
      (list.getLsbD rn.toNat = false → t.readLow rn = s.readLow rn + BitVec.ofNat 32 (4 * regCount list)) ∧
      (∀ n : Reg, 8 ≤ n.toNat → n ≠ 15#4 → t.readReg n = s.readReg n) ∧ t = { u with r := t.r, pc := s.pc + 2#32 } := by
  have frame := readInOrder_frame h
  have before (i : LowReg) : u.readLow i = s.readLow i := readLow_congr frame.r_eq i
  have beforeHigh (n : Reg) (pc : n ≠ 15#4) : u.readReg n = s.readReg n :=
    readReg_congr frame.r_eq frame.ipsr_eq frame.spsel_eq frame.msp_eq frame.psp_eq frame.lr_eq pc
  have loaded (i : LowReg) (hi : list.getLsbD i.toNat = true) := writeLows_rank (u := u) hv.ge hi
  refine ⟨_, execLdm_inOrder ha hv h, ?_⟩
  cases inList : list.getLsbD rn.toNat with
  | true =>
    rw [if_pos rfl]
    refine ⟨fun i hi => by rw [readLow_advance]; exact loaded i hi, fun i hi _ => ?_, by simp, fun n high pc => ?_, ?_⟩
    · rw [readLow_advance, writeLows_notListed hi, before]
    · rw [readReg_advance _ pc, writeLows_high _ _ _ high pc, beforeHigh n pc]
    · exact advance_registers (writeLows_eq _ u) frame.pc_eq
  | false =>
    rw [if_neg Bool.false_ne_true]
    refine ⟨fun i hi => ?_, fun i hi other => ?_, fun _ => ?_, fun n high pc => ?_, ?_⟩
    · have other : i ≠ rn := by rintro rfl; simp [inList] at hi
      rw [readLow_advance, readLow_writeLow, if_neg other]
      exact loaded i hi
    · rw [readLow_advance, readLow_writeLow, if_neg other, writeLows_notListed hi, before]
    · rw [readLow_advance, readLow_writeLow_self]; rfl
    · rw [readReg_advance _ pc, readReg_writeLow _ _ _ (toReg_ne_high rn high).symm pc, writeLows_high _ _ _ high pc,
        beforeHigh n pc]
    · refine advance_registers ?_ frame.pc_eq
      rw [writeLow_registers, writeLows_eq]

theorem execLdm_fault {f : Fault} (ha : isAligned (s.readLow rn) .word = true) (hv : vs.length < regCount list)
    (h : ReadInOrder .read vs (s.readLow rn) s u)
    (stop : memRead u (wordAt (s.readLow rn) vs.length) .word .read = .fault f) : exec (.ldm rn list) s = .fault f := by
  simp only [exec, execLdm, ha, regsOfList_length, loadWords_fault hv h stop]
  rfl

end

/-- Settles O19. -/
theorem loadMultipleResult : Obligations.LoadMultipleResult := by
  refine fun s rn list ha => ⟨fun plain => ?_, fun vs u hv h => execLdm_spec ha hv h, fun vs u f hv h stop => execLdm_fault ha hv h stop⟩
  obtain ⟨t, next, listed, unlisted, base, high, eq⟩ := execLdm_spec (list := list) ha (by simp) (readInOrder_plain plain)
  refine ⟨t, next, by rw [eq], fun i hi => ?_, unlisted, base, high, fun b => by rw [eq], by rw [eq]⟩
  have place := listed i hi
  rw [plainWords_at s _ (rankIn_lt list i hi)] at place
  exact (Option.some.inj place).symm

/-! ### STM -/

/-- The state that STM stores its words from: one free word is drawn where the base is in the list and not its lowest. -/
def State.stmFrom (s : State) (rn : LowReg) (list : RegList) : State :=
  if stmUnknown rn (regsOfList list) then s.drawWord.2 else s

theorem stmWords_spec (s : State) (rn : LowReg) (list : RegList) :
    StmWords s rn list (s.stmWords rn (regsOfList list) s.drawWord.1) (s.stmFrom rn list) := by
  refine ⟨by simp [State.stmWords, regsOfList_length], fun i hi known => ?_, ?_⟩
  · have place := regsOfList_rank list i hi
    have kept : (decide (i = rn) && stmUnknown rn (regsOfList list)) = false := by
      rcases known with other | lowest
      · simp [other]
      · rw [lowest, ← List.head?_eq_getElem?] at place
        by_cases base : i = rn
        · subst base
          simp [stmUnknown, place]
        · simp [base]
    rw [State.stmWords, List.getElem?_map, place, Option.map_some]
    simp only [kept]
    rfl
  · unfold State.stmFrom
    split_ifs <;> rfl

section
variable {s u : State} {rn : LowReg} {list : RegList} {vs : List Word}

theorem execStm_eq (ha : isAligned (s.readLow rn) .word = true) :
    exec (.stm rn list) s =
      (storeWords .write (s.stmWords rn (regsOfList list) s.drawWord.1) (s.readLow rn) 0 (s.stmFrom rn list)).run fun s' =>
        .next ((s'.writeLow rn (s.readLow rn + wordBytes (regCount list))).advance 2) := by
  simp only [exec, execStm, ha, regsOfList_length]
  rfl

/-- The registers after an STM whose stores have led to `u`. -/
theorem stm_writeback {s0 : State} (hs0 : s0 = { s with freeCount := s0.freeCount }) (frame : BusFrame s0 u) (v : Word) :
    let t := (u.writeLow rn v).advance 2
    t.readLow rn = v ∧ SameRegsBut (LowReg.toReg rn) s t ∧ t = { u with r := t.r, pc := s.pc + 2#32 } := by
  have pc : u.pc = s.pc := frame.pc_eq.trans (by rw [hs0])
  refine ⟨by simp, fun n other notPc => ?_, advance_registers (writeLow_registers u rn v) pc⟩
  have fromBus : u.readReg n = s0.readReg n :=
    readReg_congr frame.r_eq frame.ipsr_eq frame.spsel_eq frame.msp_eq frame.psp_eq frame.lr_eq notPc
  rw [readReg_advance _ notPc, readReg_writeLow _ _ _ other notPc, fromBus]
  rw [hs0]
  exact readReg_congr rfl rfl rfl rfl rfl rfl notPc

/-- STM over accesses that anything takes. -/
theorem execStm_spec (ha : isAligned (s.readLow rn) .word = true)
    (h : WrittenInOrder .write (s.stmWords rn (regsOfList list) s.drawWord.1) (s.readLow rn) (s.stmFrom rn list) u) :
    ∃ t, exec (.stm rn list) s = .next t ∧ t.readLow rn = s.readLow rn + BitVec.ofNat 32 (4 * regCount list) ∧
      SameRegsBut (LowReg.toReg rn) s t ∧ t = { u with r := t.r, pc := s.pc + 2#32 } := by
  have eq := execStm_eq (list := list) ha
  rw [storeWords_inOrder h] at eq
  obtain ⟨-, -, from_eq⟩ := stmWords_spec s rn list
  exact ⟨_, eq, stm_writeback from_eq (writtenInOrder_frame h) _⟩

end

theorem Writable_congr {s t : State} {a : Word} {w : Width} {k : Config.AccessKind} (same : t.platform = s.platform)
    (h : s.Writable a w k) : t.Writable a w k := by
  unfold State.Writable State.Readable at h ⊢
  rwa [same]

/-- Settles O20. -/
theorem storeMultipleResult : Obligations.StoreMultipleResult := by
  intro s rn list ha
  have words := stmWords_spec s rn list
  have eq := execStm_eq (list := list) ha
  refine ⟨fun wf plain => ?_, _, _, words, fun u h => execStm_spec ha h, fun k v u hv h => ⟨fun f stop => ?_, fun r stop => ?_⟩⟩
  · obtain ⟨length, known, from_eq⟩ := words
    have plain0 (j : Nat) (hj : j < (s.stmWords rn (regsOfList list) s.drawWord.1).length) :
        (s.stmFrom rn list).Writable (wordAt (s.readLow rn) j) .word .write :=
      Writable_congr (by rw [from_eq]) (plain j (length ▸ hj))
    have wf0 : (s.stmFrom rn list).mem.wf = true := by rw [from_eq]; exact wf
    obtain ⟨t, next, base, others, rest⟩ := execStm_spec ha (writtenInOrder_plain plain0)
    have mem : t.mem = (storedPlain (s.stmWords rn (regsOfList list) s.drawWord.1) (s.readLow rn) (s.stmFrom rn list)).mem := by
      rw [rest]
    refine ⟨t, next, by rw [rest], fun i hi hbase => ?_, fun b outside => ?_, base, others, ?_⟩
    · rw [State.wordOf, mem]
      exact storedPlain_at wf0 plain0 (known i hi hbase)
    · rw [mem, storedPlain_outside wf0 (fun j hj => outside j (length ▸ hj)), from_eq]
    · rw [rest, storedPlain_eq, from_eq]
  · rw [eq, (storeWords_stop hv h).1 f stop]; rfl
  · rw [eq, (storeWords_stop hv h).2 r stop]; rfl

/-! ### PUSH -/

theorem pushWords_spec (s : State) (m : Bool) (list : RegList) : PushWords s m list (s.pushWords m list) := by
  have lr : (if m then [s.lr] else []).length = if m then 1 else 0 := by cases m <;> rfl
  refine ⟨by rw [State.pushWords, List.length_append, List.length_map, regsOfList_length, lr], fun i hi => ?_, fun hm => ?_⟩
  · have low : rankIn list i < ((regsOfList list).map s.readLow).length := by
      rw [List.length_map, regsOfList_length]
      exact rankIn_lt list i hi
    rw [State.pushWords, List.getElem?_append_left low, List.getElem?_map, regsOfList_rank list i hi, Option.map_some]
  · rw [State.pushWords, List.getElem?_append_right (by rw [List.length_map, regsOfList_length]), if_pos hm]
    simp [regsOfList_length]

section
variable {s u : State} {m : Bool} {list : RegList} {vs : List Word}

theorem execPush_eq (words : PushWords s m list vs)
    (ha : isAligned (s.sp - BitVec.ofNat 32 (4 * (regCount list + if m then 1 else 0))) .word = true) :
    exec (.push m list) s =
      (storeWords .write vs (s.sp - BitVec.ofNat 32 (4 * (regCount list + if m then 1 else 0))) 0 s).run fun s' =>
        .next ((s'.setSp (s.sp - BitVec.ofNat 32 (4 * (regCount list + if m then 1 else 0)))).advance 2) := by
  obtain ⟨length, -, -⟩ := id words
  rw [← length] at ha ⊢
  rw [words.eq] at ha ⊢
  simp only [exec, execPush, wordBytes, ha]
  rfl

/-- PUSH over accesses that anything takes. -/
theorem execPush_spec (words : PushWords s m list vs)
    (ha : isAligned (s.sp - BitVec.ofNat 32 (4 * (regCount list + if m then 1 else 0))) .word = true)
    (h : WrittenInOrder .write vs (s.sp - BitVec.ofNat 32 (4 * (regCount list + if m then 1 else 0))) s u) :
    ∃ t, exec (.push m list) s = .next t ∧ t.sp = s.sp - BitVec.ofNat 32 (4 * (regCount list + if m then 1 else 0)) ∧
      (if s.usesPsp then t.msp = s.msp else t.psp = s.psp) ∧ t = { u with msp := t.msp, psp := t.psp, pc := s.pc + 2#32 } := by
  have eq := execPush_eq words ha
  have frame := writtenInOrder_frame h
  generalize s.sp - BitVec.ofNat 32 (4 * (regCount list + if m then 1 else 0)) = base at *
  rw [storeWords_inOrder h] at eq
  have other := setSp_other u base
  have uses : u.usesPsp = s.usesPsp := by
    unfold State.usesPsp State.mode
    rw [frame.ipsr_eq, frame.spsel_eq]
  rw [uses, frame.msp_eq, frame.psp_eq] at other
  refine ⟨_, eq, ?_, other, ?_⟩
  · have sp : ((u.setSp base).advance 2).sp = (u.setSp base).sp := sp_congr (by simp) (by simp) (by simp) (by simp)
    rw [sp, sp_setSp, aligned_sp ha]
  · rw [← frame.pc_eq, setSp_eq]
    rfl

end

/-- Settles O21. -/
theorem pushResult : Obligations.PushResult := by
  intro s m list count base ha
  refine ⟨fun wf plain => ?_, fun vs u words h => execPush_spec words ha h,
    fun vs k v u words hv h => ⟨fun f stop => ?_, fun r stop => ?_⟩⟩
  · have words := pushWords_spec s m list
    obtain ⟨length, low, lr⟩ := id words
    have plainWords (j : Nat) (hj : j < (s.pushWords m list).length) : s.Writable (wordAt base j) .word .write :=
      plain j (hj.trans_eq length)
    obtain ⟨t, next, sp, other, rest⟩ := execPush_spec words ha (writtenInOrder_plain plainWords)
    have mem : t.mem = (storedPlain (s.pushWords m list) base s).mem := by rw [rest]
    have word {j : Nat} {v : Word} (hv : (s.pushWords m list)[j]? = some v) : t.wordOf (wordAt base j) = v := by
      rw [State.wordOf, mem]
      exact storedPlain_at wf plainWords hv
    refine ⟨t, next, by rw [rest], sp, fun i hi => word (low i hi), fun hm => word (lr hm), fun b outside => ?_, other, ?_⟩
    · rw [mem, storedPlain_outside wf (fun j hj => outside j (hj.trans_eq length))]
    · rw [rest, storedPlain_eq]
  · rw [execPush_eq words ha, (storeWords_stop hv h).1 f stop]; rfl
  · rw [execPush_eq words ha, (storeWords_stop hv h).2 r stop]; rfl

/-! ### POP -/

section
variable {s u : State} {list : RegList} {vs : List Word}

/-- POP without the PC over accesses that anything answers. -/
theorem execPop_spec (ha : isAligned s.sp .word = true) (hv : vs.length = regCount list) (h : ReadInOrder .read vs s.sp s u) :
    ∃ t, exec (.pop false list) s = .next t ∧ t.sp = s.sp + BitVec.ofNat 32 (4 * regCount list) ∧
      (∀ i : LowReg, list.getLsbD i.toNat = true → vs[rankIn list i]? = some (t.readLow i)) ∧
      (∀ n : Reg, n ≠ 13#4 → n ≠ 15#4 → (8 ≤ n.toNat ∨ list.getLsbD n.toNat = false) → t.readReg n = s.readReg n) ∧
      (if s.usesPsp then t.msp = s.msp else t.psp = s.psp) ∧
      t = { u with r := t.r, msp := t.msp, psp := t.psp, pc := s.pc + 2#32 } := by
  have frame := readInOrder_frame h
  have eq := execPop_inOrder (p := false) ha (by simpa using hv) h
  obtain ⟨sp, listed, others, other, rest⟩ :=
    popped_frame (v := s.sp + BitVec.ofNat 32 (4 * vs.length)) frame hv.ge
  generalize (u.writeLows ((regsOfList list).zip vs)).setSp (s.sp + BitVec.ofNat 32 (4 * vs.length)) = t at *
  refine ⟨t.advance 2, eq, ?_, fun i hi => by rw [readLow_advance]; exact listed i hi, fun n sp13 pc hn => ?_, other, ?_⟩
  · rw [alignSp_add ha, hv] at sp
    exact (sp_congr (by simp) (by simp) (by simp) (by simp)).trans sp
  · rw [readReg_advance _ pc]
    exact others n sp13 pc hn
  · rw [← frame.pc_eq]
    conv => lhs; rw [rest]
    rfl

/-- POP with the PC over accesses that anything answers, up to the write of the PC. -/
theorem execPopPc_eq {v : Word} (ha : isAligned s.sp .word = true) (hv : vs.length = regCount list)
    (h : ReadInOrder .read (vs ++ [v]) s.sp s u) :
    ∃ t, exec (.pop true list) s = loadWritePC v t ∧ t.sp = s.sp + BitVec.ofNat 32 (4 * (regCount list + 1)) ∧
      (∀ i : LowReg, list.getLsbD i.toNat = true → vs[rankIn list i]? = some (t.readLow i)) ∧
      (∀ n : Reg, n ≠ 13#4 → n ≠ 15#4 → (8 ≤ n.toNat ∨ list.getLsbD n.toNat = false) → t.readReg n = s.readReg n) ∧
      (if s.usesPsp then t.msp = s.msp else t.psp = s.psp) ∧ t = { u with r := t.r, msp := t.msp, psp := t.psp } := by
  have length : (vs ++ [v]).length = regCount list + 1 := by simp [hv]
  have eq := execPop_inOrder (p := true) ha length h
  have last : ((vs ++ [v])[regCount list]?).getD 0#32 = v := by simp [← hv]
  obtain ⟨sp, listed, others, other, rest⟩ :=
    popped_frame (list := list) (ws := vs ++ [v]) (v := s.sp + BitVec.ofNat 32 (4 * (regCount list + 1)))
      (readInOrder_frame h) (by omega)
  rw [if_pos rfl, last, length] at eq
  rw [alignSp_add ha] at sp
  refine ⟨_, eq, sp, fun i hi => ?_, others, other, rest⟩
  have low : rankIn list i < vs.length := hv ▸ rankIn_lt list i hi
  rw [← listed i hi, List.getElem?_append_left low]

/-- POP with the PC over accesses that anything answers, of a value that is no EXC_RETURN. -/
theorem execPopPc_spec {v : Word} (ha : isAligned s.sp .word = true) (hv : vs.length = regCount list)
    (h : ReadInOrder .read (vs ++ [v]) s.sp s u) (plain : s.mode = .thread ∨ v.extractLsb' 4 28 ≠ 0xFFFFFFF#28) :
    ∃ t, exec (.pop true list) s = .next t ∧ t.sp = s.sp + BitVec.ofNat 32 (4 * (regCount list + 1)) ∧
      (∀ i : LowReg, list.getLsbD i.toNat = true → vs[rankIn list i]? = some (t.readLow i)) ∧
      (∀ n : Reg, n ≠ 13#4 → n ≠ 15#4 → (8 ≤ n.toNat ∨ list.getLsbD n.toNat = false) → t.readReg n = s.readReg n) ∧
      (if s.usesPsp then t.msp = s.msp else t.psp = s.psp) ∧
      t = { u with r := t.r, msp := t.msp, psp := t.psp, tbit := v.getLsbD 0, pc := v &&& 0xFFFFFFFE#32 } := by
  obtain ⟨t, eq, sp, listed, others, other, rest⟩ := execPopPc_eq ha hv h
  have mode : t.mode = s.mode := by
    unfold State.mode
    rw [rest]
    exact congrArg (fun n => if n = 0#6 then Mode.thread else Mode.handler) (readInOrder_frame h).ipsr_eq
  rw [loadWritePC, bxWritePC, isExcReturn_eq_false (mode ▸ plain)] at eq
  refine ⟨t.interwork v, eq, (sp_congr rfl rfl rfl rfl).trans sp, fun i hi => ?_, fun n sp13 pc hn => ?_, other, ?_⟩
  · rw [readLow_congr (s := t) (t := t.interwork v) rfl]
    exact listed i hi
  · rw [readReg_congr (s := t) (t := t.interwork v) rfl rfl rfl rfl rfl rfl pc]
    exact others n sp13 pc hn
  · conv => lhs; rw [rest]
    rfl

theorem execPop_fault {p : Bool} {f : Fault} (ha : isAligned s.sp .word = true)
    (hv : vs.length < regCount list + if p then 1 else 0) (h : ReadInOrder .read vs s.sp s u)
    (stop : memRead u (wordAt s.sp vs.length) .word .read = .fault f) : exec (.pop p list) s = .fault f := by
  simp only [exec, execPop, ha, regsOfList_length, loadWords_fault hv h stop]
  rfl

end

/-- Settles O22. -/
theorem popResult : Obligations.PopResult := by
  refine fun s list ha => ⟨fun plain => ?_, fun vs u hv h => execPop_spec ha hv h,
    fun vs u f hv h stop => execPop_fault (p := false) ha hv h stop⟩
  obtain ⟨t, next, sp, listed, others, other, rest⟩ := execPop_spec (list := list) ha (by simp) (readInOrder_plain plain)
  refine ⟨t, next, by rw [rest], sp, fun i hi => ?_, others, other, fun b => by rw [rest], by rw [rest]⟩
  have place := listed i hi
  rw [plainWords_at s _ (rankIn_lt list i hi)] at place
  exact (Option.some.inj place).symm

/-- The words read for a POP with the PC: those of the list, and the one for the PC. -/
theorem readInOrder_plain_last {s : State} {a : Word} {n : Nat} {kind : Config.AccessKind}
    (plain : ∀ k, k < n + 1 → s.Readable (wordAt a k) .word kind) :
    ReadInOrder kind (((List.range n).map fun j => s.wordOf (wordAt a j)) ++ [s.wordOf (wordAt a n)]) a s s := by
  have read := readInOrder_plain plain
  rwa [List.range_succ, List.map_append] at read

/-- Settles O23. -/
theorem popPcResult : Obligations.PopPcResult := by
  refine fun s list ha => ⟨fun plain noReturn => ?_, fun vs v u hv h => execPopPc_spec ha hv h,
    fun vs u f hv h stop => execPop_fault (p := true) ha hv h stop⟩
  obtain ⟨t, next, sp, listed, others, other, rest⟩ :=
    execPopPc_spec (list := list) ha (by simp) (readInOrder_plain_last plain) noReturn
  refine ⟨t, next, by rw [rest], by rw [rest], sp, fun i hi => ?_, others, other, fun b => by rw [rest], by rw [rest]⟩
  have place := listed i hi
  rw [plainWords_at s _ (rankIn_lt list i hi)] at place
  exact (Option.some.inj place).symm

end Sys2Proof.Machine
end

section
/-! Errors and devices, by every load and store form (spec/40_memory_access.md R218, R220 to R232). -/

namespace Sys2Proof.Machine

/-! ### Errors of the multiple forms -/

/-- A loaded register of a list is the one at its place among the words. -/
theorem mem_zip_plain {list : RegList} {k : Nat} {f : Nat → Word} {i : LowReg} {v : Word}
    (h : (i, v) ∈ (regsOfList list).zip ((List.range k).map f)) :
    list.getLsbD i.toNat = true ∧ rankIn list i < k ∧ v = f (rankIn list i) := by
  obtain ⟨j, hj⟩ := List.mem_iff_getElem?.mp h
  obtain ⟨reg, word⟩ := List.getElem?_zip_eq_some.mp hj
  have listed : list.getLsbD i.toNat = true := (mem_regsOfList list i).mp (List.mem_of_getElem? reg)
  have place := regsOfList_rank list i listed
  obtain ⟨hj1, e1⟩ := List.getElem?_eq_some_iff.mp reg
  obtain ⟨hj2, e2⟩ := List.getElem?_eq_some_iff.mp place
  obtain rfl : j = rankIn list i := (regsOfList_nodup list).getElem_inj_iff.mp (e1.trans e2.symm)
  obtain ⟨hk, e⟩ := List.getElem?_eq_some_iff.mp word
  rw [List.length_map, List.length_range] at hk
  exact ⟨listed, hk, by simpa using e.symm⟩

/-- The registers after a load of several that has got an error at word `k` of plain memory (log 17). -/
theorem settleLoaded_stopped (list : RegList) (a : Word) (k : Nat) (s : State) (base : Option LowReg) :
    LoadsStopped list a k s
      (s.settleLoaded base ((regsOfList list).zip ((List.range k).map fun j => s.wordOf (wordAt a j)))) := by
  refine ⟨fun i => ?_, fun n high pc => settleLoaded_high _ _ _ _ high pc, settleLoaded_eq _ _ _⟩
  rcases settleLoaded_spec base ((regsOfList list).zip ((List.range k).map fun j => s.wordOf (wordAt a j))) s i with
    old | ⟨-, v, loaded, new⟩
  · exact .inl old
  · obtain ⟨listed, place, rfl⟩ := mem_zip_plain loaded
    exact .inr ⟨listed, place, new⟩

/-- What the stores before an error leave (log 18). -/
theorem storedPlain_stopped {s s0 : State} {vs : List Word} {a : Word} {k : Nat} (wf : s.mem.wf = true) (hk : k ≤ vs.length)
    (from_eq : s0 = { s with freeCount := s0.freeCount }) : StoresStopped a k s (storedPlain (vs.take k) a s0) := by
  have wf0 : s0.mem.wf = true := by rw [from_eq]; exact wf
  refine ⟨fun b outside => ?_, ?_⟩
  · rw [storedPlain_outside wf0 fun j hj => outside j (by rw [List.length_take] at hj; omega), from_eq]
  · rw [storedPlain_eq, from_eq]

theorem storedPlain_take_at {s0 : State} {vs : List Word} {a v : Word} {j k : Nat} {kind : Config.AccessKind}
    (wf : s0.mem.wf = true) (plain : ∀ j, j < k → s0.Writable (wordAt a j) .word kind) (hj : j < k) (hv : vs[j]? = some v) :
    (storedPlain (vs.take k) a s0).wordOf (wordAt a j) = v := by
  refine storedPlain_at wf (fun n hn => plain n ?_) ((List.getElem?_take_of_lt hj).trans hv)
  rw [List.length_take] at hn
  omega

section
variable {s : State} {rn : LowReg} {list : RegList} {k : Nat}

theorem execLdm_stopped (hk : k < regCount list) (ha : isAligned (s.readLow rn) .word = true)
    (plain : ∀ j, j < k → s.Readable (wordAt (s.readLow rn) j) .word .read)
    (error : s.BusErrorAt (wordAt (s.readLow rn) k) .read) :
    ∃ u, exec (.ldm rn list) s = HardFaultOutcome u ∧ LoadsStopped list (s.readLow rn) k s u ∧ u.readLow rn = s.readLow rn := by
  obtain ⟨c, stopped⟩ := loadWords_stopped hk plain error
  refine ⟨_, ?_, settleLoaded_stopped list (s.readLow rn) k s (some rn), ?_⟩
  · rw [← hardFaultOrLockup c]
    simp only [exec, execLdm, ha, regsOfList_length, stopped]
    rfl
  · rcases settleLoaded_spec (some rn) _ s rn with old | ⟨other, -⟩
    · exact old
    · exact absurd rfl other

theorem execPop_stopped {p : Bool} (hk : k < regCount list + if p then 1 else 0) (ha : isAligned s.sp .word = true)
    (plain : ∀ j, j < k → s.Readable (wordAt s.sp j) .word .read) (error : s.BusErrorAt (wordAt s.sp k) .read) :
    ∃ u, exec (.pop p list) s = HardFaultOutcome u ∧ LoadsStopped list s.sp k s u := by
  obtain ⟨c, stopped⟩ := loadWords_stopped hk plain error
  refine ⟨_, ?_, settleLoaded_stopped list s.sp k s none⟩
  rw [← hardFaultOrLockup c]
  simp only [exec, execPop, ha, regsOfList_length, stopped]
  rfl

theorem execStm_stopped (hk : k < regCount list) (wf : s.mem.wf = true) (ha : isAligned (s.readLow rn) .word = true)
    (plain : ∀ j, j < k → s.Writable (wordAt (s.readLow rn) j) .word .write)
    (error : s.BusErrorAt (wordAt (s.readLow rn) k) .write) :
    ∃ u, exec (.stm rn list) s = HardFaultOutcome u ∧ StoresStopped (s.readLow rn) k s u ∧
      ∀ i : LowReg, list.getLsbD i.toNat = true → rankIn list i < k → i ≠ rn ∨ rankIn list i = 0 →
        u.wordOf (wordAt (s.readLow rn) (rankIn list i)) = s.readLow i := by
  obtain ⟨length, known, from_eq⟩ := stmWords_spec s rn list
  have same : (s.stmFrom rn list).platform = s.platform := by rw [from_eq]
  have wf0 : (s.stmFrom rn list).mem.wf = true := by rw [from_eq]; exact wf
  have plain0 (j : Nat) (hj : j < k) := Writable_congr same (plain j hj)
  have error0 : (s.stmFrom rn list).BusErrorAt (wordAt (s.readLow rn) k) .write := by
    unfold State.BusErrorAt at error ⊢
    rwa [same]
  obtain ⟨c, stopped⟩ := storeWords_stopped (d := 0) (hk.trans_eq length.symm) plain0 error0
  refine ⟨_, ?_, storedPlain_stopped wf (hk.trans_eq length.symm).le from_eq,
    fun i hi place base => storedPlain_take_at wf0 plain0 place (known i hi base)⟩
  rw [execStm_eq ha, stopped, ← hardFaultOrLockup c]
  rfl

theorem execPush_stopped {m : Bool} {base : Word} (hb : base = s.sp - BitVec.ofNat 32 (4 * (regCount list + if m then 1 else 0)))
    (hk : k < regCount list + if m then 1 else 0) (wf : s.mem.wf = true) (ha : isAligned base .word = true)
    (plain : ∀ j, j < k → s.Writable (wordAt base j) .word .write) (error : s.BusErrorAt (wordAt base k) .write) :
    ∃ u, exec (.push m list) s = HardFaultOutcome u ∧ StoresStopped base k s u ∧
      ∀ i : LowReg, list.getLsbD i.toNat = true → rankIn list i < k → u.wordOf (wordAt base (rankIn list i)) = s.readLow i := by
  have words := pushWords_spec s m list
  obtain ⟨length, low, -⟩ := id words
  obtain ⟨c, stopped⟩ := storeWords_stopped (d := 0) (hk.trans_eq length.symm) plain error
  refine ⟨_, ?_, storedPlain_stopped wf (hk.trans_eq length.symm).le rfl,
    fun i hi place => storedPlain_take_at wf plain place (low i hi)⟩
  have eq := execPush_eq words (hb ▸ ha)
  rw [← hb, stopped] at eq
  rw [eq, ← hardFaultOrLockup c]
  rfl

end

/-- Settles O18. -/
theorem accessErrorsRaiseHardFault : Obligations.AccessErrorsRaiseHardFault := by
  intro s rt rn rm imm5 imm8 list at4 at2 at1 ix sp lit
  refine ⟨⟨loadTo_faults (exec_ldrImm ..), loadTo_faults (exec_ldrReg ..), loadTo_faults (exec_ldrSp ..),
    loadTo_faults (exec_ldrLit ..), loadTo_faults (exec_ldrbImm ..), loadTo_faults (exec_ldrbReg ..),
    loadTo_faults (exec_ldrsbReg ..), loadTo_faults (exec_ldrhImm ..), loadTo_faults (exec_ldrhReg ..),
    loadTo_faults (exec_ldrshReg ..)⟩,
    ⟨storeFrom_faults (exec_strImm ..), storeFrom_faults (exec_strReg ..), storeFrom_faults (exec_strSp ..),
    storeFrom_faults (exec_strhImm ..), storeFrom_faults (exec_strhReg ..), storeFrom_faults (exec_strbImm ..),
    storeFrom_faults (exec_strbReg ..)⟩,
    fun ha => ⟨?_, ?_⟩, fun m ha => ?_, fun p ha => ?_, fun k hk ha => execLdm_stopped hk ha,
    fun k hk wf ha => execStm_stopped hk wf ha, fun m k hk wf ha => execPush_stopped rfl hk wf ha,
    fun p k hk ha => execPop_stopped hk ha⟩
  · rw [← hardFaultOrLockup .unaligned]
    simp only [exec, execLdm, ha]
    rfl
  · rw [← hardFaultOrLockup .unaligned]
    simp only [exec, execStm, ha]
    rfl
  · rw [← hardFaultOrLockup .unaligned]
    obtain ⟨length, -, -⟩ := pushWords_spec s m list
    rw [← length] at ha
    simp only [exec, execPush, wordBytes, ha]
    rfl
  · rw [← hardFaultOrLockup .unaligned]
    simp only [exec, execPop, ha]
    rfl

/-! ### Devices -/

theorem readInOrder_device {kind : Config.AccessKind} {n : Nat} {a : Word} {s : State}
    (device : ∀ j, j < n → s.OnDevice (wordAt a j) .word kind) :
    ∃ vs m, vs.length = n ∧ ReadInOrder kind vs a s { s with freeCount := m } := by
  induction n generalizing a s with
  | zero => exact ⟨[], s.freeCount, rfl, rfl⟩
  | succ n ih =>
    have first := memRead_device (wordAt_zero a ▸ device 0 n.succ_pos)
    obtain ⟨vs, m, length, rest⟩ := ih (a := a + 4#32) (s := s.drawWord.2)
      fun j hj => wordAt_succ a j ▸ device (j + 1) (Nat.succ_lt_succ hj)
    exact ⟨_ :: vs, m, congrArg Nat.succ length, _, first, rest⟩

theorem writtenInOrder_device {kind : Config.AccessKind} {vs : List Word} {a : Word} {s : State}
    (device : ∀ j, j < vs.length → s.OnDevice (wordAt a j) .word kind) : WrittenInOrder kind vs a s s := by
  induction vs generalizing a with
  | nil => rfl
  | cons v vs ih =>
    have first := memWrite_device (v := v) (wordAt_zero a ▸ device 0 (Nat.succ_pos _))
    exact ⟨s, first, ih fun j hj => wordAt_succ a j ▸ device (j + 1) (Nat.succ_lt_succ hj)⟩

theorem truncate_byte_lt (v : Word) : (id (Width.truncate .byte v)).toNat < 256 := by
  rw [id, Width.truncate, ← zext, toNat_zext _ (by decide)]
  exact BitVec.isLt _

theorem truncate_half_lt (v : Word) : (id (Width.truncate .half v)).toNat < 65536 := by
  rw [id, Width.truncate, ← zext, toNat_zext _ (by decide)]
  exact BitVec.isLt _

theorem signByte_range (v : Word) : -128 ≤ (signByte (Width.truncate .byte v)).toInt ∧
    (signByte (Width.truncate .byte v)).toInt < 128 := by
  rw [Width.truncate, signByte_zext, ← BitVec.signExtend, BitVec.toInt_signExtend_of_le (by decide)]
  exact ⟨BitVec.le_toInt _, BitVec.toInt_lt⟩

theorem signHalf_range (v : Word) : -32768 ≤ (signHalf (Width.truncate .half v)).toInt ∧
    (signHalf (Width.truncate .half v)).toInt < 32768 := by
  rw [Width.truncate, signHalf_zext, ← BitVec.signExtend, BitVec.toInt_signExtend_of_le (by decide)]
  exact ⟨BitVec.le_toInt _, BitVec.toInt_lt⟩

theorem alignPc_bit (v : Word) : (v &&& 0xFFFFFFFE#32).getLsbD 0 = false := by
  rw [BitVec.getLsbD_and]
  exact Bool.and_false _

section
variable {s : State} {rn : LowReg} {list : RegList}

theorem execLdm_device (ha : isAligned (s.readLow rn) .word = true)
    (device : ∀ k, k < regCount list → s.OnDevice (wordAt (s.readLow rn) k) .word .read) :
    ∃ t, exec (.ldm rn list) s = .next t ∧
      (list.getLsbD rn.toNat = false → t.readLow rn = s.readLow rn + BitVec.ofNat 32 (4 * regCount list)) ∧
      (∀ i : LowReg, list.getLsbD i.toNat = false → i ≠ rn → t.readLow i = s.readLow i) ∧
      (∀ n : Reg, 8 ≤ n.toNat → n ≠ 15#4 → t.readReg n = s.readReg n) ∧
      t = { s with r := t.r, freeCount := t.freeCount, pc := s.pc + 2#32 } := by
  obtain ⟨vs, m, length, reads⟩ := readInOrder_device device
  obtain ⟨t, next, -, unlisted, base, high, rest⟩ := execLdm_spec ha length reads
  exact ⟨t, next, base, unlisted, high, by rw [rest]⟩

theorem execStm_device (ha : isAligned (s.readLow rn) .word = true)
    (device : ∀ k, k < regCount list → s.OnDevice (wordAt (s.readLow rn) k) .word .write) :
    ∃ t, exec (.stm rn list) s = .next t ∧ t.readLow rn = s.readLow rn + BitVec.ofNat 32 (4 * regCount list) ∧
      SameRegsBut (LowReg.toReg rn) s t ∧ t = { s with r := t.r, freeCount := t.freeCount, pc := s.pc + 2#32 } := by
  obtain ⟨length, -, from_eq⟩ := stmWords_spec s rn list
  have device0 (j : Nat) (hj : j < (s.stmWords rn (regsOfList list) s.drawWord.1).length) :
      (s.stmFrom rn list).OnDevice (wordAt (s.readLow rn) j) .word .write := by
    rw [from_eq]
    exact device j (hj.trans_eq length)
  obtain ⟨t, next, base, others, rest⟩ := execStm_spec ha (writtenInOrder_device device0)
  exact ⟨t, next, base, others, by rw [rest, from_eq]⟩

theorem execPop_device {p : Bool} (ha : isAligned s.sp .word = true)
    (device : ∀ k, k < regCount list + (if p then 1 else 0) → s.OnDevice (wordAt s.sp k) .word .read)
    (plain : p = false ∨ s.mode = .thread) :
    ∃ t, exec (.pop p list) s = .next t ∧ t.sp = s.sp + BitVec.ofNat 32 (4 * (regCount list + if p then 1 else 0)) ∧
      (if s.usesPsp then t.msp = s.msp else t.psp = s.psp) ∧
      (∀ n : Reg, n ≠ 13#4 → n ≠ 15#4 → (8 ≤ n.toNat ∨ list.getLsbD n.toNat = false) → t.readReg n = s.readReg n) ∧
      (p = false → t.pc = s.pc + 2#32 ∧ t.tbit = s.tbit) ∧ (p = true → t.pc.getLsbD 0 = false) ∧
      t = { s with r := t.r, msp := t.msp, psp := t.psp, pc := t.pc, tbit := t.tbit, freeCount := t.freeCount } := by
  obtain ⟨vs, m, length, reads⟩ := readInOrder_device device
  cases p with
  | false =>
    obtain ⟨t, next, sp, -, others, other, rest⟩ := execPop_spec ha length reads
    refine ⟨t, next, sp, other, others, fun _ => ⟨by rw [rest], by rw [rest]⟩, by simp, by rw [rest]⟩
  | true =>
    obtain ⟨ws, v, rfl⟩ : ∃ ws v, vs = ws ++ [v] := by
      have nonempty : vs ≠ [] := by rintro rfl; simp at length
      exact ⟨vs.dropLast, vs.getLast nonempty, (List.dropLast_append_getLast nonempty).symm⟩
    have count : ws.length = regCount list := by simpa using length
    obtain ⟨t, next, sp, -, others, other, rest⟩ :=
      execPopPc_spec ha count reads (.inl (plain.resolve_left Bool.noConfusion))
    refine ⟨t, next, sp, other, others, by simp, fun _ => ?_, by rw [rest]⟩
    rw [rest]
    exact alignPc_bit v

end

/-- Settles O24. -/
theorem deviceAccess : Obligations.DeviceAccess := by
  intro s rt rn rm imm5 imm8 list at4 at2 at1 ix sp lit word byte half signedByte signedHalf
  have anyWord (v : Word) : word (id (Width.truncate .word v)) := trivial
  refine ⟨⟨loadTo_device (exec_ldrImm ..) anyWord, loadTo_device (exec_ldrReg ..) anyWord,
    loadTo_device (exec_ldrSp ..) anyWord, loadTo_device (exec_ldrLit ..) anyWord,
    loadTo_device (exec_ldrbImm ..) truncate_byte_lt, loadTo_device (exec_ldrbReg ..) truncate_byte_lt,
    loadTo_device (exec_ldrsbReg ..) signByte_range, loadTo_device (exec_ldrhImm ..) truncate_half_lt,
    loadTo_device (exec_ldrhReg ..) truncate_half_lt, loadTo_device (exec_ldrshReg ..) signHalf_range⟩,
    ⟨storeFrom_device (exec_strImm ..), storeFrom_device (exec_strReg ..), storeFrom_device (exec_strSp ..),
    storeFrom_device (exec_strhImm ..), storeFrom_device (exec_strhReg ..), storeFrom_device (exec_strbImm ..),
    storeFrom_device (exec_strbReg ..)⟩,
    execLdm_device, execStm_device, fun m ha device => ?_, fun p ha device => execPop_device ha device⟩
  have words := pushWords_spec s m list
  obtain ⟨length, -, -⟩ := id words
  exact execPush_spec words ha (writtenInOrder_device fun j hj => device j (hj.trans_eq length))

end Sys2Proof.Machine
end

section
/-! The registers of the Private Peripheral Bus (spec/10_state.md, Part 3), by every form that reads or writes a word. -/

namespace Sys2Proof.Machine

/-- Register `reg` stands at the word address `a`. -/
def RegisterAt (a : Word) (reg : PpbReg) : Prop :=
  isAligned a .word = true ∧ regionOf a.toNat = .ppb ∧ ppbRegAt a.toNat = some reg

theorem registerAt_mem {e : Nat × PpbReg} (h : e ∈ ppbMap) : RegisterAt (BitVec.ofNat 32 e.1) e.2 := by
  unfold RegisterAt
  revert e
  decide

section
variable {s s' : State} {a v value : Word} {reg : PpbReg}

theorem RegisterAt.reads (h : RegisterAt a reg) (hr : ppbRead s reg = (value, s')) : RegisterReads s a value s' := by
  obtain ⟨aligned, ppb, at_a⟩ := h
  refine .of_access aligned ?_
  rw [memRead_ppb reg aligned ppb at_a, hr]

theorem RegisterAt.writes (h : RegisterAt a reg) (hw : ppbWrite s reg v = .ok () s') : RegisterWrites s a v s' := by
  obtain ⟨aligned, ppb, at_a⟩ := h
  exact .of_access aligned ((memWrite_ppb reg aligned ppb at_a).trans hw)

theorem RegisterAt.refuses {why : Refusal} (h : RegisterAt a reg) (hw : ppbWrite s reg v = .refused why) :
    RegisterRefuses s a v why := by
  obtain ⟨aligned, ppb, at_a⟩ := h
  exact .of_access aligned ((memWrite_ppb reg aligned ppb at_a).trans hw)

end

/-! ### Addresses -/

theorem at_syst_csr : RegisterAt 0xE000E010#32 .systCsr := registerAt_mem (e := (0xE000E010, .systCsr)) (by decide)
theorem at_syst_rvr : RegisterAt 0xE000E014#32 .systRvr := registerAt_mem (e := (0xE000E014, .systRvr)) (by decide)
theorem at_syst_cvr : RegisterAt 0xE000E018#32 .systCvr := registerAt_mem (e := (0xE000E018, .systCvr)) (by decide)
theorem at_syst_calib : RegisterAt 0xE000E01C#32 .systCalib := registerAt_mem (e := (0xE000E01C, .systCalib)) (by decide)
theorem at_iser : RegisterAt 0xE000E100#32 .iser := registerAt_mem (e := (0xE000E100, .iser)) (by decide)
theorem at_icer : RegisterAt 0xE000E180#32 .icer := registerAt_mem (e := (0xE000E180, .icer)) (by decide)
theorem at_ispr : RegisterAt 0xE000E200#32 .ispr := registerAt_mem (e := (0xE000E200, .ispr)) (by decide)
theorem at_icpr : RegisterAt 0xE000E280#32 .icpr := registerAt_mem (e := (0xE000E280, .icpr)) (by decide)
theorem at_ipr0 : RegisterAt 0xE000E400#32 (.ipr 0) := registerAt_mem (e := (0xE000E400, .ipr 0)) (by decide)
theorem at_ipr1 : RegisterAt 0xE000E404#32 (.ipr 1) := registerAt_mem (e := (0xE000E404, .ipr 1)) (by decide)
theorem at_ipr2 : RegisterAt 0xE000E408#32 (.ipr 2) := registerAt_mem (e := (0xE000E408, .ipr 2)) (by decide)
theorem at_cpuid : RegisterAt 0xE000ED00#32 .cpuid := registerAt_mem (e := (0xE000ED00, .cpuid)) (by decide)
theorem at_icsr : RegisterAt 0xE000ED04#32 .icsr := registerAt_mem (e := (0xE000ED04, .icsr)) (by decide)
theorem at_aircr : RegisterAt 0xE000ED0C#32 .aircr := registerAt_mem (e := (0xE000ED0C, .aircr)) (by decide)
theorem at_scr : RegisterAt 0xE000ED10#32 .scr := registerAt_mem (e := (0xE000ED10, .scr)) (by decide)
theorem at_ccr : RegisterAt 0xE000ED14#32 .ccr := registerAt_mem (e := (0xE000ED14, .ccr)) (by decide)
theorem at_shpr2 : RegisterAt 0xE000ED1C#32 .shpr2 := registerAt_mem (e := (0xE000ED1C, .shpr2)) (by decide)
theorem at_shpr3 : RegisterAt 0xE000ED20#32 .shpr3 := registerAt_mem (e := (0xE000ED20, .shpr3)) (by decide)

/-! ### Reads -/

theorem readIpr_two (s : State) : s.readIpr 2 = (0#24 ++ s.irqPrio[8] ++ 0#6 : Word) := by
  have none (m : Nat) (h : 9 ≤ m) : s.irqPrioAt m = 0#2 := by simp [State.irqPrioAt, h]
  unfold State.readIpr
  rw [none _ (by decide), none _ (by decide), none _ (by decide)]
  rfl

theorem calib_eq : ∀ clkDiv : BitVec 2, (0b10000000#8 ++ tenms clkDiv : Word) =
    if clkDiv = 0#2 then 0x80030D3F#32 else if clkDiv = 1#2 then 0x8001869F#32
      else if clkDiv = 2#2 then 0x8000C34F#32 else 0x800061A7#32 := by
  decide

/-- Settles O25. -/
theorem systemRegisterReads : Obligations.SystemRegisterReads := by
  intro s reads
  refine ⟨at_iser.reads rfl, at_icer.reads rfl, at_ispr.reads rfl, at_icpr.reads rfl, at_ipr0.reads rfl, at_ipr1.reads rfl,
    at_ipr2.reads ?_, at_cpuid.reads rfl, at_ccr.reads rfl, at_shpr2.reads rfl, at_shpr3.reads rfl, at_scr.reads rfl,
    at_syst_rvr.reads rfl, at_syst_cvr.reads rfl, at_syst_calib.reads ?_, fun a none => ?_, fun a w i ppb ha form => ?_⟩
  · exact congrArg (·, s) (readIpr_two s)
  · exact congrArg (·, s) (calib_eq s.platform.clkDiv)
  · have stop := memRead_noRegister none s .read
    refine ⟨stop, fun i rt form => ?_⟩
    rw [form.exec_eq, State.loadTo, stop]
    rfl
  · obtain ⟨narrow, rt, f, eq⟩ := form.exec_eq
    rw [eq, State.loadTo, memRead_ppbNarrow ppb ha narrow]
    rfl

theorem bitOf_bit (b : Bool) : (bitOf b).getLsbD 0 = b := by
  cases b <;> rfl

/-- The fields of ICSR but the Unknown ones (10_state.md R51, R55). -/
theorem icsr_fields (s : State) (unknown : Word) :
    let v := s.readIcsr unknown
    v.getLsbD 31 = s.pending.nmi ∧ v.extractLsb' 29 2 = 0#2 ∧ v.getLsbD 28 = s.pending.pendSV ∧
      v.getLsbD 26 = s.pending.sysTick ∧ v.extractLsb' 23 2 = 0#2 ∧ v.getLsbD 22 = decide (s.pending.irq ≠ 0#9) ∧
      v.extractLsb' 18 4 = 0#4 ∧ v.extractLsb' 12 6 = s.vectPending ∧ v.extractLsb' 6 6 = 0#6 ∧
      v.extractLsb' 0 6 = s.ipsr := by
  have anyPending : (s.pending.irq != 0#9) = decide (s.pending.irq ≠ 0#9) := by
    rw [Bool.eq_iff_iff, bne_iff_ne, decide_eq_true_iff]
  unfold State.readIcsr
  rw [anyPending]
  simp [bit_concat, extract_low, extract_high, bitOf_bit, -BitVec.getLsbD_eq_getElem]

/-- Settles O26. -/
theorem effectfulRegisterReads : Obligations.EffectfulRegisterReads := by
  refine fun s => ⟨at_syst_csr.reads rfl, ⟨_, _, at_icsr.reads rfl, icsr_fields s s.drawWord.1⟩,
    ⟨_, _, at_aircr.reads rfl, extract_low _ _ le_rfl⟩⟩

/-! ### Writes -/

/-- A write of an IPR: the fields of its four interrupts (10_state.md R48). -/
theorem writeIpr_at (s : State) (n : Fin 3) (v : Word) {m : Nat} (h : m < 9) :
    (s.writeIpr n v).irqPrio[m] =
      if 4 * n.val ≤ m ∧ m < 4 * n.val + 4 then v.extractLsb' (8 * (m - 4 * n.val) + 6) 2 else s.irqPrio[m] := by
  unfold State.writeIpr
  simp only [Vector.getElem_setIfInBounds]
  by_cases own : 4 * n.val ≤ m ∧ m < 4 * n.val + 4
  · rw [if_pos own]
    obtain ⟨j, rfl⟩ := Nat.exists_eq_add_of_le own.1
    have small : j < 4 := by omega
    interval_cases j <;> simp
  · rw [if_neg own, if_neg (by omega), if_neg (by omega), if_neg (by omega), if_neg (by omega)]

/-- Settles O27. -/
theorem interruptRegisterWrites : Obligations.InterruptRegisterWrites := by
  intro s v
  refine ⟨⟨_, at_iser.writes rfl, fun m hm => ?_⟩, ⟨_, at_icer.writes rfl, fun m hm => ?_⟩, ⟨_, at_ispr.writes rfl, fun m hm => ?_⟩,
    ⟨_, at_ipr0.writes rfl, fun m hm => ?_⟩, ⟨_, at_ipr1.writes rfl, fun m hm => ?_⟩, ⟨_, at_ipr2.writes rfl, fun m hm => ?_⟩⟩
  · rw [BitVec.getLsbD_or, irqBits_bit v hm]
  · rw [BitVec.getLsbD_and, BitVec.getLsbD_not, irqBits_bit v hm, decide_eq_true hm, Bool.true_and]
  · rw [BitVec.getLsbD_or, irqBits_bit v hm]
  · exact (writeIpr_at s 0 v hm).trans (by simp)
  · exact (writeIpr_at s 1 v hm).trans (by simp)
  · refine (writeIpr_at s 2 v hm).trans ?_
    by_cases last : m = 8
    · simp [last]
    · rw [if_neg last, if_neg]
      simp
      omega

theorem setBit (old set : Bool) : (old || set) = if set then true else old := by
  revert old set
  decide

/-- A pending bit after a write of ICSR that does not both set and clear it (10_state.md R51). -/
theorem setAndClear (old : Bool) {set clear : Bool} (h : (set && clear) = false) :
    ((old || set) && !clear) = if set then true else if clear then false else old := by
  revert old set clear
  decide

/-- Settles O29. -/
theorem systemControlWrites : Obligations.SystemControlWrites := by
  intro s v
  refine ⟨at_cpuid.writes rfl, at_ccr.writes rfl, at_syst_calib.writes rfl, at_scr.writes rfl, at_shpr2.writes rfl,
    at_shpr3.writes rfl, at_syst_csr.writes rfl, at_syst_rvr.writes rfl, at_syst_cvr.writes rfl,
    fun noKey => at_aircr.writes (if_pos noKey), fun key clear => at_aircr.writes ?_, fun key set => at_aircr.refuses ?_,
    fun pendSV sysTick => at_icsr.writes ?_, fun both => at_icsr.refuses ?_, fun a none => ?_, fun a w i ppb ha form => ?_⟩
  · rw [ppbWrite, if_neg (not_not.mpr key), clear]
    rfl
  · rw [ppbWrite, if_neg (not_not.mpr key), set]
    rfl
  · rw [ppbWrite, pendSV, sysTick, State.writeIcsr, setAndClear _ pendSV, setAndClear _ sysTick, setBit s.pending.nmi]
    rfl
  · exact if_pos (by simpa using both)
  · have stop := memWrite_noRegister none s v .write
    refine ⟨stop, fun i form => ?_⟩
    rw [form.exec_eq, stop]
    rfl
  · obtain ⟨narrow, rt, eq⟩ := form.exec_eq
    rw [eq, State.storeFrom, memWrite_ppbNarrow ppb ha narrow]
    rfl

end Sys2Proof.Machine
end

section
/-! Exception entry (spec/60_exceptions.md R420 to R425). -/

namespace Sys2Proof.Machine

/-! ### The frame -/

theorem alignSp_frameAddress (v : Word) : alignSp (frameAddress v) = frameAddress v := by
  unfold alignSp frameAddress
  rw [BitVec.and_assoc]
  rfl

theorem align_eight (x : Word) : (x &&& 0xFFFFFFF8#32).toNat = x.toNat / 8 * 8 := by
  have mask (k : Nat) (hk : k < 32) : (0xFFFFFFF8#32 : Word).getLsbD k = decide (3 ≤ k) := by
    revert k
    decide
  have shifts : x &&& 0xFFFFFFF8#32 = (x >>> 3) <<< 3 := by
    refine BitVec.eq_of_getLsbD_eq fun k hk => ?_
    rw [BitVec.getLsbD_and, mask k hk, BitVec.getLsbD_shiftLeft, BitVec.getLsbD_ushiftRight]
    by_cases low : k < 3
    · simp [low]
    · simp [low, hk, show 3 ≤ k by omega, show 3 + (k - 3) = k by omega]
  have size := x.isLt
  rw [shifts, BitVec.toNat_shiftLeft, BitVec.toNat_ushiftRight, Nat.shiftRight_eq_div_pow, Nat.shiftLeft_eq,
    Nat.mod_eq_of_lt (by omega)]

/-- The frame of a word-aligned stack pointer (60_exceptions.md R420): aligned to 8 bytes, 32 or 36 bytes below. -/
theorem frameAddress_of_aligned (sp0 : Word) (h : sp0 &&& 3#32 = 0#32) :
    (frameAddress sp0).toNat % 8 = 0 ∧ frameAddress sp0 = if sp0.getLsbD 2 then sp0 - 36#32 else sp0 - 32#32 := by
  have aligned : sp0.toNat % 4 = 0 := by
    rw [← isAligned_word]
    have bit (k : Nat) : (sp0 &&& 3#32).getLsbD k = false := by rw [h]; exact BitVec.getLsbD_zero
    have bit0 := bit 0
    have bit1 := bit 1
    rw [BitVec.getLsbD_and] at bit0 bit1
    rw [isAligned, (Bool.and_true _).symm.trans bit0, (Bool.and_true _).symm.trans bit1]
    rfl
  have bit2 : sp0.getLsbD 2 = decide (sp0.toNat / 4 % 2 = 1) := by
    rw [BitVec.getLsbD, Nat.testBit_eq_decide_div_mod_eq]
  have frame := align_eight (sp0 - 0x20#32)
  have below (n : Nat) (hn : n < 4294967296) : (sp0 - BitVec.ofNat 32 n).toNat = (4294967296 - n + sp0.toNat) % 4294967296 := by
    rw [BitVec.toNat_sub, BitVec.toNat_ofNat, Nat.mod_eq_of_lt hn]
  have below32 := below 32 (by decide)
  have below36 := below 36 (by decide)
  have size := sp0.isLt
  refine ⟨by rw [frameAddress, frame]; omega, BitVec.eq_of_toNat_eq ?_⟩
  rw [frameAddress, frame, bit2, below32]
  by_cases odd : sp0.toNat / 4 % 2 = 1
  · rw [if_pos (decide_eq_true odd), below36]
    omega
  · rw [if_neg (by simp [odd]), below32]
    omega

/-- The xPSR word that an entry stacks, field by field (60_exceptions.md R420, R421). -/
theorem stackedPsr_spec (s : State) : StackedPsr s s.stackedPsr := by
  unfold StackedPsr State.stackedPsr Flags.bits
  simp [bit_concat, extract_low, extract_high, bitOf_bit, -BitVec.getLsbD_eq_getElem]

theorem linkValue_eq (s : State) :
    s.linkValue = if s.mode = .handler then 0xFFFFFFF1#32 else if s.spsel then 0xFFFFFFFD#32 else 0xFFFFFFF9#32 := by
  unfold State.linkValue
  cases s.mode <;> simp

/-- The stack pointers with the one in use at the frame. -/
theorem setSp_frame (s : State) :
    if s.mode = .thread ∧ s.spsel = true then
      (s.setSp (frameAddress s.sp)).psp = frameAddress s.sp ∧ (s.setSp (frameAddress s.sp)).msp = s.msp
    else (s.setSp (frameAddress s.sp)).msp = frameAddress s.sp ∧ (s.setSp (frameAddress s.sp)).psp = s.psp := by
  have uses : s.usesPsp = true ↔ s.mode = .thread ∧ s.spsel = true := by
    rw [State.usesPsp, Bool.and_eq_true, decide_eq_true_iff, and_comm]
  unfold State.setSp
  by_cases psp : s.usesPsp = true
  · rw [if_pos (uses.mp psp), if_pos psp]
    exact ⟨alignSp_frameAddress _, rfl⟩
  · rw [if_neg (mt uses.mpr psp), if_neg psp]
    exact ⟨alignSp_frameAddress _, rfl⟩

/-! ### The entry -/

/-- The state in which all eight words of the frame are stored to plain memory. -/
def State.stacked (s : State) (ret : Word) : State :=
  storedPlain (s.frameWords ret) (frameAddress s.sp) (s.setSp (frameAddress s.sp))

theorem stacked_stored (s : State) (ret : Word) : s.stacked ret = { s.setSp (frameAddress s.sp) with
    mem := (s.stacked ret).mem, stale := (s.stacked ret).stale, storeTrace := (s.stacked ret).storeTrace } :=
  storedPlain_eq ..

theorem stacked_eq (s : State) (ret : Word) : s.stacked ret = { s with
    msp := (s.stacked ret).msp, psp := (s.stacked ret).psp, mem := (s.stacked ret).mem
    stale := (s.stacked ret).stale, storeTrace := (s.stacked ret).storeTrace } := by
  have stored := stacked_stored s ret
  have pointers := setSp_eq s (frameAddress s.sp)
  generalize s.stacked ret = w at stored ⊢
  generalize s.setSp (frameAddress s.sp) = u at stored pointers
  rw [stored, pointers]

theorem stacked_pointers (s : State) (ret : Word) :
    if s.mode = .thread ∧ s.spsel = true then (s.stacked ret).psp = frameAddress s.sp ∧ (s.stacked ret).msp = s.msp
    else (s.stacked ret).msp = frameAddress s.sp ∧ (s.stacked ret).psp = s.psp := by
  rw [stacked_stored]
  exact setSp_frame s

section
variable {s : State} {ret : Word} (plain : ∀ k, k < 8 → s.Writable (wordAt (frameAddress s.sp) k) .word .stack)
include plain

theorem frameWords_writable (j : Nat) (hj : j < (s.frameWords ret).length) :
    (s.setSp (frameAddress s.sp)).Writable (wordAt (frameAddress s.sp) j) .word .stack :=
  Writable_congr (by simp) (plain j hj)

theorem stacked_word (wf : s.mem.wf = true) {j : Nat} {v : Word} (hv : (s.frameWords ret)[j]? = some v) :
    (s.stacked ret).wordOf (wordAt (frameAddress s.sp) j) = v :=
  storedPlain_at (by simpa using wf) (frameWords_writable plain) hv

theorem stacked_outside (wf : s.mem.wf = true) {b : Nat}
    (outside : b < (frameAddress s.sp).toNat ∨ (frameAddress s.sp).toNat + 32 ≤ b) :
    (s.stacked ret).mem.read b = s.mem.read b := by
  have address := wordAt_toNat fun j hj => (plain j hj).1.2.1
  have outsideWords (j : Nat) (hj : j < (s.frameWords ret).length) :
      b < (wordAt (frameAddress s.sp) j).toNat ∨ (wordAt (frameAddress s.sp) j).toNat + 4 ≤ b := by
    have := (address j hj).1
    have : j < 8 := hj
    omega
  rw [State.stacked, storedPlain_outside (by simpa using wf) outsideWords, setSp_mem]

end

/-- An entry over plain memory is what R420 to R425 say. -/
theorem entered_of_plain {e : Exc} {ret : Word} {s : State} (wf : s.mem.wf = true) (plain : s.CanStack e) :
    ∃ t, exceptionEntry e ret s = .next t ∧ Entered e ret s t := by
  have word {j : Nat} {v : Word} (hv : (s.frameWords ret)[j]? = some v) := stacked_word plain.1 wf hv
  have outside (b : Nat) := stacked_outside (ret := ret) plain.1 wf (b := b)
  have next : exceptionEntry e ret s = .next ((s.stacked ret).entered s.linkValue e
      ((s.stacked ret).mem.readWord (4 * e.number.toNat))) := exceptionEntry_plain plain
  have eq := stacked_eq s ret
  have pointers := stacked_pointers s ret
  generalize s.stacked ret = w at *
  refine ⟨_, next, { frame := ?frame, otherBytes := outside, pointers := pointers, link := linkValue_eq s,
                      context := ?context, bits := ?bits, vector := ⟨rfl, rfl⟩, rest := ?rest }⟩
  case frame =>
    refine ⟨?_, word (j := 1) rfl, word (j := 2) rfl, word (j := 3) rfl, word (j := 4) rfl, word (j := 5) rfl,
      word (j := 6) rfl, ?_⟩
    · exact wordAt_zero (frameAddress s.sp) ▸ word (j := 0) rfl
    · have psr := word (j := 7) (v := s.stackedPsr) rfl
      change StackedPsr s (w.wordOf (wordAt (frameAddress s.sp) 7))
      rw [psr]
      exact stackedPsr_spec s
  case context => exact ⟨rfl, mode_eq_handler.mpr (number_ne_zero e), rfl⟩
  case bits =>
    have pending : w.pending = s.pending := by rw [eq]
    have active : w.active = s.active := by rw [eq]
    change (w.pending.set e false).get e = false ∧ (w.active.set e true).get e = true ∧ ∀ f, f ≠ e →
      (w.pending.set e false).get f = _ ∧ (w.active.set e true).get f = _
    rw [pending, active, get_set, get_set, if_pos rfl, if_pos rfl]
    refine ⟨rfl, rfl, fun f hf => ?_⟩
    rw [get_set, get_set, if_neg hf, if_neg hf]
    exact ⟨rfl, rfl⟩
  case rest =>
    rw [eq]
    rfl

/-! ### Stops of an entry -/

section
variable {e : Exc} {ret : Word} {s : State} {k : Nat}

/-- The words of the frame before number `k`, taken by plain memory or devices, and what the access at word `k` then does. -/
theorem exceptionEntry_stop (hk : k < 8)
    (taken : ∀ j, j < k →
      s.Writable (wordAt (frameAddress s.sp) j) .word .stack ∨ s.OnDevice (wordAt (frameAddress s.sp) j) .word .stack) :
    ∃ u v, u.platform = s.platform ∧
      (∀ f, memWrite u (wordAt (frameAddress s.sp) k) .word v .stack = .fault f → exceptionEntry e ret s = .fault f) ∧
      ∀ r, memWrite u (wordAt (frameAddress s.sp) k) .word v .stack = .refused r → exceptionEntry e ret s = .refused r := by
  have length : (s.frameWords ret).length = 8 := rfl
  obtain ⟨v, hv⟩ : ∃ v, (s.frameWords ret)[k]? = some v := ⟨_, List.getElem?_eq_getElem (hk.trans_eq length.symm)⟩
  obtain ⟨u, written, platform⟩ := writtenInOrder_taken (vs := (s.frameWords ret).take k) (a := frameAddress s.sp)
    (s := s.setSp (frameAddress s.sp)) (k := .stack) fun j hj => by
      rw [List.length_take] at hj
      exact (taken j (by omega)).imp (Writable_congr (by simp)) fun device => by
        simpa [State.OnDevice] using device
  refine ⟨u, v, platform.trans (by simp), fun f fault => ?_, fun r refused => ?_⟩
  · simp only [exceptionEntry, (storeWords_stop hv written).1 f fault]
  · simp only [exceptionEntry, (storeWords_stop hv written).2 r refused]

end

/-- Settles O39. -/
theorem exceptionEntryResult : Obligations.ExceptionEntryResult := by
  refine ⟨fun e ret s wf plain => entered_of_plain wf plain, frameAddress_of_aligned, fun e ret s k hk taken => ?_⟩
  obtain ⟨u, v, platform, fault, refused⟩ := exceptionEntry_stop (e := e) (ret := ret) hk taken
  refine ⟨fun readable flash => refused _ (memWrite_flash ?_ (platform ▸ flash) v), fun none => fault _ (memWrite_noRegister none ..)⟩
  unfold State.Readable
  rwa [platform]

/-- Settles O36. -/
theorem supervisorCall : Obligations.SupervisorCall := by
  refine fun s imm8 wf => ⟨fun higher plain => ?_, fun low => ?_⟩
  · rw [show exec (.svc imm8) s = _ from if_neg (not_le.mpr higher)]
    exact entered_of_plain wf plain
  · rw [← hardFaultOrLockup .svc]
    exact if_pos low

/-- Settles O37. -/
theorem undefinedAndBreakpoint : Obligations.UndefinedAndBreakpoint := by
  intro s imm8 imm16 wf
  have udf : exec (.udf imm8) s = HardFaultOutcome s := hardFaultOrLockup .undefined s
  have udfW : exec (.udfW imm16) s = HardFaultOutcome s := hardFaultOrLockup .undefined s
  have bkpt (noDebugger : s.platform.debuggerAttached = false) : exec (.bkpt imm8) s = HardFaultOutcome s := by
    rw [← hardFaultOrLockup .bkpt]
    exact if_neg (by simp [noDebugger])
  refine ⟨fun nmi hardFault plain => ?_, fun active => ?_, fun debugger => if_pos debugger⟩
  · have entry : HardFaultOutcome s = exceptionEntry .hardFault s.pc s := by simp [HardFaultOutcome, nmi, hardFault]
    obtain ⟨t, next, entered⟩ := entered_of_plain (ret := s.pc) wf plain
    rw [← entry] at next
    exact ⟨⟨t, udf.trans next, entered⟩, ⟨t, udfW.trans next, entered⟩, fun off => ⟨t, (bkpt off).trans next, entered⟩⟩
  · have lockup : HardFaultOutcome s = .next { s with lockup := true } := by simp [HardFaultOutcome, active]
    exact ⟨udf.trans lockup, udfW.trans lockup, fun off => (bkpt off).trans lockup⟩

end Sys2Proof.Machine
end

section
/-! Exception return (spec/60_exceptions.md R430 to R432). -/

namespace Sys2Proof.Machine

/-! ### What a frame restores -/

/-- A general register but SP, LR and the PC is an element of the register file. -/
theorem readReg_general (s : State) {n : Reg} (h : n.toNat ≤ 12) : s.readReg n = (s.r[n.toNat]?).getD 0#32 := by
  have other (k : Reg) (hk : 12 < k.toNat) : n ≠ k := by
    rintro rfl
    omega
  rw [State.readReg, if_neg (other 13#4 (by decide)), if_neg (other 14#4 (by decide)), if_neg (other 15#4 (by decide))]

section
variable (u : State) (k : ReturnKind) (r0 r1 r2 r3 r12 lr ret psr : Word)

/-- The register file that a frame restores (60_exceptions.md R430). -/
theorem restoreFrame_readReg {n : Reg} (h : n.toNat ≤ 12) :
    (u.restoreFrame k r0 r1 r2 r3 r12 lr ret psr).readReg n =
      if n.toNat = 12 then r12 else if n.toNat = 3 then r3 else if n.toNat = 2 then r2 else if n.toNat = 1 then r1
        else if n.toNat = 0 then r0 else u.readReg n := by
  rw [restoreFrame_eq, readReg_general _ h, readReg_general _ h]
  dsimp only
  rw [getD_setIfInBounds _ _ _ (by decide), getD_setIfInBounds _ _ _ (by decide), getD_setIfInBounds _ _ _ (by decide),
    getD_setIfInBounds _ _ _ (by decide), getD_setIfInBounds _ _ _ (by decide)]

/-- The mode that a fitting IPSR of the frame gives (60_exceptions.md R430). -/
theorem restoreFrame_mode (fits : u.stackedIpsrFits k (psr.extractLsb' 0 6) = true) :
    (u.restoreFrame k r0 r1 r2 r3 r12 lr ret psr).mode = if k = .handlerMain then .handler else .thread := by
  have ipsr : (u.restoreFrame k r0 r1 r2 r3 r12 lr ret psr).ipsr = psr.extractLsb' 0 6 := by rw [restoreFrame_eq]
  cases k with
  | handlerMain =>
    refine mode_eq_handler.mpr fun zero => ?_
    rw [← ipsr, zero, State.stackedIpsrFits, ofNumber_zero] at fits
    exact Bool.noConfusion fits
  | threadMain => exact mode_eq_thread.mpr (ipsr.trans (beq_iff_eq.mp fits))
  | threadProcess => exact mode_eq_thread.mpr (ipsr.trans (beq_iff_eq.mp fits))

theorem restoreFrame_sp (fits : u.stackedIpsrFits k (psr.extractLsb' 0 6) = true) :
    (u.restoreFrame k r0 r1 r2 r3 r12 lr ret psr).sp = alignSp (stackAfterReturn (u.returnFrame k) psr) := by
  have mode := restoreFrame_mode u k r0 r1 r2 r3 r12 lr ret psr fits
  rw [State.sp, State.usesPsp, mode, restoreFrame_eq]
  cases k <;> rfl

end

/-! ### The return -/

/-- What returning from `e` does to the bits of the exceptions (60_exceptions.md R430, R464). -/
theorem deactivate_bits (s : State) (e f : Exc) : BitsAfterReturn e f s (s.deactivate e) := by
  constructor
  · have active : (s.deactivate e).active = s.active.set e false := by rw [deactivate_eq]
    rw [active, get_set]
    by_cases same : f = e
    · simp [same]
    · simp [same]
  · rw [deactivate_pending]
    split
    case isTrue again => exact iff_of_true rfl (.inr again)
    case isFalse other => exact (or_iff_left other).symm

/-- The state that the frame of a return from `u` restores. -/
def State.unstacked (u : State) (k : ReturnKind) : State :=
  u.restoreFrame k (u.wordOf (u.returnFrame k)) (u.wordOf (wordAt (u.returnFrame k) 1)) (u.wordOf (wordAt (u.returnFrame k) 2))
    (u.wordOf (wordAt (u.returnFrame k) 3)) (u.wordOf (wordAt (u.returnFrame k) 4)) (u.wordOf (wordAt (u.returnFrame k) 5))
    (u.wordOf (wordAt (u.returnFrame k) 6)) (u.wordOf (wordAt (u.returnFrame k) 7))

theorem returnFrame_deactivate (s : State) (e : Exc) (k : ReturnKind) : (s.deactivate e).returnFrame k = s.returnFrame k := by
  rw [deactivate_eq]
  cases k <;> rfl

theorem wordOf_deactivate (s : State) (e : Exc) (a : Word) : (s.deactivate e).wordOf a = s.wordOf a := by
  rw [deactivate_eq]
  rfl

theorem Readable_deactivate {s : State} {a : Word} {w : Width} {kind : Config.AccessKind} (e : Exc) (h : s.Readable a w kind) :
    (s.deactivate e).Readable a w kind := by
  rw [deactivate_eq]
  exact h

/-- A return through plain memory is what R430 and R431 say. -/
theorem returned_of_plain {s : State} {e : Exc} {k : ReturnKind} (he : Exc.ofNumber s.ipsr = some e)
    (plain : ∀ j, j < 8 → s.Readable (wordAt (s.returnFrame k) j) .word .unstack)
    (fits : (s.deactivate e).stackedIpsrFits k ((s.wordOf (wordAt (s.returnFrame k) 7)).extractLsb' 0 6) = true) :
    ∃ t, unstack k (s.deactivate e) = .next t ∧ Returned k (s.returnFrame k) s t := by
  have eq := deactivate_eq s e
  have bits := deactivate_bits s e
  have frame := returnFrame_deactivate s e k
  have word := wordOf_deactivate s e
  have plainU (j : Nat) (hj : j < 8) := Readable_deactivate e (plain j hj)
  generalize s.deactivate e = u at *
  rw [← frame] at plainU
  rw [← frame, ← word] at fits
  refine ⟨u.unstacked k, unstack_plain plainU fits, ?_⟩
  have general {n : Reg} (hn : n.toNat ≤ 12) : (u.unstacked k).readReg n = _ := restoreFrame_readReg u k _ _ _ _ _ _ _ _ hn
  have mode : (u.unstacked k).mode = _ := restoreFrame_mode u k _ _ _ _ _ _ _ _ fits
  have sp : (u.unstacked k).sp = _ := restoreFrame_sp u k _ _ _ _ _ _ _ _ fits
  have explicit : u.unstacked k = _ := restoreFrame_eq u k _ _ _ _ _ _ _ _
  simp only [frame, word] at general sp explicit
  generalize u.unstacked k = t at *
  refine { registers := ⟨general (by decide), general (by decide), general (by decide), general (by decide), general (by decide),
             by rw [explicit], by rw [explicit]; rfl⟩,
           otherRegisters := ?otherRegisters, flags := by rw [explicit]; exact ⟨rfl, rfl, rfl, rfl⟩,
           context := by rw [explicit]; exact ⟨rfl, rfl⟩, stack := sp, kind := ?kind, bits := ?bits, rest := ?rest }
  case otherRegisters =>
    intro n low high
    rw [general (by omega), if_neg (by omega), if_neg (by omega), if_neg (by omega), if_neg (by omega), if_neg (by omega),
      readReg_general _ (by omega), readReg_general _ (by omega), eq]
  case kind =>
    have pointers : u.msp = s.msp ∧ u.psp = s.psp := by rw [eq]; exact ⟨rfl, rfl⟩
    have sleep : u.sleeping = s.sleeping ∧ u.sleepOnExit = s.sleepOnExit := by rw [eq]; exact ⟨rfl, rfl⟩
    rw [explicit]
    cases k with
    | handlerMain => exact ⟨explicit ▸ mode, rfl, pointers.2, (Bool.or_false _).trans sleep.1⟩
    | threadMain => exact ⟨explicit ▸ mode, rfl, pointers.2, congrArg₂ (· || ·) sleep.1 sleep.2⟩
    | threadProcess => exact ⟨explicit ▸ mode, rfl, pointers.1, congrArg₂ (· || ·) sleep.1 sleep.2⟩
  case bits =>
    intro f hf
    obtain rfl : e = f := Option.some.inj (he.symm.trans hf)
    have tActive : t.active = u.active := by rw [explicit]
    have tPending : t.pending = u.pending := by rw [explicit]
    rw [tActive, tPending]
    refine ⟨?_, fun f other => ⟨?_, ?_⟩, ?_⟩
    · rw [← Bool.not_eq_true, (bits e).1]
      simp
    · rw [Bool.eq_iff_iff, (bits f).1]
      simp [other]
    · rw [Bool.eq_iff_iff, (bits f).2]
      simp [other]
    · rw [(bits e).2]
      simp
  case rest =>
    rw [explicit, eq]

/-! ### EXC_RETURN values -/

/-- The three EXC_RETURN values (60_exceptions.md R430, Table 2.11). -/
def ReturnKind.value : ReturnKind → Word
  | .handlerMain => 0xFFFFFFF1#32
  | .threadMain => 0xFFFFFFF9#32
  | .threadProcess => 0xFFFFFFFD#32

theorem ofValue_value (k : ReturnKind) : ReturnKind.ofValue k.value = some k := by
  cases k <;> rfl

theorem isExcReturn_iff (s : State) (v : Word) : s.isExcReturn v = true ↔ s.mode = .handler ∧ v.extractLsb' 4 28 = 0xFFFFFFF#28 := by
  rw [State.isExcReturn, Bool.and_eq_true, decide_eq_true_iff, beq_iff_eq]

theorem isExcReturn_value {s : State} (handler : s.mode = .handler) (k : ReturnKind) : s.isExcReturn k.value = true :=
  (isExcReturn_iff s _).mpr ⟨handler, by cases k <;> rfl⟩

/-- A return with a value that fits comes down to the unstacking (60_exceptions.md R430). -/
theorem exceptionReturn_fits {s : State} {e : Exc} {k : ReturnKind} {v : Word} (hv : ReturnKind.ofValue v = some k)
    (he : Exc.ofNumber s.ipsr = some e) (fits : k.fits s.active.count = true) :
    exceptionReturn v s = unstack k (s.deactivate e) := by
  simp only [exceptionReturn, hv, he, fits]
  rfl

theorem exec_bx_return {s : State} {rm : Reg} (h : s.isExcReturn (s.readReg rm) = true) :
    exec (.bx rm) s = exceptionReturn (s.readReg rm) s := if_pos h

/-- Settles O40. -/
theorem exceptionReturnResult : Obligations.ExceptionReturnResult := by
  intro s rm e k handler he value fits plain ipsrFits
  have isValue : s.readReg rm = k.value := value.trans (by cases k <;> rfl)
  rw [exec_bx_return (isValue ▸ isExcReturn_value handler k), isValue, exceptionReturn_fits (ofValue_value k) he fits]
  exact returned_of_plain he plain ipsrFits

/-- POP with the PC of an EXC_RETURN value in Handler mode. -/
theorem execPop_return {s : State} {list : RegList} {v : Word} (handler : s.mode = .handler) (ha : isAligned s.sp .word = true)
    (plain : ∀ k, k < regCount list + 1 → s.Readable (wordAt s.sp k) .word .read)
    (hv : s.wordOf (wordAt s.sp (regCount list)) = v) (pattern : v.extractLsb' 4 28 = 0xFFFFFFF#28) :
    ∃ u, exec (.pop true list) s = exceptionReturn v u ∧ u.msp = s.sp + BitVec.ofNat 32 (4 * (regCount list + 1)) ∧
      (∀ i : LowReg, list.getLsbD i.toNat = true → u.readLow i = s.wordOf (wordAt s.sp (rankIn list i))) ∧
      (∀ n : Reg, n ≠ 13#4 → n ≠ 15#4 → (8 ≤ n.toNat ∨ list.getLsbD n.toNat = false) → u.readReg n = s.readReg n) ∧
      u = { s with r := u.r, msp := u.msp } := by
  subst hv
  obtain ⟨u, next, sp, listed, others, other, rest⟩ := execPopPc_eq (list := list) ha (by simp) (readInOrder_plain_last plain)
  have notPsp : s.usesPsp = false := by simp [State.usesPsp, handler]
  rw [notPsp] at other
  have mode : u.mode = .handler := by
    rw [rest]
    exact handler
  have uses : u.usesPsp = false := by simp [State.usesPsp, mode]
  have psp : u.psp = s.psp := other
  refine ⟨u, next.trans (if_pos ((isExcReturn_iff u _).mpr ⟨mode, pattern⟩)), ?_, fun i hi => ?_, others, ?_⟩
  · rw [← sp, State.sp, uses]
    rfl
  · have place := listed i hi
    rw [plainWords_at s _ (rankIn_lt list i hi)] at place
    exact (Option.some.inj place).symm
  · rw [psp] at rest
    exact rest

/-- Settles O41. -/
theorem popReturnsFromException : Obligations.PopReturnsFromException :=
  fun _ _ handler ha plain pattern => execPop_return handler ha plain rfl pattern

/-! ### Refused returns -/

/-- A write of an EXC_RETURN pattern to the PC in Handler mode, by BX or POP, is an exception return. -/
theorem ReturnsBy.exec_eq {i : Instr} {s : State} {v sp : Word} (h : ReturnsBy i s v sp) (handler : s.mode = .handler)
    (pattern : v.extractLsb' 4 28 = 0xFFFFFFF#28) :
    ∃ u, exec i s = exceptionReturn v u ∧ u.msp = sp ∧ u = { s with r := u.r, msp := u.msp } := by
  obtain ⟨rm, rfl, rfl, rfl⟩ | ⟨list, rfl, ha, plain, hv, rfl⟩ := h
  · exact ⟨s, exec_bx_return ((isExcReturn_iff s _).mpr ⟨handler, pattern⟩), rfl, rfl⟩
  · obtain ⟨u, next, msp, -, -, rest⟩ := execPop_return handler ha plain hv.symm pattern
    exact ⟨u, next, msp, rest⟩

theorem exceptionReturn_unfit {s : State} {v : Word} {k : ReturnKind} (hv : ReturnKind.ofValue v = some k)
    (unfit : ∀ e, Exc.ofNumber s.ipsr = some e → k.fits s.active.count = true →
      unstack k (s.deactivate e) = .refused .inconsistentExcReturn) :
    exceptionReturn v s = .refused .inconsistentExcReturn := by
  simp only [exceptionReturn, hv]
  cases he : Exc.ofNumber s.ipsr with
  | none => rfl
  | some e =>
    dsimp only
    split
    case isTrue fits => exact unfit e he fits
    case isFalse => rfl

theorem unstack_unfit {k : ReturnKind} {s : State}
    (plain : ∀ j, j < 8 → s.Readable (wordAt (s.returnFrame k) j) .word .unstack)
    (unfit : s.stackedIpsrFits k ((s.wordOf (wordAt (s.returnFrame k) 7)).extractLsb' 0 6) = false) :
    unstack k s = .refused .inconsistentExcReturn := by
  unfold unstack
  rw [loadWords_plain plain, show List.range 8 = [0, 1, 2, 3, 4, 5, 6, 7] from rfl]
  simp only [List.map_cons, List.map_nil, unfit]
  rfl

theorem ofValue_handlerMain {v : Word} (h : v.extractLsb' 0 4 = 0b0001#4) : ReturnKind.ofValue v = some .handlerMain := by
  simp [ReturnKind.ofValue, h]

theorem ofValue_thread {v : Word} (h : v.extractLsb' 0 4 = 0b1001#4 ∨ v.extractLsb' 0 4 = 0b1101#4) :
    ∃ k, k ≠ .handlerMain ∧ ReturnKind.ofValue v = some k := by
  rcases h with main | process
  · exact ⟨.threadMain, by decide, by simp [ReturnKind.ofValue, main]⟩
  · exact ⟨.threadProcess, by decide, by simp [ReturnKind.ofValue, process]⟩

/-- An IPSR on the frame that a return to Handler mode refuses (60_exceptions.md R432). -/
theorem stackedIpsr_unfit_handler {s : State} {e : Exc} {n : BitVec 6} (he : Exc.ofNumber s.ipsr = some e)
    (bad : ∀ f, Exc.ofNumber n = some f → s.active.get f = false ∨ f.number = s.ipsr) :
    (s.deactivate e).stackedIpsrFits .handlerMain n = false := by
  have active : (s.deactivate e).active = s.active.set e false := by rw [deactivate_eq]
  unfold State.stackedIpsrFits
  cases hf : Exc.ofNumber n with
  | none => rfl
  | some f =>
    dsimp only
    rw [active, get_set]
    rcases bad f hf with inactive | returning
    · rw [inactive]
      exact ite_self _
    · rw [if_pos (number_inj (returning.trans (number_of_ofNumber he).symm))]

theorem stackedIpsr_unfit_thread {s : State} {k : ReturnKind} {n : BitVec 6} (hk : k ≠ .handlerMain) (bad : n ≠ 0#6) :
    s.stackedIpsrFits k n = false := by
  cases k with
  | handlerMain => exact absurd rfl hk
  | threadMain => exact beq_false_of_ne bad
  | threadProcess => exact beq_false_of_ne bad

/-- The frame that a return with value `v` from a state with the main stack pointer at `sp` goes through. -/
theorem returnFrame_of_value {s u : State} {v sp frame : Word} {k : ReturnKind} (hv : ReturnKind.ofValue v = some k)
    (msp : u.msp = sp) (psp : u.psp = s.psp)
    (hframe : (v.extractLsb' 0 4 = 0b0001#4 ∨ v.extractLsb' 0 4 = 0b1001#4) ∧ frame = sp ∨
      v.extractLsb' 0 4 = 0b1101#4 ∧ frame = s.psp) : u.returnFrame k = frame := by
  obtain ⟨main | thread, rfl⟩ | ⟨process, rfl⟩ := hframe
  · simp [ReturnKind.ofValue, main] at hv
    rw [← hv]
    exact msp
  · simp [ReturnKind.ofValue, thread] at hv
    rw [← hv]
    exact msp
  · simp [ReturnKind.ofValue, process] at hv
    rw [← hv]
    exact psp

/-- A return through a readable frame whose IPSR does not fit is refused (60_exceptions.md R432). -/
theorem exceptionReturn_badFrame {u : State} {v frame : Word} {k : ReturnKind} (hv : ReturnKind.ofValue v = some k)
    (hframe : u.returnFrame k = frame) (plain : ∀ j, j < 8 → u.Readable (wordAt frame j) .word .unstack)
    (unfit : ∀ e, Exc.ofNumber u.ipsr = some e →
      (u.deactivate e).stackedIpsrFits k ((u.wordOf (wordAt frame 7)).extractLsb' 0 6) = false) :
    exceptionReturn v u = .refused .inconsistentExcReturn := by
  subst hframe
  refine exceptionReturn_unfit hv fun e he _ => unstack_unfit (fun j hj => ?_) ?_
  · rw [returnFrame_deactivate]
    exact Readable_deactivate e (plain j hj)
  · rw [returnFrame_deactivate, wordOf_deactivate]
    exact unfit e he

/-- Settles O42. -/
theorem badReturnsRefused : Obligations.BadReturnsRefused := by
  intro s i v sp handler returns pattern
  obtain ⟨u, exec_eq, msp, rest⟩ := returns.exec_eq handler pattern
  have same : u.active = s.active ∧ u.ipsr = s.ipsr ∧ u.psp = s.psp := by rw [rest]; exact ⟨rfl, rfl, rfl⟩
  obtain ⟨active, ipsr, psp⟩ := same
  have word (a : Word) : u.wordOf a = s.wordOf a := by rw [rest]; rfl
  rw [exec_eq]
  refine ⟨fun h1 h9 h13 => ?_, fun value count => ?_, fun value count => ?_, fun frame hframe plain => ⟨fun value bad => ?_, fun value bad => ?_⟩⟩
  · simp [exceptionReturn, ReturnKind.ofValue, h1, h9, h13]
  · refine exceptionReturn_unfit (ofValue_handlerMain value) fun e _ fits => ?_
    simp only [ReturnKind.fits, active, decide_eq_true_iff] at fits
    omega
  · obtain ⟨k, thread, hv⟩ := ofValue_thread value
    refine exceptionReturn_unfit hv fun e _ fits => ?_
    cases k with
    | handlerMain => exact absurd rfl thread
    | threadMain => exact absurd (active ▸ beq_iff_eq.mp fits) count
    | threadProcess => exact absurd (active ▸ beq_iff_eq.mp fits) count
  · have hv := ofValue_handlerMain value
    refine exceptionReturn_badFrame hv (returnFrame_of_value hv msp psp hframe) (by rw [rest]; exact plain) fun e he => ?_
    rw [word]
    exact stackedIpsr_unfit_handler he fun f hf => by rw [active, ipsr]; exact bad f hf
  · obtain ⟨k, thread, hv⟩ := ofValue_thread value
    refine exceptionReturn_badFrame hv (returnFrame_of_value hv msp psp hframe) (by rw [rest]; exact plain) fun e _ => ?_
    rw [word]
    exact stackedIpsr_unfit_thread thread bad

end Sys2Proof.Machine
end

section
/-! An exception entered and returned from at once (spec/60_exceptions.md sections 4 and 5). -/

namespace Sys2Proof.Machine

/-! ### How many exceptions are active -/

theorem count_two {x : ExcSet} {e f : Exc} (ne : e ≠ f) (he : x.get e = true) (hf : x.get f = true) : 1 < x.count := by
  have both : [e, f].countP (fun g => x.get g) ≤ x.count :=
    (List.subperm_of_subset (by simp [ne]) fun g _ => mem_all g).countP_le _
  have two : [e, f].countP (fun g => x.get g) = 2 := by simp [he, hf]
  omega

theorem count_one (e : Exc) : (ExcSet.none.set e true).count = 1 := by
  have only : (fun g => (ExcSet.none.set e true).get g) = fun g => decide (g = e) := by
    funext g
    rw [get_set, get_none]
    by_cases same : g = e
    · simp [same]
    · simp [same]
  have nodup : Exc.all.Nodup := by decide
  rw [ExcSet.count, only, ← List.count_eq_one_of_mem nodup (mem_all e), List.count]
  rfl

/-! ### The stack pointer -/

/-- A return through the frame of an entry moves the stack pointer back (60_exceptions.md R420, R430). -/
theorem stackAfterReturn_frameAddress {v psr : Word} (aligned : alignSp v = v) (padding : psr.getLsbD 9 = v.getLsbD 2) :
    alignSp (stackAfterReturn (frameAddress v) psr) = v := by
  have lowBits : v &&& 3#32 = 0#32 := by
    rw [← aligned, alignSp, BitVec.and_assoc]
    exact BitVec.and_zero
  obtain ⟨multiple, frame⟩ := frameAddress_of_aligned v lowBits
  rw [stackAfterReturn, padding]
  cases odd : v.getLsbD 2 with
  | false =>
    rw [odd] at frame
    rw [frame]
    simpa using aligned
  | true =>
    have clear : (frameAddress v + 0x20#32) &&& 4#32 = 0#32 := by
      have bit2 : (frameAddress v + 0x20#32).getLsbD 2 = false := by
        rw [BitVec.getLsbD, Nat.testBit_eq_decide_div_mod_eq, BitVec.toNat_add, BitVec.toNat_ofNat, decide_eq_false_iff_not]
        omega
      rw [show 4#32 = BitVec.twoPow 32 2 from rfl, BitVec.and_twoPow, bit2]
      rfl
    rw [odd, if_pos rfl] at frame
    rw [if_pos rfl, ← BitVec.add_eq_or_of_and_eq_zero _ _ clear, frame, show v - 36#32 + 0x20#32 + 4#32 = v by bv_omega, aligned]

/-! ### The entry and the return -/

/-- The kind of return that the EXC_RETURN value of an entry from `s` stands for (60_exceptions.md R423, R430). -/
def State.returnKind (s : State) : ReturnKind :=
  match s.mode with
  | .handler => .handlerMain
  | .thread => if s.spsel then .threadProcess else .threadMain

theorem returnKind_value (s : State) :
    s.returnKind.value = if s.mode = .handler then 0xFFFFFFF1#32 else if s.spsel then 0xFFFFFFFD#32 else 0xFFFFFFF9#32 := by
  unfold State.returnKind
  cases s.mode <;> cases s.spsel <;> rfl

section
variable {s t : State} {e : Exc} {ret : Word}

theorem Entered.returnFrame_eq (entered : Entered e ret s t) : t.returnFrame s.returnKind = frameAddress s.sp := by
  have pointers := entered.pointers
  unfold State.returnKind
  cases mode : s.mode with
  | handler =>
    rw [if_neg (by simp [mode])] at pointers
    exact pointers.1
  | thread =>
    cases spsel : s.spsel with
    | true =>
      rw [if_pos ⟨mode, spsel⟩] at pointers
      exact pointers.1
    | false =>
      rw [if_neg (by simp [spsel])] at pointers
      exact pointers.1

section
variable (entered : Entered e ret s t) (inv : s.Inv) (running : s.lockup = false) (notHalted : s.halted = false)
  (idle : s.active.get e = false)
include entered inv running notHalted idle

/-- The exception interrupted by an entry is active, and another one. -/
theorem Entered.interrupted (handler : s.mode = .handler) :
    ∃ f, Exc.ofNumber s.ipsr = some f ∧ f ≠ e ∧ t.active.get f = true := by
  obtain ⟨f, hf⟩ := Option.isSome_iff_exists.mp (inv.ipsrLegal.resolve_left (mode_eq_handler.mp handler))
  have active := inv.handledIsActive running notHalted f hf
  have other : f ≠ e := by
    rintro rfl
    simp [idle] at active
  obtain ⟨-, -, others⟩ := entered.bits
  exact ⟨f, hf, other, (others f other).2.trans active⟩

/-- After the entry of an exception that was not active, the return fits the number of active exceptions. -/
theorem Entered.fits : s.returnKind.fits t.active.count = true := by
  obtain ⟨-, active, others⟩ := entered.bits
  unfold State.returnKind
  cases mode : s.mode with
  | handler =>
    obtain ⟨f, -, other, fActive⟩ := entered.interrupted inv running notHalted idle mode
    exact decide_eq_true (count_two other fActive active)
  | thread =>
    have only : t.active = ExcSet.none.set e true := by
      refine excSet_ext fun f => ?_
      rw [get_set]
      by_cases same : f = e
      · rw [same, if_pos rfl, active]
      · rw [if_neg same, (others f same).2, inv.threadIdle (mode_eq_thread.mp mode)]
    rw [only, count_one]
    cases s.spsel <;> rfl

/-- The IPSR on the frame of an entry fits the return. -/
theorem Entered.stackedIpsrFits : (t.deactivate e).stackedIpsrFits s.returnKind s.ipsr = true := by
  unfold State.returnKind
  cases mode : s.mode with
  | handler =>
    obtain ⟨f, hf, other, fActive⟩ := entered.interrupted inv running notHalted idle mode
    have active : (t.deactivate e).active = t.active.set e false := by rw [deactivate_eq]
    simp only [State.stackedIpsrFits, hf, active]
    rw [get_set, if_neg other]
    exact fActive
  | thread =>
    have zero := mode_eq_thread.mp mode
    cases s.spsel <;> exact beq_iff_eq.mpr zero

end

end

/-- States that read the same general registers have the same register file. -/
theorem registers_ext {s u : State} (h : ∀ n : Reg, n.toNat ≤ 12 → u.readReg n = s.readReg n) : u.r = s.r := by
  refine Vector.ext fun i hi => ?_
  have number : (BitVec.ofNat 4 i).toNat = i := Nat.mod_eq_of_lt (by omega)
  have read := h (BitVec.ofNat 4 i) (by omega)
  rw [readReg_general _ (by omega), readReg_general _ (by omega), number] at read
  simpa [hi] using read

theorem flags_ext {f g : Flags} (n : f.n = g.n) (z : f.z = g.z) (c : f.c = g.c) (v : f.v = g.v) : f = g := by
  cases f
  cases g
  congr

/-- Without SPSEL the stack pointer in use is MSP. -/
theorem sp_eq_msp {s : State} (h : s.spsel = false) : s.sp = s.msp := by
  simp [State.sp, State.usesPsp, h]

theorem sp_eq_psp {s : State} (h : s.spsel = true) (thread : s.mode = .thread) : s.sp = s.psp := by
  simp [State.sp, State.usesPsp, h, thread]

theorem State.Inv.sp_aligned {s : State} (inv : s.Inv) : alignSp s.sp = s.sp := by
  unfold State.sp
  split
  · exact inv.pspAligned
  · exact inv.mspAligned

/-- The stack pointers, SPSEL and sleep after an entry and a return that puts the stack pointer back. -/
theorem restored_stack {s t u : State} {e : Exc} {frame : Word} (entered : Entered e s.pc s t)
    (returned : Returned s.returnKind frame t u) (inv : s.Inv) (sp : u.sp = s.sp) :
    u.msp = s.msp ∧ u.psp = s.psp ∧ u.spsel = s.spsel ∧
      u.sleeping = (s.sleeping || (decide (s.mode = .thread) && s.sleepOnExit)) := by
  have pointers := entered.pointers
  have kind := returned.kind
  have sleep : t.sleeping = s.sleeping ∧ t.sleepOnExit = s.sleepOnExit := by rw [entered.rest]; exact ⟨rfl, rfl⟩
  rw [sleep.1, sleep.2] at kind
  unfold State.returnKind at kind
  cases mode : s.mode with
  | handler =>
    rw [mode] at kind
    rw [if_neg (by simp [mode])] at pointers
    obtain ⟨-, spsel, psp, sleeping⟩ := kind
    have main := inv.handlerOnMain (mode_eq_handler.mp mode)
    rw [sp_eq_msp spsel, sp_eq_msp main] at sp
    exact ⟨sp, psp.trans pointers.2, spsel.trans main.symm, sleeping.trans (Bool.or_false _).symm⟩
  | thread =>
    cases process : s.spsel with
    | true =>
      rw [mode, process] at kind
      rw [if_pos ⟨mode, process⟩] at pointers
      obtain ⟨thread, spsel, msp, sleeping⟩ := kind
      rw [sp_eq_psp spsel thread, sp_eq_psp process mode] at sp
      exact ⟨msp.trans pointers.2, sp, spsel, sleeping⟩
    | false =>
      rw [mode, process] at kind
      rw [if_neg (by simp [process])] at pointers
      obtain ⟨thread, spsel, psp, sleeping⟩ := kind
      rw [sp_eq_msp spsel, sp_eq_msp process] at sp
      exact ⟨sp, psp.trans pointers.2, spsel, sleeping⟩

/-- A return through the frame that an entry stacked, with the entry's kind of return, restores what the entry interrupted. -/
theorem restored {s t u : State} {e : Exc} (entered : Entered e s.pc s t)
    (returned : Returned s.returnKind (frameAddress s.sp) t u) (inv : s.Inv) (trace : t.storeTrace = s.storeTrace)
    (idle : s.active.get e = false) :
    u = { s with
      mem := t.mem, stale := [], pending := u.pending
      sleeping := s.sleeping || (decide (s.mode = .thread) && s.sleepOnExit) } ∧
    ∀ f, f ≠ e → u.pending.get f = s.pending.get f := by
  obtain ⟨f0, f1, f2, f3, f12, flr, fpc, psr⟩ := entered.frame
  obtain ⟨u0, u1, u2, u3, u12, ulr, upc⟩ := returned.registers
  obtain ⟨psrN, psrZ, psrC, psrV, -, psrT, -, padding, -, psrIpsr⟩ := psr
  obtain ⟨ipsr, -, -⟩ := entered.context
  have exception : Exc.ofNumber t.ipsr = some e := by rw [ipsr, ofNumber_number]
  obtain ⟨inactive, others, -⟩ := returned.bits e exception
  obtain ⟨-, -, entryOthers⟩ := entered.bits
  obtain ⟨uN, uZ, uC, uV⟩ := returned.flags
  obtain ⟨uT, uIpsr⟩ := returned.context
  have tr : t.r = s.r := by rw [entered.rest]
  have r : u.r = s.r := registers_ext fun n hn => by
    have places : n = 0 ∨ n = 1 ∨ n = 2 ∨ n = 3 ∨ n = 12 ∨ (4 ≤ n.toNat ∧ n.toNat ≤ 11) := by
      revert n
      decide
    obtain rfl | rfl | rfl | rfl | rfl | ⟨low, high⟩ := places
    · exact u0.trans f0
    · exact u1.trans f1
    · exact u2.trans f2
    · exact u3.trans f3
    · exact u12.trans f12
    · rw [returned.otherRegisters n low high, readReg_general _ hn, readReg_general _ hn, tr]
  have lr : u.lr = s.lr := ulr.trans flr
  have pc : u.pc = s.pc := by rw [upc, fpc]; exact inv.pcAligned
  have flags : u.flags = s.flags := flags_ext (uN.trans psrN) (uZ.trans psrZ) (uC.trans psrC) (uV.trans psrV)
  have tbit : u.tbit = s.tbit := uT.trans psrT
  have sameIpsr : u.ipsr = s.ipsr := uIpsr.trans psrIpsr
  have active : u.active = s.active := excSet_ext fun f => by
    by_cases same : f = e
    · rw [same, inactive, idle]
    · rw [(others f same).1, (entryOthers f same).2]
  have sp : u.sp = s.sp := returned.stack.trans (stackAfterReturn_frameAddress inv.sp_aligned padding)
  obtain ⟨msp, psp, spsel, sleeping⟩ := restored_stack entered returned inv sp
  refine ⟨?_, fun f other => (others f other).2.trans (entryOthers f other).1⟩
  have rest := returned.rest
  rw [r, msp, psp, lr, pc, flags, tbit, sameIpsr, spsel, active, sleeping] at rest
  rw [rest, entered.rest, trace]

/-- Settles O43. -/
theorem entryThenReturnRestores : Obligations.EntryThenReturnRestores := by
  intro s t e inv running notHalted idle plain noError next
  obtain ⟨t', next', entered⟩ := entered_of_plain (ret := s.pc) inv.memWf plain
  obtain rfl : t' = t := Host.Outcome.next.inj (next'.symm.trans next)
  have calm := exceptionEntry_calm next
  have trace : t'.storeTrace = s.storeTrace := (calm.trace inv.noTrace).trans inv.noTrace.symm
  have kind : t'.lr = s.returnKind.value := entered.link.trans (returnKind_value s).symm
  have exception : Exc.ofNumber t'.ipsr = some e := by rw [entered.context.1, ofNumber_number]
  have frame := entered.returnFrame_eq
  obtain ⟨-, -, -, -, -, -, -, psr⟩ := entered.frame
  obtain ⟨-, -, -, -, -, -, -, -, -, psrIpsr⟩ := psr
  have readable (j : Nat) (hj : j < 8) : t'.Readable (wordAt (t'.returnFrame s.returnKind) j) .word .unstack := by
    obtain ⟨⟨aligned, normal, -⟩, -⟩ := plain.1 j hj
    rw [frame]
    exact ⟨aligned, normal, calm.platform ▸ noError j hj⟩
  have ipsrFits : (t'.deactivate e).stackedIpsrFits s.returnKind
      ((t'.wordOf (wordAt (t'.returnFrame s.returnKind) 7)).extractLsb' 0 6) = true := by
    rw [frame, psrIpsr]
    exact entered.stackedIpsrFits inv running notHalted idle
  obtain ⟨u, unstacked, returned⟩ := returned_of_plain exception readable ipsrFits
  rw [frame] at returned
  refine ⟨u, ?_, restored entered returned inv trace idle⟩
  rw [kind, exceptionReturn_fits (ofValue_value _) exception (entered.fits inv running notHalted idle), unstacked]

end Sys2Proof.Machine
end

section
/-! Bus errors inside an exception entry or return (spec/60_exceptions.md R427, R446). -/

namespace Sys2Proof.Machine

/-! ### HardFault in place -/

/-- The state in which HardFault's handler has been entered in place, without a frame, from `w`. -/
def State.inHardFault (w : State) : State := (w.enterContext .hardFault).jumpVector (w.mem.readWord 12)

theorem inHardFault_context (w : State) : HardFaultContext w.inHardFault := by
  have active : w.inHardFault.active.get .hardFault = true := by
    change (w.active.set .hardFault true).get .hardFault = true
    rw [get_set, if_pos rfl]
  have pending : w.inHardFault.pending.get .hardFault = false := by
    change (w.pending.set .hardFault false).get .hardFault = false
    rw [get_set, if_pos rfl]
  exact ⟨rfl, mode_eq_handler.mpr (by change (3#6 : BitVec 6) ≠ 0#6; decide), rfl, active, pending, rfl, rfl⟩

theorem inHardFault_others (w : State) {f : Exc} (hf : f ≠ .hardFault) :
    w.inHardFault.pending.get f = w.pending.get f ∧ w.inHardFault.active.get f = w.active.get f := by
  change (w.pending.set .hardFault false).get f = _ ∧ (w.active.set .hardFault true).get f = _
  rw [get_set, get_set, if_neg hf, if_neg hf]
  exact ⟨rfl, rfl⟩

theorem hardFaultInPlace_eq (locked w : State) :
    hardFaultInPlace locked w =
      if busError w.platform 12 4 .vector = true then .next (locked.lockedUpInEntry w) else .next w.inHardFault := by
  have address : Exc.hardFault.vector.toNat = 12 := by decide
  unfold hardFaultInPlace vectorRead
  rw [address]
  by_cases error : busError w.platform 12 4 .vector = true
  · simp [error]
  · simp [error, State.inHardFault]

/-! ### A bus error in an entry -/

/-- The state in which the first `n` words of the frame are stored to plain memory, and the others hold Unknown words where they can. -/
def State.partlyStacked (s : State) (ret : Word) (n : Nat) : State :=
  fillUnknown (8 - n) (wordAt (frameAddress s.sp) n)
    (storedPlain ((s.frameWords ret).take n) (frameAddress s.sp) (s.setSp (frameAddress s.sp)))

theorem partlyStacked_stored (s : State) (ret : Word) (n : Nat) : s.partlyStacked ret n = { s.setSp (frameAddress s.sp) with
    mem := (s.partlyStacked ret n).mem, stale := (s.partlyStacked ret n).stale
    storeTrace := (s.partlyStacked ret n).storeTrace, freeCount := (s.partlyStacked ret n).freeCount } := by
  have stored := storedPlain_eq ((s.frameWords ret).take n) (frameAddress s.sp) (s.setSp (frameAddress s.sp))
  unfold State.partlyStacked
  generalize storedPlain ((s.frameWords ret).take n) (frameAddress s.sp) (s.setSp (frameAddress s.sp)) = u at stored ⊢
  have filled := fillUnknown_eq (8 - n) (wordAt (frameAddress s.sp) n) u
  generalize fillUnknown (8 - n) (wordAt (frameAddress s.sp) n) u = w at filled ⊢
  rw [filled, stored]

theorem partlyStacked_eq (s : State) (ret : Word) (n : Nat) : s.partlyStacked ret n = { s with
    msp := (s.partlyStacked ret n).msp, psp := (s.partlyStacked ret n).psp, mem := (s.partlyStacked ret n).mem
    stale := (s.partlyStacked ret n).stale, storeTrace := (s.partlyStacked ret n).storeTrace
    freeCount := (s.partlyStacked ret n).freeCount } := by
  have stored := partlyStacked_stored s ret n
  have pointers := setSp_eq s (frameAddress s.sp)
  generalize s.partlyStacked ret n = w at stored ⊢
  generalize s.setSp (frameAddress s.sp) = u at stored pointers
  rw [stored, pointers]

theorem partlyStacked_pointers (s : State) (ret : Word) (n : Nat) :
    if s.mode = .thread ∧ s.spsel = true then
      (s.partlyStacked ret n).psp = frameAddress s.sp ∧ (s.partlyStacked ret n).msp = s.msp
    else (s.partlyStacked ret n).msp = frameAddress s.sp ∧ (s.partlyStacked ret n).psp = s.psp := by
  rw [partlyStacked_stored]
  exact setSp_frame s

theorem wordAt_wordAt (a : Word) (m n : Nat) : wordAt (wordAt a m) n = wordAt a (m + n) := by
  unfold wordAt
  rw [BitVec.add_assoc, ← BitVec.ofNat_add, Nat.mul_add]

section
variable {s : State} {ret : Word} {n : Nat}

/-- Where a word of the frame, or the vector, gets a bus error, the entry comes down to its error rule. -/
theorem exceptionEntry_error {e : Exc} (plain : ∀ j, j < n → s.Writable (wordAt (frameAddress s.sp) j) .word .stack)
    (error : (n < 8 ∧ s.BusErrorAt (wordAt (frameAddress s.sp) n) .stack) ∨
      (n = 8 ∧ busError s.platform (4 * e.number.toNat) 4 .vector = true)) :
    exceptionEntry e ret s = entryError e s { s.partlyStacked ret n with lr := s.linkValue } := by
  have length : (s.frameWords ret).length = 8 := rfl
  rcases error with ⟨hn, error⟩ | ⟨rfl, error⟩
  · have error0 : (s.setSp (frameAddress s.sp)).BusErrorAt (wordAt (frameAddress s.sp) n) .stack := by
      simpa [State.BusErrorAt] using error
    obtain ⟨c, stopped⟩ := storeWords_stopped (d := 0) (vs := s.frameWords ret) (hn.trans_eq length.symm)
      (fun j hj => Writable_congr (by simp) (plain j hj)) error0
    simp only [exceptionEntry, stopped, Nat.zero_add]
    rfl
  · have stored : s.partlyStacked ret 8 = s.stacked ret := rfl
    have platform : (s.stacked ret).platform = s.platform := by rw [stacked_eq]
    have all : storeWords .stack (s.frameWords ret) (frameAddress s.sp) 0 (s.setSp (frameAddress s.sp)) = .all (s.stacked ret) :=
      storeWords_plain (frameWords_writable plain)
    have vector : vectorRead { s.stacked ret with lr := s.linkValue } e.vector = none := by
      simp [vectorRead, vector_toNat, platform, error]
    simp only [exceptionEntry, all, vector]
    rw [stored]

/-- Bytes outside the frame stay (60_exceptions.md R427). -/
theorem partlyStacked_outside (wf : s.mem.wf = true) (hn : n ≤ 8) {b : Nat}
    (outside : ∀ j, j < 8 → Outside (wordAt (frameAddress s.sp) j) .word b) :
    (s.partlyStacked ret n).mem.read b = s.mem.read b := by
  have wf0 : (s.setSp (frameAddress s.sp)).mem.wf = true := by simpa using wf
  rw [State.partlyStacked, fillUnknown_outside (storedPlain_wf wf0) fun j hj => ?_, storedPlain_outside wf0 fun j hj => ?_,
    setSp_mem]
  · rw [List.length_take] at hj
    exact outside j (by omega)
  · rw [wordAt_wordAt]
    exact outside (n + j) (by omega)

/-- The words of the frame before the one that got the error are stored (60_exceptions.md R421, R427). -/
theorem partlyStacked_word (wf : s.mem.wf = true) (hn : n ≤ 8)
    (plain : ∀ j, j < n → s.Writable (wordAt (frameAddress s.sp) j) .word .stack) {j : Nat} {v : Word} (hj : j < n)
    (hv : (s.frameWords ret)[j]? = some v) : (s.partlyStacked ret n).wordOf (wordAt (frameAddress s.sp) j) = v := by
  have wf0 : (s.setSp (frameAddress s.sp)).mem.wf = true := by simpa using wf
  have low := (wordAt_toNat fun j hj => (plain j hj).1.2.1) (n - 1) (by omega)
  have address (i : Nat) (hi : i < 8) : (wordAt (frameAddress s.sp) i).toNat = (frameAddress s.sp).toNat + 4 * i := by
    rw [wordAt, BitVec.toNat_add, BitVec.toNat_ofNat]
    omega
  have stored := storedPlain_take_at wf0 (fun j hj => Writable_congr (by simp) (plain j hj)) hj hv
  refine Eq.trans (readWord_congr fun b start stop => ?_) stored
  refine fillUnknown_outside (storedPlain_wf wf0) fun i hi => .inl ?_
  rw [wordAt_wordAt, address _ (by omega)]
  rw [address j (by omega)] at stop
  omega

theorem partlyStacked_frame (wf : s.mem.wf = true) (hn : n ≤ 8)
    (plain : ∀ j, j < n → s.Writable (wordAt (frameAddress s.sp) j) .word .stack) :
    FrameHolds n ret s (s.partlyStacked ret n) := by
  have word {j : Nat} {v : Word} (hv : (s.frameWords ret)[j]? = some v) (hj : j < n) := partlyStacked_word wf hn plain hj hv
  refine ⟨fun h => wordAt_zero (frameAddress s.sp) ▸ word (j := 0) rfl h, word (j := 1) rfl, word (j := 2) rfl, word (j := 3) rfl,
    word (j := 4) rfl, word (j := 5) rfl, word (j := 6) rfl, fun h => ?_⟩
  rw [word (j := 7) (v := s.stackedPsr) rfl h]
  exact stackedPsr_spec s

end

/-- A bus error inside an entry: lockup, or HardFault's handler in place (60_exceptions.md R427). -/
theorem entryError_eq (e : Exc) (s w : State) (same : w.platform = s.platform) :
    entryError e s w =
      if e = .nmi ∨ e = .hardFault ∨ s.active.nmi = true ∨ s.active.hardFault = true ∨ busError s.platform 12 4 .vector = true then
        .next (s.lockedUpInEntry w)
      else .next w.inHardFault := by
  unfold entryError
  simp only [hardFaultInPlace_eq, same, executionPriority_le_neg_one_iff]
  split_ifs <;> tauto

/-- What a bus error in an entry leaves: the first half of O60. -/
theorem entry_busError (s : State) (e : Exc) (ret : Word) (n : Nat) (wf : s.mem.wf = true)
    (plain : ∀ j, j < n → s.Writable (wordAt (frameAddress s.sp) j) .word .stack)
    (error : (n < 8 ∧ s.BusErrorAt (wordAt (frameAddress s.sp) n) .stack) ∨
      (n = 8 ∧ busError s.platform (4 * e.number.toNat) 4 .vector = true)) :
    let stuck := e = .nmi ∨ e = .hardFault ∨ s.active.nmi = true ∨ s.active.hardFault = true ∨
      busError s.platform 12 4 .vector = true
    (stuck → ∃ t, exceptionEntry e ret s = .next t ∧ t = { s with lockup := true, storeTrace := t.storeTrace } ∧
      (s.storeTrace = none → t.storeTrace = none)) ∧
    (¬stuck → ∃ t, exceptionEntry e ret s = .next t ∧ HardFaultContext t ∧ FrameHolds n ret s t ∧
      (∀ b, (∀ j, j < 8 → Outside (wordAt (frameAddress s.sp) j) .word b) → t.mem.read b = s.mem.read b) ∧
      (if s.mode = .thread ∧ s.spsel = true then t.psp = frameAddress s.sp ∧ t.msp = s.msp
        else t.msp = frameAddress s.sp ∧ t.psp = s.psp) ∧
      (t.lr = if s.mode = .handler then 0xFFFFFFF1#32 else if s.spsel then 0xFFFFFFFD#32 else 0xFFFFFFF9#32) ∧
      (∀ f, f ≠ .hardFault → t.pending.get f = s.pending.get f ∧ t.active.get f = s.active.get f) ∧
      t = { s with
        mem := t.mem, msp := t.msp, psp := t.psp, lr := t.lr, ipsr := t.ipsr, spsel := t.spsel
        pending := t.pending, active := t.active, tbit := t.tbit, pc := t.pc
        stale := [], storeTrace := t.storeTrace, freeCount := t.freeCount }) := by
  have hn : n ≤ 8 := by omega
  have eq := partlyStacked_eq s ret n
  have same : (s.partlyStacked ret n).platform = s.platform := by rw [eq]
  have next := (exceptionEntry_error (ret := ret) plain error).trans (entryError_eq e s _ same)
  have frame := partlyStacked_frame (ret := ret) wf hn plain
  have outside (b : Nat) := partlyStacked_outside (ret := ret) wf hn (b := b)
  have pointers := partlyStacked_pointers s ret n
  refine ⟨fun stuck => ?_, fun free => ?_⟩
  · rw [if_pos stuck] at next
    exact ⟨_, next, rfl, fun off => (exceptionEntry_calm next).trace off⟩
  · rw [if_neg free] at next
    generalize s.partlyStacked ret n = w at *
    refine ⟨_, next, inHardFault_context _, frame, outside, pointers, linkValue_eq s, fun f hf => ?_, ?_⟩
    · have others := inHardFault_others { w with lr := s.linkValue } hf
      rw [others.1, others.2]
      rw [eq]
      exact ⟨rfl, rfl⟩
    · rw [eq]
      rfl

/-! ### A bus error in a return -/

/-- What a bus error in a return leaves: the second half of O60. -/
theorem return_busError (s : State) (rm : Reg) (e : Exc) (k : ReturnKind) (n : Nat)
    (handler : s.mode = .handler) (he : Exc.ofNumber s.ipsr = some e) (value : s.readReg rm = k.value)
    (fits : k.fits s.active.count = true) (hn : n < 8)
    (plain : ∀ j, j < n → s.Readable (wordAt (s.returnFrame k) j) .word .unstack)
    (error : s.BusErrorAt (wordAt (s.returnFrame k) n) .unstack) :
    ∃ t, exec (.bx rm) s = .next t ∧
      (k ≠ .threadProcess ∨ busError s.platform 12 4 .vector = true →
        (∀ f, BitsAfterReturn e f s t) ∧ t = { s with active := t.active, pending := t.pending, lockup := true }) ∧
      (k = .threadProcess → busError s.platform 12 4 .vector = false →
        HardFaultContext t ∧ t.lr = 0xFFFFFFFD#32 ∧ (∀ f, f ≠ .hardFault → BitsAfterReturn e f s t) ∧
        t = { s with
          lr := t.lr, ipsr := t.ipsr, spsel := t.spsel, pending := t.pending, active := t.active, tbit := t.tbit
          pc := t.pc, stale := [] }) := by
  have eq := deactivate_eq s e
  have bits := deactivate_bits s e
  have frame := returnFrame_deactivate s e k
  have plainU (j : Nat) (hj : j < n) := Readable_deactivate e (plain j hj)
  have errorU : (s.deactivate e).BusErrorAt (wordAt (s.returnFrame k) n) .unstack := by
    rw [eq]
    exact error
  rw [exec_bx_return (value ▸ isExcReturn_value handler k), value, exceptionReturn_fits (ofValue_value k) he fits]
  generalize s.deactivate e = u at *
  have same : u.platform = s.platform := by rw [eq]
  obtain ⟨c, stopped⟩ := loadWords_stopped hn plainU errorU
  have unstacked : unstack k u = unstackError k u := by
    simp only [unstack, frame, stopped]
  rw [unstacked]
  have lockedUp : (∀ f, BitsAfterReturn e f s u.lockedUp) ∧
      u.lockedUp = { s with active := u.lockedUp.active, pending := u.lockedUp.pending, lockup := true } :=
    ⟨bits, by rw [eq]; rfl⟩
  cases k with
  | handlerMain => exact ⟨u.lockedUp, rfl, fun _ => lockedUp, nofun⟩
  | threadMain => exact ⟨u.lockedUp, rfl, fun _ => lockedUp, nofun⟩
  | threadProcess =>
    have next := hardFaultInPlace_eq u { u with lr := 0xFFFFFFFD#32 }
    change unstackError .threadProcess u = if busError u.platform 12 4 .vector = true then .next u.lockedUp else _ at next
    by_cases vector : busError u.platform 12 4 .vector = true
    · rw [if_pos vector] at next
      rw [same] at vector
      exact ⟨_, next, fun _ => lockedUp, fun _ free => absurd (vector.symm.trans free) (by decide)⟩
    · rw [if_neg vector] at next
      rw [same] at vector
      refine ⟨_, next, fun stuck => absurd (stuck.resolve_left (not_not.mpr rfl)) vector, fun _ _ => ?_⟩
      refine ⟨inHardFault_context _, rfl, fun f hf => ?_, ?_⟩
      · obtain ⟨pending, active⟩ := inHardFault_others { u with lr := 0xFFFFFFFD#32 } hf
        unfold BitsAfterReturn
        rw [pending, active]
        exact bits f
      · rw [eq]
        rfl

/-- Settles O60. -/
theorem busErrorInEntryOrReturn : Obligations.BusErrorInEntryOrReturn := by
  refine ⟨entry_busError, fun s rm e k n handler he value fits hn plain error => ?_⟩
  exact return_busError s rm e k n handler he (value.trans (by cases k <;> rfl)) fits hn plain error

end Sys2Proof.Machine
end
